-- ==== Sys2Proof/Word.lean ====
section
/-!
DEFINITION. The word types of the block: program counters and data addresses are 32-bit vectors
(`PC_W = ADDR_W = 32`, 00_scope.md R7), an instruction is one 32-bit word (30_encoding.md R80), and
handles, register tags and cycle numbers are naturals (R12, R85, R21), and so is a value of a register
class, whose width is a parameter of the configuration (10_state.md R24).
-/

namespace Sys2Proof

/-- A program counter: `PC_W = 32` bits, wrapping (00_scope.md R7, 10_state.md R45). -/
abbrev Pc := BitVec 32

/-- A data address: `ADDR_W = 32` bits, wrapping (20_memory.md R60). -/
abbrev Addr := BitVec 32

/-- A raw instruction word, which the block only carries (30_encoding.md R80). -/
abbrev InsnWord := BitVec 32

/-- One byte of memory. -/
abbrev Byte := BitVec 8

/-- The handle of a micro-op record: an index into the arena (00_scope.md R12). -/
abbrev Handle := Nat

/-- The opaque per-opcode behaviour object a micro-op owns (10_state.md R28). -/
abbrev OpHandle := Nat

/-- The address of the next sequential instruction (30_encoding.md R80). -/
def Pc.next (pc : Pc) : Pc := pc + 4

/-- The address after the next sequential instruction, past a delay slot (42_scheduler.md R168). -/
def Pc.pastDelaySlot (pc : Pc) : Pc := pc + 8

end Sys2Proof
end

