-- ==== Sys2Proof/Syntax.lean ====
section
/-!
DEFINITION. The block's instructions: the decoded micro-op descriptors of 30_encoding.md R81, one
constructor per category of R82 (one row of the opcode table each).
-/

namespace Sys2Proof

/-- An architectural register: a class, as an index into `CLASSES`, and an index in the class
(30_encoding.md R84). -/
structure RegRef where
  cls  : Nat
  arch : Nat
deriving DecidableEq, Repr, Inhabited

/-- The operand fields of a descriptor, in slot order.  `none` is the sentinel `-1`: no operand, or
no destination (00_scope.md R11, 30_encoding.md R84). -/
structure Operands where
  src : List (Option RegRef)
  dst : List (Option RegRef)
deriving DecidableEq, Repr, Inhabited

/-- The micro-op categories (30_encoding.md R82). -/
inductive Category where
  | aluImm | aluReg | branch | jump | load | store | system | fp
deriving DecidableEq, Repr, Inhabited

/-- The functional-unit classes `K` (00_scope.md R7, 30_encoding.md R83). -/
inductive FuClass where
  | alu | fp | jmp | ld | st | sys
deriving DecidableEq, Repr, Inhabited

/-- A decoded micro-op: its category, for the two control-transfer categories the header bit `ds`,
and its operand fields (30_encoding.md R81, R82, R84). -/
inductive Instr where
  | aluImm (o : Operands)
  | aluReg (o : Operands)
  | branch (ds : Bool) (o : Operands)
  | jump (ds : Bool) (o : Operands)
  | load (o : Operands)
  | store (o : Operands)
  | system (o : Operands)
  | fp (o : Operands)
deriving DecidableEq, Repr, Inhabited

end Sys2Proof
end

