-- ==== Sys2Proof/Machine/Uop.lean ====
section
/-!
DEFINITION. The micro-op record of 10_state.md R28 and the records the block hands to its
environment: commit records (41_rob_commit.md R139), recovery events (60_exceptions.md R270) and the
run status with its fatal reports (30_encoding.md R87).
-/

namespace Sys2Proof.Machine

/-- The width of a memory access in bytes: 1, 2, 4 or 8 (20_memory.md R63). -/
inductive MemSize where
  | b1 | b2 | b4 | b8
deriving DecidableEq, Repr, Inhabited

/-- The lifecycle states of a micro-op (10_state.md R29, 30_encoding.md R88). -/
inductive Lifecycle where
  | fetched | decoded | allocated | executed | complete | retired | rolledBack | flushed
deriving DecidableEq, Repr, Inhabited

/-- A renamed source slot `(cls, arch, phys)` (10_state.md R28). -/
structure SrcSlot where
  cls  : Nat
  arch : Nat
  phys : Nat
deriving DecidableEq, Repr, Inhabited

/-- A renamed destination slot `(cls, arch, new, prev)` (10_state.md R28).  The field `fresh` is the
spec's `new`. -/
structure DstSlot where
  cls   : Nat
  arch  : Nat
  fresh : Nat
  prev  : Nat
deriving DecidableEq, Repr, Inhabited

/-- The micro-op record `U[h]` (10_state.md R28).  A timestamp is `none` until the stage that owns
it writes it; a slot is `none` for the sentinel `-1`.  The field `fu` of R28 is derived from `cat`
and is computed (`Uop.fu`). -/
structure Uop where
  pc            : Pc
  insn          : InsnWord
  op            : OpHandle
  /-- `none` until decode. -/
  cat           : Option Category
  hasDs         : Bool
  src           : List (Option SrcSlot)
  dst           : List (Option DstSlot)
  seq           : Nat
  predTaken     : Bool
  predTarget    : Pc
  tFetch        : Option Nat
  tDecode       : Option Nat
  tAlloc        : Option Nat
  tReady        : Option Nat
  tExec         : Option Nat
  tDue          : Option Nat
  tComplete     : Option Nat
  tRetire       : Option Nat
  executed      : Bool
  complete      : Bool
  mispredict    : Bool
  loadViolation : Bool
  redirectPc    : Pc
  unmodelled    : Bool
  maddr         : Addr
  msize         : MemSize
  mdata         : BitVec 64
  station       : Option (FuClass × Nat)
  state         : Lifecycle
deriving DecidableEq, Repr, Inhabited

/-- What an Operation computes from: its handle, its instruction and its operand registers by name
(42_scheduler.md R165).  No timestamp, age, tag, prediction or flag of the record is in it, since the
results of a micro-op depend on none of them (10_state.md R49, 60_exceptions.md R287,
70_reset_and_hazards.md R308). -/
structure OpView where
  op       : OpHandle
  pc       : Pc
  insn     : InsnWord
  cat      : Option Category
  hasDs    : Bool
  operands : Operands
deriving DecidableEq, Repr, Inhabited

/-- One register of a commit record: `(d.cls, d.arch, value)` (41_rob_commit.md R139). -/
structure CommitReg where
  cls   : Nat
  arch  : Nat
  value : Nat
deriving DecidableEq, Repr, Inhabited

/-- The store write of a commit record (41_rob_commit.md R139). -/
structure StoreWrite where
  addr : Addr
  size : MemSize
  data : BitVec 64
deriving DecidableEq, Repr, Inhabited

/-- What retire hands to the oracle interface (41_rob_commit.md R139). -/
structure CommitRecord where
  pc    : Pc
  insn  : InsnWord
  regs  : List CommitReg
  store : Option StoreWrite
deriving DecidableEq, Repr, Inhabited

/-- The speculative exception kinds that can be reported (30_encoding.md R86). -/
inductive ExcKind where
  | branchMispredict | loadOrder
deriving DecidableEq, Repr, Inhabited

/-- A recovery event: the kind, the pc of the micro-op that carried it, the recovery target, the
cycle and the number of entries undone (60_exceptions.md R270). -/
structure RecoveryEvent where
  kind   : ExcKind
  pc     : Pc
  target : Pc
  cycle  : Nat
  undone : Nat
deriving DecidableEq, Repr, Inhabited

/-- What the block hands to its environment, in order: the call of an Operation's retire method
(41_rob_commit.md R138), a commit record (R139), a recovery event (60_exceptions.md R270), and the
final record of a micro-op that leaves the block, the trace of R287. -/
inductive EnvEvent where
  | hook (u : Uop)
  | commit (r : CommitRecord)
  | recovery (e : RecoveryEvent)
  | left (u : Uop)
deriving DecidableEq, Repr

/-- The fatal events with their reports (30_encoding.md R87, 60_exceptions.md R273 to R278). -/
inductive Fatal where
  | decodeUnrecognized (pc : Pc) (insn : InsnWord)
  | oracleMismatch (pc : Pc) (insn : InsnWord) (lastMatch : Option CommitRecord)
  | watchdog (cycle lastRetire : Nat)
  | unmodelled (pc : Pc) (insn : InsnWord)
  | ctiInDelaySlot (pc : Pc)
  | badDescriptor (pc : Pc) (insn : InsnWord)
deriving DecidableEq, Repr

/-- The run status (10_state.md R37, 30_encoding.md R87). -/
inductive Status where
  | running
  | terminated
  | fatal (f : Fatal)
deriving DecidableEq, Repr

/-- The retire stage's sub-state (10_state.md R36). -/
inductive RState where
  | run | awaitSucc | unwind
deriving DecidableEq, Repr, Inhabited

/-- The call of the Operation contract that the step makes of a micro-op (00_scope.md R5,
45_uop_categories.md R258): `allocate` of the head of the decode queue, `execute` and `complete` of
a named micro-op, `retire` of the head of the ROB, `rollback` of the youngest entry of the ROB. -/
inductive Method where
  | allocate
  | execute (h : Handle)
  | complete (h : Handle)
  | retire
  | rollback
deriving DecidableEq, Repr

end Sys2Proof.Machine
end

