-- ==== Sys2Proof/Config.lean ====
section
/-!
DEFINITION. The configuration parameters of 00_scope.md R7 as plain data, the admission check of
R8, the instance a reset uses, and the environment functions of R5 as constants without a body: the
block gets their results and nothing can be proved about the values.
-/

namespace Sys2Proof

open Sys2Proof.Machine

/-- The parameters of one register class: `NA`, `NP`, `ZR`, `VW` (00_scope.md R7). -/
structure ClassCfg where
  na : Nat
  np : Nat
  zr : Option Nat
  vw : Nat
deriving DecidableEq, Repr, Inhabited

/-- The parameters of one station: `RS_CAP[k][i]` and `ISSUE_W[k][i]` (00_scope.md R7). -/
structure PortCfg where
  cap   : Nat
  width : Nat
deriving DecidableEq, Repr, Inhabited

/-- `ISSUE_ORDER` (00_scope.md R7, 42_scheduler.md R166). -/
inductive IssueOrder where
  | newestFirst | oldestFirst
deriving DecidableEq, Repr, Inhabited

/-- `ENDIAN` (00_scope.md R7, 20_memory.md R61). -/
inductive Endian where
  | big | little
deriving DecidableEq, Repr, Inhabited

/-- The implementation parameters (00_scope.md R7), and whether the optional oracle check is
present (41_rob_commit.md R139).  `ports` is indexed by the class codes of 30_encoding.md R83. -/
structure Config where
  classes     : List ClassCfg
  maxSrc      : Nat
  maxDst      : Nat
  robN        : Nat
  ports       : List (List PortCfg)
  issueOrder  : IssueOrder
  minReadyLat : Nat
  fetchW      : Nat
  decodeW     : Nat
  allocW      : Nat
  retireW     : Nat
  fqN         : Nat
  dqN         : Nat
  lqN         : Nat
  sqN         : Nat
  watchdogN   : Nat
  /-- `none` is "unbounded". -/
  maxInsns    : Option Nat
  endian      : Endian
  oracle      : Bool
deriving DecidableEq, Repr, Inhabited

namespace Config

/-- The constraints on a register class (00_scope.md R7). -/
def classOk (c : ClassCfg) : Bool :=
  decide (1 ≤ c.na) && decide (c.na ≤ c.np) && decide (1 ≤ c.vw) && c.zr.all (fun z => decide (z < c.na))

/-- The constraints on the stations of a functional-unit class (00_scope.md R7). -/
def portsOk (ps : List PortCfg) : Bool :=
  !ps.isEmpty && ps.all (fun p => decide (1 ≤ p.cap) && decide (1 ≤ p.width))

/-- Configuration well-formedness: every constraint of R7 holds (00_scope.md R8).  `NP = NA` and
`ROB_N = 1` are admitted. -/
def admitted (c : Config) : Bool :=
  [!c.classes.isEmpty, c.classes.all classOk,
    decide (1 ≤ c.maxSrc), decide (1 ≤ c.maxDst), decide (1 ≤ c.robN),
    decide (c.ports.length = 6), c.ports.all portsOk,
    decide (1 ≤ c.fetchW), decide (1 ≤ c.decodeW), decide (1 ≤ c.allocW), decide (1 ≤ c.retireW),
    decide (1 ≤ c.fqN), decide (1 ≤ c.dqN), decide (1 ≤ c.lqN), decide (1 ≤ c.sqN),
    decide (1 ≤ c.watchdogN), c.maxInsns.all (fun m => decide (1 ≤ m))].all id

/-- The number of arena slots, `FQ_N + DQ_N + ROB_N` (44_cycle.md R222). -/
def arenaN (c : Config) : Nat := c.fqN + c.dqN + c.robN

/-- The instance a reset uses.  `CLASSES`, `NA`, `ZR`, `MAX_SRC`, `MAX_DST`, `ISSUE_ORDER`,
`MIN_READY_LAT` and the absent oracle are the spec's defaults (00_scope.md R7, D44); every other
value is OPEN there and is taken from the test configuration `T0` of 95_test_vectors.md or, for
`NP` and `VW` of the further classes and `ENDIAN`, picked.  DESIGN CHOICE, unsafe: log entry 2.  No
statement about every state rests on it, since a state carries its own configuration. -/
def atReset : Config where
  classes := [⟨32, 40, some 0, 32⟩, ⟨32, 40, none, 32⟩, ⟨5, 13, none, 32⟩, ⟨2, 10, none, 32⟩]
  maxSrc := 3
  maxDst := 1
  robN := 8
  ports := [[⟨2, 1⟩, ⟨2, 1⟩], [⟨2, 1⟩], [⟨2, 1⟩], [⟨2, 1⟩], [⟨2, 1⟩], [⟨2, 1⟩]]
  issueOrder := .newestFirst
  minReadyLat := 0
  fetchW := 2
  decodeW := 2
  allocW := 2
  retireW := 2
  fqN := 4
  dqN := 4
  lqN := 4
  sqN := 4
  watchdogN := 100
  maxInsns := none
  endian := .big
  oracle := false

end Config

/-- What the external decoder returns for a recognised word: the Operation handle and the descriptor
bits, the header byte lowest (30_encoding.md R81). -/
structure Descriptor where
  op   : OpHandle
  bits : Nat
deriving DecidableEq, Repr, Inhabited

/-- The result of `PreDecode` (00_scope.md R5). -/
structure PreDecoded where
  isCti : Bool
  hasDs : Bool
deriving DecidableEq, Repr, Inhabited

/-- The result of `Predict` (00_scope.md R5). -/
structure Prediction where
  taken  : Bool
  target : Pc
deriving DecidableEq, Repr, Inhabited

/-- `ExecResult` (42_scheduler.md R165).  `value j loaded` is the value of destination slot `j`; a
load's value is computed from `loaded`, what `MemRead(addr, size)` returned.  No other field may depend
on `loaded`, `unmodelled` among them, where R165 and 20_memory.md R62 leave it open.  DESIGN CHOICE,
unsafe: log entry 24. -/
structure ExecResult where
  value      : Nat → BitVec 64 → Nat
  nextPc     : Pc
  addr       : Addr
  size       : MemSize
  data       : BitVec 64
  unmodelled : Bool
deriving Inhabited

/-- `Decode(word)`; `none` is `Unrecognized` (00_scope.md R5, 30_encoding.md R81). -/
opaque Config.decode : InsnWord → Option Descriptor

/-- `PreDecode(word)` (00_scope.md R5). -/
opaque Config.preDecode : InsnWord → PreDecoded

/-- `Predict(pc)` (00_scope.md R5).  The predictor has a history outside the block (R223, D42), so
the number of the call is an argument: two calls for one pc may differ. -/
opaque Config.predict : Nat → Pc → Prediction

/-- The prediction fields of a micro-op for which fetch consults no predictor: R222 writes nothing
there, so they are a free value (log entry 8). -/
opaque Config.unsetPrediction : Nat → Prediction

/-- `Exec(u, srcvals)`, the Operation's functional computation (00_scope.md R5, 42_scheduler.md
R165), of what `OpView` shows of the micro-op. -/
opaque Config.exec : OpView → List Nat → ExecResult

/-- `Lat(u)`, the operation latency, for a load with the memory hierarchy's (00_scope.md R5). -/
opaque Config.lat : Uop → Nat

/-- Whether an Operation is a load-reserved, store-conditional or atomic read-modify-write
(30_encoding.md R89, 20_memory.md R71). -/
opaque Config.isAtomic : OpHandle → Bool

/-- `OracleCheck(commit_record)`: the check of the `n`-th retirement (41_rob_commit.md R139). -/
opaque Config.oracleOk : Nat → CommitRecord → Bool

end Sys2Proof
end

