-- ==== Sys2Proof/WellFormed.lean ====
section
/-!
DEFINITION. When a decoded micro-op is well formed under a configuration: the operand checks of
30_encoding.md R89, each with the name of the check that fails.  The checks of R89 that need the raw
header bits, the pre-decoder or the Operation stand in Decode.lean.
-/

namespace Sys2Proof

/-- The checks of 30_encoding.md R89, one name each.  Every one of them is reported by the decode
stage as `Fatal(BAD_DESCRIPTOR, pc, insn)`; none of them is a fault of the model. -/
inductive DescError where
  /-- `cat` in `1000`-`1111`. -/
  | reservedCategory
  /-- `H[7:5]` is not `000`. -/
  | reservedHeaderBits
  /-- `ds = 1` with a category other than `BRANCH` or `JUMP`. -/
  | dsOnNonCti
  /-- `ds` differs from `PreDecode(insn).has_ds`. -/
  | dsMismatch
  /-- Not `MAX_SRC` source slots and `MAX_DST` destination slots: no descriptor has this form. -/
  | slotCount
  /-- An operand with `cls >= len(CLASSES)` or `arch >= NA[cls]`. -/
  | operandOutOfRange
  /-- A destination that names `ZR[cls]`. -/
  | destinationWiredZero
  /-- Two destination slots that name the same register. -/
  | duplicateDestination
  /-- An Operation that is a load-reserved, store-conditional or atomic read-modify-write. -/
  | atomicOperation
deriving DecidableEq, Repr

/-- The register exists: `cls < len(CLASSES)` and `arch < NA[cls]`. -/
def RegRef.inRange (cfg : Config) (r : RegRef) : Bool :=
  match cfg.classes[r.cls]? with
  | some c => decide (r.arch < c.na)
  | none => false

/-- The register is the wired-zero register of its class. -/
def RegRef.isWiredZero (cfg : Config) (r : RegRef) : Bool :=
  match cfg.classes[r.cls]? with
  | some c => decide (c.zr = some r.arch)
  | none => false

namespace Operands

/-- The registers a list of operand fields names, absent slots left out. -/
def present (fields : List (Option RegRef)) : List RegRef := fields.filterMap id

/-- There are `MAX_SRC` source and `MAX_DST` destination slots (30_encoding.md R81). -/
def slotsOk (cfg : Config) (o : Operands) : Bool :=
  decide (o.src.length = cfg.maxSrc) && decide (o.dst.length = cfg.maxDst)

/-- Every operand present names a register that exists. -/
def rangesOk (cfg : Config) (o : Operands) : Bool :=
  (present o.src).all (RegRef.inRange cfg) && (present o.dst).all (RegRef.inRange cfg)

/-- No destination names a wired-zero register. -/
def noWiredZero (cfg : Config) (o : Operands) : Bool :=
  (present o.dst).all (fun r => !r.isWiredZero cfg)

/-- No two destination slots name the same register. -/
def destsDistinct (o : Operands) : Bool := decide (present o.dst).Nodup

/-- The first operand check of 30_encoding.md R89 that fails, if any. -/
def check (cfg : Config) (o : Operands) : Option DescError :=
  if !o.slotsOk cfg then some .slotCount
  else if !o.rangesOk cfg then some .operandOutOfRange
  else if !o.noWiredZero cfg then some .destinationWiredZero
  else if !o.destsDistinct then some .duplicateDestination
  else none

/-- All operand checks of 30_encoding.md R89 pass. -/
def wellFormed (cfg : Config) (o : Operands) : Bool :=
  o.slotsOk cfg && o.rangesOk cfg && o.noWiredZero cfg && o.destsDistinct

end Operands

/-- The operand fields of a micro-op. -/
def Instr.operands : Instr → Operands
  | .aluImm o => o
  | .aluReg o => o
  | .branch _ o => o
  | .jump _ o => o
  | .load o => o
  | .store o => o
  | .system o => o
  | .fp o => o

/-- A micro-op is well formed when its operand fields are (30_encoding.md R89). -/
def Instr.wellFormed (cfg : Config) (i : Instr) : Bool := i.operands.wellFormed cfg

end Sys2Proof
end

