-- ==== Sys2Proof/Decode.lean ====
section
/-!
DEFINITION. The codes of 30_encoding.md R82 to R88, the decoder of a micro-op descriptor (R81, R84),
total on every bit string and rejecting by name (R89), the decode-stage check that also consults the
pre-decoder and the Operation, and after them the encoder.

The bits of a descriptor are numbered from the header's bit 0.  The spec gives the header layout and
the order of the parts of an operand field; that the source fields follow the header in slot order
and the destination fields follow them is log entry 7.
-/

namespace Sys2Proof

open Sys2Proof.Machine

/-! ## Codes -/

/-- The category codes `H[3:0]` (30_encoding.md R82). -/
def Category.code : Category → Nat
  | .aluImm => 0
  | .aluReg => 1
  | .branch => 2
  | .jump => 3
  | .load => 4
  | .store => 5
  | .system => 6
  | .fp => 7

/-- The category of a code; codes `1000` to `1111` are reserved (30_encoding.md R82). -/
def Category.ofCode : Nat → Option Category
  | 0 => some .aluImm
  | 1 => some .aluReg
  | 2 => some .branch
  | 3 => some .jump
  | 4 => some .load
  | 5 => some .store
  | 6 => some .system
  | 7 => some .fp
  | _ => none

/-- The functional-unit class each category is scheduled on (30_encoding.md R82). -/
def Category.fu : Category → FuClass
  | .aluImm => .alu
  | .aluReg => .alu
  | .branch => .jmp
  | .jump => .jmp
  | .load => .ld
  | .store => .st
  | .system => .sys
  | .fp => .fp

/-- The control-transfer categories (00_scope.md glossary, CTI). -/
def Category.isCti : Category → Bool
  | .branch => true
  | .jump => true
  | _ => false

/-- Functional-unit class codes (30_encoding.md R83). -/
def FuClass.code : FuClass → Nat
  | .alu => 0
  | .fp => 1
  | .jmp => 2
  | .ld => 3
  | .st => 4
  | .sys => 5

/-- The classes in the order of their codes, the order the execute sub-step visits them
(30_encoding.md R83, 42_scheduler.md R162). -/
def FuClass.all : List FuClass := [.alu, .fp, .jmp, .ld, .st, .sys]

/-- The exception kind codes, `NONE` being the absence of an event (30_encoding.md R86). -/
def Machine.ExcKind.code : Option ExcKind → Nat
  | none => 0
  | some .branchMispredict => 1
  | some .loadOrder => 2

/-- The code of a fatal event (30_encoding.md R87). -/
def Machine.Fatal.code : Fatal → Nat
  | .decodeUnrecognized _ _ => 1
  | .oracleMismatch _ _ _ => 2
  | .watchdog _ _ => 3
  | .unmodelled _ _ => 4
  | .ctiInDelaySlot _ => 5
  | .badDescriptor _ _ => 6

/-- The run status codes (30_encoding.md R87): `RUNNING` 0, `TERMINATED` 1, and `FATAL` with its code.
R87 numbers neither `FATAL` itself nor a second part of the other two: the 2 and the 0s are the
model's.  DESIGN CHOICE, safe (a label that no rule of the block and no statement reads): log entry
23. -/
def Machine.Status.code : Status → Nat × Nat
  | .running => (0, 0)
  | .terminated => (1, 0)
  | .fatal f => (2, f.code)

/-- The lifecycle state codes (30_encoding.md R88). -/
def Machine.Lifecycle.code : Lifecycle → Nat
  | .fetched => 0
  | .decoded => 1
  | .allocated => 2
  | .executed => 3
  | .complete => 4
  | .retired => 5
  | .rolledBack => 6
  | .flushed => 7

/-- The number of bytes of an access (20_memory.md R63). -/
def Machine.MemSize.bytes : MemSize → Nat
  | .b1 => 1
  | .b2 => 2
  | .b4 => 4
  | .b8 => 8

/-! ## The parts of a micro-op -/

/-- The category of a micro-op. -/
def Instr.category : Instr → Category
  | .aluImm _ => .aluImm
  | .aluReg _ => .aluReg
  | .branch _ _ => .branch
  | .jump _ _ => .jump
  | .load _ => .load
  | .store _ => .store
  | .system _ => .system
  | .fp _ => .fp

/-- The header bit `ds`, 1 only for `BRANCH` and `JUMP` (30_encoding.md R81). -/
def Instr.ds : Instr → Bool
  | .branch ds _ => ds
  | .jump ds _ => ds
  | _ => false

/-- The micro-op with these parts; `ds` matters to the two control-transfer categories only. -/
def Instr.ofParts (c : Category) (ds : Bool) (o : Operands) : Instr :=
  match c with
  | .aluImm => .aluImm o
  | .aluReg => .aluReg o
  | .branch => .branch ds o
  | .jump => .jump ds o
  | .load => .load o
  | .store => .store o
  | .system => .system o
  | .fp => .fp o

/-! ## Field widths -/

/-- `ceil(log2(n))` for `n >= 1`: 0 bits name one thing (30_encoding.md R84). -/
def bitsFor (n : Nat) : Nat := if n ≤ 1 then 0 else Nat.log2 (n - 1) + 1

/-- The largest `NA[c]`. -/
def Config.maxNa (cfg : Config) : Nat := (cfg.classes.map ClassCfg.na).foldl max 0

/-- The width of `cls`, `ceil(log2(len(CLASSES)))` bits (30_encoding.md R84). -/
def Config.clsW (cfg : Config) : Nat := bitsFor cfg.classes.length

/-- The width of `arch`, `ceil(log2(max_c NA[c]))` bits (30_encoding.md R84). -/
def Config.archW (cfg : Config) : Nat := bitsFor cfg.maxNa

/-- The width of an operand field, one bit for `present` (30_encoding.md R84). -/
def Config.fieldW (cfg : Config) : Nat := 1 + cfg.clsW + cfg.archW

/-- The width of a physical-register tag of class `c`, at least 1 bit (30_encoding.md R85). -/
def ClassCfg.tagW (c : ClassCfg) : Nat := max 1 (bitsFor c.np)

/-! ## Parameters by index -/

/-- The parameters of class `c` (00_scope.md R7). -/
def Config.cls (cfg : Config) (c : Nat) : ClassCfg := cfg.classes.getD c ⟨0, 0, none, 0⟩

/-- `NA[c]` (00_scope.md R7). -/
def Config.na (cfg : Config) (c : Nat) : Nat := (cfg.cls c).na

/-- `NP[c]` (00_scope.md R7). -/
def Config.np (cfg : Config) (c : Nat) : Nat := (cfg.cls c).np

/-- `ZR[c]` (00_scope.md R7). -/
def Config.zr (cfg : Config) (c : Nat) : Option Nat := (cfg.cls c).zr

/-- `VW[c]` (00_scope.md R7). -/
def Config.vw (cfg : Config) (c : Nat) : Nat := (cfg.cls c).vw

/-- `NS[k]` (00_scope.md R7). -/
def Config.ns (cfg : Config) (k : FuClass) : Nat := (cfg.ports.getD k.code []).length

/-- The parameters of station `i` of class `k` (00_scope.md R7). -/
def Config.port (cfg : Config) (k : FuClass) (i : Nat) : PortCfg :=
  (cfg.ports.getD k.code []).getD i ⟨0, 0⟩

/-- The stations in the order the execute sub-step visits them (42_scheduler.md R162). -/
def Config.stations (cfg : Config) : List (FuClass × Nat) :=
  FuClass.all.flatMap fun k => (List.range (cfg.ns k)).map fun i => (k, i)

/-! ## The decoder -/

/-- The header byte: the category and `ds`, or the first of R89's header checks that fails
(30_encoding.md R81, R82, R89). -/
def decodeHeader (h : Nat) : Except DescError (Category × Bool) :=
  match Category.ofCode (h % 16) with
  | none => .error .reservedCategory
  | some c =>
    if h / 32 % 8 ≠ 0 then .error .reservedHeaderBits
    else if h / 16 % 2 = 1 ∧ c.isCti = false then .error .dsOnNonCti
    else .ok (c, decide (h / 16 % 2 = 1))

/-- One operand field `present, cls, arch`, `arch` in the low bits; with `present = 0` the rest is
ignored (30_encoding.md R84). -/
def decodeField (cfg : Config) (f : Nat) : Option RegRef :=
  if f / 2 ^ (cfg.clsW + cfg.archW) % 2 = 1 then
    some ⟨f / 2 ^ cfg.archW % 2 ^ cfg.clsW, f % 2 ^ cfg.archW⟩
  else none

/-- `n` operand fields, slot 0 in the lowest bits. -/
def decodeFields (cfg : Config) : Nat → Nat → List (Option RegRef)
  | 0, _ => []
  | n + 1, bits => decodeField cfg bits :: decodeFields cfg n (bits / 2 ^ cfg.fieldW)

/-- The operand fields of a descriptor: sources above the header, destinations above the sources. -/
def decodeOperands (cfg : Config) (bits : Nat) : Operands where
  src := decodeFields cfg cfg.maxSrc (bits / 256)
  dst := decodeFields cfg cfg.maxDst (bits / 256 / 2 ^ (cfg.fieldW * cfg.maxSrc))

/-- The decoder of a micro-op descriptor (30_encoding.md R81 to R84, R89).  Total: any bits are
either a well-formed micro-op or are rejected by name. -/
def decode (cfg : Config) (bits : Nat) : Except DescError Instr :=
  match decodeHeader (bits % 256) with
  | .error e => .error e
  | .ok (c, ds) =>
    match (decodeOperands cfg bits).check cfg with
    | some e => .error e
    | none => .ok (Instr.ofParts c ds (decodeOperands cfg bits))

/-- `WellFormed(d, h)` of the decode stage: the decoder's checks, then `ds` against the pre-decoded
`has_ds`, then the Operation (30_encoding.md R89, 44_cycle.md R224).  An atomic is refused in every
category, as 20_memory.md R71 asks; R89 gives the event for a load or store, and that it is the same in
the other categories is the model's.  DESIGN CHOICE, unsafe: log entry 25. -/
def checkDescriptor (cfg : Config) (hasDs atomic : Bool) (bits : Nat) : Except DescError Instr :=
  match decode cfg bits with
  | .error e => .error e
  | .ok i =>
    if i.ds ≠ hasDs then .error .dsMismatch
    else if atomic then .error .atomicOperation
    else .ok i

/-! ## The encoder -/

/-- The header byte `{000, ds, cat}` (30_encoding.md R81). -/
def encodeHeader (i : Instr) : Nat := i.category.code + (if i.ds then 16 else 0)

/-- One operand field `{present, cls, arch}` (30_encoding.md R84); an absent operand is all zeros. -/
def encodeField (cfg : Config) : Option RegRef → Nat
  | none => 0
  | some r => r.arch + 2 ^ cfg.archW * r.cls + 2 ^ (cfg.clsW + cfg.archW)

/-- Operand fields in slot order, slot 0 in the lowest bits. -/
def encodeFields (cfg : Config) : List (Option RegRef) → Nat
  | [] => 0
  | f :: fs => encodeField cfg f + 2 ^ cfg.fieldW * encodeFields cfg fs

/-- The descriptor bits of a micro-op (30_encoding.md R81, R84). -/
def encode (cfg : Config) (i : Instr) : Nat :=
  encodeHeader i + 256 *
    (encodeFields cfg i.operands.src +
      2 ^ (cfg.fieldW * cfg.maxSrc) * encodeFields cfg i.operands.dst)

/-! ## The host's reading of a table row -/

/-- The instruction the decoder reads from a descriptor whose low `nbits` bits are `w` and whose
higher bits are 0, under the configuration a reset uses; `none` where the decoder refuses. -/
def decodeTableWord (nbits w : Nat) : Option Instr :=
  match decode Config.atReset (w % 2 ^ nbits) with
  | .ok i => some i
  | .error _ => none

end Sys2Proof
end

