-- ==== Sys2Proof/Machine/State.lean ====
section
/-!
DEFINITION. The state record of 10_state.md R20 as plain data, the reasons a step can stop, and the
machine right after reset (R48, 70_reset_and_hazards.md R300).
-/

namespace Sys2Proof.Machine

/-- Memory contents: address and byte pairs in one canonical form (`Memory.wf` in Machine/Ops.lean),
read through `memByte` only.  An unlisted address reads as 0 (log entry 4). -/
abbrev Memory := List Host.Cell

/-- The state of the block (10_state.md R20), its memory (20_memory.md R60), and the model's own
fields: `cfg`, `log`, `lastMatch`, `predictCalls` and `method`. -/
structure State where
  /-- The configuration, supplied once and immutable for the run (00_scope.md R7; log entry 1). -/
  cfg : Config
  /-- The clock (10_state.md R21). -/
  cycle : Nat
  /-- `RAT[c][a]` (10_state.md R23). -/
  rat : List (List Nat)
  /-- `PRF[c][p]` (10_state.md R24). -/
  prf : List (List Nat)
  /-- `FREE[c][p]` (10_state.md R25). -/
  free : List (List Bool)
  /-- `VALID[c][p]` (10_state.md R26). -/
  valid : List (List Bool)
  /-- The micro-op arena, `none` a free slot (00_scope.md R12, 10_state.md R28). -/
  arena : List (Option Uop)
  /-- The slots of the ROB (10_state.md R30). -/
  robSlots : List Handle
  /-- `rob_head` (10_state.md R30). -/
  robHead : Nat
  /-- `rob_tail` (10_state.md R30). -/
  robTail : Nat
  /-- `rob_count` (10_state.md R30). -/
  robCount : Nat
  /-- `RS[k][i]`, `k` by its class code, each list newest first (10_state.md R31). -/
  rs : List (List (List Handle))
  /-- `RR[k]` (10_state.md R32). -/
  rr : List Nat
  /-- The load table (10_state.md R33). -/
  lq : List Handle
  /-- The store table (10_state.md R33). -/
  sq : List Handle
  /-- The fetch queue (10_state.md R34). -/
  fq : List Handle
  /-- The decode queue (10_state.md R34). -/
  dq : List Handle
  /-- The address of the next fetch (10_state.md R35). -/
  fetchPc : Pc
  /-- The target of a taken-predicted transfer whose delay slot is not yet fetched (10_state.md R35). -/
  pendingTarget : Option Pc
  /-- Recovery mode (10_state.md R36). -/
  recovery : Bool
  /-- The retire stage's sub-state (10_state.md R36). -/
  rstate : RState
  /-- The recovery target held during an unwind (10_state.md R36). -/
  redirectPending : Option Pc
  /-- The run status (10_state.md R37). -/
  status : Status
  /-- Micro-ops retired (10_state.md R37). -/
  retiredCount : Nat
  /-- The cycle of the last retirement (10_state.md R37). -/
  lastRetireCycle : Nat
  /-- The sequence counter (10_state.md R38). -/
  seqNext : Nat
  /-- The memory behind the interface of 20_memory.md R60. -/
  mem : Memory
  /-- What the block has handed to its environment, oldest first (log entry 5). -/
  log : List EnvEvent
  /-- The last commit record that matched the oracle (60_exceptions.md R274). -/
  lastMatch : Option CommitRecord
  /-- The number of calls of the predictor so far, the argument of its free answers (log entry 8). -/
  predictCalls : Nat
  /-- The Operation method the step asks of the micro-op it dispatches; `allocate` between sub-steps
  (log entry 6). -/
  method : Method
deriving DecidableEq, Repr

/-- The reasons a step stops.  Each is the model's own and is raised only in states no run reaches. -/
inductive Fault where
  /-- A stage read a micro-op record through a dead handle, "a fault of the model, not a behaviour"
  (00_scope.md R12).  Raised by every operation that reads a record.  Safe. -/
  | deadHandle (h : Handle)
  /-- A stage met a micro-op past decode whose record holds no category.  Raised by the stages that
  dispatch a micro-op.  Safe. -/
  | undecoded (h : Handle)
  /-- A method was called with no micro-op to act on: `allocate` with an empty decode queue, `retire`
  or `rollback` with an empty ROB.  Raised by the meanings; the step never calls them so.  Safe. -/
  | noMicroOp
deriving DecidableEq, Repr

/-- The reasons for which a step has no meaning. -/
inductive Refusal where
  /-- An instruction without a meaning yet; raised by no arm of `exec`.  Safe. -/
  | notModelled (mnemonic : String)
  /-- A configuration that breaks a constraint of 00_scope.md R7, which R8 refuses before reset.
  Raised by `step` alone.  Safe. -/
  | configRefused
  /-- The micro-op at `pc` reaches commit although memory no longer holds the word it was fetched as:
  the program stored to an instruction already fetched, which 20_memory.md R72 and
  70_reset_and_hazards.md R304 put outside the admitted programs, so that it has no meaning
  (93_implementation_defined.md section 1).  Raised by the retire method.  Safe. -/
  | staleWord (pc : Pc)
deriving DecidableEq, Repr

/-- The outcome of a step or of a meaning. -/
abbrev Out := Host.Outcome State Fault Refusal

/-- What the program loader supplies: the entry pc, the initial value of every architectural
register by class, and the memory image (70_reset_and_hazards.md R300). -/
structure LoaderImage where
  entry : Pc
  regs  : List (List Nat)
  mem   : Memory
deriving DecidableEq, Repr

/-- The loader that supplies nothing: entry 0, every register 0, no memory listed.  DESIGN CHOICE,
unsafe: log entry 3. -/
def LoaderImage.empty : LoaderImage := ⟨0, [], []⟩

/-- The initial physical register file of a class: the loader's values in `p < NA`, 0 in the
wired-zero register, and 0 where the spec leaves the value open (10_state.md R48; log entry 3). -/
def initialPrf (c : ClassCfg) (regs : List Nat) : List Nat :=
  (List.range c.np).map fun p =>
    if p < c.na ∧ c.zr ≠ some p then regs.getD p 0 % 2 ^ c.vw else 0

/-- The initial register files of the classes, with the loader's values taken in class order. -/
def initialPrfs : List ClassCfg → List (List Nat) → List (List Nat)
  | [], _ => []
  | c :: cs, regs => initialPrf c (regs.headD []) :: initialPrfs cs regs.tail

/-- The machine right after a reset with this configuration and loader (10_state.md R48). -/
def State.resetWith (cfg : Config) (img : LoaderImage) : State where
  cfg := cfg
  cycle := 0
  rat := cfg.classes.map fun c => List.range c.na
  prf := initialPrfs cfg.classes img.regs
  free := cfg.classes.map fun c => (List.range c.np).map fun p => decide (c.na ≤ p)
  valid := cfg.classes.map fun c => (List.range c.np).map fun p => decide (p < c.na)
  arena := List.replicate cfg.arenaN none
  robSlots := List.replicate cfg.robN 0
  robHead := 0
  robTail := 0
  robCount := 0
  rs := cfg.ports.map fun ps => ps.map fun _ => []
  rr := cfg.ports.map fun _ => 0
  lq := []
  sq := []
  fq := []
  dq := []
  fetchPc := img.entry
  pendingTarget := none
  recovery := false
  rstate := .run
  redirectPending := none
  status := .running
  retiredCount := 0
  lastRetireCycle := 0
  seqNext := 0
  mem := img.mem
  log := []
  lastMatch := none
  predictCalls := 0
  method := .allocate

/-- The machine right after reset, with the configuration and the loader the model names (10_state.md
R48; log entries 2 and 3). -/
def State.reset : State := State.resetWith Config.atReset LoaderImage.empty

end Sys2Proof.Machine
end

