-- ==== Sys2Proof/Machine/Ops.lean ====
section
/-!
DEFINITION. The named operations over memory, the rename arrays, the arena, the ROB, the stations
and the load and store tables; raising a fatal event; taking a speculative exception (entering
recovery) and the return from it.
-/

namespace Sys2Proof.Machine

/-! ## Outcomes -/

/-- Go on with the next state; a fault or a refusal ends the sub-step. -/
def andThen (o : Out) (f : State → Out) : Out :=
  match o with
  | .next s => f s
  | .fault r => .fault r
  | .refused r => .refused r

/-- Do `f` for every element in turn, each seeing the writes of the ones before it. -/
def forEach {α : Type} (f : α → State → Out) : List α → State → Out
  | [], s => .next s
  | a :: as, s => andThen (f a s) (forEach f as)

/-! ## Memory -/

/-- What an address that memory does not list reads as (log entry 4). -/
def unlistedByte : Byte := 0

/-- The byte at an address. -/
def memByte : Memory → Nat → Byte
  | [], _ => unlistedByte
  | (k, v) :: m, a => if k = a then v else memByte m a

/-- Write one byte, keeping the canonical form. -/
def memSet : Memory → Nat → Byte → Memory
  | [], a, b => if b = unlistedByte then [] else [(a, b)]
  | (k, v) :: m, a, b =>
    if a < k then (if b = unlistedByte then (k, v) :: m else (a, b) :: (k, v) :: m)
    else if a = k then (if b = unlistedByte then m else (a, b) :: m)
    else (k, v) :: memSet m a b

/-- The canonical form: addresses strictly rising and below `2^32`, and no entry equal to what an
unlisted address reads as. -/
def Memory.wf : Memory → Bool
  | [] => true
  | (k, v) :: m =>
    decide (v ≠ unlistedByte) && decide (k < 2 ^ 32) &&
      (match m with | [] => true | (k', _) :: _ => decide (k < k')) && Memory.wf m

/-- The bytes of the range of `n` bytes at `addr`, lowest address first; addresses wrap modulo
`2^ADDR_W` (20_memory.md R60). -/
def memBytes (m : Memory) (addr : Addr) (n : Nat) : List Byte :=
  (List.range n).map fun k => memByte m (addr + BitVec.ofNat 32 k).toNat

/-- The number whose little-endian bytes these are. -/
def ofBytesLE : List Byte → Nat
  | [] => 0
  | b :: bs => b.toNat + 256 * ofBytesLE bs

/-- The number these bytes hold in the byte order `ENDIAN` (20_memory.md R61). -/
def ofBytes (e : Endian) (bs : List Byte) : Nat :=
  match e with
  | .little => ofBytesLE bs
  | .big => ofBytesLE bs.reverse

/-- The low `n` bytes of a number, least significant first. -/
def toBytesLE (d : Nat) : Nat → List Byte
  | 0 => []
  | n + 1 => BitVec.ofNat 8 d :: toBytesLE (d / 256) n

/-- The low `n` bytes of a number in the byte order `ENDIAN`, lowest address first (20_memory.md
R61). -/
def toBytes (e : Endian) (d n : Nat) : List Byte :=
  match e with
  | .little => toBytesLE d n
  | .big => (toBytesLE d n).reverse

/-- Write bytes at rising addresses; addresses wrap modulo `2^ADDR_W` (20_memory.md R60). -/
def memSetBytes : Memory → Addr → List Byte → Memory
  | m, _, [] => m
  | m, a, b :: bs => memSetBytes (memSet m a.toNat b) (a + 1) bs

/-- `MemRead(addr, n)` (20_memory.md R60), zero-extended to 64 bits. -/
def memRead (e : Endian) (m : Memory) (addr : Addr) (n : MemSize) : BitVec 64 :=
  BitVec.ofNat 64 (ofBytes e (memBytes m addr n.bytes))

/-- `MemWrite(addr, n, v)` (20_memory.md R60, R65). -/
def memWrite (e : Endian) (m : Memory) (addr : Addr) (n : MemSize) (v : BitVec 64) : Memory :=
  memSetBytes m addr (toBytes e v.toNat n.bytes)

/-- `IMem(pc)`: the 32-bit word at `pc`, read from the same memory (20_memory.md R60, R72). -/
def imem (e : Endian) (m : Memory) (pc : Pc) : InsnWord :=
  BitVec.ofNat 32 (ofBytes e (memBytes m pc 4))

/-- A store's data as the `8 * msize` bits it has (10_state.md R28). -/
def storeBits (n : MemSize) (v : BitVec 64) : BitVec 64 := BitVec.ofNat 64 (v.toNat % 2 ^ (8 * n.bytes))

/-- The byte ranges `[a1, a1 + n1)` and `[a2, a2 + n2)` share a byte, addresses compared without
wrap-around within a range (20_memory.md R67). -/
def overlap (a1 : Addr) (n1 : MemSize) (a2 : Addr) (n2 : MemSize) : Bool :=
  decide (a1.toNat < a2.toNat + n2.bytes) && decide (a2.toNat < a1.toNat + n1.bytes)

/-! ## The rename arrays (10_state.md R22 to R26) -/

/-- Entry `i` of list `c`, `d` where there is none. -/
def get2 {α : Type} (l : List (List α)) (c i : Nat) (d : α) : α := (l.getD c []).getD i d

/-- Replace entry `i` of list `c`; nothing changes where there is none. -/
def set2 {α : Type} (l : List (List α)) (c i : Nat) (v : α) : List (List α) :=
  l.set c ((l.getD c []).set i v)

/-- `RAT[c][a]`. -/
def State.ratOf (s : State) (c a : Nat) : Nat := get2 s.rat c a 0
/-- `PRF[c][p]`. -/
def State.prfOf (s : State) (c : Nat) (p : Nat) : Nat := get2 s.prf c p 0
/-- `FREE[c][p]`. -/
def State.freeOf (s : State) (c : Nat) (p : Nat) : Bool := get2 s.free c p false
/-- `VALID[c][p]`. -/
def State.validOf (s : State) (c : Nat) (p : Nat) : Bool := get2 s.valid c p false

/-- `RAT[c][a] <- p`. -/
def State.setRat (s : State) (c a : Nat) (p : Nat) : State := { s with rat := set2 s.rat c a p }
/-- `PRF[c][p] <- v`, of which a register keeps `VW[c]` bits (10_state.md R24). -/
def State.setPrf (s : State) (c : Nat) (p : Nat) (v : Nat) : State :=
  { s with prf := set2 s.prf c p (v % 2 ^ s.cfg.vw c) }
/-- `FREE[c][p] <- b`. -/
def State.setFree (s : State) (c : Nat) (p : Nat) (b : Bool) : State :=
  { s with free := set2 s.free c p b }
/-- `VALID[c][p] <- b`. -/
def State.setValid (s : State) (c : Nat) (p : Nat) (b : Bool) : State :=
  { s with valid := set2 s.valid c p b }

/-- `Avail(c)`: the number of free physical registers of class `c` (40_rename.md R101). -/
def State.avail (s : State) (c : Nat) : Nat := (s.free.getD c []).count true

/-- The register the free-list arbiter grants: the lowest index with `FREE[c][q] = 1` (40_rename.md
R103).  With none free it is out of range; R101 is checked before every grant. -/
def State.firstFree (s : State) (c : Nat) : Nat := (s.free.getD c []).findIdx id

/-! ## The arena (00_scope.md R12) -/

/-- The record with handle `h`, `none` for a dead handle. -/
def State.uop? (s : State) (h : Handle) : Option Uop := s.arena.getD h none

/-- Write the record with handle `h`. -/
def State.setUop (s : State) (h : Handle) (u : Uop) : State := { s with arena := s.arena.set h (some u) }

/-- Free the arena slot of `h`. -/
def State.freeSlot (s : State) (h : Handle) : State := { s with arena := s.arena.set h none }

/-- The handle of a new arena slot: the lowest free one. -/
def State.newSlot (s : State) : Handle := s.arena.findIdx Option.isNone

/-- Read the record with handle `h`; reading a dead handle is the model's fault (00_scope.md R12). -/
def withUop (s : State) (h : Handle) (f : Uop → Out) : Out :=
  match s.uop? h with
  | some u => f u
  | none => .fault (.deadHandle h)

/-! ## Events to the environment and the end of the run -/

/-- Hand an event to the environment (log entry 5). -/
def State.emit (s : State) (e : EnvEvent) : State := { s with log := s.log ++ [e] }

/-- `raise Fatal(code, info)`: set the fatal status (00_scope.md R10, 44_cycle.md R230). -/
def State.raise (s : State) (f : Fatal) : State := { s with status := .fatal f }

/-! ## Plain writes of one part of the state -/

/-- Replace the memory. -/
def State.setMem (s : State) (m : Memory) : State := { s with mem := m }

/-- Ask a method of the Operation contract. -/
def State.setMethod (s : State) (m : Method) : State := { s with method := m }

/-- `rstate <- r` (10_state.md R36). -/
def State.setRstate (s : State) (r : RState) : State := { s with rstate := r }

/-- `seq_next <- seq_next + 1` (10_state.md R38). -/
def State.takeSeq (s : State) : State := { s with seqNext := s.seqNext + 1 }

/-- `DQ <- tail(DQ)` (44_cycle.md R226). -/
def State.dqPop (s : State) : State := { s with dq := s.dq.tail }

/-- `FQ <- tail(FQ); DQ <- DQ ++ [h]` (44_cycle.md R224). -/
def State.moveToDq (s : State) (h : Handle) : State := { s with fq := s.fq.tail, dq := s.dq ++ [h] }

/-- `FQ <- FQ ++ [h]`, with the number of the next call of the predictor (44_cycle.md R222; log entry
8). -/
def State.fqPush (s : State) (h : Handle) : State :=
  { s with fq := s.fq ++ [h], predictCalls := s.predictCalls + 1 }

/-- Fetch's writes of `fetch_pc` and `pending_target` (44_cycle.md R222). -/
def State.steer (s : State) (pc : Pc) (pending : Option Pc) : State :=
  { s with fetchPc := pc, pendingTarget := pending }

/-- `cycle <- cycle + 1` (44_cycle.md R228). -/
def State.tick (s : State) : State := { s with cycle := s.cycle + 1 }

/-- `retired_count <- retired_count + 1; last_retire_cycle <- now` (41_rob_commit.md R138). -/
def State.countOne (s : State) : State :=
  { s with retiredCount := s.retiredCount + 1, lastRetireCycle := s.cycle }

/-- The commit record matched: it is the last known-good one, and the run terminates if the count has
reached `MAX_INSNS` (41_rob_commit.md R140, 60_exceptions.md R274). -/
def State.matched (s : State) (r : CommitRecord) : State :=
  { s with
    lastMatch := some r
    status := if s.cfg.maxInsns = some s.retiredCount then .terminated else s.status }

/-- `recovery <- 1` (43_rollback.md R192). -/
def State.startRecovery (s : State) : State := { s with recovery := true }

/-- `redirect_pending <- target; rstate <- UNWIND` (43_rollback.md R192). -/
def State.holdRedirect (s : State) (target : Pc) : State :=
  { s with redirectPending := some target, rstate := .unwind }

/-- `FQ`, `DQ`, every station, `LQ` and `SQ` emptied, `pending_target <- none` (43_rollback.md R194). -/
def State.emptyQueues (s : State) : State :=
  { s with
    fq := []
    dq := []
    rs := s.rs.map fun ports => ports.map fun _ => []
    lq := []
    sq := []
    pendingTarget := none }

/-! ## The reorder buffer (10_state.md R30) -/

/-- The handle of entry `rob[j]`: slot `(rob_head + j) mod ROB_N`. -/
def State.robAt (s : State) (j : Nat) : Handle := s.robSlots.getD ((s.robHead + j) % s.cfg.robN) 0

/-- The entries of the ROB, oldest first. -/
def State.robList (s : State) : List Handle := (List.range s.robCount).map s.robAt

/-- `RobPush(u)` (41_rob_commit.md R130). -/
def State.robPush (s : State) (h : Handle) : State :=
  { s with
    robSlots := s.robSlots.set s.robTail h
    robTail := (s.robTail + 1) % s.cfg.robN
    robCount := s.robCount + 1 }

/-- Pop the head of the ROB (41_rob_commit.md R138). -/
def State.robPopHead (s : State) : State :=
  { s with robHead := (s.robHead + 1) % s.cfg.robN, robCount := s.robCount - 1 }

/-- Pop the youngest entry of the ROB: `rob_tail <- (rob_tail - 1) mod ROB_N` (43_rollback.md R196). -/
def State.robPopTail (s : State) : State :=
  { s with robTail := (s.robTail + s.cfg.robN - 1) % s.cfg.robN, robCount := s.robCount - 1 }

/-! ## Reservation stations and port arbiters -/

/-- `RS[k][i]`, newest first (10_state.md R31). -/
def State.station (s : State) (k : FuClass) (i : Nat) : List Handle := get2 s.rs k.code i []

/-- Replace `RS[k][i]`. -/
def State.setStation (s : State) (k : FuClass) (i : Nat) (l : List Handle) : State :=
  { s with rs := set2 s.rs k.code i l }

/-- `RR[k]` (10_state.md R32). -/
def State.rrOf (s : State) (k : FuClass) : Nat := s.rr.getD k.code 0

/-- `SelectStation(k)`: the first station with room, searched from `RR[k]` (42_scheduler.md R160). -/
def State.selectStation (s : State) (k : FuClass) : Option Nat :=
  ((List.range (s.cfg.ns k)).map fun t => (s.rrOf k + t) % s.cfg.ns k).find? fun i =>
    decide ((s.station k i).length < (s.cfg.port k i).cap)

/-- `CommitStation(k, i)` (42_scheduler.md R160). -/
def State.commitStation (s : State) (k : FuClass) (i : Nat) : State :=
  { s with rr := s.rr.set k.code ((i + 1) % s.cfg.ns k) }

/-- Remove a micro-op from the station its record names (42_scheduler.md R164). -/
def State.leaveStation (s : State) (h : Handle) : Option (FuClass × Nat) → State
  | some (k, i) => s.setStation k i ((s.station k i).filter (· ≠ h))
  | none => s

/-! ## Load and store tables -/

/-- The table a category holds an entry of from allocate to retire (20_memory.md R64, R65). -/
inductive LsTable where
  | neither | loads | stores
deriving DecidableEq, Repr

/-- The table has no room for one more entry (44_cycle.md R226). -/
def State.tableFull (s : State) : LsTable → Bool
  | .neither => false
  | .loads => decide (s.cfg.lqN ≤ s.lq.length)
  | .stores => decide (s.cfg.sqN ≤ s.sq.length)

/-- Append an entry to the table. -/
def State.tablePush (s : State) (h : Handle) : LsTable → State
  | .neither => s
  | .loads => { s with lq := s.lq ++ [h] }
  | .stores => { s with sq := s.sq ++ [h] }

/-- Remove an entry from the table. -/
def State.tableRemove (s : State) (h : Handle) : LsTable → State
  | .neither => s
  | .loads => { s with lq := s.lq.filter (· ≠ h) }
  | .stores => { s with sq := s.sq.filter (· ≠ h) }

/-- The test the ordering check makes of one load-table entry (20_memory.md R66). -/
def orderViolated (store load : Uop) : Bool :=
  decide (store.seq < load.seq) && load.executed && overlap load.maddr load.msize store.maddr store.msize

/-- `OrderingCheck(s)`: flag every younger load that has read an overlapping range (20_memory.md
R66). -/
def orderingCheck (store : Uop) (s : State) : Out :=
  forEach (fun l s => withUop s l fun u =>
    .next (if orderViolated store u then s.setUop l { u with loadViolation := true } else s)) s.lq s

/-! ## Taking a speculative exception, and the return from it -/

/-- Discard a queued micro-op: state `FLUSHED`, its arena slot freed (43_rollback.md R194). -/
def discard (h : Handle) (s : State) : Out :=
  withUop s h fun u => .next ((s.freeSlot h).emit (.left { u with state := .flushed }))

/-- Take a micro-op's station away (43_rollback.md R194). -/
def clearStation (h : Handle) (s : State) : Out :=
  withUop s h fun u => .next (s.setUop h { u with station := none })

/-- `Flush()` (43_rollback.md R194). -/
def flush (s : State) : Out :=
  andThen (forEach discard (s.fq ++ s.dq) s) fun s1 =>
  andThen (forEach clearStation s1.rs.flatten.flatten s1) fun s2 =>
  .next s2.emptyQueues

/-- Take a speculative exception: `BeginRecovery(kind, target)` up to its first `UnwindStep`
(43_rollback.md R192), with the recovery event (60_exceptions.md R270).  Nothing is saved: the
target is held in `redirect_pending` (60_exceptions.md R280).  R270 does not say when the event is
produced: here at the entry, with the whole ROB as the number of entries undone.  DESIGN CHOICE, unsafe:
log entry 27. -/
def enterRecovery (kind : ExcKind) (carrier target : Pc) (s : State) : Out :=
  andThen (flush s.startRecovery) fun s1 =>
  .next ((s1.holdRedirect target).emit (.recovery ⟨kind, carrier, target, s1.cycle, s1.robCount⟩))

/-- The return from a speculative exception: `EndRecovery()` (43_rollback.md R197, 60_exceptions.md
R282). -/
def State.endRecovery (s : State) : State :=
  { s with
    fetchPc := s.redirectPending.getD s.fetchPc
    redirectPending := none
    pendingTarget := none
    recovery := false
    rstate := .run }

end Sys2Proof.Machine
end

