-- ==== Sys2Proof/Machine/Operands.lean ====
section
/-!
DEFINITION. The operand forms: renaming of source and destination slots, the ready test, reading
source values, writing and publishing destinations, release, restore (40_rename.md), and the
committed state (10_state.md R44).
-/

namespace Sys2Proof.Machine

/-- The destination slots that are present, in slot order. -/
def presentSlots (ds : List (Option DstSlot)) : List DstSlot := ds.filterMap id

/-- The destination slots of a record that are present. -/
def Uop.dests (u : Uop) : List DstSlot := presentSlots u.dst

/-- The source slots of a record that are present. -/
def Uop.sources (u : Uop) : List SrcSlot := u.src.filterMap id

/-- `Need(u, c)`: the destinations of class `c` (40_rename.md R101). -/
def need (dst : List (Option RegRef)) (c : Nat) : Nat :=
  (Operands.present dst).countP (fun r => r.cls = c)

/-- A micro-op can be renamed in the current state: `Need(u, c) <= Avail(c)` for every class it
writes (40_rename.md R101). -/
def State.canRename (s : State) (dst : List (Option RegRef)) : Bool :=
  (Operands.present dst).all fun r => decide (need dst r.cls ≤ s.avail r.cls)

/-- `RenameSources(u)` (40_rename.md R104). -/
def State.renameSources (s : State) (src : List (Option RegRef)) : List (Option SrcSlot) :=
  src.map fun f => f.map fun r => ⟨r.cls, r.arch, s.ratOf r.cls r.arch⟩

/-- The rename of one destination: record the previous mapping, take the granted register, publish
the mapping and mark the register pending (40_rename.md R105). -/
def State.renameDest (s : State) (r : RegRef) : State × DstSlot :=
  let p := s.firstFree r.cls
  ((((s.setFree r.cls p false).setRat r.cls r.arch p).setValid r.cls p false),
    ⟨r.cls, r.arch, p, s.ratOf r.cls r.arch⟩)

/-- `RenameDests(u)`, in slot order (40_rename.md R105). -/
def renameDests : State → List (Option RegRef) → State × List (Option DstSlot)
  | s, [] => (s, [])
  | s, none :: fs =>
    let r := renameDests s fs
    (r.1, none :: r.2)
  | s, some f :: fs =>
    let d := s.renameDest f
    let r := renameDests d.1 fs
    (r.1, some d.2 :: r.2)

/-- `SourcesValid(u)` (40_rename.md R107). -/
def State.sourcesValid (s : State) (u : Uop) : Bool :=
  u.src.all fun f => match f with
    | some r => s.validOf r.cls r.phys
    | none => true

/-- The values of the source slots present, in slot order (42_scheduler.md R165). -/
def State.sourceValues (s : State) (u : Uop) : List Nat :=
  u.sources.map fun r => s.prfOf r.cls r.phys

/-- Write the results of `Exec` to the new registers, slot `j` on (42_scheduler.md R165). -/
def writeDests : State → Nat → List (Option DstSlot) → (Nat → Nat) → State
  | s, _, [], _ => s
  | s, j, none :: ds, v => writeDests s (j + 1) ds v
  | s, j, some d :: ds, v => writeDests (s.setPrf d.cls d.fresh (v j)) (j + 1) ds v

/-- Set the validity bits of the new registers (40_rename.md R108). -/
def publishDests : State → List (Option DstSlot) → State
  | s, [] => s
  | s, none :: ds => publishDests s ds
  | s, some d :: ds => publishDests (s.setValid d.cls d.fresh true) ds

/-- `Release(u)`: free the previous registers (40_rename.md R110). -/
def releaseDests : State → List (Option DstSlot) → State
  | s, [] => s
  | s, none :: ds => releaseDests s ds
  | s, some d :: ds => releaseDests (s.setFree d.cls d.prev true) ds

/-- `Restore(u)`, in reverse slot order: restore the alias table and free the new registers
(40_rename.md R112). -/
def restoreDests : State → List (Option DstSlot) → State
  | s, [] => s
  | s, none :: ds => restoreDests s ds
  | s, some d :: ds =>
    ((restoreDests s ds).setRat d.cls d.arch d.prev).setFree d.cls d.fresh true

/-- The registers of the commit record (40_rename.md R111, 41_rob_commit.md R139). -/
def State.commitRegs (s : State) (u : Uop) : List CommitReg :=
  u.dests.map fun d => ⟨d.cls, d.arch, s.prfOf d.cls d.fresh⟩

/-- `CommitRecord(u)` (41_rob_commit.md R139). -/
def State.commitRecord (s : State) (u : Uop) : CommitRecord where
  pc := u.pc
  insn := u.insn
  regs := s.commitRegs u
  store := if u.cat = some .store then some ⟨u.maddr, u.msize, u.mdata⟩ else none

/-! ## The micro-op a record holds -/

/-- The functional-unit class of a decoded micro-op, the field `fu` of 10_state.md R28. -/
def Uop.fu (u : Uop) : Option FuClass := u.cat.map Category.fu

/-- The operand fields a record's slots name. -/
def Uop.operands (u : Uop) : Operands where
  src := u.src.map fun f => f.map fun r => ⟨r.cls, r.arch⟩
  dst := u.dst.map fun f => f.map fun d => ⟨d.cls, d.arch⟩

/-- What the record shows to its Operation's `Exec`. -/
def Uop.view (u : Uop) : OpView where
  op := u.op
  pc := u.pc
  insn := u.insn
  cat := u.cat
  hasDs := u.hasDs
  operands := u.operands

/-- The micro-op is a control transfer (45_uop_categories.md R252, R253); one with a delay slot always
is (30_encoding.md R89). -/
def Uop.isCti (u : Uop) : Bool := u.hasDs || u.cat.any Category.isCti

/-- The decoded micro-op a record holds, from decode on. -/
def Uop.instr (u : Uop) : Option Instr := u.cat.map fun c => Instr.ofParts c u.hasDs u.operands

/-- What decode writes into a record: `op`, `cat` and the operand fields (30_encoding.md R81,
44_cycle.md R224). -/
def Uop.decodedAs (u : Uop) (op : OpHandle) (i : Instr) (now : Nat) : Uop :=
  { u with
    op := op
    cat := some i.category
    src := i.operands.src.map fun f => f.map fun r => ⟨r.cls, r.arch, 0⟩
    dst := i.operands.dst.map fun f => f.map fun r => ⟨r.cls, r.arch, 0, 0⟩
    tDecode := some now
    state := .decoded }

/-- The record fetch creates: the fields R222 writes, every flag 0 and every timestamp but
`t_fetch` unwritten (44_cycle.md R222, 10_state.md R28). -/
def Uop.fetched (pc : Pc) (insn : InsnWord) (hasDs : Bool) (p : Prediction) (now : Nat) : Uop where
  pc := pc
  insn := insn
  op := 0
  cat := none
  hasDs := hasDs
  src := []
  dst := []
  seq := 0
  predTaken := p.taken
  predTarget := p.target
  tFetch := some now
  tDecode := none
  tAlloc := none
  tReady := none
  tExec := none
  tDue := none
  tComplete := none
  tRetire := none
  executed := false
  complete := false
  mispredict := false
  loadViolation := false
  redirectPc := 0
  unmodelled := false
  maddr := 0
  msize := .b1
  mdata := 0
  station := none
  state := .fetched

/-- Memory no longer holds the word the micro-op was fetched as: an older store wrote it in between
(20_memory.md R72). -/
def State.wordStale (s : State) (u : Uop) : Bool := decide (u.insn ≠ imem s.cfg.endian s.mem u.pc)

/-! ## Committed state (10_state.md R44) -/

/-- The previous mapping of `(c, a)` in the oldest of these records that writes it. -/
def oldestPrev (c a : Nat) : List Uop → Option Nat
  | [] => none
  | u :: us =>
    match u.dests.find? (fun d => decide (d.cls = c ∧ d.arch = a)) with
    | some d => some d.prev
    | none => oldestPrev c a us

/-- The records in the ROB, oldest first. -/
def State.program (s : State) : List Uop := s.robList.filterMap s.uop?

/-- `cm(c, a)`, the committed mapping. -/
def State.committedTag (s : State) (c a : Nat) : Nat :=
  (oldestPrev c a s.program).getD (s.ratOf c a)

/-- The committed value of an architectural register. -/
def State.committedReg (s : State) (c a : Nat) : Nat := s.prfOf c (s.committedTag c a)

/-- The committed program counter: `rob[0].pc` if the ROB is not empty, otherwise the next fetch
address after any pending rollback. -/
def State.committedPc (s : State) : Pc :=
  match if s.robCount = 0 then none else s.uop? (s.robAt 0) with
  | some u => u.pc
  | none => s.redirectPending.getD s.fetchPc

end Sys2Proof.Machine
end

