-- ==== Sys2Proof/Machine/Flags.lean ====
section
/-!
DEFINITION. The flags of a micro-op record (10_state.md R47): the resolved test, the ready stamp and
eligibility, what execution notes in the record by kind of micro-op, and the completion flag.
-/

namespace Sys2Proof.Machine

/-- A timestamp that has been written lies before this cycle. -/
def before (t : Option Nat) (now : Nat) : Bool :=
  match t with
  | some t => decide (t < now)
  | none => false

/-- A micro-op is resolved: complete, and completed in an earlier cycle (41_rob_commit.md R132). -/
def State.resolved (s : State) (u : Uop) : Bool := u.complete && before u.tComplete s.cycle

/-- `t_ready` is stamped in the first cycle all sources are seen valid (42_scheduler.md R162, R163). -/
def State.stampReady (s : State) (u : Uop) : Uop :=
  if s.sourcesValid u = true ∧ u.tReady = none then { u with tReady := some s.cycle } else u

/-- `Eligible(u)` (42_scheduler.md R163). -/
def State.eligible (s : State) (u : Uop) : Bool :=
  s.sourcesValid u &&
    (match u.tReady with
    | some t => decide (t + s.cfg.minReadyLat ≤ s.cycle)
    | none => false)

/-- `PredNext(u)`, the next pc fetch assumed after a control transfer and its delay slot
(42_scheduler.md R168). -/
def predNext (ds : Bool) (u : Uop) : Pc :=
  if u.predTaken then u.predTarget else if ds then u.pc.pastDelaySlot else u.pc.next

/-- The data a micro-op's `Exec` reads: nothing, for every category but `LOAD` (42_scheduler.md
R165). -/
def noData (_ : State) (_ : ExecResult) : BitVec 64 := 0

/-- A load's `Exec` reads `MemRead(addr, size)` when it executes (42_scheduler.md R165, 20_memory.md
R68). -/
def loadData (s : State) (r : ExecResult) : BitVec 64 := memRead s.cfg.endian s.mem r.addr r.size

/-- Execution notes nothing of its own (45_uop_categories.md R250, R251, R256, R257). -/
def notePlain (_ : ExecResult) (u : Uop) : Uop := u

/-- Execution of a control transfer: `redirect_pc` and `mispredict` (42_scheduler.md R165). -/
def noteCti (ds : Bool) (r : ExecResult) (u : Uop) : Uop :=
  { u with redirectPc := r.nextPc, mispredict := decide (r.nextPc ≠ predNext ds u) }

/-- Execution of a load: `maddr` and `msize` (42_scheduler.md R165). -/
def noteLoad (r : ExecResult) (u : Uop) : Uop := { u with maddr := r.addr, msize := r.size }

/-- Execution of a store: `maddr`, `msize` and `mdata` (42_scheduler.md R165). -/
def noteStore (r : ExecResult) (u : Uop) : Uop :=
  { u with maddr := r.addr, msize := r.size, mdata := storeBits r.size r.data }

/-- The completion flag and its timestamp, written once (40_rename.md R108). -/
def Uop.published (u : Uop) (now : Nat) : Uop := { u with complete := true, tComplete := some now }

/-- A micro-op is due to complete: executed, not complete, its completion cycle arrived
(42_scheduler.md R167). -/
def Uop.due (u : Uop) (now : Nat) : Bool :=
  u.executed && !u.complete &&
    (match u.tDue with
    | some t => decide (t ≤ now)
    | none => false)

end Sys2Proof.Machine
end

