-- ==== Sys2Proof/Machine/Methods.lean ====
section
/-!
DEFINITION. The methods of the Operation contract as shared operations (00_scope.md R5,
45_uop_categories.md R258): allocate, execute, complete, retire and rollback.  What differs between
the categories is an argument; the meanings of the instructions call them.
-/

namespace Sys2Proof.Machine

/-! ## Allocate (44_cycle.md R226) -/

/-- The station the micro-op at the head of the decode queue can be placed in now; `none` where any
resource R226 tests is missing. -/
def State.placement (s : State) (k : FuClass) (tbl : LsTable) (o : Operands) (u : Uop) : Option Nat :=
  if before u.tDecode s.cycle = true ∧ s.robCount ≠ s.cfg.robN ∧ s.canRename o.dst = true ∧
      s.tableFull tbl = false then
    s.selectStation k
  else none

/-- The record after allocation: slots renamed, `seq`, `t_alloc`, state and station written. -/
def Uop.allocatedAs (u : Uop) (src : List (Option SrcSlot)) (dst : List (Option DstSlot)) (seq : Nat)
    (now : Nat) (k : FuClass) (i : Nat) : Uop :=
  { u with
    src := src
    dst := dst
    seq := seq
    tAlloc := some now
    state := .allocated
    station := some (k, i) }

/-- The writes of an allocation into station `i` (44_cycle.md R226): rename, age, ROB push, station
insert at the front, round-robin pointer, load or store table. -/
def State.place (s : State) (k : FuClass) (tbl : LsTable) (o : Operands) (h : Handle) (u : Uop)
    (i : Nat) : State :=
  let r := renameDests s o.dst
  let s1 := r.1
  let s2 := s1.setUop h (u.allocatedAs (s.renameSources o.src) r.2 s.seqNext s.cycle k i)
  let s3 := s2.takeSeq.robPush h
  let s4 := (s3.setStation k i (h :: s3.station k i)).commitStation k i
  (s4.tablePush h tbl).dqPop

/-- Allocate the head of the decode queue, whole or not at all (44_cycle.md R226). -/
def allocateOp (k : FuClass) (tbl : LsTable) (o : Operands) (s : State) : Out :=
  match s.dq with
  | [] => .fault .noMicroOp
  | h :: _ =>
    withUop s h fun u =>
      match s.placement k tbl o u with
      | none => .next s
      | some i => .next (s.place k tbl o h u i)

/-! ## Issue and execute (42_scheduler.md R164, R165) -/

/-- The record after issue (42_scheduler.md R164). -/
def Uop.issued (u : Uop) (now : Nat) : Uop :=
  { u with station := none, state := .executed, tExec := some now }

/-- The record after execution but for the completion cycle (42_scheduler.md R165). -/
def Uop.computed (u : Uop) (note : ExecResult → Uop → Uop) (r : ExecResult) : Uop :=
  { note r u with unmodelled := r.unmodelled, executed := true }

/-- `Issue(u); Execute(u)` (42_scheduler.md R164, R165). -/
def executeOp (data : State → ExecResult → BitVec 64) (note : ExecResult → Uop → Uop) (h : Handle)
    (s : State) : Out :=
  withUop s h fun u =>
    let u1 := u.issued s.cycle
    let r := Config.exec u.view (s.sourceValues u)
    let u2 := u1.computed note r
    let s1 := s.leaveStation h u.station
    let s2 := writeDests s1 0 u.dst fun j => r.value j (data s r)
    .next (s2.setUop h { u2 with tDue := some (s.cycle + Config.lat u2) })

/-! ## Complete (42_scheduler.md R167, 40_rename.md R108) -/

/-- `Publish(u); U[u].state <- COMPLETE`; the guard makes a second call change nothing. -/
def completeOp (h : Handle) (s : State) : Out :=
  withUop s h fun u =>
    if u.complete then .next (s.setUop h { u with state := .complete })
    else .next ((publishDests s u.dst).setUop h { u.published s.cycle with state := .complete })

/-! ## Retire (41_rob_commit.md R138) -/

/-- What retire does to memory and the tables: a store writes memory, checks the load table and
leaves the store table; a load leaves the load table. -/
def commitMemory (tbl : LsTable) (h : Handle) (u : Uop) (s : State) : Out :=
  match tbl with
  | .neither => .next s
  | .loads => .next (s.tableRemove h .loads)
  | .stores =>
    andThen (orderingCheck u (s.setMem (memWrite s.cfg.endian s.mem u.maddr u.msize u.mdata)))
      fun s1 => .next (s1.tableRemove h .stores)

/-- `RetireHook(u)`: the Operation's retire method, whose effects are the environment's
(00_scope.md R5, 41_rob_commit.md R138). -/
def State.retireHook (s : State) (u : Uop) : State := s.emit (.hook u)

/-- The record after retirement. -/
def Uop.retiredAt (u : Uop) (now : Nat) : Uop := { u with tRetire := some now, state := .retired }

/-- Pop the head and count the retirement (41_rob_commit.md R138). -/
def State.countRetired (s : State) (h : Handle) (u : Uop) : State :=
  (s.robPopHead.setUop h (u.retiredAt s.cycle)).countOne

/-- The oracle's verdict on a commit record; an absent oracle finds no mismatch (41_rob_commit.md
R139). -/
def State.oracleAgrees (s : State) (r : CommitRecord) : Bool :=
  !s.cfg.oracle || Config.oracleOk s.retiredCount r

/-- The end of `RetireOne`: the oracle check, the termination test, and the freed arena slot
(41_rob_commit.md R138 to R140). -/
def finishRetire (h : Handle) (u : Uop) (s : State) : State :=
  let r := s.commitRecord u
  let s1 := s.emit (.commit r)
  if s1.oracleAgrees r = false then s1.raise (.oracleMismatch u.pc u.insn s1.lastMatch)
  else
    ((s1.matched r).freeSlot h).emit (.left (u.retiredAt s.cycle))

/-- `RetireOne(u)` of the ROB's head (41_rob_commit.md R138).  A program that commits a word an older
store has overwritten since its fetch has no meaning and is refused (20_memory.md R72,
70_reset_and_hazards.md R304; log entry 18). -/
def retireOp (tbl : LsTable) (s : State) : Out :=
  if s.robCount = 0 then .fault .noMicroOp
  else
    withUop s (s.robAt 0) fun u =>
      if s.wordStale u then .refused (.staleWord u.pc)
      else if u.unmodelled then .next (s.raise (.unmodelled u.pc u.insn))
      else
        andThen (commitMemory tbl (s.robAt 0) u (releaseDests s u.dst)) fun s1 =>
        .next (finishRetire (s.robAt 0) u ((s1.retireHook u).countRetired (s.robAt 0) u))

/-! ## Rollback (43_rollback.md R196) -/

/-- `Undo(u)` of the ROB's youngest entry: `Restore(u)`, pop the tail, free the arena slot. -/
def undoOp (s : State) : Out :=
  if s.robCount = 0 then .fault .noMicroOp
  else
    withUop s (s.robAt (s.robCount - 1)) fun u =>
      .next ((((restoreDests s u.dst).robPopTail).freeSlot (s.robAt (s.robCount - 1))).emit
        (.left { u with state := .rolledBack }))

end Sys2Proof.Machine
end

