-- ==== Sys2Proof/Machine/Alu.lean ====
section
/-!
DEFINITION. The meanings of `ALU_IMM` and `ALU_REG` (45_uop_categories.md R250, R251): functional-unit
class `ALU`, nothing specific to the category.
-/

namespace Sys2Proof.Machine

/-- `ALU_IMM` (45_uop_categories.md R250): the method of the Operation contract the step asks for. -/
def execAluImm (o : Operands) (s : State) : Out :=
  match s.method with
  | .allocate => allocateOp .alu .neither o s
  | .execute h => executeOp noData notePlain h s
  | .complete h => completeOp h s
  | .retire => retireOp .neither s
  | .rollback => undoOp s

/-- `ALU_REG` (45_uop_categories.md R251): the method of the Operation contract the step asks for. -/
def execAluReg (o : Operands) (s : State) : Out :=
  match s.method with
  | .allocate => allocateOp .alu .neither o s
  | .execute h => executeOp noData notePlain h s
  | .complete h => completeOp h s
  | .retire => retireOp .neither s
  | .rollback => undoOp s

end Sys2Proof.Machine
end

