-- ==== Sys2Proof/Machine/Control.lean ====
section
/-!
DEFINITION. The meanings of `BRANCH` and `JUMP` (45_uop_categories.md R252, R253): functional-unit class
`JMP`; execution records the redirect target and checks the prediction.
-/

namespace Sys2Proof.Machine

/-- `BRANCH` (45_uop_categories.md R252): the method of the Operation contract the step asks for. -/
def execBranch (ds : Bool) (o : Operands) (s : State) : Out :=
  match s.method with
  | .allocate => allocateOp .jmp .neither o s
  | .execute h => executeOp noData (noteCti ds) h s
  | .complete h => completeOp h s
  | .retire => retireOp .neither s
  | .rollback => undoOp s

/-- `JUMP` (45_uop_categories.md R253): the method of the Operation contract the step asks for. -/
def execJump (ds : Bool) (o : Operands) (s : State) : Out :=
  match s.method with
  | .allocate => allocateOp .jmp .neither o s
  | .execute h => executeOp noData (noteCti ds) h s
  | .complete h => completeOp h s
  | .retire => retireOp .neither s
  | .rollback => undoOp s

end Sys2Proof.Machine
end

