-- ==== Sys2Proof/Machine/FloatingPoint.lean ====
section
/-!
DEFINITION. The meaning of `FP` (45_uop_categories.md R257): class `FP`; the arithmetic is the Operation's.
-/

namespace Sys2Proof.Machine

/-- `FP` (45_uop_categories.md R257): the method of the Operation contract the step asks for. -/
def execFp (o : Operands) (s : State) : Out :=
  match s.method with
  | .allocate => allocateOp .fp .neither o s
  | .execute h => executeOp noData notePlain h s
  | .complete h => completeOp h s
  | .retire => retireOp .neither s
  | .rollback => undoOp s

end Sys2Proof.Machine
end

