-- ==== Sys2Proof/Machine/LoadStore.lean ====
section
/-!
DEFINITION. The meanings of `LOAD` and `STORE` (45_uop_categories.md R254, R255): classes `LD` and `ST`,
the load and store tables, the memory read at execute and the memory write at retire.
-/

namespace Sys2Proof.Machine

/-- `LOAD` (45_uop_categories.md R254): the method of the Operation contract the step asks for. -/
def execLoad (o : Operands) (s : State) : Out :=
  match s.method with
  | .allocate => allocateOp .ld .loads o s
  | .execute h => executeOp loadData noteLoad h s
  | .complete h => completeOp h s
  | .retire => retireOp .loads s
  | .rollback => undoOp s

/-- `STORE` (45_uop_categories.md R255): the method of the Operation contract the step asks for. -/
def execStore (o : Operands) (s : State) : Out :=
  match s.method with
  | .allocate => allocateOp .st .stores o s
  | .execute h => executeOp noData noteStore h s
  | .complete h => completeOp h s
  | .retire => retireOp .stores s
  | .rollback => undoOp s

end Sys2Proof.Machine
end

