-- ==== Sys2Proof/Machine/System.lean ====
section
/-!
DEFINITION. The meaning of `SYSTEM` (45_uop_categories.md R256): class `SYS`, no serialisation; its effect
outside registers and memory is its retire method's, the environment's.
-/

namespace Sys2Proof.Machine

/-- `SYSTEM` (45_uop_categories.md R256): the method of the Operation contract the step asks for. -/
def execSystem (o : Operands) (s : State) : Out :=
  match s.method with
  | .allocate => allocateOp .sys .neither o s
  | .execute h => executeOp noData notePlain h s
  | .complete h => completeOp h s
  | .retire => retireOp .neither s
  | .rollback => undoOp s

end Sys2Proof.Machine
end

