-- ==== Sys2Proof/Machine/Dispatch.lean ====
section
/-!
DEFINITION. The dispatch from a micro-op to the meaning of its category, one arm per row of the
opcode table.
-/

namespace Sys2Proof.Machine

def exec (i : Instr) (s : State) : Host.Outcome State Fault Refusal :=
  match i with
  | .aluImm o => Sys2Proof.Machine.execAluImm o s
  | .aluReg o => Sys2Proof.Machine.execAluReg o s
  | .branch ds o => Sys2Proof.Machine.execBranch ds o s
  | .jump ds o => Sys2Proof.Machine.execJump ds o s
  | .load o => Sys2Proof.Machine.execLoad o s
  | .store o => Sys2Proof.Machine.execStore o s
  | .system o => Sys2Proof.Machine.execSystem o s
  | .fp o => Sys2Proof.Machine.execFp o s

end Sys2Proof.Machine
end

