-- ==== Sys2Proof/Machine/Stages.lean ====
section
/-!
DEFINITION. The sub-steps of a cycle in the order of 44_cycle.md R220: retire (with the rollback
state machine), complete, execute, allocate, decode, fetch, the memory tick and the clock.  Every
method of a micro-op is called through `exec`.
-/

namespace Sys2Proof.Machine

/-! ## Calling a method -/

/-- Ask a method of a micro-op.  Between calls the field `method` is `allocate`. -/
def call (i : Instr) (m : Method) (s : State) : Out :=
  andThen (exec i (s.setMethod m)) fun s1 => .next (s1.setMethod .allocate)

/-- Ask a method of the micro-op whose record this is. -/
def callOf (h : Handle) (u : Uop) (m : Method) (s : State) : Out :=
  match u.instr with
  | some i => call i m s
  | none => .fault (.undecoded h)

/-- The complete, execute, allocate, decode and fetch stages act only in a running machine that is
not in recovery (44_cycle.md R221, 43_rollback.md R198). -/
def State.stageActive (s : State) : Bool := decide (s.status = .running) && !s.recovery

/-! ## Rollback (43_rollback.md) -/

/-- Undo up to `m` entries, youngest first (43_rollback.md R195). -/
def unwindLoop : Nat → State → Out
  | 0, s => .next s
  | m + 1, s =>
    if s.robCount = 0 then .next s
    else
      withUop s (s.robAt (s.robCount - 1)) fun u =>
        andThen (callOf (s.robAt (s.robCount - 1)) u .rollback s) (unwindLoop m)

/-- `UnwindStep()` (43_rollback.md R195). -/
def unwindStep (s : State) : Out :=
  andThen (unwindLoop s.cfg.retireW s) fun s1 =>
  .next (if s1.robCount = 0 then s1.endRecovery else s1)

/-- `BeginRecovery(kind, target)` (43_rollback.md R192). -/
def beginRecovery (kind : ExcKind) (carrier target : Pc) (s : State) : Out :=
  andThen (enterRecovery kind carrier target s) unwindStep

/-! ## Retire (41_rob_commit.md R133) -/

/-- The scan ends with this sub-state of retire. -/
def State.retireEnds (s : State) (r : RState) : Out := .next (s.setRstate r)

/-- Go on after a retirement unless it ended the run. -/
def whileRunning (f : State → Out) (s : State) : Out :=
  if s.status = .running then f s else .next s

/-- The end of a commit of a control transfer or of any other micro-op: recovery if it was
mispredicted, else the rest of the scan (41_rob_commit.md R133). -/
def afterCommit (u : Uop) (rest : State → Out) (s : State) : Out :=
  if u.mispredict then beginRecovery .branchMispredict u.pc u.redirectPc s else rest s

/-- The commit of a pair: the control transfer `u` and its delay slot `v` (41_rob_commit.md R133 to
R135). -/
def commitPair (u v : Uop) (rest : State → Out) (s : State) : Out :=
  andThen (callOf (s.robAt 0) u .retire s) fun s1 =>
  whileRunning (fun s1 =>
    andThen (callOf (s1.robAt 0) v .retire s1) fun s2 =>
    whileRunning (afterCommit u rest) s2) s1

/-- The head `u` has a delay slot (41_rob_commit.md R133, R134).  Any control transfer in it ends the
run (45_uop_categories.md R252, 60_exceptions.md R277; log entry 14), before the retire method of either
micro-op could refuse an overwritten word: 93_implementation_defined.md names both and does not say
which wins.  DESIGN CHOICE, unsafe: log entry 26. -/
def retirePair (n : Nat) (u : Uop) (rest : State → Out) (s : State) : Out :=
  if s.robCount < 2 then s.retireEnds .awaitSucc
  else
    withUop s (s.robAt 1) fun v =>
      if s.resolved v = false then s.retireEnds .awaitSucc
      else if v.isCti then .next (s.raise (.ctiInDelaySlot v.pc))
      else if v.loadViolation then beginRecovery .loadOrder v.pc u.pc s
      else if 0 < n ∧ s.cfg.retireW < n + 2 then s.retireEnds .run
      else commitPair u v rest s

/-- The head `u` has no delay slot (41_rob_commit.md R133). -/
def retireSingle (u : Uop) (rest : State → Out) (s : State) : Out :=
  if u.loadViolation then beginRecovery .loadOrder u.pc u.pc s
  else
    andThen (callOf (s.robAt 0) u .retire s) fun s1 =>
    whileRunning (afterCommit u rest) s1

/-- The scan from the ROB's head with `n` micro-ops retired in this cycle (41_rob_commit.md R133).
The first argument bounds the passes: each pass retires at least one micro-op, so `RETIRE_W + 1` of
them reach the bandwidth limit. -/
def retireLoop : Nat → Nat → State → Out
  | 0, _, s => .next s
  | f + 1, n, s =>
    if s.cfg.retireW ≤ n ∨ s.robCount = 0 then s.retireEnds .run
    else
      withUop s (s.robAt 0) fun u =>
        if s.resolved u = false then s.retireEnds .run
        else if u.hasDs then retirePair n u (retireLoop f (n + 2)) s
        else retireSingle u (retireLoop f (n + 1)) s

/-- `RetireStage()` (41_rob_commit.md R133). -/
def retireStage (s : State) : Out :=
  if s.status ≠ .running then .next s
  else if s.rstate = .unwind then unwindStep s
  else retireLoop (s.cfg.retireW + 1) 0 s

/-! ## Complete (42_scheduler.md R167) -/

/-- Complete one ROB entry if it is due. -/
def completeEntry (h : Handle) (s : State) : Out :=
  withUop s h fun u => if u.due s.cycle then callOf h u (.complete h) s else .next s

/-- `CompleteStage()` (42_scheduler.md R167). -/
def completeStage (s : State) : Out :=
  if s.stageActive then forEach completeEntry s.robList s else .next s

/-! ## Execute (42_scheduler.md R162) -/

/-- Insert by increasing `seq`. -/
def insertBySeq (s : State) (h : Handle) : List Handle → List Handle
  | [] => [h]
  | g :: gs =>
    if ((s.uop? h).map Uop.seq).getD 0 ≤ ((s.uop? g).map Uop.seq).getD 0 then h :: g :: gs
    else g :: insertBySeq s h gs

/-- `ScanOrder` (42_scheduler.md R166). -/
def State.scanOrder (s : State) (l : List Handle) : List Handle :=
  match s.cfg.issueOrder with
  | .newestFirst => l
  | .oldestFirst => l.foldr (insertBySeq s) []

/-- The scan of one station with `issued` micro-ops issued so far: stamp `t_ready`, and issue what is
eligible up to the width (42_scheduler.md R162). -/
def scanStation (width : Nat) : List Handle → Nat → State → Out
  | [], _, s => .next s
  | h :: hs, issued, s =>
    withUop s h fun u0 =>
      let u := s.stampReady u0
      let s1 := s.setUop h u
      if issued < width ∧ s1.eligible u = true then
        andThen (callOf h u (.execute h) s1) (scanStation width hs (issued + 1))
      else scanStation width hs issued s1

/-- Scan station `i` of class `k`. -/
def executeStation (p : FuClass × Nat) (s : State) : Out :=
  scanStation (s.cfg.port p.1 p.2).width (s.scanOrder (s.station p.1 p.2)) 0 s

/-- `ExecuteStage()` (42_scheduler.md R162). -/
def executeStage (s : State) : Out :=
  if s.stageActive then forEach executeStation (s.cfg.stations) s else .next s

/-! ## Allocate (44_cycle.md R226) -/

/-- Place micro-ops from the decode queue, in program order, until one cannot be placed. -/
def allocateLoop : Nat → State → Out
  | 0, s => .next s
  | n + 1, s =>
    match s.dq with
    | [] => .next s
    | h :: _ =>
      withUop s h fun u =>
        andThen (callOf h u .allocate s) fun s1 =>
        if s1.dq.length < s.dq.length then allocateLoop n s1 else .next s1

/-- `AllocateStage()` (44_cycle.md R226). -/
def allocateStage (s : State) : Out :=
  if s.stageActive then allocateLoop s.cfg.allocW s else .next s

/-! ## Decode (44_cycle.md R224) -/

/-- The head `h` of the fetch queue decodes to this: either fatal event of decode, or the micro-op
moves to the decode queue (44_cycle.md R224).  `isAtomic` tells the Operations of 20_memory.md R71. -/
def decodeAs (isAtomic : OpHandle → Bool) (d : Option Descriptor) (h : Handle) (u : Uop) (s : State) : State :=
  match d with
  | none => s.raise (.decodeUnrecognized u.pc u.insn)
  | some d =>
    match checkDescriptor s.cfg u.hasDs (isAtomic d.op) d.bits with
    | .error _ => s.raise (.badDescriptor u.pc u.insn)
    | .ok i =>
      (s.setUop h (u.decodedAs d.op i s.cycle)).moveToDq h

/-- Decode the head of the fetch queue with the external decoder. -/
def decodeHead (h : Handle) (u : Uop) (s : State) : State :=
  decodeAs Config.isAtomic (Config.decode u.insn) h u s

/-- Decode up to `n` micro-ops while the queues allow it. -/
def decodeLoop : Nat → State → Out
  | 0, s => .next s
  | n + 1, s =>
    match s.fq with
    | [] => .next s
    | h :: _ =>
      if s.dq.length < s.cfg.dqN then
        withUop s h fun u => whileRunning (decodeLoop n) (decodeHead h u s)
      else .next s

/-- `DecodeStage()` (44_cycle.md R224). -/
def decodeStage (s : State) : Out :=
  if s.stageActive then decodeLoop s.cfg.decodeW s else .next s

/-! ## Fetch (44_cycle.md R222) -/

/-- What fetch records as the prediction of the micro-op it fetches, and whether it consulted the
predictor: not for a delay slot that ends a taken group, nor for any other instruction that is no
control transfer (44_cycle.md R222). -/
def State.consultPredictor (s : State) (pd : PreDecoded) : Bool :=
  pd.isCti && s.pendingTarget.isNone

/-- The prediction fields of the fetched micro-op. -/
def State.fetchPrediction (s : State) (pd : PreDecoded) : Prediction :=
  if s.consultPredictor pd then Config.predict s.predictCalls s.fetchPc
  else Config.unsetPrediction s.predictCalls

/-- Fetch the word at `fetch_pc` into a new record at the end of the fetch queue. -/
def State.fetchOne (s : State) : State :=
  let insn := imem s.cfg.endian s.mem s.fetchPc
  let pd := Config.preDecode insn
  (s.setUop s.newSlot (Uop.fetched s.fetchPc insn pd.hasDs (s.fetchPrediction pd) s.cycle)).fqPush
    s.newSlot

/-- Fetch up to `n` micro-ops, and at most one taken group (44_cycle.md R222). -/
def fetchLoop : Nat → State → State
  | 0, s => s
  | n + 1, s =>
    if s.cfg.fqN ≤ s.fq.length then s
    else
      let pd := Config.preDecode (imem s.cfg.endian s.mem s.fetchPc)
      let p := s.fetchPrediction pd
      let s1 := s.fetchOne
      match s.pendingTarget with
      | some t => s1.steer t none
      | none =>
        if pd.isCti = true ∧ p.taken = true then
          if pd.hasDs then
            fetchLoop n (s1.steer s.fetchPc.next (some p.target))
          else s1.steer p.target none
        else fetchLoop n (s1.steer s.fetchPc.next none)

/-- `FetchStage()` (44_cycle.md R222). -/
def fetchStage (s : State) : State :=
  if s.stageActive then fetchLoop s.cfg.fetchW s else s

/-! ## Memory tick, clock and watchdog -/

/-- `MemTick()` changes no block state (44_cycle.md R227). -/
def memTick (s : State) : State := s

/-- `ClockAdvance()`: the watchdog, then the clock, in a running machine only (44_cycle.md R228,
R229). -/
def clockAdvance (s : State) : State :=
  if s.status = .running then
    if s.lastRetireCycle + s.cfg.watchdogN ≤ s.cycle then s.raise (.watchdog s.cycle s.lastRetireCycle)
    else s.tick
  else s

/-- One cycle (44_cycle.md R220). -/
def cycleOf (s : State) : Out :=
  andThen (retireStage s) fun s1 =>
  andThen (completeStage s1) fun s2 =>
  andThen (executeStage s2) fun s3 =>
  andThen (allocateStage s3) fun s4 =>
  andThen (decodeStage s4) fun s5 =>
  .next (clockAdvance (memTick (fetchStage s5)))

end Sys2Proof.Machine
end

