-- ==== Sys2Proof/Machine/Step.lean ====
section
/-!
DEFINITION. The step, one cycle of an admitted configuration (00_scope.md R6, R8), and how a single
micro-op is put where the next step takes its instruction from.
-/

namespace Sys2Proof.Machine

/-- One machine step is one cycle (00_scope.md R6); an ill-formed configuration is refused (R8). -/
def step (s : State) : Host.Outcome State Fault Refusal :=
  if s.cfg.admitted then cycleOf s else .refused .configRefused

/-- `s` with the micro-op whose descriptor bits are `w` at the head of the decode queue, decoded one
cycle ago, where the block's input stage takes its next micro-op (44_cycle.md R226): its record in a
new arena slot, the clock one cycle on so that it has aged (R225), `fetch_pc` past it.  Where the
decoder refuses the bits, the record holds no category and the step faults (log entry 9). -/
def State.withFetchWord (s : State) (nbits w : Nat) : State :=
  let u := Uop.fetched s.fetchPc (imem s.cfg.endian s.mem s.fetchPc) false (Config.unsetPrediction s.predictCalls) s.cycle
  let u1 := match decode s.cfg (w % 2 ^ nbits) with
    | .ok i => { u.decodedAs 0 i s.cycle with hasDs := i.ds }
    | .error _ => u
  let s1 := s.setUop s.newSlot u1
  { s1 with
    dq := s.newSlot :: s1.dq
    cycle := s1.cycle + 1
    fetchPc := s1.fetchPc.next
    predictCalls := s1.predictCalls + 1 }

end Sys2Proof.Machine
end

