-- ==== Sys2Proof/Machine/Informative.lean ====
section
/-!
DEFINITION. The informative decoder of 30_encoding.md R92, by which the programs of
95_test_vectors.md are decoded: an instance of the environment functions `Decode` and `PreDecode`
for the register classes a reset uses (class 0 is GPR).  No rule of the block reads it and the step
does not call it.
-/

namespace Sys2Proof.Machine

/-- The fields of the R92 word layouts. -/
def mipsOpcode (w : InsnWord) : Nat := w.toNat / 2 ^ 26
/-- `rs[25:21]`. -/
def mipsRs (w : InsnWord) : Nat := w.toNat / 2 ^ 21 % 32
/-- `rt[20:16]`. -/
def mipsRt (w : InsnWord) : Nat := w.toNat / 2 ^ 16 % 32
/-- `rd[15:11]`. -/
def mipsRd (w : InsnWord) : Nat := w.toNat / 2 ^ 11 % 32
/-- `funct[5:0]`. -/
def mipsFunct (w : InsnWord) : Nat := w.toNat % 64

/-- General register `n` as a source. -/
def gprSrc (n : Nat) : Option RegRef := some ⟨0, n⟩

/-- General register `n` as a destination: the wired-zero register is delivered as `-1` (00_scope.md
R11). -/
def gprDst (n : Nat) : Option RegRef := if n = 0 then none else some ⟨0, n⟩

/-- Three source slots and one destination slot. -/
def mipsOperands (s0 s1 d : Option RegRef) : Operands := ⟨[s0, s1, none], [d]⟩

/-- The micro-op of a word, `none` for a word the decoder does not recognise (30_encoding.md R92). -/
def mipsInstr (w : InsnWord) : Option Instr :=
  let rs := gprSrc (mipsRs w)
  let rt := gprSrc (mipsRt w)
  match mipsOpcode w with
  | 0 =>
    match mipsFunct w with
    | 0 => some (.aluImm (mipsOperands rt none (gprDst (mipsRd w))))
    | 8 => some (.jump true (mipsOperands rs none none))
    | 12 => some (.system (mipsOperands none none none))
    | 33 => some (.aluReg (mipsOperands rs rt (gprDst (mipsRd w))))
    | _ => none
  | 2 => some (.jump true (mipsOperands none none none))
  | 3 => some (.jump true (mipsOperands none none (gprDst 31)))
  | 4 => some (.branch true (mipsOperands rs rt none))
  | 5 => some (.branch true (mipsOperands rs rt none))
  | 9 => some (.aluImm (mipsOperands rs none (gprDst (mipsRt w))))
  | 35 => some (.load (mipsOperands rs none (gprDst (mipsRt w))))
  | 43 => some (.store (mipsOperands rs rt none))
  | _ => none

/-- `Decode(word)` of the informative decoder; the Operation handle is the opcode with the funct
code. -/
def mipsDecode (w : InsnWord) : Option Descriptor :=
  (mipsInstr w).map fun i => ⟨mipsOpcode w * 64 + mipsFunct w, encode Config.atReset i⟩

/-- `PreDecode(word)` of the informative decoder. -/
def mipsPreDecode (w : InsnWord) : PreDecoded :=
  match mipsInstr w with
  | some i => ⟨i.category.isCti, i.ds⟩
  | none => ⟨false, false⟩

end Sys2Proof.Machine
end

