-- ==== Sys2Proof/Safety.lean ====
section
/-!
DEFINITION. The terms in which statements about the machine are made: how a run ends and what of it
is observed (44_cycle.md R230), which parts of two states agree, and the invariants of 10_state.md
R27 and R39 to R43, with the sequential execution that R43 compares with.
-/

namespace Sys2Proof

open Sys2Proof.Machine

/-- The table a category holds an entry of from allocate to retire (20_memory.md R64, R65). -/
def Category.lsTable : Category → LsTable
  | .load => .loads
  | .store => .stores
  | _ => .neither

namespace Machine

/-! ## Ends and observations of a run -/

/-- The run has ended fatally (30_encoding.md R87). -/
abbrev State.fatal (s : State) : Prop := s.status ≠ .running ∧ s.status ≠ .terminated

/-- The commit records handed to the environment so far, oldest first. -/
def State.commits (s : State) : List CommitRecord :=
  s.log.filterMap fun e => match e with
    | .commit r => some r
    | _ => none

/-- The recovery events handed to the environment so far, oldest first. -/
def State.recoveries (s : State) : List RecoveryEvent :=
  s.log.filterMap fun e => match e with
    | .recovery r => some r
    | _ => none

/-- The committed registers, by class and index (10_state.md R44). -/
def State.committedRegs (s : State) : List (List Nat) :=
  s.cfg.classes.zipIdx.map fun p => (List.range p.1.na).map (s.committedReg p.2)

/-- The observation of a run: its status, the sequence of its commit records and the committed state
(44_cycle.md R230). -/
structure Observation where
  status  : Status
  commits : List CommitRecord
  regs    : List (List Nat)
  pc      : Pc
  mem     : Memory
deriving DecidableEq, Repr

/-- What is observed of a run that has reached this state. -/
def State.observe (s : State) : Observation where
  status := s.status
  commits := s.commits
  regs := s.committedRegs
  pc := s.committedPc
  mem := s.mem

/-! ## Parts of the state that agree -/

/-- Every byte of memory reads the same. -/
def sameMemory (s t : State) : Prop := ∀ a, memByte t.mem a = memByte s.mem a

/-- The alias tables and the free lists agree. -/
def sameMaps (s t : State) : Prop := t.rat = s.rat ∧ t.free = s.free

/-- The ROB agrees. -/
def sameRob (s t : State) : Prop :=
  t.robSlots = s.robSlots ∧ t.robHead = s.robHead ∧ t.robTail = s.robTail ∧ t.robCount = s.robCount

/-- The stations, the port arbiters and the load and store tables agree. -/
def sameScheduler (s t : State) : Prop := t.rs = s.rs ∧ t.rr = s.rr ∧ t.lq = s.lq ∧ t.sq = s.sq

/-- The front end agrees: both queues, the fetch address, the pending target and the predictor. -/
def sameFront (s t : State) : Prop :=
  t.fq = s.fq ∧ t.dq = s.dq ∧ t.fetchPc = s.fetchPc ∧ t.pendingTarget = s.pendingTarget ∧
    t.predictCalls = s.predictCalls

/-- The recovery state agrees, and the configuration and the clock. -/
def sameControl (s t : State) : Prop :=
  t.recovery = s.recovery ∧ t.rstate = s.rstate ∧ t.redirectPending = s.redirectPending ∧
    t.cfg = s.cfg ∧ t.cycle = s.cycle

/-- The run status, the retirement counters and what the environment was handed agree. -/
def sameRun (s t : State) : Prop :=
  t.status = s.status ∧ t.retiredCount = s.retiredCount ∧ t.lastRetireCycle = s.lastRetireCycle ∧
    t.log = s.log ∧ t.lastMatch = s.lastMatch

/-- Every record but that of `h` agrees. -/
def sameOtherUops (h : Handle) (s t : State) : Prop := ∀ g, g ≠ h → t.uop? g = s.uop? g

/-- A destination slot names a register that exists and is not wired to zero, and two physical
registers of its class. -/
abbrev DstSlot.inRange (cfg : Config) (d : DstSlot) : Prop :=
  RegRef.inRange cfg ⟨d.cls, d.arch⟩ = true ∧ RegRef.isWiredZero cfg ⟨d.cls, d.arch⟩ = false ∧
    d.fresh < cfg.np d.cls ∧ d.prev < cfg.np d.cls

/-- What execution leaves alone: everything but the record of `h`, the stations and the register
files. -/
def executeFrame (h : Handle) (s t : State) : Prop :=
  sameMaps s t ∧ t.valid = s.valid ∧ sameMemory s t ∧ sameRob s t ∧ t.rr = s.rr ∧ t.lq = s.lq ∧
    t.sq = s.sq ∧ sameFront s t ∧ sameControl s t ∧ sameRun s t ∧ t.seqNext = s.seqNext ∧
    t.method = s.method ∧ sameOtherUops h s t

/-- The new register of destination slot `j` holds `v j`, of which a register keeps `VW` bits, and
every other register what it held (42_scheduler.md R165). -/
def resultsWritten (dst : List (Option DstSlot)) (v : Nat → Nat) (s t : State) : Prop :=
  (∀ j d, dst[j]? = some (some d) → t.prfOf d.cls d.fresh = v j % 2 ^ s.cfg.vw d.cls) ∧
    ∀ c p, (∀ d ∈ presentSlots dst, ¬(d.cls = c ∧ d.fresh = p)) → t.prfOf c p = s.prfOf c p

/-- The micro-op has left the station its record named, and no other (42_scheduler.md R164). -/
def stationLeft (h : Handle) (p : Option (FuClass × Nat)) (s t : State) : Prop :=
  ∀ k i, t.station k i = if p = some (k, i) then (s.station k i).filter (· ≠ h) else s.station k i

/-- What every retirement leaves alone: everything but the free lists, the memory, the records, the
load and store tables, the head of the ROB and the run. -/
def retireFrame (s t : State) : Prop :=
  t.rat = s.rat ∧ t.prf = s.prf ∧ t.valid = s.valid ∧ t.rs = s.rs ∧ t.rr = s.rr ∧ sameFront s t ∧
    sameControl s t ∧ t.seqNext = s.seqNext ∧ t.method = s.method

/-- The previous registers of these slots are free, and no other register's free bit has changed
(40_rename.md R110). -/
def previousReleased (ds : List DstSlot) (s t : State) : Prop :=
  ∀ c p, t.freeOf c p = (s.freeOf c p || ds.any fun d => decide (d.cls = c ∧ d.prev = p))

/-- The head `h` with record `u` has left the ROB, is counted, and its commit record has gone to the
oracle: a mismatch ends the run; else the count may terminate it, and the arena slot is free
(41_rob_commit.md R138 to R140). -/
def headRetired (h : Handle) (u : Uop) (s t : State) : Prop :=
  t.robList = s.robList.tail ∧ t.robCount = s.robCount - 1 ∧
    t.retiredCount = s.retiredCount + 1 ∧ t.lastRetireCycle = s.cycle ∧
    if (!s.cfg.oracle || Config.oracleOk (s.retiredCount + 1) (s.commitRecord u)) = true then
      t.status = (if s.cfg.maxInsns = some (s.retiredCount + 1) then .terminated else s.status) ∧
        t.lastMatch = some (s.commitRecord u) ∧ t.uop? h = none ∧
        t.log = s.log ++ [.hook u, .commit (s.commitRecord u),
          .left { u with tRetire := some s.cycle, state := .retired }]
    else
      t.status = .fatal (.oracleMismatch u.pc u.insn s.lastMatch) ∧ t.lastMatch = s.lastMatch ∧
        t.uop? h = some { u with tRetire := some s.cycle, state := .retired } ∧
        t.log = s.log ++ [.hook u, .commit (s.commitRecord u)]

/-- The stores of these commit records, written to a memory in order. -/
def storesOf (e : Endian) (rs : List CommitRecord) (m : Memory) : Memory :=
  (rs.filterMap CommitRecord.store).foldl (fun m w => memWrite e m w.addr w.size w.data) m

/-! ## Invariants -/

/-- The memory is in its canonical form. -/
abbrev State.memoryCanonical (s : State) : Prop := Memory.wf s.mem = true

/-- The alias tables, register files and bitmaps have the sizes of the configuration, and every alias
table entry names a register of its class (10_state.md R23 to R26, R39). -/
abbrev State.renameShaped (s : State) : Prop :=
  s.rat.length = s.cfg.classes.length ∧ s.prf.length = s.cfg.classes.length ∧
  s.free.length = s.cfg.classes.length ∧ s.valid.length = s.cfg.classes.length ∧
  ∀ c < s.cfg.classes.length,
    (s.rat.getD c []).length = s.cfg.na c ∧ (s.prf.getD c []).length = s.cfg.np c ∧
    (s.free.getD c []).length = s.cfg.np c ∧ (s.valid.getD c []).length = s.cfg.np c ∧
    ∀ a < s.cfg.na c, s.ratOf c a < s.cfg.np c

/-- The ROB, the arena, the stations and the arbiters have the sizes of the configuration, and the
ROB's pointers agree (10_state.md R30 to R32). -/
abbrev State.queuesShaped (s : State) : Prop :=
  s.arena.length = s.cfg.arenaN ∧
  s.robSlots.length = s.cfg.robN ∧ s.robHead < s.cfg.robN ∧ s.robCount ≤ s.cfg.robN ∧
  s.robTail = (s.robHead + s.robCount) % s.cfg.robN ∧
  s.rs.length = s.cfg.ports.length ∧
  (∀ k < s.cfg.ports.length, (s.rs.getD k []).length = (s.cfg.ports.getD k []).length) ∧
  s.rr.length = s.cfg.ports.length ∧
  ∀ k ∈ FuClass.all, s.rrOf k < s.cfg.ns k

/-- The bounds of the queues, the tables and the stations (10_state.md R42). -/
abbrev State.bounded (s : State) : Prop :=
  s.fq.length ≤ s.cfg.fqN ∧ s.dq.length ≤ s.cfg.dqN ∧
  s.lq.length ≤ s.cfg.lqN ∧ s.sq.length ≤ s.cfg.sqN ∧
  ∀ p ∈ s.cfg.stations, (s.station p.1 p.2).length ≤ (s.cfg.port p.1 p.2).cap

/-- A record between fetch and decode. -/
abbrev Uop.inFetchQueue (u : Uop) : Prop :=
  u.state = .fetched ∧ u.executed = false ∧ u.complete = false

/-- A record between decode and allocate. -/
abbrev Uop.inDecodeQueue (u : Uop) : Prop :=
  u.state = .decoded ∧ u.cat ≠ none ∧ u.executed = false ∧ u.complete = false

/-- A record in the ROB: its lifecycle state agrees with its flags (10_state.md R29). -/
abbrev Uop.inRob (u : Uop) : Prop :=
  u.cat ≠ none ∧ (u.executed = true ↔ u.state ≠ .allocated) ∧ (u.complete = true ↔ u.state = .complete) ∧
    (u.state = .allocated ∨ u.state = .executed ∨ u.state = .complete)

/-- Every handle a queue, the ROB, a station or a table holds is that of a live record in the right
lifecycle state, no micro-op stands in two of the queues and the ROB, and every station and table
entry is a micro-op in the ROB (10_state.md R42, 00_scope.md R12).  While the run goes on, no other
record is live. -/
abbrev State.linked (s : State) : Prop :=
  (∀ h ∈ s.fq, ∃ u ∈ s.uop? h, u.inFetchQueue) ∧
  (∀ h ∈ s.dq, ∃ u ∈ s.uop? h, u.inDecodeQueue) ∧
  (∀ h ∈ s.robList, ∃ u ∈ s.uop? h, u.inRob) ∧
  (s.fq ++ s.dq ++ s.robList).Nodup ∧
  (∀ p ∈ s.cfg.stations, (s.station p.1 p.2).Nodup ∧ ∀ h ∈ s.station p.1 p.2,
    h ∈ s.robList ∧ ∃ u ∈ s.uop? h, u.state = .allocated ∧ u.station = some p) ∧
  (∀ h ∈ s.lq, h ∈ s.robList ∧ ∃ u ∈ s.uop? h, u.cat = some .load) ∧
  (∀ h ∈ s.sq, h ∈ s.robList ∧ ∃ u ∈ s.uop? h, u.cat = some .store) ∧
  (s.status = .running → ∀ h < s.arena.length, s.uop? h ≠ none → h ∈ s.fq ++ s.dq ++ s.robList)

/-- ROB entries are in strictly increasing `seq`, below the next one to give out (10_state.md R42). -/
abbrev State.ordered (s : State) : Prop :=
  (s.program.map Uop.seq).Pairwise (· < ·) ∧ ∀ u ∈ s.program, u.seq < s.seqNext

/-- In recovery the retire stage unwinds, and both queues, every station and both tables are empty
(10_state.md R42). -/
abbrev State.recoveryOk (s : State) : Prop :=
  (s.recovery = true ↔ s.rstate = .unwind) ∧
  (s.recovery = true → s.fq = [] ∧ s.dq = [] ∧ s.lq = [] ∧ s.sq = [] ∧ s.redirectPending ≠ none ∧
    ∀ p ∈ s.cfg.stations, s.station p.1 p.2 = [])

/-- The structural invariants at a cycle boundary (10_state.md R42). -/
abbrev State.wellFormed (s : State) : Prop :=
  s.cfg.admitted = true ∧ s.queuesShaped ∧ s.bounded ∧ s.linked ∧ s.ordered ∧ s.recoveryOk ∧
    s.method = .allocate

/-- The program in flight does not modify itself: memory still holds the word each micro-op in the ROB
was fetched as, and no older store that has executed writes a byte of one (20_memory.md R72). -/
abbrev State.codeStable (s : State) : Prop :=
  ∀ u ∈ s.program, s.wordStale u = false ∧
    ∀ w ∈ s.program, w.seq < u.seq → w.cat = some .store → w.executed = true →
      ∀ k < w.msize.bytes, ∀ j < 4, w.maddr + BitVec.ofNat 32 k ≠ u.pc + BitVec.ofNat 32 j

/-- The destination slots of the micro-ops in the ROB, oldest first, in slot order. -/
def State.robDests (s : State) : List DstSlot := s.program.flatMap Uop.dests

/-- How often physical register `p` of class `c` is referenced: by alias table entries, and by the
`prev` fields of destination slots in the ROB (10_state.md R40). -/
def State.references (s : State) (c : Nat) (p : Nat) : Nat :=
  (s.rat.getD c []).count p + s.robDests.countP fun d => decide (d.cls = c ∧ d.prev = p)

/-- Ownership: a register is free exactly when nothing references it, and otherwise exactly one thing
does (10_state.md R40). -/
abbrev State.owned (s : State) : Prop :=
  ∀ c < s.cfg.classes.length, ∀ p < s.cfg.np c,
    s.references c p = if s.freeOf c p then 0 else 1

/-- Undoing these destination slots, youngest first, finds each alias table entry at the register the
slot was given. -/
def undoes : List DstSlot → List (List Nat) → Prop
  | [], _ => True
  | d :: ds, rat => get2 rat d.cls d.arch 0 = d.fresh ∧ undoes ds (set2 rat d.cls d.arch d.prev)

/-- The rename invariants at a cycle boundary: the structure, the totality of the alias tables (R39),
ownership (R40), slots that can be undone, and operand fields of the decode queue that passed the
checks of decode. -/
abbrev State.renameOk (s : State) : Prop :=
  s.wellFormed ∧ s.renameShaped ∧ s.owned ∧ undoes s.robDests.reverse s.rat ∧
    (∀ d ∈ s.robDests, d.inRange s.cfg) ∧
    ∀ h ∈ s.dq, ∀ u ∈ s.uop? h, u.operands.wellFormed s.cfg = true

/-! ## Sequential execution

What the program in the ROB computes when its micro-ops are executed one after another, oldest first,
on the committed state: the yardstick of 10_state.md R43 and R49 and of 70_reset_and_hazards.md R308.
-/

/-- A committed state: the architectural registers by class and index, and the memory (10_state.md
R44). -/
structure ArchState where
  regs : List (List Nat)
  mem  : Memory
deriving DecidableEq, Repr

/-- The committed state of the machine. -/
def State.committed (s : State) : ArchState := ⟨s.committedRegs, s.mem⟩

/-- What `Exec` returns when the operands are read from a committed state. -/
def OpView.result (v : OpView) (a : ArchState) : ExecResult :=
  Config.exec v ((Operands.present v.operands.src).map fun r => get2 a.regs r.cls r.arch 0)

/-- What a load then reads. -/
def OpView.loaded (v : OpView) (e : Endian) (a : ArchState) : BitVec 64 :=
  if v.cat = some .load then memRead e a.mem (v.result a).addr (v.result a).size else 0

/-- Write the results to the destination registers, slot `j` on. -/
def writeRegs (cfg : Config) : List (List Nat) → Nat → List (Option RegRef) → (Nat → Nat) →
    List (List Nat)
  | regs, _, [], _ => regs
  | regs, j, none :: ds, v => writeRegs cfg regs (j + 1) ds v
  | regs, j, some r :: ds, v =>
    writeRegs cfg (set2 regs r.cls r.arch (v j % 2 ^ cfg.vw r.cls)) (j + 1) ds v

/-- Execute one micro-op on a committed state: its results go to its registers, a store's data to
memory. -/
def seqStep (cfg : Config) (a : ArchState) (v : OpView) : ArchState :=
  let r := v.result a
  { regs := writeRegs cfg a.regs 0 v.operands.dst fun j => r.value j (v.loaded cfg.endian a)
    mem := if v.cat = some .store then memWrite cfg.endian a.mem r.addr r.size (storeBits r.size r.data)
      else a.mem }

/-- The commit record of that execution (41_rob_commit.md R139). -/
def seqRecord (cfg : Config) (a : ArchState) (v : OpView) : CommitRecord :=
  let r := v.result a
  { pc := v.pc
    insn := v.insn
    regs := (Operands.present v.operands.dst).map fun d =>
      ⟨d.cls, d.arch, get2 (seqStep cfg a v).regs d.cls d.arch 0⟩
    store := if v.cat = some .store then some ⟨r.addr, r.size, storeBits r.size r.data⟩ else none }

/-- The commit records of executing these micro-ops in order. -/
def seqRecords (cfg : Config) : ArchState → List OpView → List CommitRecord
  | _, [] => []
  | a, v :: vs => seqRecord cfg a v :: seqRecords cfg (seqStep cfg a v) vs

/-- The committed state after the `j` oldest micro-ops of the ROB. -/
def State.archBefore (s : State) (j : Nat) : ArchState :=
  ((s.program.take j).map Uop.view).foldl (seqStep s.cfg) s.committed

/-- The register `(c, a)` is mapped to when `rob[j]` is renamed: the previous mapping the oldest writer
from there on recorded, or the present one. -/
def State.tagBefore (s : State) (j c a : Nat) : Nat :=
  (oldestPrev c a (s.program.drop j)).getD (s.ratOf c a)

/-- `rob[i]` is a load that has read memory too early: it is flagged, or an older store still in the
ROB writes an overlapping range (20_memory.md R66).  It and all that is younger will be re-executed. -/
def State.staleLoad (s : State) (i : Nat) : Prop :=
  ∃ u, s.program[i]? = some u ∧ u.cat = some .load ∧ u.executed = true ∧
    (u.loadViolation = true ∨ ∃ k, ∃ w : Uop, k < i ∧ s.program[k]? = some w ∧ w.cat = some .store ∧
      overlap u.maddr u.msize (w.view.result (s.archBefore k)).addr
        (w.view.result (s.archBefore k)).size = true)

/-- No load or store in the ROB reaches past the top of the address space, where the ordering check
compares ranges without wrap-around (20_memory.md R67; log entry 13). -/
abbrev State.accessesFit (s : State) : Prop :=
  ∀ j (u : Uop), s.program[j]? = some u → u.cat = some .load ∨ u.cat = some .store →
    (u.view.result (s.archBefore j)).addr.toNat +
      (u.view.result (s.archBefore j)).size.bytes ≤ 2 ^ 32

/-- An executed record `rob[j]` holds what sequential execution computes: its new registers the
values, and the fields its category has (42_scheduler.md R165). -/
abbrev State.executedSequentially (s : State) (j : Nat) (u : Uop) : Prop :=
  let a := s.archBefore j
  let r := u.view.result a
  (∀ n d, u.dst[n]? = some (some d) →
    s.prfOf d.cls d.fresh = r.value n (u.view.loaded s.cfg.endian a) % 2 ^ s.cfg.vw d.cls) ∧
  u.unmodelled = r.unmodelled ∧
  (u.cat = some .branch ∨ u.cat = some .jump →
    u.redirectPc = r.nextPc ∧ u.mispredict = decide (r.nextPc ≠ predNext u.hasDs u)) ∧
  (u.cat = some .load ∨ u.cat = some .store → u.maddr = r.addr ∧ u.msize = r.size) ∧
  (u.cat = some .store → u.mdata = storeBits r.size r.data)

/-- Values flow through the ROB as in sequential execution (10_state.md R43): each source slot has the
mapping of its register at that place, a new register is valid only when its micro-op is complete, an
executed micro-op had all its sources valid, and, unless a load that read too early stands at or before
it, holds what sequential execution computes.  Outside recovery every load in the ROB stands in the
load table, where the ordering check finds it (20_memory.md R64).  Only control transfers have a delay
slot. -/
abbrev State.dataflowOk (s : State) : Prop :=
  (∀ h ∈ s.dq, ∀ u ∈ s.uop? h, u.hasDs = true → u.cat = some .branch ∨ u.cat = some .jump) ∧
  (s.recovery = false → ∀ h ∈ s.robList, ∀ u ∈ s.uop? h, u.cat = some .load → h ∈ s.lq) ∧
  ∀ j (u : Uop), s.program[j]? = some u →
    (u.hasDs = true → u.cat = some .branch ∨ u.cat = some .jump) ∧
    (∀ x ∈ u.sources, RegRef.inRange s.cfg ⟨x.cls, x.arch⟩ = true ∧
      x.phys = s.tagBefore j x.cls x.arch) ∧
    (∀ d ∈ u.dests, s.validOf d.cls d.fresh = true → u.complete = true) ∧
    (u.executed = true → s.sourcesValid u = true) ∧
    (u.executed = true → (∀ i ≤ j, ¬s.staleLoad i) → s.executedSequentially j u)

/-! ## Registers -/

/-- Every register keeps within the width of its class (10_state.md R24). -/
abbrev State.valuesFit (s : State) : Prop := ∀ c p, s.prfOf c p < 2 ^ s.cfg.vw c

/-- The wired-zero register of a class: mapped to itself, busy, valid and 0 (10_state.md R27). -/
abbrev State.zeroWired (s : State) : Prop :=
  ∀ c < s.cfg.classes.length, ∀ z ∈ s.cfg.zr c,
    s.ratOf c z = z ∧ s.freeOf c z = false ∧ s.validOf c z = true ∧ s.prfOf c z = 0

end Machine

end Sys2Proof
end

