-- ==== Sys2Proof/Certificates/Slice0/Obligations.lean ====
section
/-!
DEFINITION. The statements for the provers, each from the rules of spec/ its docstring names.  The
instruction's operands, its record `u` and the state are arbitrary unless a premise says otherwise;
what a statement says nothing of, its frame says is unchanged.
-/

open Sys2Proof Sys2Proof.Machine

/-! ## Descriptors (30_encoding.md) -/

/-- Decoding the encoded form of a well-formed micro-op gives it back, under every admitted
configuration (30_encoding.md R81 to R84).  The order of the operand fields is the model's: log entry
7. -/
def Obligations.DecodeEncodeRoundTrip : Prop :=
  ∀ (cfg : Config) (i : Instr), cfg.admitted = true → i.wellFormed cfg = true →
    decode cfg (encode cfg i) = .ok i

/-- What the decoder accepts is well formed and is what the bits say: `cat` in `H[3:0]`, `ds` in
`H[4]`, `H[7:5]` zero, `ds` only for `BRANCH` and `JUMP` (30_encoding.md R81, R82, R89). Model
choices: log entry 7. -/
def Obligations.DecodedMicroOpIsWellFormed : Prop :=
  ∀ (cfg : Config) (bits : Nat) (i : Instr), decode cfg bits = .ok i →
    i.wellFormed cfg = true ∧ i.category.code = bits % 16 ∧ bits / 32 % 8 = 0 ∧
      (i.ds = true ↔ bits / 16 % 2 = 1) ∧ i.operands = decodeOperands cfg bits

/-- The decode stage refuses a descriptor with `BAD_DESCRIPTOR` when one of the conditions of
30_encoding.md R89 holds or its Operation is an atomic, in whatever category (20_memory.md R71), and
otherwise moves the micro-op the bits name to the decode queue (60_exceptions.md R275). Stated for
every test of what is an atomic. Which bits are the operand fields is the model's, and that an
atomic in a category other than LOAD and STORE ends the run with this event: log entries 7 and 25.
-/
def Obligations.DescriptorRefusedExactly : Prop :=
  ∀ (isAtomic : OpHandle → Bool) (s : State) (h : Handle) (u : Uop) (d : Descriptor),
    let o := decodeOperands s.cfg d.bits
    let bad :=
      8 ≤ d.bits % 16 ∨ d.bits / 32 % 8 ≠ 0 ∨
      (d.bits / 16 % 2 = 1 ∧ d.bits % 16 ≠ 2 ∧ d.bits % 16 ≠ 3) ∨
      decide (d.bits / 16 % 2 = 1) ≠ u.hasDs ∨
      (∃ r ∈ Operands.present (o.src ++ o.dst),
        s.cfg.classes.length ≤ r.cls ∨ s.cfg.na r.cls ≤ r.arch) ∨
      (∃ r ∈ Operands.present o.dst, s.cfg.zr r.cls = some r.arch) ∨
      ¬(Operands.present o.dst).Nodup ∨
      isAtomic d.op = true
    (bad → decodeAs isAtomic (some d) h u s = s.raise (.badDescriptor u.pc u.insn)) ∧
    (¬bad → ∃ i : Instr, i.category.code = d.bits % 16 ∧ i.ds = u.hasDs ∧ i.operands = o ∧
      i.wellFormed s.cfg = true ∧
      decodeAs isAtomic (some d) h u s = (s.setUop h (u.decodedAs d.op i s.cycle)).moveToDq h)

/-- Header bytes and operand fields written out from 30_encoding.md R81, R82 and R84 decode to the
micro-ops they stand for, and four words are refused by name: the headers `0x08`, `0x14` and `0x20`
of 95_test_vectors.md EN7 to EN9, and header `0x00` with the wired-zero destination of EN11. The
words are decoded under `Config.atReset`, and that configuration and the order of the operand fields
are the model's: log entries 2 and 7. -/
def Obligations.TableWordsDecode : Prop :=
  decodeTableWord 8 0x00 = some (.aluImm ⟨[none, none, none], [none]⟩) ∧
  decodeTableWord 40 0x8300828101 =
    some (.aluReg ⟨[some ⟨0, 1⟩, some ⟨0, 2⟩, none], [some ⟨0, 3⟩]⟩) ∧
  decodeTableWord 32 0x00808112 = some (.branch true ⟨[some ⟨0, 1⟩, some ⟨0, 0⟩, none], [none]⟩) ∧
  decodeTableWord 40 0x9f00000013 = some (.jump true ⟨[none, none, none], [some ⟨0, 31⟩]⟩) ∧
  decodeTableWord 40 0x8500008404 = some (.load ⟨[some ⟨0, 4⟩, none, none], [some ⟨0, 5⟩]⟩) ∧
  decodeTableWord 32 0x00818405 = some (.store ⟨[some ⟨0, 4⟩, some ⟨0, 1⟩, none], [none]⟩) ∧
  decodeTableWord 8 0x06 = some (.system ⟨[none, none, none], [none]⟩) ∧
  decodeTableWord 40 0xa200a1a007 =
    some (.fp ⟨[some ⟨1, 0⟩, some ⟨1, 1⟩, none], [some ⟨1, 2⟩]⟩) ∧
  decode Config.atReset 0x08 = .error .reservedCategory ∧
  decode Config.atReset 0x14 = .error .dsOnNonCti ∧
  decode Config.atReset 0x20 = .error .reservedHeaderBits ∧
  decode Config.atReset 0x8000000000 = .error .destinationWiredZero

/-- The record the decode stage writes holds the micro-op its descriptor names, the one the later
stages dispatch (30_encoding.md R81, 44_cycle.md R224). -/
def Obligations.DecodedRecordHoldsMicroOp : Prop :=
  ∀ (cfg : Config) (u : Uop) (op : OpHandle) (atomic : Bool) (bits : Nat) (now : Nat) (i : Instr),
    checkDescriptor cfg u.hasDs atomic bits = .ok i → (u.decodedAs op i now).instr = some i

/-! ## Allocate (44_cycle.md R226, 40_rename.md, 42_scheduler.md) -/

/-- The grant takes the lowest free register of the class and clears its free bit, and no other
(40_rename.md R103). -/
def Obligations.GrantTakesLowestFree : Prop :=
  ∀ (s : State) (r : RegRef), 1 ≤ s.avail r.cls →
    let p := s.firstFree r.cls
    (s.renameDest r).2.fresh = p ∧
    s.freeOf r.cls p = true ∧ (∀ q < p, s.freeOf r.cls q = false) ∧
    ∀ c q, (s.renameDest r).1.freeOf c q = if c = r.cls ∧ q = p then false else s.freeOf c q

/-- Renaming destinations: each slot records the mapping its register had and a register that was
free, distinct for distinct slots and rising within a class; the alias table maps the register to the
new one, which is busy and pending; nothing else of the maps changes (40_rename.md R105). -/
def Obligations.RenameDestsRecordsAndMaps : Prop :=
  ∀ (s : State) (fs : List (Option RegRef)), s.renameShaped →
    (∀ r ∈ Operands.present fs, r.inRange s.cfg = true) → (Operands.present fs).Nodup →
    s.canRename fs = true →
    let t := (renameDests s fs).1
    let slots := (renameDests s fs).2
    slots.map (fun f => f.map fun d => RegRef.mk d.cls d.arch) = fs ∧
    (∀ d ∈ presentSlots slots,
      d.prev = s.ratOf d.cls d.arch ∧ s.freeOf d.cls d.fresh = true ∧
      t.ratOf d.cls d.arch = d.fresh ∧ t.freeOf d.cls d.fresh = false ∧
      t.validOf d.cls d.fresh = false) ∧
    (∀ c, (((presentSlots slots).filter fun d => d.cls = c).map DstSlot.fresh).Pairwise (· < ·)) ∧
    (∀ c a, (⟨c, a⟩ : RegRef) ∉ Operands.present fs → t.ratOf c a = s.ratOf c a) ∧
    (∀ c p, (∀ d ∈ presentSlots slots, ¬(d.cls = c ∧ d.fresh = p)) →
      t.freeOf c p = s.freeOf c p ∧ t.validOf c p = s.validOf c p) ∧
    t.prf = s.prf

/-- Renaming and then at once restoring leaves the alias tables and the free lists as they were
(40_rename.md R113). -/
def Obligations.RenameThenRestore : Prop :=
  ∀ (s : State) (fs : List (Option RegRef)), s.canRename fs = true →
    let r := renameDests s fs
    (restoreDests r.1 r.2).rat = s.rat ∧ (restoreDests r.1 r.2).free = s.free

/-- The port arbiter takes the first station with room, searching from the round-robin pointer, and
none only when none has room; committing to a station moves the pointer past it (42_scheduler.md
R160). -/
def Obligations.PortArbiterRoundRobin : Prop :=
  ∀ (s : State) (k : FuClass),
    (∀ i, s.selectStation k = some i ↔ ∃ n < s.cfg.ns k, i = (s.rrOf k + n) % s.cfg.ns k ∧
      (s.station k i).length < (s.cfg.port k i).cap ∧
      ∀ m < n, (s.cfg.port k ((s.rrOf k + m) % s.cfg.ns k)).cap ≤
        (s.station k ((s.rrOf k + m) % s.cfg.ns k)).length) ∧
    (s.selectStation k = none ↔ ∀ i < s.cfg.ns k, (s.cfg.port k i).cap ≤ (s.station k i).length) ∧
    (k.code < s.rr.length → ∀ i, (s.commitStation k i).rrOf k = (i + 1) % s.cfg.ns k)

/-- A micro-op of any category that lacks a resource is not placed and blocks everything after it:
the allocate stage changes nothing (44_cycle.md R225, R226, 41_rob_commit.md R131, 40_rename.md
R101, 20_memory.md R64, R65). Model choices: log entry 6. -/
def Obligations.AllocateStageWaits : Prop :=
  ∀ (i : Instr) (s : State) (h : Handle) (rest : List Handle) (u : Uop),
    s.method = .allocate → s.stageActive = true → s.dq = h :: rest → s.uop? h = some u →
    u.instr = some i →
    ((∀ d ∈ u.tDecode, s.cycle ≤ d) ∨ s.robCount = s.cfg.robN ∨
      (∃ c, s.avail c < need i.operands.dst c) ∨
      (∀ j < s.cfg.ns i.category.fu,
        (s.cfg.port i.category.fu j).cap ≤ (s.station i.category.fu j).length) ∨
      (i.category = .load ∧ s.cfg.lqN ≤ s.lq.length) ∨
      (i.category = .store ∧ s.cfg.sqN ≤ s.sq.length)) →
    exec i s = .next s ∧ allocateStage s = .next s

/-- A micro-op of any category that has every resource is placed whole: renamed, given an age,
pushed at the tail of the ROB, inserted at the front of a station of its class, entered in the load
or store table, and popped from the decode queue (44_cycle.md R226, 40_rename.md R104 to R106,
41_rob_commit.md R130, 42_scheduler.md R160, R161). Model choices: log entry 6. -/
def Obligations.AllocatePlacesMicroOp : Prop :=
  ∀ (i : Instr) (s : State) (h : Handle) (rest : List Handle) (u : Uop) (d : Nat),
    s.method = .allocate → s.dq = h :: rest → s.uop? h = some u → s.queuesShaped →
    s.cfg.ports.length = 6 → u.tDecode = some d → d < s.cycle → s.robCount < s.cfg.robN →
    (∀ c, need i.operands.dst c ≤ s.avail c) →
    (∃ j < s.cfg.ns i.category.fu,
      (s.station i.category.fu j).length < (s.cfg.port i.category.fu j).cap) →
    (i.category = .load → s.lq.length < s.cfg.lqN) →
    (i.category = .store → s.sq.length < s.cfg.sqN) →
    ∃ t j, exec i s = .next t ∧ s.selectStation i.category.fu = some j ∧
      t.uop? h = some { u with
        src := i.operands.src.map fun f => f.map fun r => ⟨r.cls, r.arch, s.ratOf r.cls r.arch⟩
        dst := (renameDests s i.operands.dst).2
        seq := s.seqNext
        tAlloc := some s.cycle
        state := .allocated
        station := some (i.category.fu, j) } ∧
      t.rat = (renameDests s i.operands.dst).1.rat ∧
      t.free = (renameDests s i.operands.dst).1.free ∧
      t.valid = (renameDests s i.operands.dst).1.valid ∧
      t.robList = s.robList ++ [h] ∧ t.robCount = s.robCount + 1 ∧
      (∀ k n, t.station k n =
        if k = i.category.fu ∧ n = j then h :: s.station k n else s.station k n) ∧
      (∀ k, t.rrOf k = if k = i.category.fu then (j + 1) % s.cfg.ns k else s.rrOf k) ∧
      t.lq = (if i.category = .load then s.lq ++ [h] else s.lq) ∧
      t.sq = (if i.category = .store then s.sq ++ [h] else s.sq) ∧
      t.dq = rest ∧ t.seqNext = s.seqNext + 1 ∧
      t.prf = s.prf ∧ sameMemory s t ∧ t.fq = s.fq ∧ t.fetchPc = s.fetchPc ∧
      t.pendingTarget = s.pendingTarget ∧ t.predictCalls = s.predictCalls ∧ sameControl s t ∧
      sameRun s t ∧ t.method = s.method ∧ sameOtherUops h s t

/-! ## Execute (42_scheduler.md R164, R165) -/

/-- Executing `ALU_IMM`, `ALU_REG`, `SYSTEM` and `FP`: the micro-op leaves its station, its results
go to its new registers, and its record notes the issue cycle, the `unmodelled` bit and the
completion cycle (42_scheduler.md R164, R165; 45_uop_categories.md R250, R251, R256, R257). Model
choices: log entries 6, 10, 15. -/
def Obligations.ExecutePlainMicroOp : Prop :=
  ∀ (o : Operands) (i : Instr) (s : State) (h : Handle) (u : Uop),
    i ∈ [Instr.aluImm o, .aluReg o, .system o, .fp o] →
    s.method = .execute h → s.uop? h = some u → s.renameShaped →
    (∀ d ∈ u.dests, d.inRange s.cfg) → (u.dests.map fun d => (d.cls, d.fresh)).Nodup →
    let u1 := { u with station := none, state := .executed, tExec := some s.cycle }
    let r := Config.exec u.view (u.sources.map fun q => s.prfOf q.cls q.phys)
    let u2 := { u1 with unmodelled := r.unmodelled, executed := true }
    ∃ t, exec i s = .next t ∧ t.uop? h = some { u2 with tDue := some (s.cycle + Config.lat u2) } ∧
      resultsWritten u.dst (fun j => r.value j 0) s t ∧ stationLeft h u.station s t ∧
      executeFrame h s t

/-- Executing `BRANCH` and `JUMP`: besides, the record notes the next pc, and a misprediction
exactly when it is not the one fetch assumed (42_scheduler.md R164, R165, R168; 45_uop_categories.md
R252, R253). Model choices: log entries 6, 10, 15. -/
def Obligations.ExecuteControlTransfer : Prop :=
  ∀ (ds : Bool) (o : Operands) (i : Instr) (s : State) (h : Handle) (u : Uop),
    i ∈ [Instr.branch ds o, .jump ds o] →
    s.method = .execute h → s.uop? h = some u → s.renameShaped →
    (∀ d ∈ u.dests, d.inRange s.cfg) → (u.dests.map fun d => (d.cls, d.fresh)).Nodup →
    let u1 := { u with station := none, state := .executed, tExec := some s.cycle }
    let r := Config.exec u.view (u.sources.map fun q => s.prfOf q.cls q.phys)
    let assumed := if u.predTaken then u.predTarget else if ds then u.pc + 8 else u.pc + 4
    let u2 := { u1 with
      redirectPc := r.nextPc
      mispredict := decide (r.nextPc ≠ assumed)
      unmodelled := r.unmodelled
      executed := true }
    ∃ t, exec i s = .next t ∧ t.uop? h = some { u2 with tDue := some (s.cycle + Config.lat u2) } ∧
      resultsWritten u.dst (fun j => r.value j 0) s t ∧ stationLeft h u.station s t ∧
      executeFrame h s t

/-- Executing `LOAD`: besides, it reads the bytes memory holds now at the address and of the size
its `Exec` computes, and its record notes both (42_scheduler.md R164, R165, 20_memory.md R68,
45_uop_categories.md R254). Model choices: log entries 6, 10, 15, 24. -/
def Obligations.ExecuteLoad : Prop :=
  ∀ (o : Operands) (s : State) (h : Handle) (u : Uop),
    s.method = .execute h → s.uop? h = some u → s.renameShaped →
    (∀ d ∈ u.dests, d.inRange s.cfg) → (u.dests.map fun d => (d.cls, d.fresh)).Nodup →
    let u1 := { u with station := none, state := .executed, tExec := some s.cycle }
    let r := Config.exec u.view (u.sources.map fun q => s.prfOf q.cls q.phys)
    let u2 := { u1 with
      maddr := r.addr, msize := r.size, unmodelled := r.unmodelled, executed := true }
    ∃ t, exec (.load o) s = .next t ∧
      t.uop? h = some { u2 with tDue := some (s.cycle + Config.lat u2) } ∧
      resultsWritten u.dst (fun j => r.value j (memRead s.cfg.endian s.mem r.addr r.size)) s t ∧
      stationLeft h u.station s t ∧ executeFrame h s t

/-- Executing `STORE`: its record notes the address, the size and the data of that size; nothing is
written to memory (42_scheduler.md R164, R165, 45_uop_categories.md R255). Model choices: log
entries 6, 10, 15, 19. -/
def Obligations.ExecuteStore : Prop :=
  ∀ (o : Operands) (s : State) (h : Handle) (u : Uop),
    s.method = .execute h → s.uop? h = some u → s.renameShaped →
    (∀ d ∈ u.dests, d.inRange s.cfg) → (u.dests.map fun d => (d.cls, d.fresh)).Nodup →
    let u1 := { u with station := none, state := .executed, tExec := some s.cycle }
    let r := Config.exec u.view (u.sources.map fun q => s.prfOf q.cls q.phys)
    let u2 := { u1 with
      maddr := r.addr
      msize := r.size
      mdata := BitVec.ofNat 64 (r.data.toNat % 2 ^ (8 * r.size.bytes))
      unmodelled := r.unmodelled
      executed := true }
    ∃ t, exec (.store o) s = .next t ∧
      t.uop? h = some { u2 with tDue := some (s.cycle + Config.lat u2) } ∧
      resultsWritten u.dst (fun j => r.value j 0) s t ∧ stationLeft h u.station s t ∧
      executeFrame h s t

/-- Every station issues its eligible micro-ops up to its width: every one that leaves it was eligible
(its sources valid, and `MIN_READY_LAT` cycles after the ready stamp), is executed in this cycle, and
stands in the scan order before every eligible one that stays; at most `ISSUE_W` leave; if fewer left,
none of those that stay is eligible; and every one that stays has at most gained its ready stamp
(42_scheduler.md R162, R163, R164, R166). -/
def Obligations.StationsIssueUpToWidth : Prop :=
  ∀ (s t : State), s.wellFormed → s.stageActive = true → executeStage s = .next t →
    let stamped := fun u : Uop =>
      if s.sourcesValid u = true ∧ u.tReady = none then { u with tReady := some s.cycle } else u
    let eligible := fun u : Uop =>
      s.sourcesValid u = true ∧ ∃ n ∈ (stamped u).tReady, n + s.cfg.minReadyLat ≤ s.cycle
    ∀ p ∈ s.cfg.stations,
      (t.station p.1 p.2).Sublist (s.station p.1 p.2) ∧
      (s.station p.1 p.2).length ≤ (t.station p.1 p.2).length + (s.cfg.port p.1 p.2).width ∧
      (∀ h ∈ t.station p.1 p.2, ∃ u, s.uop? h = some u ∧ t.uop? h = some (stamped u) ∧
        ((s.station p.1 p.2).length < (t.station p.1 p.2).length + (s.cfg.port p.1 p.2).width →
          ¬eligible u)) ∧
      ∀ h ∈ s.station p.1 p.2, h ∉ t.station p.1 p.2 → ∃ u v,
        s.uop? h = some u ∧ t.uop? h = some v ∧ eligible u ∧ v.state = .executed ∧
        v.executed = true ∧ v.tExec = some s.cycle ∧ v.tReady = (stamped u).tReady ∧
        ∀ g ∈ t.station p.1 p.2, ∀ w, s.uop? g = some w → eligible w →
          [h, g].Sublist (s.scanOrder (s.station p.1 p.2))

/-- The scan order of a station is the list itself, newest first, or the list sorted by increasing
age (42_scheduler.md R166). -/
def Obligations.ScanOrderFollowsParameter : Prop :=
  ∀ (s : State) (l : List Handle), (∀ h ∈ l, s.uop? h ≠ none) →
    (s.cfg.issueOrder = .newestFirst → s.scanOrder l = l) ∧
    (s.cfg.issueOrder = .oldestFirst →
      (s.scanOrder l).Perm l ∧
      ((s.scanOrder l).filterMap s.uop?).Pairwise fun u v => u.seq ≤ v.seq)

/-! ## Complete (42_scheduler.md R167, 40_rename.md R108) -/

/-- Completing a micro-op of any category publishes it: the flag, the cycle, and the validity bit of
each new register (40_rename.md R108). Model choices: log entry 6. -/
def Obligations.CompletePublishes : Prop :=
  ∀ (i : Instr) (s : State) (h : Handle) (u : Uop),
    s.method = .complete h → s.uop? h = some u → u.complete = false → s.renameShaped →
    (∀ d ∈ u.dests, d.inRange s.cfg) →
    ∃ t, exec i s = .next t ∧
      t.uop? h = some { u with complete := true, tComplete := some s.cycle, state := .complete } ∧
      (∀ c p, t.validOf c p =
        (s.validOf c p || u.dests.any fun d => decide (d.cls = c ∧ d.fresh = p))) ∧
      sameMaps s t ∧ t.prf = s.prf ∧ sameMemory s t ∧ sameRob s t ∧ sameScheduler s t ∧
      sameFront s t ∧ sameControl s t ∧ sameRun s t ∧ t.seqNext = s.seqNext ∧
      t.method = s.method ∧ sameOtherUops h s t

/-- Completing a micro-op a second time, in whatever cycle, changes nothing (40_rename.md R109). -/
def Obligations.CompleteTwiceIsOnce : Prop :=
  ∀ (i j : Instr) (s t : State) (h : Handle) (now : Nat),
    s.method = .complete h → exec i s = .next t →
    exec j { t with cycle := now } = .next { t with cycle := now }

/-- The complete stage completes every ROB entry that is due, with no limit, and no other: those
executed, not complete, whose completion cycle has arrived (42_scheduler.md R167). -/
def Obligations.CompleteStageCompletesAllDue : Prop :=
  ∀ (s : State), s.wellFormed → s.renameShaped → (∀ d ∈ s.robDests, d.inRange s.cfg) →
    s.stageActive = true →
    let due := fun u : Uop =>
      u.executed = true ∧ u.complete = false ∧ ∃ n ∈ u.tDue, n ≤ s.cycle
    ∃ t, completeStage s = .next t ∧
      (∀ h ∈ s.robList, ∀ u, s.uop? h = some u →
        (due u → t.uop? h =
          some { u with complete := true, tComplete := some s.cycle, state := .complete }) ∧
        (¬due u → t.uop? h = some u)) ∧
      (∀ h, h ∉ s.robList → t.uop? h = s.uop? h) ∧
      (∀ c p, t.validOf c p = true ↔ s.validOf c p = true ∨
        ∃ h ∈ s.robList, ∃ u ∈ s.uop? h, due u ∧ ∃ d ∈ u.dests, d.cls = c ∧ d.fresh = p) ∧
      sameMaps s t ∧ t.prf = s.prf ∧ sameMemory s t ∧ sameRob s t ∧ sameScheduler s t ∧
      sameFront s t ∧ sameControl s t ∧ sameRun s t ∧ t.seqNext = s.seqNext

/-! ## Retire (41_rob_commit.md) -/

/-- Retiring `ALU_IMM`, `ALU_REG`, `BRANCH`, `JUMP`, `SYSTEM` and `FP`: the previous registers are
freed, the head leaves the ROB and is counted, and memory is not written (41_rob_commit.md R138,
40_rename.md R110). Model choices: log entries 5, 6, 12, 18. -/
def Obligations.RetirePlainMicroOp : Prop :=
  ∀ (ds : Bool) (o : Operands) (i : Instr) (s : State) (u : Uop),
    i ∈ [Instr.aluImm o, .aluReg o, .branch ds o, .jump ds o, .system o, .fp o] →
    s.method = .retire → s.robCount ≠ 0 → s.uop? (s.robAt 0) = some u →
    u.insn = imem s.cfg.endian s.mem u.pc → u.unmodelled = false →
    s.renameShaped → (∀ d ∈ u.dests, d.inRange s.cfg) →
    ∃ t, exec i s = .next t ∧ previousReleased u.dests s t ∧ headRetired (s.robAt 0) u s t ∧
      sameMemory s t ∧ t.lq = s.lq ∧ t.sq = s.sq ∧ sameOtherUops (s.robAt 0) s t ∧
      retireFrame s t

/-- Retiring `LOAD`: besides, it leaves the load table (41_rob_commit.md R138, 20_memory.md R64).
Model choices: log entries 5, 6, 12, 18. -/
def Obligations.RetireLoad : Prop :=
  ∀ (o : Operands) (s : State) (u : Uop),
    s.method = .retire → s.robCount ≠ 0 → s.uop? (s.robAt 0) = some u →
    u.insn = imem s.cfg.endian s.mem u.pc → u.unmodelled = false →
    s.renameShaped → (∀ d ∈ u.dests, d.inRange s.cfg) →
    ∃ t, exec (.load o) s = .next t ∧ previousReleased u.dests s t ∧
      headRetired (s.robAt 0) u s t ∧ sameMemory s t ∧ t.lq = s.lq.filter (· ≠ s.robAt 0) ∧
      t.sq = s.sq ∧ sameOtherUops (s.robAt 0) s t ∧ retireFrame s t

/-- Retiring `STORE`: byte `k` of the range at its address holds the byte of its data that `ENDIAN`
puts there and every other byte of memory what it held; every younger load that has read an
overlapping range is flagged; the store leaves the store table (41_rob_commit.md R138, 20_memory.md
R60, R61, R65, R66). Model choices: log entries 5, 6, 12, 13, 18. -/
def Obligations.RetireStore : Prop :=
  ∀ (o : Operands) (s : State) (u : Uop),
    s.method = .retire → s.robCount ≠ 0 → s.uop? (s.robAt 0) = some u →
    u.insn = imem s.cfg.endian s.mem u.pc → u.unmodelled = false →
    s.renameShaped → (∀ d ∈ u.dests, d.inRange s.cfg) → s.memoryCanonical →
    (∀ l ∈ s.lq, s.uop? l ≠ none) →
    let n := u.msize.bytes
    ∃ t, exec (.store o) s = .next t ∧
      (∀ k < n, memByte t.mem (u.maddr + BitVec.ofNat 32 k).toNat =
        BitVec.ofNat 8 (u.mdata.toNat /
          256 ^ (if s.cfg.endian = .little then k else n - 1 - k))) ∧
      (∀ a, (∀ k < n, a ≠ (u.maddr + BitVec.ofNat 32 k).toNat) →
        memByte t.mem a = memByte s.mem a) ∧
      (∀ l, l ≠ s.robAt 0 → t.uop? l = if l ∈ s.lq then
          (s.uop? l).map fun w =>
            if u.seq < w.seq ∧ w.executed = true ∧
                overlap w.maddr w.msize u.maddr u.msize = true then
              { w with loadViolation := true }
            else w
        else s.uop? l) ∧
      previousReleased u.dests s t ∧ headRetired (s.robAt 0) u s t ∧ t.lq = s.lq ∧
      t.sq = s.sq.filter (· ≠ s.robAt 0) ∧ retireFrame s t

/-- A micro-op of any category whose `Exec` met a behaviour without a meaning ends the run when it
reaches retire, with its `pc` and its word (60_exceptions.md R276). One whose word an older store
has overwritten since its fetch is refused there: the program is outside the admitted ones
(20_memory.md R72, 93_implementation_defined.md section 1). Model choices: log entries 6, 17, 18,
26. -/
def Obligations.UnmodelledEndsRunAtRetire : Prop :=
  ∀ (i : Instr) (s : State) (u : Uop),
    s.method = .retire → s.robCount ≠ 0 → s.uop? (s.robAt 0) = some u →
    (u.insn = imem s.cfg.endian s.mem u.pc → u.unmodelled = true →
      exec i s = .next (s.raise (.unmodelled u.pc u.insn))) ∧
    (u.insn ≠ imem s.cfg.endian s.mem u.pc → exec i s = .refused (.staleWord u.pc))

/-- Two byte ranges overlap exactly when they share a byte, compared without wrap-around
(20_memory.md R67). -/
def Obligations.OverlapIffByteShared : Prop :=
  ∀ (a1 : Addr) (n1 : MemSize) (a2 : Addr) (n2 : MemSize),
    overlap a1 n1 a2 n2 = true ↔
      ∃ x : Nat, a1.toNat ≤ x ∧ x < a1.toNat + n1.bytes ∧ a2.toNat ≤ x ∧ x < a2.toNat + n2.bytes

/-- Reading what was just written gives it back, in the width written; a read of bytes that were not
written gives what it gave (20_memory.md R60, R61, R75). Model choices: log entry 13. -/
def Obligations.ReadAfterWrite : Prop :=
  ∀ (e : Endian) (m : Memory) (a b : Addr) (n k : MemSize) (v : BitVec 64), Memory.wf m = true →
    memRead e (memWrite e m a n v) a n = BitVec.ofNat 64 (v.toNat % 2 ^ (8 * n.bytes)) ∧
    ((∀ x < n.bytes, ∀ y < k.bytes, a + BitVec.ofNat 32 x ≠ b + BitVec.ofNat 32 y) →
      memRead e (memWrite e m a n v) b k = memRead e m b k)

/-- A head with a delay slot is not committed before its successor is in the ROB and resolved: retire
waits in `AWAIT_SUCC` and changes nothing else (41_rob_commit.md R133, R134). -/
def Obligations.RetireAwaitsSuccessor : Prop :=
  ∀ (s : State) (u : Uop), s.cfg.admitted = true → s.status = .running → s.rstate ≠ .unwind →
    s.robCount ≠ 0 → s.uop? (s.robAt 0) = some u → s.resolved u = true → u.hasDs = true →
    (s.robCount < 2 ∨ ∃ v ∈ s.uop? (s.robAt 1), s.resolved v = false) →
    retireStage s = .next (s.setRstate .awaitSucc)

/-- The retire stage stops, changing nothing but `rstate`, at a head that is not resolved: not
complete, or completed in this same cycle (41_rob_commit.md R132). -/
def Obligations.RetireStopsAtUnresolvedHead : Prop :=
  ∀ (s : State) (u : Uop), s.status = .running → s.rstate ≠ .unwind → s.robCount ≠ 0 →
    s.uop? (s.robAt 0) = some u →
    (u.complete = false ∨ ∀ n ∈ u.tComplete, s.cycle ≤ n) →
    retireStage s = .next (s.setRstate .run)

/-- A resolved head that carries no flag is committed, and so is a resolved head with its resolved
delay slot, both in one cycle, whatever `RETIRE_W`: the retire stage goes on to count them and to hand
over their commit records (41_rob_commit.md R133, R134, R137). Model choices: log entries 5, 18. -/
def Obligations.ResolvedHeadRetires : Prop :=
  ∀ (s : State) (u : Uop) (us : List Uop), s.wellFormed → s.codeStable → s.status = .running →
    s.recovery = false → s.robCount ≠ 0 → s.uop? (s.robAt 0) = some u → s.resolved u = true →
    (u.hasDs = false ∧ u.loadViolation = false ∧ us = [u] ∨
      u.hasDs = true ∧ 2 ≤ s.robCount ∧ (∃ v, s.uop? (s.robAt 1) = some v ∧ s.resolved v = true ∧
        v.isCti = false ∧ v.loadViolation = false ∧ us = [u, v]) ∧
      (s.cfg.oracle = true → Config.oracleOk (s.retiredCount + 1) (s.commitRecord u) = true) ∧
      s.cfg.maxInsns ≠ some (s.retiredCount + 1)) →
    (∀ w ∈ us, w.unmodelled = false) →
    ∃ t, retireStage s = .next t ∧ s.retiredCount + us.length ≤ t.retiredCount ∧
      (s.commits ++ us.map fun w => s.commitRecord w) <+: t.commits

/-- A successor that is itself a control transfer, with or without a delay slot of its own, ends the
run when the pair is ready to commit, with the successor's `pc` (60_exceptions.md R277,
45_uop_categories.md R252). That one without a delay slot counts too is read from R252 and D21: log
entry 14. That it comes before the refusal of an overwritten word is the model's: log entry 26. -/
def Obligations.ControlTransferInDelaySlotEndsRun : Prop :=
  ∀ (s : State) (u v : Uop), s.cfg.admitted = true → s.status = .running → s.rstate ≠ .unwind →
    2 ≤ s.robCount → s.uop? (s.robAt 0) = some u → s.uop? (s.robAt 1) = some v →
    s.resolved u = true → s.resolved v = true → u.hasDs = true →
    (v.hasDs = true ∨ v.cat = some .branch ∨ v.cat = some .jump) →
    retireStage s = .next (s.raise (.ctiInDelaySlot v.pc))

/-- A cycle retires at most `RETIRE_W` micro-ops, or 2 when `RETIRE_W` is 1 (41_rob_commit.md R135,
70_reset_and_hazards.md R307). -/
def Obligations.RetireBandwidth : Prop :=
  ∀ (s t : State), step s = .next t →
    t.retiredCount ≤ s.retiredCount + (if s.cfg.retireW = 1 then 2 else s.cfg.retireW)

/-- Micro-ops commit in ROB order: the records a step commits are those of the oldest entries,
oldest first, one for each retirement (41_rob_commit.md R136). Model choices: log entry 5. -/
def Obligations.CommitsInProgramOrder : Prop :=
  ∀ (s t : State), s.wellFormed → step s = .next t →
    ∃ k ≤ s.robCount, t.retiredCount = s.retiredCount + k ∧
      t.commits = s.commits ++
        ((s.robList.take k).filterMap s.uop?).map fun u => s.commitRecord u

/-- Memory changes only by the stores a step commits, one at a time, in commit order (20_memory.md
R65). Model choices: log entry 5. -/
def Obligations.MemoryIsCommittedStores : Prop :=
  ∀ (s t : State), step s = .next t →
    ∃ rs, t.commits = s.commits ++ rs ∧ t.mem = storesOf s.cfg.endian rs s.mem

/-! ## Speculative exceptions and rollback (43_rollback.md) -/

/-- Rolling back a micro-op of any category undoes its rename: its registers map to the previous
ones again, the new ones are free, the entry leaves the tail of the ROB and its arena slot is free
(43_rollback.md R196, 40_rename.md R112). Model choices: log entries 5, 6. -/
def Obligations.RollbackUndoesMicroOp : Prop :=
  ∀ (i : Instr) (s : State) (u : Uop),
    s.method = .rollback → s.robCount ≠ 0 → s.uop? (s.robAt (s.robCount - 1)) = some u →
    s.renameShaped → (∀ d ∈ u.dests, d.inRange s.cfg) →
    (u.dests.map fun d => (d.cls, d.arch)).Nodup →
    ∃ t, exec i s = .next t ∧
      (∀ d ∈ u.dests, t.ratOf d.cls d.arch = d.prev) ∧
      (∀ c a, (∀ d ∈ u.dests, ¬(d.cls = c ∧ d.arch = a)) → t.ratOf c a = s.ratOf c a) ∧
      (∀ c p, t.freeOf c p =
        (s.freeOf c p || u.dests.any fun d => decide (d.cls = c ∧ d.fresh = p))) ∧
      t.robList = s.robList.dropLast ∧ t.robCount = s.robCount - 1 ∧
      t.robTail = (s.robTail + s.cfg.robN - 1) % s.cfg.robN ∧
      t.uop? (s.robAt (s.robCount - 1)) = none ∧
      t.log = s.log ++ [.left { u with state := .rolledBack }] ∧
      t.prf = s.prf ∧ t.valid = s.valid ∧ sameMemory s t ∧ sameScheduler s t ∧ sameFront s t ∧
      sameControl s t ∧ t.status = s.status ∧ t.retiredCount = s.retiredCount ∧
      t.lastRetireCycle = s.lastRetireCycle ∧ t.lastMatch = s.lastMatch ∧
      t.seqNext = s.seqNext ∧ t.method = s.method ∧
      sameOtherUops (s.robAt (s.robCount - 1)) s t

/-- Taking a speculative exception: both queues, every station and both tables are emptied, the
micro-ops of the queues are discarded and those of the stations stay in the ROB without a station;
the target is held, nothing else is saved, and the event is reported (43_rollback.md R192, R194,
60_exceptions.md R270, R280). Model choices: log entries 5, 27. -/
def Obligations.ExceptionFlushesAndHoldsTarget : Prop :=
  ∀ (s : State) (kind : ExcKind) (carrier target : Pc), s.wellFormed →
    ∃ t, enterRecovery kind carrier target s = .next t ∧
      t.fq = [] ∧ t.dq = [] ∧ t.lq = [] ∧ t.sq = [] ∧ (∀ k i, t.station k i = []) ∧
      t.pendingTarget = none ∧ t.recovery = true ∧ t.rstate = .unwind ∧
      t.redirectPending = some target ∧
      (∀ h ∈ s.fq ++ s.dq, t.uop? h = none) ∧
      (∀ h ∈ s.robList, ∀ u, s.uop? h = some u → t.uop? h = some { u with
        station := if ∃ q ∈ s.cfg.stations, h ∈ s.station q.1 q.2 then none else u.station }) ∧
      t.recoveries = s.recoveries ++ [⟨kind, carrier, target, s.cycle, s.robCount⟩] ∧
      t.commits = s.commits ∧
      sameMaps s t ∧ t.prf = s.prf ∧ t.valid = s.valid ∧ sameMemory s t ∧ sameRob s t ∧
      t.rr = s.rr ∧ t.fetchPc = s.fetchPc ∧ t.status = s.status ∧
      t.retiredCount = s.retiredCount ∧ t.lastRetireCycle = s.lastRetireCycle ∧
      t.cfg = s.cfg ∧ t.cycle = s.cycle ∧ t.seqNext = s.seqNext

/-- While unwinding, the retire stage undoes up to `RETIRE_W` entries, youngest first; when none is
left it redirects fetch to the held target and leaves recovery, and otherwise it stays in recovery
(43_rollback.md R195, R197, R201). Model choices: log entry 5. -/
def Obligations.UnwindUndoesYoungestFirst : Prop :=
  ∀ (s : State), s.wellFormed → s.status = .running → s.recovery = true →
    let undone := ((s.robList.reverse.take s.cfg.retireW).filterMap s.uop?).map Uop.dst
    ∃ t, retireStage s = .next t ∧
      t.robList = s.robList.take (s.robCount - s.cfg.retireW) ∧
      t.robCount = s.robCount - s.cfg.retireW ∧
      t.rat = (undone.foldl restoreDests s).rat ∧ t.free = (undone.foldl restoreDests s).free ∧
      t.prf = s.prf ∧ t.valid = s.valid ∧ sameMemory s t ∧ t.status = .running ∧
      t.commits = s.commits ∧ t.retiredCount = s.retiredCount ∧
      t.lastRetireCycle = s.lastRetireCycle ∧ t.cycle = s.cycle ∧
      if s.robCount ≤ s.cfg.retireW then
        some t.fetchPc = s.redirectPending ∧ t.redirectPending = none ∧ t.pendingTarget = none ∧
          t.recovery = false ∧ t.rstate = .run
      else
        t.fetchPc = s.fetchPc ∧ t.redirectPending = s.redirectPending ∧ t.recovery = true ∧
          t.rstate = .unwind

/-- A load-ordering violation at the head is not committed: recovery begins in the same cycle at the
load's own `pc`, or, when the load is the delay slot of the head, at the head's `pc`, whatever the
head's own misprediction, and undoes the youngest `RETIRE_W` entries in that cycle (43_rollback.md
R191, R193, 60_exceptions.md R281). Model choices: log entries 5, 26, 27. -/
def Obligations.LoadViolationRecovers : Prop :=
  ∀ (s : State) (u v : Uop), s.wellFormed → s.status = .running → s.recovery = false →
    s.robCount ≠ 0 → s.uop? (s.robAt 0) = some u → s.resolved u = true → v.loadViolation = true →
    (u.hasDs = false ∧ v = u ∨
      u.hasDs = true ∧ 2 ≤ s.robCount ∧ s.uop? (s.robAt 1) = some v ∧ s.resolved v = true ∧
        v.isCti = false) →
    let undone := ((s.robList.reverse.take s.cfg.retireW).filterMap s.uop?).map Uop.dst
    ∃ t, retireStage s = .next t ∧ t.retiredCount = s.retiredCount ∧ t.commits = s.commits ∧
      sameMemory s t ∧ t.status = .running ∧
      t.recoveries = s.recoveries ++ [⟨.loadOrder, v.pc, u.pc, s.cycle, s.robCount⟩] ∧
      t.robList = s.robList.take (s.robCount - s.cfg.retireW) ∧
      t.rat = (undone.foldl restoreDests s).rat ∧ t.free = (undone.foldl restoreDests s).free ∧
      if s.robCount ≤ s.cfg.retireW then
        t.fetchPc = u.pc ∧ t.recovery = false ∧ t.rstate = .run
      else t.redirectPending = some u.pc ∧ t.recovery = true ∧ t.rstate = .unwind

/-- A mispredicted control transfer at the head is committed, with its delay slot if it has one, and
then starts a recovery at its `redirect_pc` in the same cycle, which undoes everything younger, the
youngest `RETIRE_W` entries in that cycle (43_rollback.md R190, R192, R193, 41_rob_commit.md R133).
An oracle that is present must agree, and the commits must not end the run. Model choices: log
entries 5, 18, 27. -/
def Obligations.MispredictionCommitsThenRecovers : Prop :=
  ∀ (s : State) (u : Uop) (us : List Uop), s.wellFormed → s.status = .running →
    s.recovery = false → s.robCount ≠ 0 → s.uop? (s.robAt 0) = some u → s.resolved u = true →
    u.mispredict = true → (u.cat = some .branch ∨ u.cat = some .jump) →
    (u.hasDs = false ∧ u.loadViolation = false ∧ us = [u] ∨
      u.hasDs = true ∧ 2 ≤ s.robCount ∧ ∃ v, s.uop? (s.robAt 1) = some v ∧ s.resolved v = true ∧
        v.isCti = false ∧ v.loadViolation = false ∧ us = [u, v]) →
    (∀ w ∈ us, w.unmodelled = false ∧ w.insn = imem s.cfg.endian s.mem w.pc) →
    (∀ n w, us[n]? = some w →
      (s.cfg.oracle = true → Config.oracleOk (s.retiredCount + 1 + n) (s.commitRecord w) = true) ∧
      s.cfg.maxInsns ≠ some (s.retiredCount + 1 + n)) →
    let n := us.length
    let left := s.robCount - n
    let released := (us.map Uop.dst).foldl releaseDests s
    let undone := (((s.robList.drop n).reverse.take s.cfg.retireW).filterMap s.uop?).map Uop.dst
    ∃ t, retireStage s = .next t ∧ t.retiredCount = s.retiredCount + n ∧
      t.commits = (s.commits ++ us.map fun w => s.commitRecord w) ∧ t.status = .running ∧
      t.recoveries = s.recoveries ++ [⟨.branchMispredict, u.pc, u.redirectPc, s.cycle, left⟩] ∧
      t.robList = (s.robList.drop n).take (left - s.cfg.retireW) ∧
      t.rat = (undone.foldl restoreDests released).rat ∧
      t.free = (undone.foldl restoreDests released).free ∧
      if left ≤ s.cfg.retireW then
        t.fetchPc = u.redirectPc ∧ t.recovery = false ∧ t.rstate = .run
      else t.redirectPending = some u.redirectPc ∧ t.recovery = true ∧ t.rstate = .unwind

/-- Rollback is precise: an unwinding retire stage changes no committed register, no value and no
byte of memory, and when it leaves recovery every alias table entry is the committed one and the
free registers are those no alias table entry maps to (43_rollback.md R200, 60_exceptions.md R280).
Model choices: log entry 5. -/
def Obligations.RecoveryRestoresCommittedMap : Prop :=
  ∀ (s t : State), s.renameOk → s.recovery = true → s.status = .running →
    retireStage s = .next t →
    (∀ c < s.cfg.classes.length, ∀ a < s.cfg.na c, t.committedTag c a = s.committedTag c a) ∧
    t.prf = s.prf ∧ sameMemory s t ∧ t.commits = s.commits ∧
    (t.recovery = false →
      t.robCount = 0 ∧ t.fq = [] ∧ t.dq = [] ∧ t.lq = [] ∧ t.sq = [] ∧
      (∀ p ∈ s.cfg.stations, t.station p.1 p.2 = []) ∧
      (∀ c < s.cfg.classes.length, ∀ a < s.cfg.na c, t.ratOf c a = s.committedTag c a) ∧
      ∀ c < s.cfg.classes.length, ∀ p < s.cfg.np c,
        (t.freeOf c p = true ↔ ∀ a < s.cfg.na c, t.ratOf c a ≠ p))

/-! ## Fetch, decode, the clock and the end of a run (44_cycle.md) -/

/-- The fetch stage appends at most `FETCH_W` new records to the fetch queue, up to its capacity,
and at least one if it has room. Each has a slot that was free, the word memory holds at its `pc`
and the fetch cycle, the first has the fetch address and each later one the address of the next
word; a control transfer predicted taken is followed by nothing but its delay slot, and only such a
group, a full queue or the bandwidth ends the cycle's fetch. A delay slot of a taken transfer is
fetched alone, and fetch goes on at the pending target (44_cycle.md R222). -/
def Obligations.FetchFillsQueue : Prop :=
  ∀ (s : State), s.wellFormed → s.stageActive = true →
    let t := fetchStage s
    let taken := fun u : Uop => (Config.preDecode u.insn).isCti = true ∧ u.predTaken = true
    let group := fun (i : Nat) (u : Uop) => i + 1 + if u.hasDs then 1 else 0
    ∃ new, t.fq = s.fq ++ new ∧ new.length ≤ s.cfg.fetchW ∧ t.fq.length ≤ s.cfg.fqN ∧
      (s.fq.length < s.cfg.fqN → new ≠ []) ∧
      (∀ h ∈ new, s.uop? h = none ∧ ∃ u ∈ t.uop? h, u.state = .fetched ∧
        u.tFetch = some s.cycle ∧ u.insn = imem s.cfg.endian s.mem u.pc ∧
        u.hasDs = (Config.preDecode u.insn).hasDs) ∧
      (∀ h, h ∉ new → t.uop? h = s.uop? h) ∧
      (∀ i h, new[i]? = some h → ∃ u ∈ t.uop? h, u.pc = s.fetchPc + BitVec.ofNat 32 (4 * i) ∧
        (taken u → new.length ≤ group i u)) ∧
      (new.length < s.cfg.fetchW → t.fq.length < s.cfg.fqN → s.pendingTarget ≠ none ∨
        ∃ i h, new[i]? = some h ∧ ∃ u ∈ t.uop? h, taken u ∧ new.length = group i u) ∧
      (∀ x ∈ s.pendingTarget, s.fq.length < s.cfg.fqN →
        new.length = 1 ∧ t.fetchPc = x ∧ t.pendingTarget = none) ∧
      sameMaps s t ∧ t.prf = s.prf ∧ t.valid = s.valid ∧ sameMemory s t ∧ sameRob s t ∧
      sameScheduler s t ∧ t.dq = s.dq ∧ sameControl s t ∧ sameRun s t ∧ t.seqNext = s.seqNext

/-- What the fetch stage does pass by pass, for every `FETCH_W`: with room in the queue a pass fetches
one micro-op at the fetch address. After a delay slot that ends a taken group fetch goes on at the
pending target and stops for the cycle; after a control transfer predicted taken it goes on at its
target and stops, or, when it has a delay slot, at the next word with the target pending; otherwise at
the next word. The prediction is recorded in the micro-op. With a full queue nothing is fetched
(44_cycle.md R222). Model choices: log entry 8. -/
def Obligations.FetchFollowsPrediction : Prop :=
  ∀ (s : State) (n : Nat), s.wellFormed → s.stageActive = true →
    let pd := Config.preDecode (imem s.cfg.endian s.mem s.fetchPc)
    let p := Config.predict s.predictCalls s.fetchPc
    fetchStage s = fetchLoop s.cfg.fetchW s ∧ fetchLoop 0 s = s ∧
    (s.cfg.fqN ≤ s.fq.length → fetchLoop n s = s) ∧
    (s.fq.length < s.cfg.fqN → ∃ h u x, s.uop? h = none ∧ x.fq = s.fq ++ [h] ∧
      x.uop? h = some u ∧ u.pc = s.fetchPc ∧ sameOtherUops h s x ∧ x.mem = s.mem ∧
      x.predictCalls = s.predictCalls + 1 ∧ x.wellFormed ∧ x.stageActive = true ∧
      match s.pendingTarget with
      | some y => x.fetchPc = y ∧ x.pendingTarget = none ∧ fetchLoop (n + 1) s = x
      | none =>
        if pd.isCti = true then
          u.predTaken = p.taken ∧ u.predTarget = p.target ∧
          if p.taken = true then
            if pd.hasDs = true then
              x.fetchPc = s.fetchPc + 4 ∧ x.pendingTarget = some p.target ∧
                fetchLoop (n + 1) s = fetchLoop n x
            else x.fetchPc = p.target ∧ x.pendingTarget = none ∧ fetchLoop (n + 1) s = x
          else
            x.fetchPc = s.fetchPc + 4 ∧ x.pendingTarget = none ∧ fetchLoop (n + 1) s = fetchLoop n x
        else
          x.fetchPc = s.fetchPc + 4 ∧ x.pendingTarget = none ∧ fetchLoop (n + 1) s = fetchLoop n x)

/-- The decode stage takes the head of the fetch queue: a word the decoder does not recognise, or a
descriptor that fails its checks, ends the run with its `pc` and the word; otherwise the micro-op
moves to the decode queue and the stage goes on (44_cycle.md R224, 60_exceptions.md R273, R275). -/
def Obligations.DecodeStageMovesOrEndsRun : Prop :=
  ∀ (s : State) (h : Handle) (rest : List Handle) (u : Uop) (n : Nat),
    s.stageActive = true → s.fq = h :: rest → s.dq.length < s.cfg.dqN → s.uop? h = some u →
    s.cfg.decodeW = n + 1 →
    match Config.decode u.insn with
    | none => decodeStage s = .next (s.raise (.decodeUnrecognized u.pc u.insn))
    | some d =>
      match checkDescriptor s.cfg u.hasDs (Config.isAtomic d.op) d.bits with
      | .error _ => decodeStage s = .next (s.raise (.badDescriptor u.pc u.insn))
      | .ok i => ∃ t, decodeStage s = decodeLoop n t ∧ t.fq = rest ∧ t.dq = s.dq ++ [h] ∧
          t.uop? h = some (u.decodedAs d.op i s.cycle) ∧ sameOtherUops h s t ∧ sameRun s t ∧
          sameControl s t

/-- A step runs the decoded micro-op: with nothing older in the block, the micro-op at the head of
the decode queue is the one `exec` is asked to allocate, and around it the step goes on with the
rest of the allocate bandwidth, decode, fetch, the memory tick and the clock (44_cycle.md R220,
R226). Model choices: log entry 6. -/
def Obligations.StepRunsDecodedMicroOp : Prop :=
  ∀ (s : State) (h : Handle) (rest : List Handle) (u : Uop) (i : Instr) (n : Nat),
    s.cfg.admitted = true → s.status = .running → s.recovery = false → s.rstate = .run →
    s.method = .allocate → s.robCount = 0 → (∀ p ∈ s.cfg.stations, s.station p.1 p.2 = []) →
    s.dq = h :: rest → s.uop? h = some u → u.instr = some i → s.cfg.allocW = n + 1 →
    step s = andThen (exec i s) fun t =>
      andThen (if t.dq.length < s.dq.length then allocateLoop n (t.setMethod .allocate)
        else .next (t.setMethod .allocate)) fun t =>
      andThen (decodeStage t) fun t => .next (clockAdvance (memTick (fetchStage t)))

/-- Once the run has ended no stage does anything; in recovery the complete, execute, allocate, decode
and fetch stages do nothing (44_cycle.md R221, 43_rollback.md R198). -/
def Obligations.StagesObeyStatusAndRecovery : Prop :=
  ∀ s : State,
    (s.status ≠ .running →
      retireStage s = .next s ∧ (s.cfg.admitted = true → step s = .next s)) ∧
    (s.status ≠ .running ∨ s.recovery = true →
      completeStage s = .next s ∧ executeStage s = .next s ∧ allocateStage s = .next s ∧
      decodeStage s = .next s ∧ fetchStage s = s)

/-- The clock: in a running machine the watchdog ends the run when no micro-op has retired for
`WATCHDOG_N` cycles, and otherwise the cycle counter rises by one; in a run that has ended it stands
(44_cycle.md R228, R229). -/
def Obligations.WatchdogThenClock : Prop :=
  ∀ s : State,
    (s.status ≠ .running → clockAdvance s = s) ∧
    (s.status = .running → s.cfg.watchdogN ≤ (s.cycle : Int) - s.lastRetireCycle →
      clockAdvance s = s.raise (.watchdog s.cycle s.lastRetireCycle)) ∧
    (s.status = .running → (s.cycle : Int) - s.lastRetireCycle < s.cfg.watchdogN →
      clockAdvance s = { s with cycle := s.cycle + 1 })

/-- Over a step: the configuration is immutable, `retired_count`, `seq_next` and `cycle` never fall,
what was handed to the environment stays, `cycle` rises by one exactly when the run goes on, and a
run that has ended never goes on (00_scope.md R7, 10_state.md R21, R37, R38). Model choices: log
entries 1, 5. -/
def Obligations.CountersAndStatusProgress : Prop :=
  ∀ (s t : State), step s = .next t →
    t.cfg = s.cfg ∧ s.retiredCount ≤ t.retiredCount ∧ s.seqNext ≤ t.seqNext ∧ s.log <+: t.log ∧
    (t.status = .running → s.status = .running ∧ t.cycle = s.cycle + 1) ∧
    (t.status ≠ .running → t.cycle = s.cycle)

/-- A configuration is refused exactly when it breaks a constraint of R7, written out here; with an
admitted one a step is refused only where a program commits a word that a store has overwritten
(00_scope.md R7, R8, 20_memory.md R72). Model choices: log entries 17, 18. -/
def Obligations.IllFormedConfigurationRefused : Prop :=
  ∀ s : State,
    let c := s.cfg
    let constraints : Prop :=
      c.classes ≠ [] ∧
      (∀ k ∈ c.classes, 1 ≤ k.na ∧ k.na ≤ k.np ∧ 1 ≤ k.vw ∧ ∀ z ∈ k.zr, z < k.na) ∧
      1 ≤ c.maxSrc ∧ 1 ≤ c.maxDst ∧ 1 ≤ c.robN ∧ c.ports.length = 6 ∧
      (∀ ps ∈ c.ports, ps ≠ [] ∧ ∀ p ∈ ps, 1 ≤ p.cap ∧ 1 ≤ p.width) ∧
      1 ≤ c.fetchW ∧ 1 ≤ c.decodeW ∧ 1 ≤ c.allocW ∧ 1 ≤ c.retireW ∧ 1 ≤ c.fqN ∧ 1 ≤ c.dqN ∧
      1 ≤ c.lqN ∧ 1 ≤ c.sqN ∧ 1 ≤ c.watchdogN ∧ ∀ m ∈ c.maxInsns, 1 ≤ m
    (¬constraints → step s = .refused .configRefused) ∧
    (constraints → ∀ r, step s = .refused r → ∃ pc, r = .staleWord pc)

/-! ## Reset (10_state.md R48) -/

/-- Every piece of state has its reset value, under every admitted configuration and for every loader
(10_state.md R48, 70_reset_and_hazards.md R300). -/
def Obligations.ResetState : Prop :=
  ∀ (cfg : Config) (img : LoaderImage), cfg.admitted = true →
    let s := State.resetWith cfg img
    s.cfg = cfg ∧ s.cycle = 0 ∧
    (∀ c < cfg.classes.length,
      (∀ a < cfg.na c, s.ratOf c a = a) ∧
      (∀ p < cfg.np c, s.freeOf c p = decide (cfg.na c ≤ p) ∧
        s.validOf c p = decide (p < cfg.na c)) ∧
      (∀ p < cfg.na c, (cfg.zr c = some p → s.prfOf c p = 0) ∧
        (cfg.zr c ≠ some p → ∀ v, get2 img.regs c p 0 = v → v < 2 ^ cfg.vw c → s.prfOf c p = v))) ∧
    s.robHead = 0 ∧ s.robTail = 0 ∧ s.robCount = 0 ∧ (∀ k i, s.station k i = []) ∧
    (∀ k, s.rrOf k = 0) ∧ s.lq = [] ∧ s.sq = [] ∧ s.fq = [] ∧ s.dq = [] ∧
    s.fetchPc = img.entry ∧ s.pendingTarget = none ∧ s.recovery = false ∧ s.rstate = .run ∧
    s.redirectPending = none ∧ s.status = .running ∧ s.retiredCount = 0 ∧
    s.lastRetireCycle = 0 ∧ s.seqNext = 0 ∧ (∀ h, s.uop? h = none) ∧ s.mem = img.mem

/-- The machine right after reset has the rename invariants, the data-flow invariants, the
wired-zero registers and values that fit, under every admitted configuration and for every loader
(10_state.md R24, R27, R39, R40, R42, R43, R48). That a loader's value wider than its register is
reduced is the model's, as are the registers no loader gives. Model choices: log entries 3, 10. -/
def Obligations.ResetHasRenameInvariants : Prop :=
  ∀ (cfg : Config) (img : LoaderImage), cfg.admitted = true →
    (State.resetWith cfg img).renameOk ∧ (State.resetWith cfg img).dataflowOk ∧
      (State.resetWith cfg img).zeroWired ∧ (State.resetWith cfg img).valuesFit

/-- The configuration a reset uses is admitted, its memory is in the canonical form and its registers
fit.  The configuration and the values the loader would supply are the model's choice: log entries 2
and 3. -/
def Obligations.ResetConfigurationAdmitted : Prop :=
  State.reset = State.resetWith Config.atReset LoaderImage.empty ∧
  State.reset.cfg.admitted = true ∧ State.reset.memoryCanonical ∧ State.reset.valuesFit

/-! ## Invariants of every step -/

/-- Every step keeps the memory in its canonical form (the form is the model's, 20_memory.md R60).
Model choices: log entry 4. -/
def Obligations.StepKeepsMemoryCanonical : Prop :=
  ∀ (s t : State), s.memoryCanonical → step s = .next t → t.memoryCanonical

/-- Every step keeps every register within the width of its class (10_state.md R24). Model choices:
log entry 10. -/
def Obligations.StepKeepsValuesFit : Prop :=
  ∀ (s t : State), s.valuesFit → step s = .next t → t.valuesFit

/-- A state with the structural invariants never faults: its step keeps them, or is refused because a
micro-op in the ROB reaches commit with a word that memory no longer holds; and it is not refused when
the program in flight does not modify itself (10_state.md R42, R29, 00_scope.md R12, 20_memory.md
R72). Model choices: log entries 17, 18. -/
def Obligations.StepKeepsStructure : Prop :=
  ∀ s : State, s.wellFormed →
    ((∃ t, step s = .next t ∧ t.wellFormed) ∨
      ∃ u ∈ s.program, step s = .refused (.staleWord u.pc)) ∧
    (s.codeStable → ∃ t, step s = .next t)

/-- Every step keeps the rename invariants: the alias tables total, and every busy register referenced
by exactly one alias table entry or one in-flight previous mapping, every free one by none
(10_state.md R39, R40). -/
def Obligations.StepKeepsOwnership : Prop :=
  ∀ (s t : State), s.renameOk → step s = .next t → t.renameOk

/-- The number of free registers of a class is `NP - NA - D`, `D` the destination slots of the class
in the ROB (10_state.md R41). -/
def Obligations.FreeCountFollowsOwnership : Prop :=
  ∀ (s : State), s.renameOk → ∀ c < s.cfg.classes.length,
    s.avail c + s.cfg.na c + (s.robDests.countP fun d => d.cls = c) = s.cfg.np c

/-- The wired-zero register of a class stays mapped to itself, busy, valid and 0 (10_state.md R27). -/
def Obligations.StepKeepsZeroWired : Prop :=
  ∀ (s t : State), s.renameOk → s.zeroWired → step s = .next t → t.zeroWired

/-- Only retirement changes the committed state: a step that commits nothing leaves every committed
register and every byte of memory as they were (10_state.md R44, R49). Model choices: log
entry 5. -/
def Obligations.OnlyRetirementChangesCommittedState : Prop :=
  ∀ (s t : State), s.renameOk → step s = .next t → t.commits = s.commits →
    t.committedRegs = s.committedRegs ∧ sameMemory s t

/-- Every step keeps the data-flow invariants, as long as no access in the ROB reaches past the top
of the address space: every source has the mapping of its place in program order, a valid register
is that of a completed micro-op, every load stands in the load table, and an executed micro-op holds
what sequential execution computes, unless a load that read too early stands before it and will be
re-executed (10_state.md R43, 20_memory.md R64, R66, R69). Model choices: log entries 13, 15, 24. -/
def Obligations.StepKeepsDataflow : Prop :=
  ∀ (s t : State), s.renameOk → s.dataflowOk → s.accessesFit → step s = .next t → t.dataflowOk

/-- The readiness invariant: the register of a source slot of a micro-op in the ROB is not free, and
once it is valid it holds the value the oldest-first sequential execution gives that operand, unless a
load that read too early stands before the micro-op (10_state.md R43). Model choices: log entry 15. -/
def Obligations.ValidSourcesHoldSequentialValues : Prop :=
  ∀ s : State, s.renameOk → s.dataflowOk →
    ∀ j (u : Uop), s.program[j]? = some u → ∀ x ∈ u.sources,
      s.freeOf x.cls x.phys = false ∧
      (s.validOf x.cls x.phys = true → (∀ i < j, ¬s.staleLoad i) →
        s.prfOf x.cls x.phys = get2 (s.archBefore j).regs x.cls x.arch 0)

/-- What a step commits is what sequential execution of the oldest micro-ops in the ROB computes
from the committed state: the commit records, the registers and the memory depend on nothing else,
no timestamp, latency, tag, prediction or scan order (70_reset_and_hazards.md R308, R304,
10_state.md R44, R49). Model choices: log entries 5, 13, 15, 24. -/
def Obligations.CommitsAreSequential : Prop :=
  ∀ (s t : State), s.renameOk → s.dataflowOk → s.accessesFit → step s = .next t →
    ∃ k ≤ s.robCount, t.retiredCount = s.retiredCount + k ∧
      t.commits = s.commits ++ seqRecords s.cfg s.committed ((s.program.take k).map Uop.view) ∧
      t.committed = s.archBefore k
end

