-- ==== Sys2Proof/Laws/State.lean ====
section
/-!
SUPPORT. One lemma per field per named update of the state: the fields an update leaves alone, and
the value of the field it writes.  All hold by computation.
-/

namespace Sys2Proof.Machine

section
variable (s : State) (c a : Nat) (p : Nat)
@[simp] theorem State.setRat_cfg : (s.setRat c a p).cfg = s.cfg := rfl
@[simp] theorem State.setRat_cycle : (s.setRat c a p).cycle = s.cycle := rfl
@[simp] theorem State.setRat_rat : (s.setRat c a p).rat = set2 s.rat c a p := rfl
@[simp] theorem State.setRat_prf : (s.setRat c a p).prf = s.prf := rfl
@[simp] theorem State.setRat_free : (s.setRat c a p).free = s.free := rfl
@[simp] theorem State.setRat_valid : (s.setRat c a p).valid = s.valid := rfl
@[simp] theorem State.setRat_arena : (s.setRat c a p).arena = s.arena := rfl
@[simp] theorem State.setRat_robSlots : (s.setRat c a p).robSlots = s.robSlots := rfl
@[simp] theorem State.setRat_robHead : (s.setRat c a p).robHead = s.robHead := rfl
@[simp] theorem State.setRat_robTail : (s.setRat c a p).robTail = s.robTail := rfl
@[simp] theorem State.setRat_robCount : (s.setRat c a p).robCount = s.robCount := rfl
@[simp] theorem State.setRat_rs : (s.setRat c a p).rs = s.rs := rfl
@[simp] theorem State.setRat_rr : (s.setRat c a p).rr = s.rr := rfl
@[simp] theorem State.setRat_lq : (s.setRat c a p).lq = s.lq := rfl
@[simp] theorem State.setRat_sq : (s.setRat c a p).sq = s.sq := rfl
@[simp] theorem State.setRat_fq : (s.setRat c a p).fq = s.fq := rfl
@[simp] theorem State.setRat_dq : (s.setRat c a p).dq = s.dq := rfl
@[simp] theorem State.setRat_fetchPc : (s.setRat c a p).fetchPc = s.fetchPc := rfl
@[simp] theorem State.setRat_pendingTarget : (s.setRat c a p).pendingTarget = s.pendingTarget := rfl
@[simp] theorem State.setRat_recovery : (s.setRat c a p).recovery = s.recovery := rfl
@[simp] theorem State.setRat_rstate : (s.setRat c a p).rstate = s.rstate := rfl
@[simp] theorem State.setRat_redirectPending :
    (s.setRat c a p).redirectPending =
      s.redirectPending := rfl
@[simp] theorem State.setRat_status : (s.setRat c a p).status = s.status := rfl
@[simp] theorem State.setRat_retiredCount : (s.setRat c a p).retiredCount = s.retiredCount := rfl
@[simp] theorem State.setRat_lastRetireCycle :
    (s.setRat c a p).lastRetireCycle =
      s.lastRetireCycle := rfl
@[simp] theorem State.setRat_seqNext : (s.setRat c a p).seqNext = s.seqNext := rfl
@[simp] theorem State.setRat_mem : (s.setRat c a p).mem = s.mem := rfl
@[simp] theorem State.setRat_log : (s.setRat c a p).log = s.log := rfl
@[simp] theorem State.setRat_lastMatch : (s.setRat c a p).lastMatch = s.lastMatch := rfl
@[simp] theorem State.setRat_predictCalls : (s.setRat c a p).predictCalls = s.predictCalls := rfl
@[simp] theorem State.setRat_method : (s.setRat c a p).method = s.method := rfl
@[simp] theorem State.setRat_prfOf (c' x' : Nat) :
    (s.setRat c a p).prfOf c' x' = s.prfOf c' x' := rfl
@[simp] theorem State.setRat_freeOf (c' x' : Nat) :
    (s.setRat c a p).freeOf c' x' = s.freeOf c' x' := rfl
@[simp] theorem State.setRat_validOf (c' x' : Nat) :
    (s.setRat c a p).validOf c' x' = s.validOf c' x' := rfl
@[simp] theorem State.setRat_uop? (g : Handle) :
    (s.setRat c a p).uop? g = s.uop? g := rfl
@[simp] theorem State.setRat_station (k' : FuClass) (j' : Nat) :
    (s.setRat c a p).station k' j' = s.station k' j' := rfl
@[simp] theorem State.setRat_rrOf (k' : FuClass) :
    (s.setRat c a p).rrOf k' = s.rrOf k' := rfl
@[simp] theorem State.setRat_robAt (j' : Nat) :
    (s.setRat c a p).robAt j' = s.robAt j' := rfl
@[simp] theorem State.setRat_robList :
    (s.setRat c a p).robList = s.robList := rfl
end

section
variable (s : State) (c : Nat) (p : Nat) (v : Nat)
@[simp] theorem State.setPrf_cfg : (s.setPrf c p v).cfg = s.cfg := rfl
@[simp] theorem State.setPrf_cycle : (s.setPrf c p v).cycle = s.cycle := rfl
@[simp] theorem State.setPrf_rat : (s.setPrf c p v).rat = s.rat := rfl
@[simp] theorem State.setPrf_prf : (s.setPrf c p v).prf = set2 s.prf c p (v % 2 ^ s.cfg.vw c) := rfl
@[simp] theorem State.setPrf_free : (s.setPrf c p v).free = s.free := rfl
@[simp] theorem State.setPrf_valid : (s.setPrf c p v).valid = s.valid := rfl
@[simp] theorem State.setPrf_arena : (s.setPrf c p v).arena = s.arena := rfl
@[simp] theorem State.setPrf_robSlots : (s.setPrf c p v).robSlots = s.robSlots := rfl
@[simp] theorem State.setPrf_robHead : (s.setPrf c p v).robHead = s.robHead := rfl
@[simp] theorem State.setPrf_robTail : (s.setPrf c p v).robTail = s.robTail := rfl
@[simp] theorem State.setPrf_robCount : (s.setPrf c p v).robCount = s.robCount := rfl
@[simp] theorem State.setPrf_rs : (s.setPrf c p v).rs = s.rs := rfl
@[simp] theorem State.setPrf_rr : (s.setPrf c p v).rr = s.rr := rfl
@[simp] theorem State.setPrf_lq : (s.setPrf c p v).lq = s.lq := rfl
@[simp] theorem State.setPrf_sq : (s.setPrf c p v).sq = s.sq := rfl
@[simp] theorem State.setPrf_fq : (s.setPrf c p v).fq = s.fq := rfl
@[simp] theorem State.setPrf_dq : (s.setPrf c p v).dq = s.dq := rfl
@[simp] theorem State.setPrf_fetchPc : (s.setPrf c p v).fetchPc = s.fetchPc := rfl
@[simp] theorem State.setPrf_pendingTarget : (s.setPrf c p v).pendingTarget = s.pendingTarget := rfl
@[simp] theorem State.setPrf_recovery : (s.setPrf c p v).recovery = s.recovery := rfl
@[simp] theorem State.setPrf_rstate : (s.setPrf c p v).rstate = s.rstate := rfl
@[simp] theorem State.setPrf_redirectPending :
    (s.setPrf c p v).redirectPending =
      s.redirectPending := rfl
@[simp] theorem State.setPrf_status : (s.setPrf c p v).status = s.status := rfl
@[simp] theorem State.setPrf_retiredCount : (s.setPrf c p v).retiredCount = s.retiredCount := rfl
@[simp] theorem State.setPrf_lastRetireCycle :
    (s.setPrf c p v).lastRetireCycle =
      s.lastRetireCycle := rfl
@[simp] theorem State.setPrf_seqNext : (s.setPrf c p v).seqNext = s.seqNext := rfl
@[simp] theorem State.setPrf_mem : (s.setPrf c p v).mem = s.mem := rfl
@[simp] theorem State.setPrf_log : (s.setPrf c p v).log = s.log := rfl
@[simp] theorem State.setPrf_lastMatch : (s.setPrf c p v).lastMatch = s.lastMatch := rfl
@[simp] theorem State.setPrf_predictCalls : (s.setPrf c p v).predictCalls = s.predictCalls := rfl
@[simp] theorem State.setPrf_method : (s.setPrf c p v).method = s.method := rfl
@[simp] theorem State.setPrf_ratOf (c' x' : Nat) :
    (s.setPrf c p v).ratOf c' x' = s.ratOf c' x' := rfl
@[simp] theorem State.setPrf_freeOf (c' x' : Nat) :
    (s.setPrf c p v).freeOf c' x' = s.freeOf c' x' := rfl
@[simp] theorem State.setPrf_validOf (c' x' : Nat) :
    (s.setPrf c p v).validOf c' x' = s.validOf c' x' := rfl
@[simp] theorem State.setPrf_uop? (g : Handle) :
    (s.setPrf c p v).uop? g = s.uop? g := rfl
@[simp] theorem State.setPrf_station (k' : FuClass) (j' : Nat) :
    (s.setPrf c p v).station k' j' = s.station k' j' := rfl
@[simp] theorem State.setPrf_rrOf (k' : FuClass) :
    (s.setPrf c p v).rrOf k' = s.rrOf k' := rfl
@[simp] theorem State.setPrf_robAt (j' : Nat) :
    (s.setPrf c p v).robAt j' = s.robAt j' := rfl
@[simp] theorem State.setPrf_robList :
    (s.setPrf c p v).robList = s.robList := rfl
end

section
variable (s : State) (c : Nat) (p : Nat) (b : Bool)
@[simp] theorem State.setFree_cfg : (s.setFree c p b).cfg = s.cfg := rfl
@[simp] theorem State.setFree_cycle : (s.setFree c p b).cycle = s.cycle := rfl
@[simp] theorem State.setFree_rat : (s.setFree c p b).rat = s.rat := rfl
@[simp] theorem State.setFree_prf : (s.setFree c p b).prf = s.prf := rfl
@[simp] theorem State.setFree_free : (s.setFree c p b).free = set2 s.free c p b := rfl
@[simp] theorem State.setFree_valid : (s.setFree c p b).valid = s.valid := rfl
@[simp] theorem State.setFree_arena : (s.setFree c p b).arena = s.arena := rfl
@[simp] theorem State.setFree_robSlots : (s.setFree c p b).robSlots = s.robSlots := rfl
@[simp] theorem State.setFree_robHead : (s.setFree c p b).robHead = s.robHead := rfl
@[simp] theorem State.setFree_robTail : (s.setFree c p b).robTail = s.robTail := rfl
@[simp] theorem State.setFree_robCount : (s.setFree c p b).robCount = s.robCount := rfl
@[simp] theorem State.setFree_rs : (s.setFree c p b).rs = s.rs := rfl
@[simp] theorem State.setFree_rr : (s.setFree c p b).rr = s.rr := rfl
@[simp] theorem State.setFree_lq : (s.setFree c p b).lq = s.lq := rfl
@[simp] theorem State.setFree_sq : (s.setFree c p b).sq = s.sq := rfl
@[simp] theorem State.setFree_fq : (s.setFree c p b).fq = s.fq := rfl
@[simp] theorem State.setFree_dq : (s.setFree c p b).dq = s.dq := rfl
@[simp] theorem State.setFree_fetchPc : (s.setFree c p b).fetchPc = s.fetchPc := rfl
@[simp] theorem State.setFree_pendingTarget :
    (s.setFree c p b).pendingTarget =
      s.pendingTarget := rfl
@[simp] theorem State.setFree_recovery : (s.setFree c p b).recovery = s.recovery := rfl
@[simp] theorem State.setFree_rstate : (s.setFree c p b).rstate = s.rstate := rfl
@[simp] theorem State.setFree_redirectPending :
    (s.setFree c p b).redirectPending =
      s.redirectPending := rfl
@[simp] theorem State.setFree_status : (s.setFree c p b).status = s.status := rfl
@[simp] theorem State.setFree_retiredCount : (s.setFree c p b).retiredCount = s.retiredCount := rfl
@[simp] theorem State.setFree_lastRetireCycle :
    (s.setFree c p b).lastRetireCycle =
      s.lastRetireCycle := rfl
@[simp] theorem State.setFree_seqNext : (s.setFree c p b).seqNext = s.seqNext := rfl
@[simp] theorem State.setFree_mem : (s.setFree c p b).mem = s.mem := rfl
@[simp] theorem State.setFree_log : (s.setFree c p b).log = s.log := rfl
@[simp] theorem State.setFree_lastMatch : (s.setFree c p b).lastMatch = s.lastMatch := rfl
@[simp] theorem State.setFree_predictCalls : (s.setFree c p b).predictCalls = s.predictCalls := rfl
@[simp] theorem State.setFree_method : (s.setFree c p b).method = s.method := rfl
@[simp] theorem State.setFree_ratOf (c' x' : Nat) :
    (s.setFree c p b).ratOf c' x' = s.ratOf c' x' := rfl
@[simp] theorem State.setFree_prfOf (c' x' : Nat) :
    (s.setFree c p b).prfOf c' x' = s.prfOf c' x' := rfl
@[simp] theorem State.setFree_validOf (c' x' : Nat) :
    (s.setFree c p b).validOf c' x' = s.validOf c' x' := rfl
@[simp] theorem State.setFree_uop? (g : Handle) :
    (s.setFree c p b).uop? g = s.uop? g := rfl
@[simp] theorem State.setFree_station (k' : FuClass) (j' : Nat) :
    (s.setFree c p b).station k' j' = s.station k' j' := rfl
@[simp] theorem State.setFree_rrOf (k' : FuClass) :
    (s.setFree c p b).rrOf k' = s.rrOf k' := rfl
@[simp] theorem State.setFree_robAt (j' : Nat) :
    (s.setFree c p b).robAt j' = s.robAt j' := rfl
@[simp] theorem State.setFree_robList :
    (s.setFree c p b).robList = s.robList := rfl
end

section
variable (s : State) (c : Nat) (p : Nat) (b : Bool)
@[simp] theorem State.setValid_cfg : (s.setValid c p b).cfg = s.cfg := rfl
@[simp] theorem State.setValid_cycle : (s.setValid c p b).cycle = s.cycle := rfl
@[simp] theorem State.setValid_rat : (s.setValid c p b).rat = s.rat := rfl
@[simp] theorem State.setValid_prf : (s.setValid c p b).prf = s.prf := rfl
@[simp] theorem State.setValid_free : (s.setValid c p b).free = s.free := rfl
@[simp] theorem State.setValid_valid : (s.setValid c p b).valid = set2 s.valid c p b := rfl
@[simp] theorem State.setValid_arena : (s.setValid c p b).arena = s.arena := rfl
@[simp] theorem State.setValid_robSlots : (s.setValid c p b).robSlots = s.robSlots := rfl
@[simp] theorem State.setValid_robHead : (s.setValid c p b).robHead = s.robHead := rfl
@[simp] theorem State.setValid_robTail : (s.setValid c p b).robTail = s.robTail := rfl
@[simp] theorem State.setValid_robCount : (s.setValid c p b).robCount = s.robCount := rfl
@[simp] theorem State.setValid_rs : (s.setValid c p b).rs = s.rs := rfl
@[simp] theorem State.setValid_rr : (s.setValid c p b).rr = s.rr := rfl
@[simp] theorem State.setValid_lq : (s.setValid c p b).lq = s.lq := rfl
@[simp] theorem State.setValid_sq : (s.setValid c p b).sq = s.sq := rfl
@[simp] theorem State.setValid_fq : (s.setValid c p b).fq = s.fq := rfl
@[simp] theorem State.setValid_dq : (s.setValid c p b).dq = s.dq := rfl
@[simp] theorem State.setValid_fetchPc : (s.setValid c p b).fetchPc = s.fetchPc := rfl
@[simp] theorem State.setValid_pendingTarget :
    (s.setValid c p b).pendingTarget =
      s.pendingTarget := rfl
@[simp] theorem State.setValid_recovery : (s.setValid c p b).recovery = s.recovery := rfl
@[simp] theorem State.setValid_rstate : (s.setValid c p b).rstate = s.rstate := rfl
@[simp] theorem State.setValid_redirectPending :
    (s.setValid c p b).redirectPending =
      s.redirectPending := rfl
@[simp] theorem State.setValid_status : (s.setValid c p b).status = s.status := rfl
@[simp] theorem State.setValid_retiredCount :
    (s.setValid c p b).retiredCount =
      s.retiredCount := rfl
@[simp] theorem State.setValid_lastRetireCycle :
    (s.setValid c p b).lastRetireCycle =
      s.lastRetireCycle := rfl
@[simp] theorem State.setValid_seqNext : (s.setValid c p b).seqNext = s.seqNext := rfl
@[simp] theorem State.setValid_mem : (s.setValid c p b).mem = s.mem := rfl
@[simp] theorem State.setValid_log : (s.setValid c p b).log = s.log := rfl
@[simp] theorem State.setValid_lastMatch : (s.setValid c p b).lastMatch = s.lastMatch := rfl
@[simp] theorem State.setValid_predictCalls :
    (s.setValid c p b).predictCalls =
      s.predictCalls := rfl
@[simp] theorem State.setValid_method : (s.setValid c p b).method = s.method := rfl
@[simp] theorem State.setValid_ratOf (c' x' : Nat) :
    (s.setValid c p b).ratOf c' x' = s.ratOf c' x' := rfl
@[simp] theorem State.setValid_prfOf (c' x' : Nat) :
    (s.setValid c p b).prfOf c' x' = s.prfOf c' x' := rfl
@[simp] theorem State.setValid_freeOf (c' x' : Nat) :
    (s.setValid c p b).freeOf c' x' = s.freeOf c' x' := rfl
@[simp] theorem State.setValid_uop? (g : Handle) :
    (s.setValid c p b).uop? g = s.uop? g := rfl
@[simp] theorem State.setValid_station (k' : FuClass) (j' : Nat) :
    (s.setValid c p b).station k' j' = s.station k' j' := rfl
@[simp] theorem State.setValid_rrOf (k' : FuClass) :
    (s.setValid c p b).rrOf k' = s.rrOf k' := rfl
@[simp] theorem State.setValid_robAt (j' : Nat) :
    (s.setValid c p b).robAt j' = s.robAt j' := rfl
@[simp] theorem State.setValid_robList :
    (s.setValid c p b).robList = s.robList := rfl
end

section
variable (s : State) (h : Handle) (u : Uop)
@[simp] theorem State.setUop_cfg : (s.setUop h u).cfg = s.cfg := rfl
@[simp] theorem State.setUop_cycle : (s.setUop h u).cycle = s.cycle := rfl
@[simp] theorem State.setUop_rat : (s.setUop h u).rat = s.rat := rfl
@[simp] theorem State.setUop_prf : (s.setUop h u).prf = s.prf := rfl
@[simp] theorem State.setUop_free : (s.setUop h u).free = s.free := rfl
@[simp] theorem State.setUop_valid : (s.setUop h u).valid = s.valid := rfl
@[simp] theorem State.setUop_arena : (s.setUop h u).arena = s.arena.set h (some u) := rfl
@[simp] theorem State.setUop_robSlots : (s.setUop h u).robSlots = s.robSlots := rfl
@[simp] theorem State.setUop_robHead : (s.setUop h u).robHead = s.robHead := rfl
@[simp] theorem State.setUop_robTail : (s.setUop h u).robTail = s.robTail := rfl
@[simp] theorem State.setUop_robCount : (s.setUop h u).robCount = s.robCount := rfl
@[simp] theorem State.setUop_rs : (s.setUop h u).rs = s.rs := rfl
@[simp] theorem State.setUop_rr : (s.setUop h u).rr = s.rr := rfl
@[simp] theorem State.setUop_lq : (s.setUop h u).lq = s.lq := rfl
@[simp] theorem State.setUop_sq : (s.setUop h u).sq = s.sq := rfl
@[simp] theorem State.setUop_fq : (s.setUop h u).fq = s.fq := rfl
@[simp] theorem State.setUop_dq : (s.setUop h u).dq = s.dq := rfl
@[simp] theorem State.setUop_fetchPc : (s.setUop h u).fetchPc = s.fetchPc := rfl
@[simp] theorem State.setUop_pendingTarget : (s.setUop h u).pendingTarget = s.pendingTarget := rfl
@[simp] theorem State.setUop_recovery : (s.setUop h u).recovery = s.recovery := rfl
@[simp] theorem State.setUop_rstate : (s.setUop h u).rstate = s.rstate := rfl
@[simp] theorem State.setUop_redirectPending :
    (s.setUop h u).redirectPending =
      s.redirectPending := rfl
@[simp] theorem State.setUop_status : (s.setUop h u).status = s.status := rfl
@[simp] theorem State.setUop_retiredCount : (s.setUop h u).retiredCount = s.retiredCount := rfl
@[simp] theorem State.setUop_lastRetireCycle :
    (s.setUop h u).lastRetireCycle =
      s.lastRetireCycle := rfl
@[simp] theorem State.setUop_seqNext : (s.setUop h u).seqNext = s.seqNext := rfl
@[simp] theorem State.setUop_mem : (s.setUop h u).mem = s.mem := rfl
@[simp] theorem State.setUop_log : (s.setUop h u).log = s.log := rfl
@[simp] theorem State.setUop_lastMatch : (s.setUop h u).lastMatch = s.lastMatch := rfl
@[simp] theorem State.setUop_predictCalls : (s.setUop h u).predictCalls = s.predictCalls := rfl
@[simp] theorem State.setUop_method : (s.setUop h u).method = s.method := rfl
@[simp] theorem State.setUop_ratOf (c' x' : Nat) :
    (s.setUop h u).ratOf c' x' = s.ratOf c' x' := rfl
@[simp] theorem State.setUop_prfOf (c' x' : Nat) :
    (s.setUop h u).prfOf c' x' = s.prfOf c' x' := rfl
@[simp] theorem State.setUop_freeOf (c' x' : Nat) :
    (s.setUop h u).freeOf c' x' = s.freeOf c' x' := rfl
@[simp] theorem State.setUop_validOf (c' x' : Nat) :
    (s.setUop h u).validOf c' x' = s.validOf c' x' := rfl
@[simp] theorem State.setUop_station (k' : FuClass) (j' : Nat) :
    (s.setUop h u).station k' j' = s.station k' j' := rfl
@[simp] theorem State.setUop_rrOf (k' : FuClass) :
    (s.setUop h u).rrOf k' = s.rrOf k' := rfl
@[simp] theorem State.setUop_robAt (j' : Nat) :
    (s.setUop h u).robAt j' = s.robAt j' := rfl
@[simp] theorem State.setUop_robList :
    (s.setUop h u).robList = s.robList := rfl
end

section
variable (s : State) (h : Handle)
@[simp] theorem State.freeSlot_cfg : (s.freeSlot h).cfg = s.cfg := rfl
@[simp] theorem State.freeSlot_cycle : (s.freeSlot h).cycle = s.cycle := rfl
@[simp] theorem State.freeSlot_rat : (s.freeSlot h).rat = s.rat := rfl
@[simp] theorem State.freeSlot_prf : (s.freeSlot h).prf = s.prf := rfl
@[simp] theorem State.freeSlot_free : (s.freeSlot h).free = s.free := rfl
@[simp] theorem State.freeSlot_valid : (s.freeSlot h).valid = s.valid := rfl
@[simp] theorem State.freeSlot_arena : (s.freeSlot h).arena = s.arena.set h none := rfl
@[simp] theorem State.freeSlot_robSlots : (s.freeSlot h).robSlots = s.robSlots := rfl
@[simp] theorem State.freeSlot_robHead : (s.freeSlot h).robHead = s.robHead := rfl
@[simp] theorem State.freeSlot_robTail : (s.freeSlot h).robTail = s.robTail := rfl
@[simp] theorem State.freeSlot_robCount : (s.freeSlot h).robCount = s.robCount := rfl
@[simp] theorem State.freeSlot_rs : (s.freeSlot h).rs = s.rs := rfl
@[simp] theorem State.freeSlot_rr : (s.freeSlot h).rr = s.rr := rfl
@[simp] theorem State.freeSlot_lq : (s.freeSlot h).lq = s.lq := rfl
@[simp] theorem State.freeSlot_sq : (s.freeSlot h).sq = s.sq := rfl
@[simp] theorem State.freeSlot_fq : (s.freeSlot h).fq = s.fq := rfl
@[simp] theorem State.freeSlot_dq : (s.freeSlot h).dq = s.dq := rfl
@[simp] theorem State.freeSlot_fetchPc : (s.freeSlot h).fetchPc = s.fetchPc := rfl
@[simp] theorem State.freeSlot_pendingTarget : (s.freeSlot h).pendingTarget = s.pendingTarget := rfl
@[simp] theorem State.freeSlot_recovery : (s.freeSlot h).recovery = s.recovery := rfl
@[simp] theorem State.freeSlot_rstate : (s.freeSlot h).rstate = s.rstate := rfl
@[simp] theorem State.freeSlot_redirectPending :
    (s.freeSlot h).redirectPending =
      s.redirectPending := rfl
@[simp] theorem State.freeSlot_status : (s.freeSlot h).status = s.status := rfl
@[simp] theorem State.freeSlot_retiredCount : (s.freeSlot h).retiredCount = s.retiredCount := rfl
@[simp] theorem State.freeSlot_lastRetireCycle :
    (s.freeSlot h).lastRetireCycle =
      s.lastRetireCycle := rfl
@[simp] theorem State.freeSlot_seqNext : (s.freeSlot h).seqNext = s.seqNext := rfl
@[simp] theorem State.freeSlot_mem : (s.freeSlot h).mem = s.mem := rfl
@[simp] theorem State.freeSlot_log : (s.freeSlot h).log = s.log := rfl
@[simp] theorem State.freeSlot_lastMatch : (s.freeSlot h).lastMatch = s.lastMatch := rfl
@[simp] theorem State.freeSlot_predictCalls : (s.freeSlot h).predictCalls = s.predictCalls := rfl
@[simp] theorem State.freeSlot_method : (s.freeSlot h).method = s.method := rfl
@[simp] theorem State.freeSlot_ratOf (c' x' : Nat) :
    (s.freeSlot h).ratOf c' x' = s.ratOf c' x' := rfl
@[simp] theorem State.freeSlot_prfOf (c' x' : Nat) :
    (s.freeSlot h).prfOf c' x' = s.prfOf c' x' := rfl
@[simp] theorem State.freeSlot_freeOf (c' x' : Nat) :
    (s.freeSlot h).freeOf c' x' = s.freeOf c' x' := rfl
@[simp] theorem State.freeSlot_validOf (c' x' : Nat) :
    (s.freeSlot h).validOf c' x' = s.validOf c' x' := rfl
@[simp] theorem State.freeSlot_station (k' : FuClass) (j' : Nat) :
    (s.freeSlot h).station k' j' = s.station k' j' := rfl
@[simp] theorem State.freeSlot_rrOf (k' : FuClass) :
    (s.freeSlot h).rrOf k' = s.rrOf k' := rfl
@[simp] theorem State.freeSlot_robAt (j' : Nat) :
    (s.freeSlot h).robAt j' = s.robAt j' := rfl
@[simp] theorem State.freeSlot_robList :
    (s.freeSlot h).robList = s.robList := rfl
end

section
variable (s : State) (e : EnvEvent)
@[simp] theorem State.emit_cfg : (s.emit e).cfg = s.cfg := rfl
@[simp] theorem State.emit_cycle : (s.emit e).cycle = s.cycle := rfl
@[simp] theorem State.emit_rat : (s.emit e).rat = s.rat := rfl
@[simp] theorem State.emit_prf : (s.emit e).prf = s.prf := rfl
@[simp] theorem State.emit_free : (s.emit e).free = s.free := rfl
@[simp] theorem State.emit_valid : (s.emit e).valid = s.valid := rfl
@[simp] theorem State.emit_arena : (s.emit e).arena = s.arena := rfl
@[simp] theorem State.emit_robSlots : (s.emit e).robSlots = s.robSlots := rfl
@[simp] theorem State.emit_robHead : (s.emit e).robHead = s.robHead := rfl
@[simp] theorem State.emit_robTail : (s.emit e).robTail = s.robTail := rfl
@[simp] theorem State.emit_robCount : (s.emit e).robCount = s.robCount := rfl
@[simp] theorem State.emit_rs : (s.emit e).rs = s.rs := rfl
@[simp] theorem State.emit_rr : (s.emit e).rr = s.rr := rfl
@[simp] theorem State.emit_lq : (s.emit e).lq = s.lq := rfl
@[simp] theorem State.emit_sq : (s.emit e).sq = s.sq := rfl
@[simp] theorem State.emit_fq : (s.emit e).fq = s.fq := rfl
@[simp] theorem State.emit_dq : (s.emit e).dq = s.dq := rfl
@[simp] theorem State.emit_fetchPc : (s.emit e).fetchPc = s.fetchPc := rfl
@[simp] theorem State.emit_pendingTarget : (s.emit e).pendingTarget = s.pendingTarget := rfl
@[simp] theorem State.emit_recovery : (s.emit e).recovery = s.recovery := rfl
@[simp] theorem State.emit_rstate : (s.emit e).rstate = s.rstate := rfl
@[simp] theorem State.emit_redirectPending : (s.emit e).redirectPending = s.redirectPending := rfl
@[simp] theorem State.emit_status : (s.emit e).status = s.status := rfl
@[simp] theorem State.emit_retiredCount : (s.emit e).retiredCount = s.retiredCount := rfl
@[simp] theorem State.emit_lastRetireCycle : (s.emit e).lastRetireCycle = s.lastRetireCycle := rfl
@[simp] theorem State.emit_seqNext : (s.emit e).seqNext = s.seqNext := rfl
@[simp] theorem State.emit_mem : (s.emit e).mem = s.mem := rfl
@[simp] theorem State.emit_log : (s.emit e).log = s.log ++ [e] := rfl
@[simp] theorem State.emit_lastMatch : (s.emit e).lastMatch = s.lastMatch := rfl
@[simp] theorem State.emit_predictCalls : (s.emit e).predictCalls = s.predictCalls := rfl
@[simp] theorem State.emit_method : (s.emit e).method = s.method := rfl
@[simp] theorem State.emit_ratOf (c' x' : Nat) :
    (s.emit e).ratOf c' x' = s.ratOf c' x' := rfl
@[simp] theorem State.emit_prfOf (c' x' : Nat) :
    (s.emit e).prfOf c' x' = s.prfOf c' x' := rfl
@[simp] theorem State.emit_freeOf (c' x' : Nat) :
    (s.emit e).freeOf c' x' = s.freeOf c' x' := rfl
@[simp] theorem State.emit_validOf (c' x' : Nat) :
    (s.emit e).validOf c' x' = s.validOf c' x' := rfl
@[simp] theorem State.emit_uop? (g : Handle) :
    (s.emit e).uop? g = s.uop? g := rfl
@[simp] theorem State.emit_station (k' : FuClass) (j' : Nat) :
    (s.emit e).station k' j' = s.station k' j' := rfl
@[simp] theorem State.emit_rrOf (k' : FuClass) :
    (s.emit e).rrOf k' = s.rrOf k' := rfl
@[simp] theorem State.emit_robAt (j' : Nat) :
    (s.emit e).robAt j' = s.robAt j' := rfl
@[simp] theorem State.emit_robList :
    (s.emit e).robList = s.robList := rfl
end

section
variable (s : State) (f : Fatal)
@[simp] theorem State.raise_cfg : (s.raise f).cfg = s.cfg := rfl
@[simp] theorem State.raise_cycle : (s.raise f).cycle = s.cycle := rfl
@[simp] theorem State.raise_rat : (s.raise f).rat = s.rat := rfl
@[simp] theorem State.raise_prf : (s.raise f).prf = s.prf := rfl
@[simp] theorem State.raise_free : (s.raise f).free = s.free := rfl
@[simp] theorem State.raise_valid : (s.raise f).valid = s.valid := rfl
@[simp] theorem State.raise_arena : (s.raise f).arena = s.arena := rfl
@[simp] theorem State.raise_robSlots : (s.raise f).robSlots = s.robSlots := rfl
@[simp] theorem State.raise_robHead : (s.raise f).robHead = s.robHead := rfl
@[simp] theorem State.raise_robTail : (s.raise f).robTail = s.robTail := rfl
@[simp] theorem State.raise_robCount : (s.raise f).robCount = s.robCount := rfl
@[simp] theorem State.raise_rs : (s.raise f).rs = s.rs := rfl
@[simp] theorem State.raise_rr : (s.raise f).rr = s.rr := rfl
@[simp] theorem State.raise_lq : (s.raise f).lq = s.lq := rfl
@[simp] theorem State.raise_sq : (s.raise f).sq = s.sq := rfl
@[simp] theorem State.raise_fq : (s.raise f).fq = s.fq := rfl
@[simp] theorem State.raise_dq : (s.raise f).dq = s.dq := rfl
@[simp] theorem State.raise_fetchPc : (s.raise f).fetchPc = s.fetchPc := rfl
@[simp] theorem State.raise_pendingTarget : (s.raise f).pendingTarget = s.pendingTarget := rfl
@[simp] theorem State.raise_recovery : (s.raise f).recovery = s.recovery := rfl
@[simp] theorem State.raise_rstate : (s.raise f).rstate = s.rstate := rfl
@[simp] theorem State.raise_redirectPending : (s.raise f).redirectPending = s.redirectPending := rfl
@[simp] theorem State.raise_status : (s.raise f).status = .fatal f := rfl
@[simp] theorem State.raise_retiredCount : (s.raise f).retiredCount = s.retiredCount := rfl
@[simp] theorem State.raise_lastRetireCycle : (s.raise f).lastRetireCycle = s.lastRetireCycle := rfl
@[simp] theorem State.raise_seqNext : (s.raise f).seqNext = s.seqNext := rfl
@[simp] theorem State.raise_mem : (s.raise f).mem = s.mem := rfl
@[simp] theorem State.raise_log : (s.raise f).log = s.log := rfl
@[simp] theorem State.raise_lastMatch : (s.raise f).lastMatch = s.lastMatch := rfl
@[simp] theorem State.raise_predictCalls : (s.raise f).predictCalls = s.predictCalls := rfl
@[simp] theorem State.raise_method : (s.raise f).method = s.method := rfl
@[simp] theorem State.raise_ratOf (c' x' : Nat) :
    (s.raise f).ratOf c' x' = s.ratOf c' x' := rfl
@[simp] theorem State.raise_prfOf (c' x' : Nat) :
    (s.raise f).prfOf c' x' = s.prfOf c' x' := rfl
@[simp] theorem State.raise_freeOf (c' x' : Nat) :
    (s.raise f).freeOf c' x' = s.freeOf c' x' := rfl
@[simp] theorem State.raise_validOf (c' x' : Nat) :
    (s.raise f).validOf c' x' = s.validOf c' x' := rfl
@[simp] theorem State.raise_uop? (g : Handle) :
    (s.raise f).uop? g = s.uop? g := rfl
@[simp] theorem State.raise_station (k' : FuClass) (j' : Nat) :
    (s.raise f).station k' j' = s.station k' j' := rfl
@[simp] theorem State.raise_rrOf (k' : FuClass) :
    (s.raise f).rrOf k' = s.rrOf k' := rfl
@[simp] theorem State.raise_robAt (j' : Nat) :
    (s.raise f).robAt j' = s.robAt j' := rfl
@[simp] theorem State.raise_robList :
    (s.raise f).robList = s.robList := rfl
end

section
variable (s : State) (m : Memory)
@[simp] theorem State.setMem_cfg : (s.setMem m).cfg = s.cfg := rfl
@[simp] theorem State.setMem_cycle : (s.setMem m).cycle = s.cycle := rfl
@[simp] theorem State.setMem_rat : (s.setMem m).rat = s.rat := rfl
@[simp] theorem State.setMem_prf : (s.setMem m).prf = s.prf := rfl
@[simp] theorem State.setMem_free : (s.setMem m).free = s.free := rfl
@[simp] theorem State.setMem_valid : (s.setMem m).valid = s.valid := rfl
@[simp] theorem State.setMem_arena : (s.setMem m).arena = s.arena := rfl
@[simp] theorem State.setMem_robSlots : (s.setMem m).robSlots = s.robSlots := rfl
@[simp] theorem State.setMem_robHead : (s.setMem m).robHead = s.robHead := rfl
@[simp] theorem State.setMem_robTail : (s.setMem m).robTail = s.robTail := rfl
@[simp] theorem State.setMem_robCount : (s.setMem m).robCount = s.robCount := rfl
@[simp] theorem State.setMem_rs : (s.setMem m).rs = s.rs := rfl
@[simp] theorem State.setMem_rr : (s.setMem m).rr = s.rr := rfl
@[simp] theorem State.setMem_lq : (s.setMem m).lq = s.lq := rfl
@[simp] theorem State.setMem_sq : (s.setMem m).sq = s.sq := rfl
@[simp] theorem State.setMem_fq : (s.setMem m).fq = s.fq := rfl
@[simp] theorem State.setMem_dq : (s.setMem m).dq = s.dq := rfl
@[simp] theorem State.setMem_fetchPc : (s.setMem m).fetchPc = s.fetchPc := rfl
@[simp] theorem State.setMem_pendingTarget : (s.setMem m).pendingTarget = s.pendingTarget := rfl
@[simp] theorem State.setMem_recovery : (s.setMem m).recovery = s.recovery := rfl
@[simp] theorem State.setMem_rstate : (s.setMem m).rstate = s.rstate := rfl
@[simp] theorem State.setMem_redirectPending :
    (s.setMem m).redirectPending =
      s.redirectPending := rfl
@[simp] theorem State.setMem_status : (s.setMem m).status = s.status := rfl
@[simp] theorem State.setMem_retiredCount : (s.setMem m).retiredCount = s.retiredCount := rfl
@[simp] theorem State.setMem_lastRetireCycle :
    (s.setMem m).lastRetireCycle =
      s.lastRetireCycle := rfl
@[simp] theorem State.setMem_seqNext : (s.setMem m).seqNext = s.seqNext := rfl
@[simp] theorem State.setMem_mem : (s.setMem m).mem = m := rfl
@[simp] theorem State.setMem_log : (s.setMem m).log = s.log := rfl
@[simp] theorem State.setMem_lastMatch : (s.setMem m).lastMatch = s.lastMatch := rfl
@[simp] theorem State.setMem_predictCalls : (s.setMem m).predictCalls = s.predictCalls := rfl
@[simp] theorem State.setMem_method : (s.setMem m).method = s.method := rfl
@[simp] theorem State.setMem_ratOf (c' x' : Nat) :
    (s.setMem m).ratOf c' x' = s.ratOf c' x' := rfl
@[simp] theorem State.setMem_prfOf (c' x' : Nat) :
    (s.setMem m).prfOf c' x' = s.prfOf c' x' := rfl
@[simp] theorem State.setMem_freeOf (c' x' : Nat) :
    (s.setMem m).freeOf c' x' = s.freeOf c' x' := rfl
@[simp] theorem State.setMem_validOf (c' x' : Nat) :
    (s.setMem m).validOf c' x' = s.validOf c' x' := rfl
@[simp] theorem State.setMem_uop? (g : Handle) :
    (s.setMem m).uop? g = s.uop? g := rfl
@[simp] theorem State.setMem_station (k' : FuClass) (j' : Nat) :
    (s.setMem m).station k' j' = s.station k' j' := rfl
@[simp] theorem State.setMem_rrOf (k' : FuClass) :
    (s.setMem m).rrOf k' = s.rrOf k' := rfl
@[simp] theorem State.setMem_robAt (j' : Nat) :
    (s.setMem m).robAt j' = s.robAt j' := rfl
@[simp] theorem State.setMem_robList :
    (s.setMem m).robList = s.robList := rfl
end

section
variable (s : State) (m : Method)
@[simp] theorem State.setMethod_cfg : (s.setMethod m).cfg = s.cfg := rfl
@[simp] theorem State.setMethod_cycle : (s.setMethod m).cycle = s.cycle := rfl
@[simp] theorem State.setMethod_rat : (s.setMethod m).rat = s.rat := rfl
@[simp] theorem State.setMethod_prf : (s.setMethod m).prf = s.prf := rfl
@[simp] theorem State.setMethod_free : (s.setMethod m).free = s.free := rfl
@[simp] theorem State.setMethod_valid : (s.setMethod m).valid = s.valid := rfl
@[simp] theorem State.setMethod_arena : (s.setMethod m).arena = s.arena := rfl
@[simp] theorem State.setMethod_robSlots : (s.setMethod m).robSlots = s.robSlots := rfl
@[simp] theorem State.setMethod_robHead : (s.setMethod m).robHead = s.robHead := rfl
@[simp] theorem State.setMethod_robTail : (s.setMethod m).robTail = s.robTail := rfl
@[simp] theorem State.setMethod_robCount : (s.setMethod m).robCount = s.robCount := rfl
@[simp] theorem State.setMethod_rs : (s.setMethod m).rs = s.rs := rfl
@[simp] theorem State.setMethod_rr : (s.setMethod m).rr = s.rr := rfl
@[simp] theorem State.setMethod_lq : (s.setMethod m).lq = s.lq := rfl
@[simp] theorem State.setMethod_sq : (s.setMethod m).sq = s.sq := rfl
@[simp] theorem State.setMethod_fq : (s.setMethod m).fq = s.fq := rfl
@[simp] theorem State.setMethod_dq : (s.setMethod m).dq = s.dq := rfl
@[simp] theorem State.setMethod_fetchPc : (s.setMethod m).fetchPc = s.fetchPc := rfl
@[simp] theorem State.setMethod_pendingTarget :
    (s.setMethod m).pendingTarget =
      s.pendingTarget := rfl
@[simp] theorem State.setMethod_recovery : (s.setMethod m).recovery = s.recovery := rfl
@[simp] theorem State.setMethod_rstate : (s.setMethod m).rstate = s.rstate := rfl
@[simp] theorem State.setMethod_redirectPending :
    (s.setMethod m).redirectPending =
      s.redirectPending := rfl
@[simp] theorem State.setMethod_status : (s.setMethod m).status = s.status := rfl
@[simp] theorem State.setMethod_retiredCount : (s.setMethod m).retiredCount = s.retiredCount := rfl
@[simp] theorem State.setMethod_lastRetireCycle :
    (s.setMethod m).lastRetireCycle =
      s.lastRetireCycle := rfl
@[simp] theorem State.setMethod_seqNext : (s.setMethod m).seqNext = s.seqNext := rfl
@[simp] theorem State.setMethod_mem : (s.setMethod m).mem = s.mem := rfl
@[simp] theorem State.setMethod_log : (s.setMethod m).log = s.log := rfl
@[simp] theorem State.setMethod_lastMatch : (s.setMethod m).lastMatch = s.lastMatch := rfl
@[simp] theorem State.setMethod_predictCalls : (s.setMethod m).predictCalls = s.predictCalls := rfl
@[simp] theorem State.setMethod_method : (s.setMethod m).method = m := rfl
@[simp] theorem State.setMethod_ratOf (c' x' : Nat) :
    (s.setMethod m).ratOf c' x' = s.ratOf c' x' := rfl
@[simp] theorem State.setMethod_prfOf (c' x' : Nat) :
    (s.setMethod m).prfOf c' x' = s.prfOf c' x' := rfl
@[simp] theorem State.setMethod_freeOf (c' x' : Nat) :
    (s.setMethod m).freeOf c' x' = s.freeOf c' x' := rfl
@[simp] theorem State.setMethod_validOf (c' x' : Nat) :
    (s.setMethod m).validOf c' x' = s.validOf c' x' := rfl
@[simp] theorem State.setMethod_uop? (g : Handle) :
    (s.setMethod m).uop? g = s.uop? g := rfl
@[simp] theorem State.setMethod_station (k' : FuClass) (j' : Nat) :
    (s.setMethod m).station k' j' = s.station k' j' := rfl
@[simp] theorem State.setMethod_rrOf (k' : FuClass) :
    (s.setMethod m).rrOf k' = s.rrOf k' := rfl
@[simp] theorem State.setMethod_robAt (j' : Nat) :
    (s.setMethod m).robAt j' = s.robAt j' := rfl
@[simp] theorem State.setMethod_robList :
    (s.setMethod m).robList = s.robList := rfl
end

section
variable (s : State) (r : RState)
@[simp] theorem State.setRstate_cfg : (s.setRstate r).cfg = s.cfg := rfl
@[simp] theorem State.setRstate_cycle : (s.setRstate r).cycle = s.cycle := rfl
@[simp] theorem State.setRstate_rat : (s.setRstate r).rat = s.rat := rfl
@[simp] theorem State.setRstate_prf : (s.setRstate r).prf = s.prf := rfl
@[simp] theorem State.setRstate_free : (s.setRstate r).free = s.free := rfl
@[simp] theorem State.setRstate_valid : (s.setRstate r).valid = s.valid := rfl
@[simp] theorem State.setRstate_arena : (s.setRstate r).arena = s.arena := rfl
@[simp] theorem State.setRstate_robSlots : (s.setRstate r).robSlots = s.robSlots := rfl
@[simp] theorem State.setRstate_robHead : (s.setRstate r).robHead = s.robHead := rfl
@[simp] theorem State.setRstate_robTail : (s.setRstate r).robTail = s.robTail := rfl
@[simp] theorem State.setRstate_robCount : (s.setRstate r).robCount = s.robCount := rfl
@[simp] theorem State.setRstate_rs : (s.setRstate r).rs = s.rs := rfl
@[simp] theorem State.setRstate_rr : (s.setRstate r).rr = s.rr := rfl
@[simp] theorem State.setRstate_lq : (s.setRstate r).lq = s.lq := rfl
@[simp] theorem State.setRstate_sq : (s.setRstate r).sq = s.sq := rfl
@[simp] theorem State.setRstate_fq : (s.setRstate r).fq = s.fq := rfl
@[simp] theorem State.setRstate_dq : (s.setRstate r).dq = s.dq := rfl
@[simp] theorem State.setRstate_fetchPc : (s.setRstate r).fetchPc = s.fetchPc := rfl
@[simp] theorem State.setRstate_pendingTarget :
    (s.setRstate r).pendingTarget =
      s.pendingTarget := rfl
@[simp] theorem State.setRstate_recovery : (s.setRstate r).recovery = s.recovery := rfl
@[simp] theorem State.setRstate_rstate : (s.setRstate r).rstate = r := rfl
@[simp] theorem State.setRstate_redirectPending :
    (s.setRstate r).redirectPending =
      s.redirectPending := rfl
@[simp] theorem State.setRstate_status : (s.setRstate r).status = s.status := rfl
@[simp] theorem State.setRstate_retiredCount : (s.setRstate r).retiredCount = s.retiredCount := rfl
@[simp] theorem State.setRstate_lastRetireCycle :
    (s.setRstate r).lastRetireCycle =
      s.lastRetireCycle := rfl
@[simp] theorem State.setRstate_seqNext : (s.setRstate r).seqNext = s.seqNext := rfl
@[simp] theorem State.setRstate_mem : (s.setRstate r).mem = s.mem := rfl
@[simp] theorem State.setRstate_log : (s.setRstate r).log = s.log := rfl
@[simp] theorem State.setRstate_lastMatch : (s.setRstate r).lastMatch = s.lastMatch := rfl
@[simp] theorem State.setRstate_predictCalls : (s.setRstate r).predictCalls = s.predictCalls := rfl
@[simp] theorem State.setRstate_method : (s.setRstate r).method = s.method := rfl
@[simp] theorem State.setRstate_ratOf (c' x' : Nat) :
    (s.setRstate r).ratOf c' x' = s.ratOf c' x' := rfl
@[simp] theorem State.setRstate_prfOf (c' x' : Nat) :
    (s.setRstate r).prfOf c' x' = s.prfOf c' x' := rfl
@[simp] theorem State.setRstate_freeOf (c' x' : Nat) :
    (s.setRstate r).freeOf c' x' = s.freeOf c' x' := rfl
@[simp] theorem State.setRstate_validOf (c' x' : Nat) :
    (s.setRstate r).validOf c' x' = s.validOf c' x' := rfl
@[simp] theorem State.setRstate_uop? (g : Handle) :
    (s.setRstate r).uop? g = s.uop? g := rfl
@[simp] theorem State.setRstate_station (k' : FuClass) (j' : Nat) :
    (s.setRstate r).station k' j' = s.station k' j' := rfl
@[simp] theorem State.setRstate_rrOf (k' : FuClass) :
    (s.setRstate r).rrOf k' = s.rrOf k' := rfl
@[simp] theorem State.setRstate_robAt (j' : Nat) :
    (s.setRstate r).robAt j' = s.robAt j' := rfl
@[simp] theorem State.setRstate_robList :
    (s.setRstate r).robList = s.robList := rfl
end

section
variable (s : State)
@[simp] theorem State.takeSeq_cfg : (s.takeSeq).cfg = s.cfg := rfl
@[simp] theorem State.takeSeq_cycle : (s.takeSeq).cycle = s.cycle := rfl
@[simp] theorem State.takeSeq_rat : (s.takeSeq).rat = s.rat := rfl
@[simp] theorem State.takeSeq_prf : (s.takeSeq).prf = s.prf := rfl
@[simp] theorem State.takeSeq_free : (s.takeSeq).free = s.free := rfl
@[simp] theorem State.takeSeq_valid : (s.takeSeq).valid = s.valid := rfl
@[simp] theorem State.takeSeq_arena : (s.takeSeq).arena = s.arena := rfl
@[simp] theorem State.takeSeq_robSlots : (s.takeSeq).robSlots = s.robSlots := rfl
@[simp] theorem State.takeSeq_robHead : (s.takeSeq).robHead = s.robHead := rfl
@[simp] theorem State.takeSeq_robTail : (s.takeSeq).robTail = s.robTail := rfl
@[simp] theorem State.takeSeq_robCount : (s.takeSeq).robCount = s.robCount := rfl
@[simp] theorem State.takeSeq_rs : (s.takeSeq).rs = s.rs := rfl
@[simp] theorem State.takeSeq_rr : (s.takeSeq).rr = s.rr := rfl
@[simp] theorem State.takeSeq_lq : (s.takeSeq).lq = s.lq := rfl
@[simp] theorem State.takeSeq_sq : (s.takeSeq).sq = s.sq := rfl
@[simp] theorem State.takeSeq_fq : (s.takeSeq).fq = s.fq := rfl
@[simp] theorem State.takeSeq_dq : (s.takeSeq).dq = s.dq := rfl
@[simp] theorem State.takeSeq_fetchPc : (s.takeSeq).fetchPc = s.fetchPc := rfl
@[simp] theorem State.takeSeq_pendingTarget : (s.takeSeq).pendingTarget = s.pendingTarget := rfl
@[simp] theorem State.takeSeq_recovery : (s.takeSeq).recovery = s.recovery := rfl
@[simp] theorem State.takeSeq_rstate : (s.takeSeq).rstate = s.rstate := rfl
@[simp] theorem State.takeSeq_redirectPending :
    (s.takeSeq).redirectPending =
      s.redirectPending := rfl
@[simp] theorem State.takeSeq_status : (s.takeSeq).status = s.status := rfl
@[simp] theorem State.takeSeq_retiredCount : (s.takeSeq).retiredCount = s.retiredCount := rfl
@[simp] theorem State.takeSeq_lastRetireCycle :
    (s.takeSeq).lastRetireCycle =
      s.lastRetireCycle := rfl
@[simp] theorem State.takeSeq_seqNext : (s.takeSeq).seqNext = s.seqNext + 1 := rfl
@[simp] theorem State.takeSeq_mem : (s.takeSeq).mem = s.mem := rfl
@[simp] theorem State.takeSeq_log : (s.takeSeq).log = s.log := rfl
@[simp] theorem State.takeSeq_lastMatch : (s.takeSeq).lastMatch = s.lastMatch := rfl
@[simp] theorem State.takeSeq_predictCalls : (s.takeSeq).predictCalls = s.predictCalls := rfl
@[simp] theorem State.takeSeq_method : (s.takeSeq).method = s.method := rfl
@[simp] theorem State.takeSeq_ratOf (c' x' : Nat) :
    (s.takeSeq).ratOf c' x' = s.ratOf c' x' := rfl
@[simp] theorem State.takeSeq_prfOf (c' x' : Nat) :
    (s.takeSeq).prfOf c' x' = s.prfOf c' x' := rfl
@[simp] theorem State.takeSeq_freeOf (c' x' : Nat) :
    (s.takeSeq).freeOf c' x' = s.freeOf c' x' := rfl
@[simp] theorem State.takeSeq_validOf (c' x' : Nat) :
    (s.takeSeq).validOf c' x' = s.validOf c' x' := rfl
@[simp] theorem State.takeSeq_uop? (g : Handle) :
    (s.takeSeq).uop? g = s.uop? g := rfl
@[simp] theorem State.takeSeq_station (k' : FuClass) (j' : Nat) :
    (s.takeSeq).station k' j' = s.station k' j' := rfl
@[simp] theorem State.takeSeq_rrOf (k' : FuClass) :
    (s.takeSeq).rrOf k' = s.rrOf k' := rfl
@[simp] theorem State.takeSeq_robAt (j' : Nat) :
    (s.takeSeq).robAt j' = s.robAt j' := rfl
@[simp] theorem State.takeSeq_robList :
    (s.takeSeq).robList = s.robList := rfl
end

section
variable (s : State)
@[simp] theorem State.dqPop_cfg : (s.dqPop).cfg = s.cfg := rfl
@[simp] theorem State.dqPop_cycle : (s.dqPop).cycle = s.cycle := rfl
@[simp] theorem State.dqPop_rat : (s.dqPop).rat = s.rat := rfl
@[simp] theorem State.dqPop_prf : (s.dqPop).prf = s.prf := rfl
@[simp] theorem State.dqPop_free : (s.dqPop).free = s.free := rfl
@[simp] theorem State.dqPop_valid : (s.dqPop).valid = s.valid := rfl
@[simp] theorem State.dqPop_arena : (s.dqPop).arena = s.arena := rfl
@[simp] theorem State.dqPop_robSlots : (s.dqPop).robSlots = s.robSlots := rfl
@[simp] theorem State.dqPop_robHead : (s.dqPop).robHead = s.robHead := rfl
@[simp] theorem State.dqPop_robTail : (s.dqPop).robTail = s.robTail := rfl
@[simp] theorem State.dqPop_robCount : (s.dqPop).robCount = s.robCount := rfl
@[simp] theorem State.dqPop_rs : (s.dqPop).rs = s.rs := rfl
@[simp] theorem State.dqPop_rr : (s.dqPop).rr = s.rr := rfl
@[simp] theorem State.dqPop_lq : (s.dqPop).lq = s.lq := rfl
@[simp] theorem State.dqPop_sq : (s.dqPop).sq = s.sq := rfl
@[simp] theorem State.dqPop_fq : (s.dqPop).fq = s.fq := rfl
@[simp] theorem State.dqPop_dq : (s.dqPop).dq = s.dq.tail := rfl
@[simp] theorem State.dqPop_fetchPc : (s.dqPop).fetchPc = s.fetchPc := rfl
@[simp] theorem State.dqPop_pendingTarget : (s.dqPop).pendingTarget = s.pendingTarget := rfl
@[simp] theorem State.dqPop_recovery : (s.dqPop).recovery = s.recovery := rfl
@[simp] theorem State.dqPop_rstate : (s.dqPop).rstate = s.rstate := rfl
@[simp] theorem State.dqPop_redirectPending : (s.dqPop).redirectPending = s.redirectPending := rfl
@[simp] theorem State.dqPop_status : (s.dqPop).status = s.status := rfl
@[simp] theorem State.dqPop_retiredCount : (s.dqPop).retiredCount = s.retiredCount := rfl
@[simp] theorem State.dqPop_lastRetireCycle : (s.dqPop).lastRetireCycle = s.lastRetireCycle := rfl
@[simp] theorem State.dqPop_seqNext : (s.dqPop).seqNext = s.seqNext := rfl
@[simp] theorem State.dqPop_mem : (s.dqPop).mem = s.mem := rfl
@[simp] theorem State.dqPop_log : (s.dqPop).log = s.log := rfl
@[simp] theorem State.dqPop_lastMatch : (s.dqPop).lastMatch = s.lastMatch := rfl
@[simp] theorem State.dqPop_predictCalls : (s.dqPop).predictCalls = s.predictCalls := rfl
@[simp] theorem State.dqPop_method : (s.dqPop).method = s.method := rfl
@[simp] theorem State.dqPop_ratOf (c' x' : Nat) :
    (s.dqPop).ratOf c' x' = s.ratOf c' x' := rfl
@[simp] theorem State.dqPop_prfOf (c' x' : Nat) :
    (s.dqPop).prfOf c' x' = s.prfOf c' x' := rfl
@[simp] theorem State.dqPop_freeOf (c' x' : Nat) :
    (s.dqPop).freeOf c' x' = s.freeOf c' x' := rfl
@[simp] theorem State.dqPop_validOf (c' x' : Nat) :
    (s.dqPop).validOf c' x' = s.validOf c' x' := rfl
@[simp] theorem State.dqPop_uop? (g : Handle) :
    (s.dqPop).uop? g = s.uop? g := rfl
@[simp] theorem State.dqPop_station (k' : FuClass) (j' : Nat) :
    (s.dqPop).station k' j' = s.station k' j' := rfl
@[simp] theorem State.dqPop_rrOf (k' : FuClass) :
    (s.dqPop).rrOf k' = s.rrOf k' := rfl
@[simp] theorem State.dqPop_robAt (j' : Nat) :
    (s.dqPop).robAt j' = s.robAt j' := rfl
@[simp] theorem State.dqPop_robList :
    (s.dqPop).robList = s.robList := rfl
end

section
variable (s : State) (h : Handle)
@[simp] theorem State.moveToDq_cfg : (s.moveToDq h).cfg = s.cfg := rfl
@[simp] theorem State.moveToDq_cycle : (s.moveToDq h).cycle = s.cycle := rfl
@[simp] theorem State.moveToDq_rat : (s.moveToDq h).rat = s.rat := rfl
@[simp] theorem State.moveToDq_prf : (s.moveToDq h).prf = s.prf := rfl
@[simp] theorem State.moveToDq_free : (s.moveToDq h).free = s.free := rfl
@[simp] theorem State.moveToDq_valid : (s.moveToDq h).valid = s.valid := rfl
@[simp] theorem State.moveToDq_arena : (s.moveToDq h).arena = s.arena := rfl
@[simp] theorem State.moveToDq_robSlots : (s.moveToDq h).robSlots = s.robSlots := rfl
@[simp] theorem State.moveToDq_robHead : (s.moveToDq h).robHead = s.robHead := rfl
@[simp] theorem State.moveToDq_robTail : (s.moveToDq h).robTail = s.robTail := rfl
@[simp] theorem State.moveToDq_robCount : (s.moveToDq h).robCount = s.robCount := rfl
@[simp] theorem State.moveToDq_rs : (s.moveToDq h).rs = s.rs := rfl
@[simp] theorem State.moveToDq_rr : (s.moveToDq h).rr = s.rr := rfl
@[simp] theorem State.moveToDq_lq : (s.moveToDq h).lq = s.lq := rfl
@[simp] theorem State.moveToDq_sq : (s.moveToDq h).sq = s.sq := rfl
@[simp] theorem State.moveToDq_fq : (s.moveToDq h).fq = s.fq.tail := rfl
@[simp] theorem State.moveToDq_dq : (s.moveToDq h).dq = s.dq ++ [h] := rfl
@[simp] theorem State.moveToDq_fetchPc : (s.moveToDq h).fetchPc = s.fetchPc := rfl
@[simp] theorem State.moveToDq_pendingTarget : (s.moveToDq h).pendingTarget = s.pendingTarget := rfl
@[simp] theorem State.moveToDq_recovery : (s.moveToDq h).recovery = s.recovery := rfl
@[simp] theorem State.moveToDq_rstate : (s.moveToDq h).rstate = s.rstate := rfl
@[simp] theorem State.moveToDq_redirectPending :
    (s.moveToDq h).redirectPending =
      s.redirectPending := rfl
@[simp] theorem State.moveToDq_status : (s.moveToDq h).status = s.status := rfl
@[simp] theorem State.moveToDq_retiredCount : (s.moveToDq h).retiredCount = s.retiredCount := rfl
@[simp] theorem State.moveToDq_lastRetireCycle :
    (s.moveToDq h).lastRetireCycle =
      s.lastRetireCycle := rfl
@[simp] theorem State.moveToDq_seqNext : (s.moveToDq h).seqNext = s.seqNext := rfl
@[simp] theorem State.moveToDq_mem : (s.moveToDq h).mem = s.mem := rfl
@[simp] theorem State.moveToDq_log : (s.moveToDq h).log = s.log := rfl
@[simp] theorem State.moveToDq_lastMatch : (s.moveToDq h).lastMatch = s.lastMatch := rfl
@[simp] theorem State.moveToDq_predictCalls : (s.moveToDq h).predictCalls = s.predictCalls := rfl
@[simp] theorem State.moveToDq_method : (s.moveToDq h).method = s.method := rfl
@[simp] theorem State.moveToDq_ratOf (c' x' : Nat) :
    (s.moveToDq h).ratOf c' x' = s.ratOf c' x' := rfl
@[simp] theorem State.moveToDq_prfOf (c' x' : Nat) :
    (s.moveToDq h).prfOf c' x' = s.prfOf c' x' := rfl
@[simp] theorem State.moveToDq_freeOf (c' x' : Nat) :
    (s.moveToDq h).freeOf c' x' = s.freeOf c' x' := rfl
@[simp] theorem State.moveToDq_validOf (c' x' : Nat) :
    (s.moveToDq h).validOf c' x' = s.validOf c' x' := rfl
@[simp] theorem State.moveToDq_uop? (g : Handle) :
    (s.moveToDq h).uop? g = s.uop? g := rfl
@[simp] theorem State.moveToDq_station (k' : FuClass) (j' : Nat) :
    (s.moveToDq h).station k' j' = s.station k' j' := rfl
@[simp] theorem State.moveToDq_rrOf (k' : FuClass) :
    (s.moveToDq h).rrOf k' = s.rrOf k' := rfl
@[simp] theorem State.moveToDq_robAt (j' : Nat) :
    (s.moveToDq h).robAt j' = s.robAt j' := rfl
@[simp] theorem State.moveToDq_robList :
    (s.moveToDq h).robList = s.robList := rfl
end

section
variable (s : State) (h : Handle)
@[simp] theorem State.fqPush_cfg : (s.fqPush h).cfg = s.cfg := rfl
@[simp] theorem State.fqPush_cycle : (s.fqPush h).cycle = s.cycle := rfl
@[simp] theorem State.fqPush_rat : (s.fqPush h).rat = s.rat := rfl
@[simp] theorem State.fqPush_prf : (s.fqPush h).prf = s.prf := rfl
@[simp] theorem State.fqPush_free : (s.fqPush h).free = s.free := rfl
@[simp] theorem State.fqPush_valid : (s.fqPush h).valid = s.valid := rfl
@[simp] theorem State.fqPush_arena : (s.fqPush h).arena = s.arena := rfl
@[simp] theorem State.fqPush_robSlots : (s.fqPush h).robSlots = s.robSlots := rfl
@[simp] theorem State.fqPush_robHead : (s.fqPush h).robHead = s.robHead := rfl
@[simp] theorem State.fqPush_robTail : (s.fqPush h).robTail = s.robTail := rfl
@[simp] theorem State.fqPush_robCount : (s.fqPush h).robCount = s.robCount := rfl
@[simp] theorem State.fqPush_rs : (s.fqPush h).rs = s.rs := rfl
@[simp] theorem State.fqPush_rr : (s.fqPush h).rr = s.rr := rfl
@[simp] theorem State.fqPush_lq : (s.fqPush h).lq = s.lq := rfl
@[simp] theorem State.fqPush_sq : (s.fqPush h).sq = s.sq := rfl
@[simp] theorem State.fqPush_fq : (s.fqPush h).fq = s.fq ++ [h] := rfl
@[simp] theorem State.fqPush_dq : (s.fqPush h).dq = s.dq := rfl
@[simp] theorem State.fqPush_fetchPc : (s.fqPush h).fetchPc = s.fetchPc := rfl
@[simp] theorem State.fqPush_pendingTarget : (s.fqPush h).pendingTarget = s.pendingTarget := rfl
@[simp] theorem State.fqPush_recovery : (s.fqPush h).recovery = s.recovery := rfl
@[simp] theorem State.fqPush_rstate : (s.fqPush h).rstate = s.rstate := rfl
@[simp] theorem State.fqPush_redirectPending :
    (s.fqPush h).redirectPending =
      s.redirectPending := rfl
@[simp] theorem State.fqPush_status : (s.fqPush h).status = s.status := rfl
@[simp] theorem State.fqPush_retiredCount : (s.fqPush h).retiredCount = s.retiredCount := rfl
@[simp] theorem State.fqPush_lastRetireCycle :
    (s.fqPush h).lastRetireCycle =
      s.lastRetireCycle := rfl
@[simp] theorem State.fqPush_seqNext : (s.fqPush h).seqNext = s.seqNext := rfl
@[simp] theorem State.fqPush_mem : (s.fqPush h).mem = s.mem := rfl
@[simp] theorem State.fqPush_log : (s.fqPush h).log = s.log := rfl
@[simp] theorem State.fqPush_lastMatch : (s.fqPush h).lastMatch = s.lastMatch := rfl
@[simp] theorem State.fqPush_predictCalls : (s.fqPush h).predictCalls = s.predictCalls + 1 := rfl
@[simp] theorem State.fqPush_method : (s.fqPush h).method = s.method := rfl
@[simp] theorem State.fqPush_ratOf (c' x' : Nat) :
    (s.fqPush h).ratOf c' x' = s.ratOf c' x' := rfl
@[simp] theorem State.fqPush_prfOf (c' x' : Nat) :
    (s.fqPush h).prfOf c' x' = s.prfOf c' x' := rfl
@[simp] theorem State.fqPush_freeOf (c' x' : Nat) :
    (s.fqPush h).freeOf c' x' = s.freeOf c' x' := rfl
@[simp] theorem State.fqPush_validOf (c' x' : Nat) :
    (s.fqPush h).validOf c' x' = s.validOf c' x' := rfl
@[simp] theorem State.fqPush_uop? (g : Handle) :
    (s.fqPush h).uop? g = s.uop? g := rfl
@[simp] theorem State.fqPush_station (k' : FuClass) (j' : Nat) :
    (s.fqPush h).station k' j' = s.station k' j' := rfl
@[simp] theorem State.fqPush_rrOf (k' : FuClass) :
    (s.fqPush h).rrOf k' = s.rrOf k' := rfl
@[simp] theorem State.fqPush_robAt (j' : Nat) :
    (s.fqPush h).robAt j' = s.robAt j' := rfl
@[simp] theorem State.fqPush_robList :
    (s.fqPush h).robList = s.robList := rfl
end

section
variable (s : State) (pc : Pc) (pending : Option Pc)
@[simp] theorem State.steer_cfg : (s.steer pc pending).cfg = s.cfg := rfl
@[simp] theorem State.steer_cycle : (s.steer pc pending).cycle = s.cycle := rfl
@[simp] theorem State.steer_rat : (s.steer pc pending).rat = s.rat := rfl
@[simp] theorem State.steer_prf : (s.steer pc pending).prf = s.prf := rfl
@[simp] theorem State.steer_free : (s.steer pc pending).free = s.free := rfl
@[simp] theorem State.steer_valid : (s.steer pc pending).valid = s.valid := rfl
@[simp] theorem State.steer_arena : (s.steer pc pending).arena = s.arena := rfl
@[simp] theorem State.steer_robSlots : (s.steer pc pending).robSlots = s.robSlots := rfl
@[simp] theorem State.steer_robHead : (s.steer pc pending).robHead = s.robHead := rfl
@[simp] theorem State.steer_robTail : (s.steer pc pending).robTail = s.robTail := rfl
@[simp] theorem State.steer_robCount : (s.steer pc pending).robCount = s.robCount := rfl
@[simp] theorem State.steer_rs : (s.steer pc pending).rs = s.rs := rfl
@[simp] theorem State.steer_rr : (s.steer pc pending).rr = s.rr := rfl
@[simp] theorem State.steer_lq : (s.steer pc pending).lq = s.lq := rfl
@[simp] theorem State.steer_sq : (s.steer pc pending).sq = s.sq := rfl
@[simp] theorem State.steer_fq : (s.steer pc pending).fq = s.fq := rfl
@[simp] theorem State.steer_dq : (s.steer pc pending).dq = s.dq := rfl
@[simp] theorem State.steer_fetchPc : (s.steer pc pending).fetchPc = pc := rfl
@[simp] theorem State.steer_pendingTarget : (s.steer pc pending).pendingTarget = pending := rfl
@[simp] theorem State.steer_recovery : (s.steer pc pending).recovery = s.recovery := rfl
@[simp] theorem State.steer_rstate : (s.steer pc pending).rstate = s.rstate := rfl
@[simp] theorem State.steer_redirectPending :
    (s.steer pc pending).redirectPending =
      s.redirectPending := rfl
@[simp] theorem State.steer_status : (s.steer pc pending).status = s.status := rfl
@[simp] theorem State.steer_retiredCount : (s.steer pc pending).retiredCount = s.retiredCount := rfl
@[simp] theorem State.steer_lastRetireCycle :
    (s.steer pc pending).lastRetireCycle =
      s.lastRetireCycle := rfl
@[simp] theorem State.steer_seqNext : (s.steer pc pending).seqNext = s.seqNext := rfl
@[simp] theorem State.steer_mem : (s.steer pc pending).mem = s.mem := rfl
@[simp] theorem State.steer_log : (s.steer pc pending).log = s.log := rfl
@[simp] theorem State.steer_lastMatch : (s.steer pc pending).lastMatch = s.lastMatch := rfl
@[simp] theorem State.steer_predictCalls : (s.steer pc pending).predictCalls = s.predictCalls := rfl
@[simp] theorem State.steer_method : (s.steer pc pending).method = s.method := rfl
@[simp] theorem State.steer_ratOf (c' x' : Nat) :
    (s.steer pc pending).ratOf c' x' = s.ratOf c' x' := rfl
@[simp] theorem State.steer_prfOf (c' x' : Nat) :
    (s.steer pc pending).prfOf c' x' = s.prfOf c' x' := rfl
@[simp] theorem State.steer_freeOf (c' x' : Nat) :
    (s.steer pc pending).freeOf c' x' = s.freeOf c' x' := rfl
@[simp] theorem State.steer_validOf (c' x' : Nat) :
    (s.steer pc pending).validOf c' x' = s.validOf c' x' := rfl
@[simp] theorem State.steer_uop? (g : Handle) :
    (s.steer pc pending).uop? g = s.uop? g := rfl
@[simp] theorem State.steer_station (k' : FuClass) (j' : Nat) :
    (s.steer pc pending).station k' j' = s.station k' j' := rfl
@[simp] theorem State.steer_rrOf (k' : FuClass) :
    (s.steer pc pending).rrOf k' = s.rrOf k' := rfl
@[simp] theorem State.steer_robAt (j' : Nat) :
    (s.steer pc pending).robAt j' = s.robAt j' := rfl
@[simp] theorem State.steer_robList :
    (s.steer pc pending).robList = s.robList := rfl
end

section
variable (s : State)
@[simp] theorem State.tick_cfg : (s.tick).cfg = s.cfg := rfl
@[simp] theorem State.tick_cycle : (s.tick).cycle = s.cycle + 1 := rfl
@[simp] theorem State.tick_rat : (s.tick).rat = s.rat := rfl
@[simp] theorem State.tick_prf : (s.tick).prf = s.prf := rfl
@[simp] theorem State.tick_free : (s.tick).free = s.free := rfl
@[simp] theorem State.tick_valid : (s.tick).valid = s.valid := rfl
@[simp] theorem State.tick_arena : (s.tick).arena = s.arena := rfl
@[simp] theorem State.tick_robSlots : (s.tick).robSlots = s.robSlots := rfl
@[simp] theorem State.tick_robHead : (s.tick).robHead = s.robHead := rfl
@[simp] theorem State.tick_robTail : (s.tick).robTail = s.robTail := rfl
@[simp] theorem State.tick_robCount : (s.tick).robCount = s.robCount := rfl
@[simp] theorem State.tick_rs : (s.tick).rs = s.rs := rfl
@[simp] theorem State.tick_rr : (s.tick).rr = s.rr := rfl
@[simp] theorem State.tick_lq : (s.tick).lq = s.lq := rfl
@[simp] theorem State.tick_sq : (s.tick).sq = s.sq := rfl
@[simp] theorem State.tick_fq : (s.tick).fq = s.fq := rfl
@[simp] theorem State.tick_dq : (s.tick).dq = s.dq := rfl
@[simp] theorem State.tick_fetchPc : (s.tick).fetchPc = s.fetchPc := rfl
@[simp] theorem State.tick_pendingTarget : (s.tick).pendingTarget = s.pendingTarget := rfl
@[simp] theorem State.tick_recovery : (s.tick).recovery = s.recovery := rfl
@[simp] theorem State.tick_rstate : (s.tick).rstate = s.rstate := rfl
@[simp] theorem State.tick_redirectPending : (s.tick).redirectPending = s.redirectPending := rfl
@[simp] theorem State.tick_status : (s.tick).status = s.status := rfl
@[simp] theorem State.tick_retiredCount : (s.tick).retiredCount = s.retiredCount := rfl
@[simp] theorem State.tick_lastRetireCycle : (s.tick).lastRetireCycle = s.lastRetireCycle := rfl
@[simp] theorem State.tick_seqNext : (s.tick).seqNext = s.seqNext := rfl
@[simp] theorem State.tick_mem : (s.tick).mem = s.mem := rfl
@[simp] theorem State.tick_log : (s.tick).log = s.log := rfl
@[simp] theorem State.tick_lastMatch : (s.tick).lastMatch = s.lastMatch := rfl
@[simp] theorem State.tick_predictCalls : (s.tick).predictCalls = s.predictCalls := rfl
@[simp] theorem State.tick_method : (s.tick).method = s.method := rfl
@[simp] theorem State.tick_ratOf (c' x' : Nat) :
    (s.tick).ratOf c' x' = s.ratOf c' x' := rfl
@[simp] theorem State.tick_prfOf (c' x' : Nat) :
    (s.tick).prfOf c' x' = s.prfOf c' x' := rfl
@[simp] theorem State.tick_freeOf (c' x' : Nat) :
    (s.tick).freeOf c' x' = s.freeOf c' x' := rfl
@[simp] theorem State.tick_validOf (c' x' : Nat) :
    (s.tick).validOf c' x' = s.validOf c' x' := rfl
@[simp] theorem State.tick_uop? (g : Handle) :
    (s.tick).uop? g = s.uop? g := rfl
@[simp] theorem State.tick_station (k' : FuClass) (j' : Nat) :
    (s.tick).station k' j' = s.station k' j' := rfl
@[simp] theorem State.tick_rrOf (k' : FuClass) :
    (s.tick).rrOf k' = s.rrOf k' := rfl
@[simp] theorem State.tick_robAt (j' : Nat) :
    (s.tick).robAt j' = s.robAt j' := rfl
@[simp] theorem State.tick_robList :
    (s.tick).robList = s.robList := rfl
end

section
variable (s : State)
@[simp] theorem State.countOne_cfg : (s.countOne).cfg = s.cfg := rfl
@[simp] theorem State.countOne_cycle : (s.countOne).cycle = s.cycle := rfl
@[simp] theorem State.countOne_rat : (s.countOne).rat = s.rat := rfl
@[simp] theorem State.countOne_prf : (s.countOne).prf = s.prf := rfl
@[simp] theorem State.countOne_free : (s.countOne).free = s.free := rfl
@[simp] theorem State.countOne_valid : (s.countOne).valid = s.valid := rfl
@[simp] theorem State.countOne_arena : (s.countOne).arena = s.arena := rfl
@[simp] theorem State.countOne_robSlots : (s.countOne).robSlots = s.robSlots := rfl
@[simp] theorem State.countOne_robHead : (s.countOne).robHead = s.robHead := rfl
@[simp] theorem State.countOne_robTail : (s.countOne).robTail = s.robTail := rfl
@[simp] theorem State.countOne_robCount : (s.countOne).robCount = s.robCount := rfl
@[simp] theorem State.countOne_rs : (s.countOne).rs = s.rs := rfl
@[simp] theorem State.countOne_rr : (s.countOne).rr = s.rr := rfl
@[simp] theorem State.countOne_lq : (s.countOne).lq = s.lq := rfl
@[simp] theorem State.countOne_sq : (s.countOne).sq = s.sq := rfl
@[simp] theorem State.countOne_fq : (s.countOne).fq = s.fq := rfl
@[simp] theorem State.countOne_dq : (s.countOne).dq = s.dq := rfl
@[simp] theorem State.countOne_fetchPc : (s.countOne).fetchPc = s.fetchPc := rfl
@[simp] theorem State.countOne_pendingTarget : (s.countOne).pendingTarget = s.pendingTarget := rfl
@[simp] theorem State.countOne_recovery : (s.countOne).recovery = s.recovery := rfl
@[simp] theorem State.countOne_rstate : (s.countOne).rstate = s.rstate := rfl
@[simp] theorem State.countOne_redirectPending :
    (s.countOne).redirectPending =
      s.redirectPending := rfl
@[simp] theorem State.countOne_status : (s.countOne).status = s.status := rfl
@[simp] theorem State.countOne_retiredCount : (s.countOne).retiredCount = s.retiredCount + 1 := rfl
@[simp] theorem State.countOne_lastRetireCycle : (s.countOne).lastRetireCycle = s.cycle := rfl
@[simp] theorem State.countOne_seqNext : (s.countOne).seqNext = s.seqNext := rfl
@[simp] theorem State.countOne_mem : (s.countOne).mem = s.mem := rfl
@[simp] theorem State.countOne_log : (s.countOne).log = s.log := rfl
@[simp] theorem State.countOne_lastMatch : (s.countOne).lastMatch = s.lastMatch := rfl
@[simp] theorem State.countOne_predictCalls : (s.countOne).predictCalls = s.predictCalls := rfl
@[simp] theorem State.countOne_method : (s.countOne).method = s.method := rfl
@[simp] theorem State.countOne_ratOf (c' x' : Nat) :
    (s.countOne).ratOf c' x' = s.ratOf c' x' := rfl
@[simp] theorem State.countOne_prfOf (c' x' : Nat) :
    (s.countOne).prfOf c' x' = s.prfOf c' x' := rfl
@[simp] theorem State.countOne_freeOf (c' x' : Nat) :
    (s.countOne).freeOf c' x' = s.freeOf c' x' := rfl
@[simp] theorem State.countOne_validOf (c' x' : Nat) :
    (s.countOne).validOf c' x' = s.validOf c' x' := rfl
@[simp] theorem State.countOne_uop? (g : Handle) :
    (s.countOne).uop? g = s.uop? g := rfl
@[simp] theorem State.countOne_station (k' : FuClass) (j' : Nat) :
    (s.countOne).station k' j' = s.station k' j' := rfl
@[simp] theorem State.countOne_rrOf (k' : FuClass) :
    (s.countOne).rrOf k' = s.rrOf k' := rfl
@[simp] theorem State.countOne_robAt (j' : Nat) :
    (s.countOne).robAt j' = s.robAt j' := rfl
@[simp] theorem State.countOne_robList :
    (s.countOne).robList = s.robList := rfl
end

section
variable (s : State) (r : CommitRecord)
@[simp] theorem State.matched_cfg : (s.matched r).cfg = s.cfg := rfl
@[simp] theorem State.matched_cycle : (s.matched r).cycle = s.cycle := rfl
@[simp] theorem State.matched_rat : (s.matched r).rat = s.rat := rfl
@[simp] theorem State.matched_prf : (s.matched r).prf = s.prf := rfl
@[simp] theorem State.matched_free : (s.matched r).free = s.free := rfl
@[simp] theorem State.matched_valid : (s.matched r).valid = s.valid := rfl
@[simp] theorem State.matched_arena : (s.matched r).arena = s.arena := rfl
@[simp] theorem State.matched_robSlots : (s.matched r).robSlots = s.robSlots := rfl
@[simp] theorem State.matched_robHead : (s.matched r).robHead = s.robHead := rfl
@[simp] theorem State.matched_robTail : (s.matched r).robTail = s.robTail := rfl
@[simp] theorem State.matched_robCount : (s.matched r).robCount = s.robCount := rfl
@[simp] theorem State.matched_rs : (s.matched r).rs = s.rs := rfl
@[simp] theorem State.matched_rr : (s.matched r).rr = s.rr := rfl
@[simp] theorem State.matched_lq : (s.matched r).lq = s.lq := rfl
@[simp] theorem State.matched_sq : (s.matched r).sq = s.sq := rfl
@[simp] theorem State.matched_fq : (s.matched r).fq = s.fq := rfl
@[simp] theorem State.matched_dq : (s.matched r).dq = s.dq := rfl
@[simp] theorem State.matched_fetchPc : (s.matched r).fetchPc = s.fetchPc := rfl
@[simp] theorem State.matched_pendingTarget : (s.matched r).pendingTarget = s.pendingTarget := rfl
@[simp] theorem State.matched_recovery : (s.matched r).recovery = s.recovery := rfl
@[simp] theorem State.matched_rstate : (s.matched r).rstate = s.rstate := rfl
@[simp] theorem State.matched_redirectPending :
    (s.matched r).redirectPending =
      s.redirectPending := rfl
@[simp] theorem State.matched_status :
    (s.matched r).status =
      if s.cfg.maxInsns = some s.retiredCount then .terminated else s.status := rfl
@[simp] theorem State.matched_retiredCount : (s.matched r).retiredCount = s.retiredCount := rfl
@[simp] theorem State.matched_lastRetireCycle :
    (s.matched r).lastRetireCycle =
      s.lastRetireCycle := rfl
@[simp] theorem State.matched_seqNext : (s.matched r).seqNext = s.seqNext := rfl
@[simp] theorem State.matched_mem : (s.matched r).mem = s.mem := rfl
@[simp] theorem State.matched_log : (s.matched r).log = s.log := rfl
@[simp] theorem State.matched_lastMatch : (s.matched r).lastMatch = some r := rfl
@[simp] theorem State.matched_predictCalls : (s.matched r).predictCalls = s.predictCalls := rfl
@[simp] theorem State.matched_method : (s.matched r).method = s.method := rfl
@[simp] theorem State.matched_ratOf (c' x' : Nat) :
    (s.matched r).ratOf c' x' = s.ratOf c' x' := rfl
@[simp] theorem State.matched_prfOf (c' x' : Nat) :
    (s.matched r).prfOf c' x' = s.prfOf c' x' := rfl
@[simp] theorem State.matched_freeOf (c' x' : Nat) :
    (s.matched r).freeOf c' x' = s.freeOf c' x' := rfl
@[simp] theorem State.matched_validOf (c' x' : Nat) :
    (s.matched r).validOf c' x' = s.validOf c' x' := rfl
@[simp] theorem State.matched_uop? (g : Handle) :
    (s.matched r).uop? g = s.uop? g := rfl
@[simp] theorem State.matched_station (k' : FuClass) (j' : Nat) :
    (s.matched r).station k' j' = s.station k' j' := rfl
@[simp] theorem State.matched_rrOf (k' : FuClass) :
    (s.matched r).rrOf k' = s.rrOf k' := rfl
@[simp] theorem State.matched_robAt (j' : Nat) :
    (s.matched r).robAt j' = s.robAt j' := rfl
@[simp] theorem State.matched_robList :
    (s.matched r).robList = s.robList := rfl
end

section
variable (s : State)
@[simp] theorem State.startRecovery_cfg : (s.startRecovery).cfg = s.cfg := rfl
@[simp] theorem State.startRecovery_cycle : (s.startRecovery).cycle = s.cycle := rfl
@[simp] theorem State.startRecovery_rat : (s.startRecovery).rat = s.rat := rfl
@[simp] theorem State.startRecovery_prf : (s.startRecovery).prf = s.prf := rfl
@[simp] theorem State.startRecovery_free : (s.startRecovery).free = s.free := rfl
@[simp] theorem State.startRecovery_valid : (s.startRecovery).valid = s.valid := rfl
@[simp] theorem State.startRecovery_arena : (s.startRecovery).arena = s.arena := rfl
@[simp] theorem State.startRecovery_robSlots : (s.startRecovery).robSlots = s.robSlots := rfl
@[simp] theorem State.startRecovery_robHead : (s.startRecovery).robHead = s.robHead := rfl
@[simp] theorem State.startRecovery_robTail : (s.startRecovery).robTail = s.robTail := rfl
@[simp] theorem State.startRecovery_robCount : (s.startRecovery).robCount = s.robCount := rfl
@[simp] theorem State.startRecovery_rs : (s.startRecovery).rs = s.rs := rfl
@[simp] theorem State.startRecovery_rr : (s.startRecovery).rr = s.rr := rfl
@[simp] theorem State.startRecovery_lq : (s.startRecovery).lq = s.lq := rfl
@[simp] theorem State.startRecovery_sq : (s.startRecovery).sq = s.sq := rfl
@[simp] theorem State.startRecovery_fq : (s.startRecovery).fq = s.fq := rfl
@[simp] theorem State.startRecovery_dq : (s.startRecovery).dq = s.dq := rfl
@[simp] theorem State.startRecovery_fetchPc : (s.startRecovery).fetchPc = s.fetchPc := rfl
@[simp] theorem State.startRecovery_pendingTarget :
    (s.startRecovery).pendingTarget =
      s.pendingTarget := rfl
@[simp] theorem State.startRecovery_recovery : (s.startRecovery).recovery = true := rfl
@[simp] theorem State.startRecovery_rstate : (s.startRecovery).rstate = s.rstate := rfl
@[simp] theorem State.startRecovery_redirectPending :
    (s.startRecovery).redirectPending =
      s.redirectPending := rfl
@[simp] theorem State.startRecovery_status : (s.startRecovery).status = s.status := rfl
@[simp] theorem State.startRecovery_retiredCount :
    (s.startRecovery).retiredCount =
      s.retiredCount := rfl
@[simp] theorem State.startRecovery_lastRetireCycle :
    (s.startRecovery).lastRetireCycle =
      s.lastRetireCycle := rfl
@[simp] theorem State.startRecovery_seqNext : (s.startRecovery).seqNext = s.seqNext := rfl
@[simp] theorem State.startRecovery_mem : (s.startRecovery).mem = s.mem := rfl
@[simp] theorem State.startRecovery_log : (s.startRecovery).log = s.log := rfl
@[simp] theorem State.startRecovery_lastMatch : (s.startRecovery).lastMatch = s.lastMatch := rfl
@[simp] theorem State.startRecovery_predictCalls :
    (s.startRecovery).predictCalls =
      s.predictCalls := rfl
@[simp] theorem State.startRecovery_method : (s.startRecovery).method = s.method := rfl
@[simp] theorem State.startRecovery_ratOf (c' x' : Nat) :
    (s.startRecovery).ratOf c' x' = s.ratOf c' x' := rfl
@[simp] theorem State.startRecovery_prfOf (c' x' : Nat) :
    (s.startRecovery).prfOf c' x' = s.prfOf c' x' := rfl
@[simp] theorem State.startRecovery_freeOf (c' x' : Nat) :
    (s.startRecovery).freeOf c' x' = s.freeOf c' x' := rfl
@[simp] theorem State.startRecovery_validOf (c' x' : Nat) :
    (s.startRecovery).validOf c' x' = s.validOf c' x' := rfl
@[simp] theorem State.startRecovery_uop? (g : Handle) :
    (s.startRecovery).uop? g = s.uop? g := rfl
@[simp] theorem State.startRecovery_station (k' : FuClass) (j' : Nat) :
    (s.startRecovery).station k' j' = s.station k' j' := rfl
@[simp] theorem State.startRecovery_rrOf (k' : FuClass) :
    (s.startRecovery).rrOf k' = s.rrOf k' := rfl
@[simp] theorem State.startRecovery_robAt (j' : Nat) :
    (s.startRecovery).robAt j' = s.robAt j' := rfl
@[simp] theorem State.startRecovery_robList :
    (s.startRecovery).robList = s.robList := rfl
end

section
variable (s : State) (target : Pc)
@[simp] theorem State.holdRedirect_cfg : (s.holdRedirect target).cfg = s.cfg := rfl
@[simp] theorem State.holdRedirect_cycle : (s.holdRedirect target).cycle = s.cycle := rfl
@[simp] theorem State.holdRedirect_rat : (s.holdRedirect target).rat = s.rat := rfl
@[simp] theorem State.holdRedirect_prf : (s.holdRedirect target).prf = s.prf := rfl
@[simp] theorem State.holdRedirect_free : (s.holdRedirect target).free = s.free := rfl
@[simp] theorem State.holdRedirect_valid : (s.holdRedirect target).valid = s.valid := rfl
@[simp] theorem State.holdRedirect_arena : (s.holdRedirect target).arena = s.arena := rfl
@[simp] theorem State.holdRedirect_robSlots : (s.holdRedirect target).robSlots = s.robSlots := rfl
@[simp] theorem State.holdRedirect_robHead : (s.holdRedirect target).robHead = s.robHead := rfl
@[simp] theorem State.holdRedirect_robTail : (s.holdRedirect target).robTail = s.robTail := rfl
@[simp] theorem State.holdRedirect_robCount : (s.holdRedirect target).robCount = s.robCount := rfl
@[simp] theorem State.holdRedirect_rs : (s.holdRedirect target).rs = s.rs := rfl
@[simp] theorem State.holdRedirect_rr : (s.holdRedirect target).rr = s.rr := rfl
@[simp] theorem State.holdRedirect_lq : (s.holdRedirect target).lq = s.lq := rfl
@[simp] theorem State.holdRedirect_sq : (s.holdRedirect target).sq = s.sq := rfl
@[simp] theorem State.holdRedirect_fq : (s.holdRedirect target).fq = s.fq := rfl
@[simp] theorem State.holdRedirect_dq : (s.holdRedirect target).dq = s.dq := rfl
@[simp] theorem State.holdRedirect_fetchPc : (s.holdRedirect target).fetchPc = s.fetchPc := rfl
@[simp] theorem State.holdRedirect_pendingTarget :
    (s.holdRedirect target).pendingTarget =
      s.pendingTarget := rfl
@[simp] theorem State.holdRedirect_recovery : (s.holdRedirect target).recovery = s.recovery := rfl
@[simp] theorem State.holdRedirect_rstate : (s.holdRedirect target).rstate = .unwind := rfl
@[simp] theorem State.holdRedirect_redirectPending :
    (s.holdRedirect target).redirectPending =
      some target := rfl
@[simp] theorem State.holdRedirect_status : (s.holdRedirect target).status = s.status := rfl
@[simp] theorem State.holdRedirect_retiredCount :
    (s.holdRedirect target).retiredCount =
      s.retiredCount := rfl
@[simp] theorem State.holdRedirect_lastRetireCycle :
    (s.holdRedirect target).lastRetireCycle =
      s.lastRetireCycle := rfl
@[simp] theorem State.holdRedirect_seqNext : (s.holdRedirect target).seqNext = s.seqNext := rfl
@[simp] theorem State.holdRedirect_mem : (s.holdRedirect target).mem = s.mem := rfl
@[simp] theorem State.holdRedirect_log : (s.holdRedirect target).log = s.log := rfl
@[simp] theorem State.holdRedirect_lastMatch :
    (s.holdRedirect target).lastMatch =
      s.lastMatch := rfl
@[simp] theorem State.holdRedirect_predictCalls :
    (s.holdRedirect target).predictCalls =
      s.predictCalls := rfl
@[simp] theorem State.holdRedirect_method : (s.holdRedirect target).method = s.method := rfl
@[simp] theorem State.holdRedirect_ratOf (c' x' : Nat) :
    (s.holdRedirect target).ratOf c' x' = s.ratOf c' x' := rfl
@[simp] theorem State.holdRedirect_prfOf (c' x' : Nat) :
    (s.holdRedirect target).prfOf c' x' = s.prfOf c' x' := rfl
@[simp] theorem State.holdRedirect_freeOf (c' x' : Nat) :
    (s.holdRedirect target).freeOf c' x' = s.freeOf c' x' := rfl
@[simp] theorem State.holdRedirect_validOf (c' x' : Nat) :
    (s.holdRedirect target).validOf c' x' = s.validOf c' x' := rfl
@[simp] theorem State.holdRedirect_uop? (g : Handle) :
    (s.holdRedirect target).uop? g = s.uop? g := rfl
@[simp] theorem State.holdRedirect_station (k' : FuClass) (j' : Nat) :
    (s.holdRedirect target).station k' j' = s.station k' j' := rfl
@[simp] theorem State.holdRedirect_rrOf (k' : FuClass) :
    (s.holdRedirect target).rrOf k' = s.rrOf k' := rfl
@[simp] theorem State.holdRedirect_robAt (j' : Nat) :
    (s.holdRedirect target).robAt j' = s.robAt j' := rfl
@[simp] theorem State.holdRedirect_robList :
    (s.holdRedirect target).robList = s.robList := rfl
end

section
variable (s : State)
@[simp] theorem State.emptyQueues_cfg : (s.emptyQueues).cfg = s.cfg := rfl
@[simp] theorem State.emptyQueues_cycle : (s.emptyQueues).cycle = s.cycle := rfl
@[simp] theorem State.emptyQueues_rat : (s.emptyQueues).rat = s.rat := rfl
@[simp] theorem State.emptyQueues_prf : (s.emptyQueues).prf = s.prf := rfl
@[simp] theorem State.emptyQueues_free : (s.emptyQueues).free = s.free := rfl
@[simp] theorem State.emptyQueues_valid : (s.emptyQueues).valid = s.valid := rfl
@[simp] theorem State.emptyQueues_arena : (s.emptyQueues).arena = s.arena := rfl
@[simp] theorem State.emptyQueues_robSlots : (s.emptyQueues).robSlots = s.robSlots := rfl
@[simp] theorem State.emptyQueues_robHead : (s.emptyQueues).robHead = s.robHead := rfl
@[simp] theorem State.emptyQueues_robTail : (s.emptyQueues).robTail = s.robTail := rfl
@[simp] theorem State.emptyQueues_robCount : (s.emptyQueues).robCount = s.robCount := rfl
@[simp] theorem State.emptyQueues_rs :
    (s.emptyQueues).rs =
      s.rs.map fun ports => ports.map fun _ => [] := rfl
@[simp] theorem State.emptyQueues_rr : (s.emptyQueues).rr = s.rr := rfl
@[simp] theorem State.emptyQueues_lq : (s.emptyQueues).lq = [] := rfl
@[simp] theorem State.emptyQueues_sq : (s.emptyQueues).sq = [] := rfl
@[simp] theorem State.emptyQueues_fq : (s.emptyQueues).fq = [] := rfl
@[simp] theorem State.emptyQueues_dq : (s.emptyQueues).dq = [] := rfl
@[simp] theorem State.emptyQueues_fetchPc : (s.emptyQueues).fetchPc = s.fetchPc := rfl
@[simp] theorem State.emptyQueues_pendingTarget : (s.emptyQueues).pendingTarget = none := rfl
@[simp] theorem State.emptyQueues_recovery : (s.emptyQueues).recovery = s.recovery := rfl
@[simp] theorem State.emptyQueues_rstate : (s.emptyQueues).rstate = s.rstate := rfl
@[simp] theorem State.emptyQueues_redirectPending :
    (s.emptyQueues).redirectPending =
      s.redirectPending := rfl
@[simp] theorem State.emptyQueues_status : (s.emptyQueues).status = s.status := rfl
@[simp] theorem State.emptyQueues_retiredCount :
    (s.emptyQueues).retiredCount =
      s.retiredCount := rfl
@[simp] theorem State.emptyQueues_lastRetireCycle :
    (s.emptyQueues).lastRetireCycle =
      s.lastRetireCycle := rfl
@[simp] theorem State.emptyQueues_seqNext : (s.emptyQueues).seqNext = s.seqNext := rfl
@[simp] theorem State.emptyQueues_mem : (s.emptyQueues).mem = s.mem := rfl
@[simp] theorem State.emptyQueues_log : (s.emptyQueues).log = s.log := rfl
@[simp] theorem State.emptyQueues_lastMatch : (s.emptyQueues).lastMatch = s.lastMatch := rfl
@[simp] theorem State.emptyQueues_predictCalls :
    (s.emptyQueues).predictCalls =
      s.predictCalls := rfl
@[simp] theorem State.emptyQueues_method : (s.emptyQueues).method = s.method := rfl
@[simp] theorem State.emptyQueues_ratOf (c' x' : Nat) :
    (s.emptyQueues).ratOf c' x' = s.ratOf c' x' := rfl
@[simp] theorem State.emptyQueues_prfOf (c' x' : Nat) :
    (s.emptyQueues).prfOf c' x' = s.prfOf c' x' := rfl
@[simp] theorem State.emptyQueues_freeOf (c' x' : Nat) :
    (s.emptyQueues).freeOf c' x' = s.freeOf c' x' := rfl
@[simp] theorem State.emptyQueues_validOf (c' x' : Nat) :
    (s.emptyQueues).validOf c' x' = s.validOf c' x' := rfl
@[simp] theorem State.emptyQueues_uop? (g : Handle) :
    (s.emptyQueues).uop? g = s.uop? g := rfl
@[simp] theorem State.emptyQueues_rrOf (k' : FuClass) :
    (s.emptyQueues).rrOf k' = s.rrOf k' := rfl
@[simp] theorem State.emptyQueues_robAt (j' : Nat) :
    (s.emptyQueues).robAt j' = s.robAt j' := rfl
@[simp] theorem State.emptyQueues_robList :
    (s.emptyQueues).robList = s.robList := rfl
end

section
variable (s : State) (h : Handle)
@[simp] theorem State.robPush_cfg : (s.robPush h).cfg = s.cfg := rfl
@[simp] theorem State.robPush_cycle : (s.robPush h).cycle = s.cycle := rfl
@[simp] theorem State.robPush_rat : (s.robPush h).rat = s.rat := rfl
@[simp] theorem State.robPush_prf : (s.robPush h).prf = s.prf := rfl
@[simp] theorem State.robPush_free : (s.robPush h).free = s.free := rfl
@[simp] theorem State.robPush_valid : (s.robPush h).valid = s.valid := rfl
@[simp] theorem State.robPush_arena : (s.robPush h).arena = s.arena := rfl
@[simp] theorem State.robPush_robSlots : (s.robPush h).robSlots = s.robSlots.set s.robTail h := rfl
@[simp] theorem State.robPush_robHead : (s.robPush h).robHead = s.robHead := rfl
@[simp] theorem State.robPush_robTail : (s.robPush h).robTail = (s.robTail + 1) % s.cfg.robN := rfl
@[simp] theorem State.robPush_robCount : (s.robPush h).robCount = s.robCount + 1 := rfl
@[simp] theorem State.robPush_rs : (s.robPush h).rs = s.rs := rfl
@[simp] theorem State.robPush_rr : (s.robPush h).rr = s.rr := rfl
@[simp] theorem State.robPush_lq : (s.robPush h).lq = s.lq := rfl
@[simp] theorem State.robPush_sq : (s.robPush h).sq = s.sq := rfl
@[simp] theorem State.robPush_fq : (s.robPush h).fq = s.fq := rfl
@[simp] theorem State.robPush_dq : (s.robPush h).dq = s.dq := rfl
@[simp] theorem State.robPush_fetchPc : (s.robPush h).fetchPc = s.fetchPc := rfl
@[simp] theorem State.robPush_pendingTarget : (s.robPush h).pendingTarget = s.pendingTarget := rfl
@[simp] theorem State.robPush_recovery : (s.robPush h).recovery = s.recovery := rfl
@[simp] theorem State.robPush_rstate : (s.robPush h).rstate = s.rstate := rfl
@[simp] theorem State.robPush_redirectPending :
    (s.robPush h).redirectPending =
      s.redirectPending := rfl
@[simp] theorem State.robPush_status : (s.robPush h).status = s.status := rfl
@[simp] theorem State.robPush_retiredCount : (s.robPush h).retiredCount = s.retiredCount := rfl
@[simp] theorem State.robPush_lastRetireCycle :
    (s.robPush h).lastRetireCycle =
      s.lastRetireCycle := rfl
@[simp] theorem State.robPush_seqNext : (s.robPush h).seqNext = s.seqNext := rfl
@[simp] theorem State.robPush_mem : (s.robPush h).mem = s.mem := rfl
@[simp] theorem State.robPush_log : (s.robPush h).log = s.log := rfl
@[simp] theorem State.robPush_lastMatch : (s.robPush h).lastMatch = s.lastMatch := rfl
@[simp] theorem State.robPush_predictCalls : (s.robPush h).predictCalls = s.predictCalls := rfl
@[simp] theorem State.robPush_method : (s.robPush h).method = s.method := rfl
@[simp] theorem State.robPush_ratOf (c' x' : Nat) :
    (s.robPush h).ratOf c' x' = s.ratOf c' x' := rfl
@[simp] theorem State.robPush_prfOf (c' x' : Nat) :
    (s.robPush h).prfOf c' x' = s.prfOf c' x' := rfl
@[simp] theorem State.robPush_freeOf (c' x' : Nat) :
    (s.robPush h).freeOf c' x' = s.freeOf c' x' := rfl
@[simp] theorem State.robPush_validOf (c' x' : Nat) :
    (s.robPush h).validOf c' x' = s.validOf c' x' := rfl
@[simp] theorem State.robPush_uop? (g : Handle) :
    (s.robPush h).uop? g = s.uop? g := rfl
@[simp] theorem State.robPush_station (k' : FuClass) (j' : Nat) :
    (s.robPush h).station k' j' = s.station k' j' := rfl
@[simp] theorem State.robPush_rrOf (k' : FuClass) :
    (s.robPush h).rrOf k' = s.rrOf k' := rfl
end

section
variable (s : State)
@[simp] theorem State.robPopHead_cfg : (s.robPopHead).cfg = s.cfg := rfl
@[simp] theorem State.robPopHead_cycle : (s.robPopHead).cycle = s.cycle := rfl
@[simp] theorem State.robPopHead_rat : (s.robPopHead).rat = s.rat := rfl
@[simp] theorem State.robPopHead_prf : (s.robPopHead).prf = s.prf := rfl
@[simp] theorem State.robPopHead_free : (s.robPopHead).free = s.free := rfl
@[simp] theorem State.robPopHead_valid : (s.robPopHead).valid = s.valid := rfl
@[simp] theorem State.robPopHead_arena : (s.robPopHead).arena = s.arena := rfl
@[simp] theorem State.robPopHead_robSlots : (s.robPopHead).robSlots = s.robSlots := rfl
@[simp] theorem State.robPopHead_robHead :
    (s.robPopHead).robHead =
      (s.robHead + 1) % s.cfg.robN := rfl
@[simp] theorem State.robPopHead_robTail : (s.robPopHead).robTail = s.robTail := rfl
@[simp] theorem State.robPopHead_robCount : (s.robPopHead).robCount = s.robCount - 1 := rfl
@[simp] theorem State.robPopHead_rs : (s.robPopHead).rs = s.rs := rfl
@[simp] theorem State.robPopHead_rr : (s.robPopHead).rr = s.rr := rfl
@[simp] theorem State.robPopHead_lq : (s.robPopHead).lq = s.lq := rfl
@[simp] theorem State.robPopHead_sq : (s.robPopHead).sq = s.sq := rfl
@[simp] theorem State.robPopHead_fq : (s.robPopHead).fq = s.fq := rfl
@[simp] theorem State.robPopHead_dq : (s.robPopHead).dq = s.dq := rfl
@[simp] theorem State.robPopHead_fetchPc : (s.robPopHead).fetchPc = s.fetchPc := rfl
@[simp] theorem State.robPopHead_pendingTarget :
    (s.robPopHead).pendingTarget =
      s.pendingTarget := rfl
@[simp] theorem State.robPopHead_recovery : (s.robPopHead).recovery = s.recovery := rfl
@[simp] theorem State.robPopHead_rstate : (s.robPopHead).rstate = s.rstate := rfl
@[simp] theorem State.robPopHead_redirectPending :
    (s.robPopHead).redirectPending =
      s.redirectPending := rfl
@[simp] theorem State.robPopHead_status : (s.robPopHead).status = s.status := rfl
@[simp] theorem State.robPopHead_retiredCount : (s.robPopHead).retiredCount = s.retiredCount := rfl
@[simp] theorem State.robPopHead_lastRetireCycle :
    (s.robPopHead).lastRetireCycle =
      s.lastRetireCycle := rfl
@[simp] theorem State.robPopHead_seqNext : (s.robPopHead).seqNext = s.seqNext := rfl
@[simp] theorem State.robPopHead_mem : (s.robPopHead).mem = s.mem := rfl
@[simp] theorem State.robPopHead_log : (s.robPopHead).log = s.log := rfl
@[simp] theorem State.robPopHead_lastMatch : (s.robPopHead).lastMatch = s.lastMatch := rfl
@[simp] theorem State.robPopHead_predictCalls : (s.robPopHead).predictCalls = s.predictCalls := rfl
@[simp] theorem State.robPopHead_method : (s.robPopHead).method = s.method := rfl
@[simp] theorem State.robPopHead_ratOf (c' x' : Nat) :
    (s.robPopHead).ratOf c' x' = s.ratOf c' x' := rfl
@[simp] theorem State.robPopHead_prfOf (c' x' : Nat) :
    (s.robPopHead).prfOf c' x' = s.prfOf c' x' := rfl
@[simp] theorem State.robPopHead_freeOf (c' x' : Nat) :
    (s.robPopHead).freeOf c' x' = s.freeOf c' x' := rfl
@[simp] theorem State.robPopHead_validOf (c' x' : Nat) :
    (s.robPopHead).validOf c' x' = s.validOf c' x' := rfl
@[simp] theorem State.robPopHead_uop? (g : Handle) :
    (s.robPopHead).uop? g = s.uop? g := rfl
@[simp] theorem State.robPopHead_station (k' : FuClass) (j' : Nat) :
    (s.robPopHead).station k' j' = s.station k' j' := rfl
@[simp] theorem State.robPopHead_rrOf (k' : FuClass) :
    (s.robPopHead).rrOf k' = s.rrOf k' := rfl
end

section
variable (s : State)
@[simp] theorem State.robPopTail_cfg : (s.robPopTail).cfg = s.cfg := rfl
@[simp] theorem State.robPopTail_cycle : (s.robPopTail).cycle = s.cycle := rfl
@[simp] theorem State.robPopTail_rat : (s.robPopTail).rat = s.rat := rfl
@[simp] theorem State.robPopTail_prf : (s.robPopTail).prf = s.prf := rfl
@[simp] theorem State.robPopTail_free : (s.robPopTail).free = s.free := rfl
@[simp] theorem State.robPopTail_valid : (s.robPopTail).valid = s.valid := rfl
@[simp] theorem State.robPopTail_arena : (s.robPopTail).arena = s.arena := rfl
@[simp] theorem State.robPopTail_robSlots : (s.robPopTail).robSlots = s.robSlots := rfl
@[simp] theorem State.robPopTail_robHead : (s.robPopTail).robHead = s.robHead := rfl
@[simp] theorem State.robPopTail_robTail :
    (s.robPopTail).robTail =
      (s.robTail + s.cfg.robN - 1) % s.cfg.robN := rfl
@[simp] theorem State.robPopTail_robCount : (s.robPopTail).robCount = s.robCount - 1 := rfl
@[simp] theorem State.robPopTail_rs : (s.robPopTail).rs = s.rs := rfl
@[simp] theorem State.robPopTail_rr : (s.robPopTail).rr = s.rr := rfl
@[simp] theorem State.robPopTail_lq : (s.robPopTail).lq = s.lq := rfl
@[simp] theorem State.robPopTail_sq : (s.robPopTail).sq = s.sq := rfl
@[simp] theorem State.robPopTail_fq : (s.robPopTail).fq = s.fq := rfl
@[simp] theorem State.robPopTail_dq : (s.robPopTail).dq = s.dq := rfl
@[simp] theorem State.robPopTail_fetchPc : (s.robPopTail).fetchPc = s.fetchPc := rfl
@[simp] theorem State.robPopTail_pendingTarget :
    (s.robPopTail).pendingTarget =
      s.pendingTarget := rfl
@[simp] theorem State.robPopTail_recovery : (s.robPopTail).recovery = s.recovery := rfl
@[simp] theorem State.robPopTail_rstate : (s.robPopTail).rstate = s.rstate := rfl
@[simp] theorem State.robPopTail_redirectPending :
    (s.robPopTail).redirectPending =
      s.redirectPending := rfl
@[simp] theorem State.robPopTail_status : (s.robPopTail).status = s.status := rfl
@[simp] theorem State.robPopTail_retiredCount : (s.robPopTail).retiredCount = s.retiredCount := rfl
@[simp] theorem State.robPopTail_lastRetireCycle :
    (s.robPopTail).lastRetireCycle =
      s.lastRetireCycle := rfl
@[simp] theorem State.robPopTail_seqNext : (s.robPopTail).seqNext = s.seqNext := rfl
@[simp] theorem State.robPopTail_mem : (s.robPopTail).mem = s.mem := rfl
@[simp] theorem State.robPopTail_log : (s.robPopTail).log = s.log := rfl
@[simp] theorem State.robPopTail_lastMatch : (s.robPopTail).lastMatch = s.lastMatch := rfl
@[simp] theorem State.robPopTail_predictCalls : (s.robPopTail).predictCalls = s.predictCalls := rfl
@[simp] theorem State.robPopTail_method : (s.robPopTail).method = s.method := rfl
@[simp] theorem State.robPopTail_ratOf (c' x' : Nat) :
    (s.robPopTail).ratOf c' x' = s.ratOf c' x' := rfl
@[simp] theorem State.robPopTail_prfOf (c' x' : Nat) :
    (s.robPopTail).prfOf c' x' = s.prfOf c' x' := rfl
@[simp] theorem State.robPopTail_freeOf (c' x' : Nat) :
    (s.robPopTail).freeOf c' x' = s.freeOf c' x' := rfl
@[simp] theorem State.robPopTail_validOf (c' x' : Nat) :
    (s.robPopTail).validOf c' x' = s.validOf c' x' := rfl
@[simp] theorem State.robPopTail_uop? (g : Handle) :
    (s.robPopTail).uop? g = s.uop? g := rfl
@[simp] theorem State.robPopTail_station (k' : FuClass) (j' : Nat) :
    (s.robPopTail).station k' j' = s.station k' j' := rfl
@[simp] theorem State.robPopTail_rrOf (k' : FuClass) :
    (s.robPopTail).rrOf k' = s.rrOf k' := rfl
@[simp] theorem State.robPopTail_robAt (j' : Nat) :
    (s.robPopTail).robAt j' = s.robAt j' := rfl
end

section
variable (s : State) (k : FuClass) (i : Nat) (l : List Handle)
@[simp] theorem State.setStation_cfg : (s.setStation k i l).cfg = s.cfg := rfl
@[simp] theorem State.setStation_cycle : (s.setStation k i l).cycle = s.cycle := rfl
@[simp] theorem State.setStation_rat : (s.setStation k i l).rat = s.rat := rfl
@[simp] theorem State.setStation_prf : (s.setStation k i l).prf = s.prf := rfl
@[simp] theorem State.setStation_free : (s.setStation k i l).free = s.free := rfl
@[simp] theorem State.setStation_valid : (s.setStation k i l).valid = s.valid := rfl
@[simp] theorem State.setStation_arena : (s.setStation k i l).arena = s.arena := rfl
@[simp] theorem State.setStation_robSlots : (s.setStation k i l).robSlots = s.robSlots := rfl
@[simp] theorem State.setStation_robHead : (s.setStation k i l).robHead = s.robHead := rfl
@[simp] theorem State.setStation_robTail : (s.setStation k i l).robTail = s.robTail := rfl
@[simp] theorem State.setStation_robCount : (s.setStation k i l).robCount = s.robCount := rfl
@[simp] theorem State.setStation_rs : (s.setStation k i l).rs = set2 s.rs k.code i l := rfl
@[simp] theorem State.setStation_rr : (s.setStation k i l).rr = s.rr := rfl
@[simp] theorem State.setStation_lq : (s.setStation k i l).lq = s.lq := rfl
@[simp] theorem State.setStation_sq : (s.setStation k i l).sq = s.sq := rfl
@[simp] theorem State.setStation_fq : (s.setStation k i l).fq = s.fq := rfl
@[simp] theorem State.setStation_dq : (s.setStation k i l).dq = s.dq := rfl
@[simp] theorem State.setStation_fetchPc : (s.setStation k i l).fetchPc = s.fetchPc := rfl
@[simp] theorem State.setStation_pendingTarget :
    (s.setStation k i l).pendingTarget =
      s.pendingTarget := rfl
@[simp] theorem State.setStation_recovery : (s.setStation k i l).recovery = s.recovery := rfl
@[simp] theorem State.setStation_rstate : (s.setStation k i l).rstate = s.rstate := rfl
@[simp] theorem State.setStation_redirectPending :
    (s.setStation k i l).redirectPending =
      s.redirectPending := rfl
@[simp] theorem State.setStation_status : (s.setStation k i l).status = s.status := rfl
@[simp] theorem State.setStation_retiredCount :
    (s.setStation k i l).retiredCount =
      s.retiredCount := rfl
@[simp] theorem State.setStation_lastRetireCycle :
    (s.setStation k i l).lastRetireCycle =
      s.lastRetireCycle := rfl
@[simp] theorem State.setStation_seqNext : (s.setStation k i l).seqNext = s.seqNext := rfl
@[simp] theorem State.setStation_mem : (s.setStation k i l).mem = s.mem := rfl
@[simp] theorem State.setStation_log : (s.setStation k i l).log = s.log := rfl
@[simp] theorem State.setStation_lastMatch : (s.setStation k i l).lastMatch = s.lastMatch := rfl
@[simp] theorem State.setStation_predictCalls :
    (s.setStation k i l).predictCalls =
      s.predictCalls := rfl
@[simp] theorem State.setStation_method : (s.setStation k i l).method = s.method := rfl
@[simp] theorem State.setStation_ratOf (c' x' : Nat) :
    (s.setStation k i l).ratOf c' x' = s.ratOf c' x' := rfl
@[simp] theorem State.setStation_prfOf (c' x' : Nat) :
    (s.setStation k i l).prfOf c' x' = s.prfOf c' x' := rfl
@[simp] theorem State.setStation_freeOf (c' x' : Nat) :
    (s.setStation k i l).freeOf c' x' = s.freeOf c' x' := rfl
@[simp] theorem State.setStation_validOf (c' x' : Nat) :
    (s.setStation k i l).validOf c' x' = s.validOf c' x' := rfl
@[simp] theorem State.setStation_uop? (g : Handle) :
    (s.setStation k i l).uop? g = s.uop? g := rfl
@[simp] theorem State.setStation_rrOf (k' : FuClass) :
    (s.setStation k i l).rrOf k' = s.rrOf k' := rfl
@[simp] theorem State.setStation_robAt (j' : Nat) :
    (s.setStation k i l).robAt j' = s.robAt j' := rfl
@[simp] theorem State.setStation_robList :
    (s.setStation k i l).robList = s.robList := rfl
end

section
variable (s : State) (k : FuClass) (i : Nat)
@[simp] theorem State.commitStation_cfg : (s.commitStation k i).cfg = s.cfg := rfl
@[simp] theorem State.commitStation_cycle : (s.commitStation k i).cycle = s.cycle := rfl
@[simp] theorem State.commitStation_rat : (s.commitStation k i).rat = s.rat := rfl
@[simp] theorem State.commitStation_prf : (s.commitStation k i).prf = s.prf := rfl
@[simp] theorem State.commitStation_free : (s.commitStation k i).free = s.free := rfl
@[simp] theorem State.commitStation_valid : (s.commitStation k i).valid = s.valid := rfl
@[simp] theorem State.commitStation_arena : (s.commitStation k i).arena = s.arena := rfl
@[simp] theorem State.commitStation_robSlots : (s.commitStation k i).robSlots = s.robSlots := rfl
@[simp] theorem State.commitStation_robHead : (s.commitStation k i).robHead = s.robHead := rfl
@[simp] theorem State.commitStation_robTail : (s.commitStation k i).robTail = s.robTail := rfl
@[simp] theorem State.commitStation_robCount : (s.commitStation k i).robCount = s.robCount := rfl
@[simp] theorem State.commitStation_rs : (s.commitStation k i).rs = s.rs := rfl
@[simp] theorem State.commitStation_rr :
    (s.commitStation k i).rr =
      s.rr.set k.code ((i + 1) % s.cfg.ns k) := rfl
@[simp] theorem State.commitStation_lq : (s.commitStation k i).lq = s.lq := rfl
@[simp] theorem State.commitStation_sq : (s.commitStation k i).sq = s.sq := rfl
@[simp] theorem State.commitStation_fq : (s.commitStation k i).fq = s.fq := rfl
@[simp] theorem State.commitStation_dq : (s.commitStation k i).dq = s.dq := rfl
@[simp] theorem State.commitStation_fetchPc : (s.commitStation k i).fetchPc = s.fetchPc := rfl
@[simp] theorem State.commitStation_pendingTarget :
    (s.commitStation k i).pendingTarget =
      s.pendingTarget := rfl
@[simp] theorem State.commitStation_recovery : (s.commitStation k i).recovery = s.recovery := rfl
@[simp] theorem State.commitStation_rstate : (s.commitStation k i).rstate = s.rstate := rfl
@[simp] theorem State.commitStation_redirectPending :
    (s.commitStation k i).redirectPending =
      s.redirectPending := rfl
@[simp] theorem State.commitStation_status : (s.commitStation k i).status = s.status := rfl
@[simp] theorem State.commitStation_retiredCount :
    (s.commitStation k i).retiredCount =
      s.retiredCount := rfl
@[simp] theorem State.commitStation_lastRetireCycle :
    (s.commitStation k i).lastRetireCycle =
      s.lastRetireCycle := rfl
@[simp] theorem State.commitStation_seqNext : (s.commitStation k i).seqNext = s.seqNext := rfl
@[simp] theorem State.commitStation_mem : (s.commitStation k i).mem = s.mem := rfl
@[simp] theorem State.commitStation_log : (s.commitStation k i).log = s.log := rfl
@[simp] theorem State.commitStation_lastMatch : (s.commitStation k i).lastMatch = s.lastMatch := rfl
@[simp] theorem State.commitStation_predictCalls :
    (s.commitStation k i).predictCalls =
      s.predictCalls := rfl
@[simp] theorem State.commitStation_method : (s.commitStation k i).method = s.method := rfl
@[simp] theorem State.commitStation_ratOf (c' x' : Nat) :
    (s.commitStation k i).ratOf c' x' = s.ratOf c' x' := rfl
@[simp] theorem State.commitStation_prfOf (c' x' : Nat) :
    (s.commitStation k i).prfOf c' x' = s.prfOf c' x' := rfl
@[simp] theorem State.commitStation_freeOf (c' x' : Nat) :
    (s.commitStation k i).freeOf c' x' = s.freeOf c' x' := rfl
@[simp] theorem State.commitStation_validOf (c' x' : Nat) :
    (s.commitStation k i).validOf c' x' = s.validOf c' x' := rfl
@[simp] theorem State.commitStation_uop? (g : Handle) :
    (s.commitStation k i).uop? g = s.uop? g := rfl
@[simp] theorem State.commitStation_station (k' : FuClass) (j' : Nat) :
    (s.commitStation k i).station k' j' = s.station k' j' := rfl
@[simp] theorem State.commitStation_robAt (j' : Nat) :
    (s.commitStation k i).robAt j' = s.robAt j' := rfl
@[simp] theorem State.commitStation_robList :
    (s.commitStation k i).robList = s.robList := rfl
end

section
variable (s : State) (u : Uop)
@[simp] theorem State.retireHook_cfg : (s.retireHook u).cfg = s.cfg := rfl
@[simp] theorem State.retireHook_cycle : (s.retireHook u).cycle = s.cycle := rfl
@[simp] theorem State.retireHook_rat : (s.retireHook u).rat = s.rat := rfl
@[simp] theorem State.retireHook_prf : (s.retireHook u).prf = s.prf := rfl
@[simp] theorem State.retireHook_free : (s.retireHook u).free = s.free := rfl
@[simp] theorem State.retireHook_valid : (s.retireHook u).valid = s.valid := rfl
@[simp] theorem State.retireHook_arena : (s.retireHook u).arena = s.arena := rfl
@[simp] theorem State.retireHook_robSlots : (s.retireHook u).robSlots = s.robSlots := rfl
@[simp] theorem State.retireHook_robHead : (s.retireHook u).robHead = s.robHead := rfl
@[simp] theorem State.retireHook_robTail : (s.retireHook u).robTail = s.robTail := rfl
@[simp] theorem State.retireHook_robCount : (s.retireHook u).robCount = s.robCount := rfl
@[simp] theorem State.retireHook_rs : (s.retireHook u).rs = s.rs := rfl
@[simp] theorem State.retireHook_rr : (s.retireHook u).rr = s.rr := rfl
@[simp] theorem State.retireHook_lq : (s.retireHook u).lq = s.lq := rfl
@[simp] theorem State.retireHook_sq : (s.retireHook u).sq = s.sq := rfl
@[simp] theorem State.retireHook_fq : (s.retireHook u).fq = s.fq := rfl
@[simp] theorem State.retireHook_dq : (s.retireHook u).dq = s.dq := rfl
@[simp] theorem State.retireHook_fetchPc : (s.retireHook u).fetchPc = s.fetchPc := rfl
@[simp] theorem State.retireHook_pendingTarget :
    (s.retireHook u).pendingTarget =
      s.pendingTarget := rfl
@[simp] theorem State.retireHook_recovery : (s.retireHook u).recovery = s.recovery := rfl
@[simp] theorem State.retireHook_rstate : (s.retireHook u).rstate = s.rstate := rfl
@[simp] theorem State.retireHook_redirectPending :
    (s.retireHook u).redirectPending =
      s.redirectPending := rfl
@[simp] theorem State.retireHook_status : (s.retireHook u).status = s.status := rfl
@[simp] theorem State.retireHook_retiredCount :
    (s.retireHook u).retiredCount =
      s.retiredCount := rfl
@[simp] theorem State.retireHook_lastRetireCycle :
    (s.retireHook u).lastRetireCycle =
      s.lastRetireCycle := rfl
@[simp] theorem State.retireHook_seqNext : (s.retireHook u).seqNext = s.seqNext := rfl
@[simp] theorem State.retireHook_mem : (s.retireHook u).mem = s.mem := rfl
@[simp] theorem State.retireHook_log : (s.retireHook u).log = s.log ++ [.hook u] := rfl
@[simp] theorem State.retireHook_lastMatch : (s.retireHook u).lastMatch = s.lastMatch := rfl
@[simp] theorem State.retireHook_predictCalls :
    (s.retireHook u).predictCalls =
      s.predictCalls := rfl
@[simp] theorem State.retireHook_method : (s.retireHook u).method = s.method := rfl
@[simp] theorem State.retireHook_ratOf (c' x' : Nat) :
    (s.retireHook u).ratOf c' x' = s.ratOf c' x' := rfl
@[simp] theorem State.retireHook_prfOf (c' x' : Nat) :
    (s.retireHook u).prfOf c' x' = s.prfOf c' x' := rfl
@[simp] theorem State.retireHook_freeOf (c' x' : Nat) :
    (s.retireHook u).freeOf c' x' = s.freeOf c' x' := rfl
@[simp] theorem State.retireHook_validOf (c' x' : Nat) :
    (s.retireHook u).validOf c' x' = s.validOf c' x' := rfl
@[simp] theorem State.retireHook_uop? (g : Handle) :
    (s.retireHook u).uop? g = s.uop? g := rfl
@[simp] theorem State.retireHook_station (k' : FuClass) (j' : Nat) :
    (s.retireHook u).station k' j' = s.station k' j' := rfl
@[simp] theorem State.retireHook_rrOf (k' : FuClass) :
    (s.retireHook u).rrOf k' = s.rrOf k' := rfl
@[simp] theorem State.retireHook_robAt (j' : Nat) :
    (s.retireHook u).robAt j' = s.robAt j' := rfl
@[simp] theorem State.retireHook_robList :
    (s.retireHook u).robList = s.robList := rfl
end

section
variable (s : State)
@[simp] theorem State.endRecovery_cfg : (s.endRecovery).cfg = s.cfg := rfl
@[simp] theorem State.endRecovery_cycle : (s.endRecovery).cycle = s.cycle := rfl
@[simp] theorem State.endRecovery_rat : (s.endRecovery).rat = s.rat := rfl
@[simp] theorem State.endRecovery_prf : (s.endRecovery).prf = s.prf := rfl
@[simp] theorem State.endRecovery_free : (s.endRecovery).free = s.free := rfl
@[simp] theorem State.endRecovery_valid : (s.endRecovery).valid = s.valid := rfl
@[simp] theorem State.endRecovery_arena : (s.endRecovery).arena = s.arena := rfl
@[simp] theorem State.endRecovery_robSlots : (s.endRecovery).robSlots = s.robSlots := rfl
@[simp] theorem State.endRecovery_robHead : (s.endRecovery).robHead = s.robHead := rfl
@[simp] theorem State.endRecovery_robTail : (s.endRecovery).robTail = s.robTail := rfl
@[simp] theorem State.endRecovery_robCount : (s.endRecovery).robCount = s.robCount := rfl
@[simp] theorem State.endRecovery_rs : (s.endRecovery).rs = s.rs := rfl
@[simp] theorem State.endRecovery_rr : (s.endRecovery).rr = s.rr := rfl
@[simp] theorem State.endRecovery_lq : (s.endRecovery).lq = s.lq := rfl
@[simp] theorem State.endRecovery_sq : (s.endRecovery).sq = s.sq := rfl
@[simp] theorem State.endRecovery_fq : (s.endRecovery).fq = s.fq := rfl
@[simp] theorem State.endRecovery_dq : (s.endRecovery).dq = s.dq := rfl
@[simp] theorem State.endRecovery_fetchPc :
    (s.endRecovery).fetchPc =
      s.redirectPending.getD s.fetchPc := rfl
@[simp] theorem State.endRecovery_pendingTarget : (s.endRecovery).pendingTarget = none := rfl
@[simp] theorem State.endRecovery_recovery : (s.endRecovery).recovery = false := rfl
@[simp] theorem State.endRecovery_rstate : (s.endRecovery).rstate = .run := rfl
@[simp] theorem State.endRecovery_redirectPending : (s.endRecovery).redirectPending = none := rfl
@[simp] theorem State.endRecovery_status : (s.endRecovery).status = s.status := rfl
@[simp] theorem State.endRecovery_retiredCount :
    (s.endRecovery).retiredCount =
      s.retiredCount := rfl
@[simp] theorem State.endRecovery_lastRetireCycle :
    (s.endRecovery).lastRetireCycle =
      s.lastRetireCycle := rfl
@[simp] theorem State.endRecovery_seqNext : (s.endRecovery).seqNext = s.seqNext := rfl
@[simp] theorem State.endRecovery_mem : (s.endRecovery).mem = s.mem := rfl
@[simp] theorem State.endRecovery_log : (s.endRecovery).log = s.log := rfl
@[simp] theorem State.endRecovery_lastMatch : (s.endRecovery).lastMatch = s.lastMatch := rfl
@[simp] theorem State.endRecovery_predictCalls :
    (s.endRecovery).predictCalls =
      s.predictCalls := rfl
@[simp] theorem State.endRecovery_method : (s.endRecovery).method = s.method := rfl
@[simp] theorem State.endRecovery_ratOf (c' x' : Nat) :
    (s.endRecovery).ratOf c' x' = s.ratOf c' x' := rfl
@[simp] theorem State.endRecovery_prfOf (c' x' : Nat) :
    (s.endRecovery).prfOf c' x' = s.prfOf c' x' := rfl
@[simp] theorem State.endRecovery_freeOf (c' x' : Nat) :
    (s.endRecovery).freeOf c' x' = s.freeOf c' x' := rfl
@[simp] theorem State.endRecovery_validOf (c' x' : Nat) :
    (s.endRecovery).validOf c' x' = s.validOf c' x' := rfl
@[simp] theorem State.endRecovery_uop? (g : Handle) :
    (s.endRecovery).uop? g = s.uop? g := rfl
@[simp] theorem State.endRecovery_station (k' : FuClass) (j' : Nat) :
    (s.endRecovery).station k' j' = s.station k' j' := rfl
@[simp] theorem State.endRecovery_rrOf (k' : FuClass) :
    (s.endRecovery).rrOf k' = s.rrOf k' := rfl
@[simp] theorem State.endRecovery_robAt (j' : Nat) :
    (s.endRecovery).robAt j' = s.robAt j' := rfl
@[simp] theorem State.endRecovery_robList :
    (s.endRecovery).robList = s.robList := rfl
end

section
variable (s t : State)
/-- Equal arrays read equal entries. -/
theorem State.ratOf_of (h : t.rat = s.rat) (c a : Nat) : t.ratOf c a = s.ratOf c a := by
  unfold State.ratOf; rw [h]
theorem State.prfOf_of (h : t.prf = s.prf) (c : Nat) (p : Nat) : t.prfOf c p = s.prfOf c p := by
  unfold State.prfOf; rw [h]
theorem State.freeOf_of (h : t.free = s.free) (c : Nat) (p : Nat) : t.freeOf c p = s.freeOf c p := by
  unfold State.freeOf; rw [h]
theorem State.validOf_of (h : t.valid = s.valid) (c : Nat) (p : Nat) : t.validOf c p = s.validOf c p := by
  unfold State.validOf; rw [h]
theorem State.uop?_of (h : t.arena = s.arena) (g : Handle) : t.uop? g = s.uop? g := by
  unfold State.uop?; rw [h]
theorem State.station_of (h : t.rs = s.rs) (k : FuClass) (i : Nat) : t.station k i = s.station k i := by
  unfold State.station; rw [h]
theorem State.robAt_of (hs : t.robSlots = s.robSlots) (hh : t.robHead = s.robHead) (hc : t.cfg = s.cfg)
    (j : Nat) : t.robAt j = s.robAt j := by
  unfold State.robAt; rw [hs, hh, hc]
theorem State.robList_of (hs : t.robSlots = s.robSlots) (hh : t.robHead = s.robHead)
    (hn : t.robCount = s.robCount) (hc : t.cfg = s.cfg) : t.robList = s.robList := by
  unfold State.robList; rw [hn]
  exact List.map_congr_left fun j _ => State.robAt_of s t hs hh hc j
end

end Sys2Proof.Machine
end

