-- ==== Sys2Proof/Laws/Outcome.lean ====
section
/-!
SUPPORT. What sequencing, record reading and repetition can answer, and reading back an entry of a
list of lists.
-/

namespace Sys2Proof.Machine

@[simp] theorem andThen_next (s : State) (f : State → Out) : andThen (.next s) f = f s := rfl
@[simp] theorem andThen_fault (r : Fault) (f : State → Out) : andThen (.fault r) f = .fault r := rfl
@[simp] theorem andThen_refused (r : Refusal) (f : State → Out) : andThen (.refused r) f = .refused r := rfl

theorem andThen_eq_next {o : Out} {f : State → Out} {t : State} :
    andThen o f = .next t ↔ ∃ s, o = .next s ∧ f s = .next t := by
  cases o <;> simp [andThen]

theorem withUop_of {s : State} {h : Handle} {u : Uop} (hu : s.uop? h = some u) (f : Uop → Out) :
    withUop s h f = f u := by
  simp [withUop, hu]

theorem withUop_eq_next {s : State} {h : Handle} {f : Uop → Out} {t : State} :
    withUop s h f = .next t ↔ ∃ u, s.uop? h = some u ∧ f u = .next t := by
  unfold withUop
  cases s.uop? h <;> simp

@[simp] theorem forEach_nil {α : Type} (f : α → State → Out) (s : State) : forEach f [] s = .next s := rfl
@[simp] theorem forEach_cons {α : Type} (f : α → State → Out) (a : α) (as : List α) (s : State) :
    forEach f (a :: as) s = andThen (f a s) (forEach f as) := rfl

/-- What every pass keeps, the repetition keeps. -/
theorem forEach_keeps {α : Type} {P : State → Prop} {f : α → State → Out}
    (hf : ∀ a s t, P s → f a s = .next t → P t) :
    ∀ (l : List α) {s t : State}, P s → forEach f l s = .next t → P t
  | [], _, _, hs, h => by simp at h; exact h ▸ hs
  | a :: as, _, _, hs, h => by
    obtain ⟨s1, h1, h2⟩ := andThen_eq_next.mp h
    exact forEach_keeps hf as (hf _ _ _ hs h1) h2

/-- What one pass relates its start and end by, if reflexive and transitive, the repetition does. -/
theorem forEach_rel {α : Type} {R : State → State → Prop} (hr : ∀ s, R s s)
    (ht : ∀ a b c, R a b → R b c → R a c) {f : α → State → Out}
    (hf : ∀ a s t, f a s = .next t → R s t) :
    ∀ (l : List α) {s t : State}, forEach f l s = .next t → R s t
  | [], _, _, h => by simp at h; exact h ▸ hr _
  | a :: as, _, _, h => by
    obtain ⟨s1, h1, h2⟩ := andThen_eq_next.mp h
    exact ht _ _ _ (hf _ _ _ h1) (forEach_rel hr ht hf as h2)

/-- Reading an entry of a list of lists back after replacing one. -/
theorem get2_set2 {α : Type} (l : List (List α)) (c i c' i' : Nat) (v d : α) :
    get2 (set2 l c i v) c' i' d =
      if c' = c ∧ i' = i ∧ c < l.length ∧ i < (l.getD c []).length then v else get2 l c' i' d := by
  unfold get2 set2
  by_cases hc : c' = c
  · subst hc
    by_cases hl : c' < l.length
    · simp only [List.getD_eq_getElem?_getD, List.getElem?_set, hl, if_true, List.getElem?_eq_getElem hl,
        Option.getD_some]
      by_cases hi : i' = i
      · subst hi
        by_cases hi2 : i' < l[c'].length <;> simp [hi2]
      · have : ¬ i = i' := fun h => hi h.symm
        simp [hi, this]
    · simp [hl, List.getD_eq_getElem?_getD]
  · have : ¬ c = c' := fun h => hc h.symm
    simp [hc, this, List.getD_eq_getElem?_getD]

@[simp] theorem length_set2 {α : Type} (l : List (List α)) (c i : Nat) (v : α) :
    (set2 l c i v).length = l.length := by
  simp [set2]

@[simp] theorem length_getD_set2 {α : Type} (l : List (List α)) (c i c' : Nat) (v : α) :
    ((set2 l c i v).getD c' []).length = (l.getD c' []).length := by
  unfold set2
  by_cases hc : c = c'
  · subst hc
    by_cases hl : c < l.length
    · simp [List.getD_eq_getElem?_getD, hl]
    · simp [List.getD_eq_getElem?_getD, hl]
  · simp [List.getD_eq_getElem?_getD, hc]

/-- Replacing an entry and then putting the old one back changes nothing. -/
theorem set2_restore {α : Type} (l : List (List α)) (c i : Nat) (v d : α) :
    set2 (set2 l c i v) c i (get2 l c i d) = l := by
  unfold set2 get2
  by_cases hl : c < l.length
  · apply List.ext_getElem?
    intro j
    by_cases hj : c = j
    · subst hj
      simp only [List.getD_eq_getElem?_getD, List.getElem?_set, hl, if_true,
        List.getElem?_eq_getElem hl, Option.getD_some, List.set_set]
      by_cases hi : i < l[c].length
      · simp [hi]
      · rw [List.set_eq_of_length_le (by omega)]
    · simp [List.getElem?_set, hj]
  · simp [List.set_eq_of_length_le (Nat.le_of_not_lt hl)]

/-- A record that was written is read back. -/
theorem State.uop?_setUop (s : State) (h h' : Handle) (u : Uop) :
    (s.setUop h u).uop? h' = if h' = h ∧ h < s.arena.length then some u else s.uop? h' := by
  unfold State.uop? State.setUop
  by_cases hh : h' = h
  · subst hh
    by_cases hl : h' < s.arena.length <;> simp [List.getD_eq_getElem?_getD, hl]
  · have : ¬ h = h' := fun e => hh e.symm
    simp [List.getD_eq_getElem?_getD, hh, this]

/-- Freeing a slot makes its handle dead and no other. -/
theorem State.uop?_freeSlot (s : State) (h h' : Handle) :
    (s.freeSlot h).uop? h' = if h' = h then none else s.uop? h' := by
  unfold State.uop? State.freeSlot
  by_cases hh : h' = h
  · subst hh
    by_cases hl : h' < s.arena.length <;> simp [List.getD_eq_getElem?_getD, hl]
  · have : ¬ h = h' := fun e => hh e.symm
    simp [List.getD_eq_getElem?_getD, hh, this]

/-- A live handle is an index of the arena. -/
theorem State.lt_of_uop? {s : State} {h : Handle} {u : Uop} (hu : s.uop? h = some u) :
    h < s.arena.length := by
  unfold State.uop? at hu
  by_contra hl
  simp [List.getD_eq_getElem?_getD, hl] at hu

end Sys2Proof.Machine
end

