-- ==== Sys2Proof/Laws/Frames.lean ====
section
/-!
SUPPORT. What the repeated operations over operand slots and the table operations write, once each,
and from it one lemma per field they leave alone.
-/

namespace Sys2Proof.Machine

/-- Renaming destinations writes the alias tables, the free lists and the validity bits only. -/
theorem renameDests_eq : ∀ (s : State) (fs : List (Option RegRef)), (renameDests s fs).1 =
    { s with
      rat := (renameDests s fs).1.rat
      free := (renameDests s fs).1.free
      valid := (renameDests s fs).1.valid }
  | _, [] => rfl
  | s, none :: fs => renameDests_eq s fs
  | s, some f :: fs => by
    rw [renameDests]; exact (renameDests_eq (s.renameDest f).1 fs).trans rfl

section
variable (s : State) (fs : List (Option RegRef))
@[simp] theorem renameDests_cfg : (renameDests s fs).1.cfg = s.cfg := by
  rw [renameDests_eq]
@[simp] theorem renameDests_cycle : (renameDests s fs).1.cycle = s.cycle := by
  rw [renameDests_eq]
@[simp] theorem renameDests_prf : (renameDests s fs).1.prf = s.prf := by
  rw [renameDests_eq]
@[simp] theorem renameDests_arena : (renameDests s fs).1.arena = s.arena := by
  rw [renameDests_eq]
@[simp] theorem renameDests_robSlots : (renameDests s fs).1.robSlots = s.robSlots := by
  rw [renameDests_eq]
@[simp] theorem renameDests_robHead : (renameDests s fs).1.robHead = s.robHead := by
  rw [renameDests_eq]
@[simp] theorem renameDests_robTail : (renameDests s fs).1.robTail = s.robTail := by
  rw [renameDests_eq]
@[simp] theorem renameDests_robCount : (renameDests s fs).1.robCount = s.robCount := by
  rw [renameDests_eq]
@[simp] theorem renameDests_rs : (renameDests s fs).1.rs = s.rs := by
  rw [renameDests_eq]
@[simp] theorem renameDests_rr : (renameDests s fs).1.rr = s.rr := by
  rw [renameDests_eq]
@[simp] theorem renameDests_lq : (renameDests s fs).1.lq = s.lq := by
  rw [renameDests_eq]
@[simp] theorem renameDests_sq : (renameDests s fs).1.sq = s.sq := by
  rw [renameDests_eq]
@[simp] theorem renameDests_fq : (renameDests s fs).1.fq = s.fq := by
  rw [renameDests_eq]
@[simp] theorem renameDests_dq : (renameDests s fs).1.dq = s.dq := by
  rw [renameDests_eq]
@[simp] theorem renameDests_fetchPc : (renameDests s fs).1.fetchPc = s.fetchPc := by
  rw [renameDests_eq]
@[simp] theorem renameDests_pendingTarget : (renameDests s fs).1.pendingTarget = s.pendingTarget := by
  rw [renameDests_eq]
@[simp] theorem renameDests_recovery : (renameDests s fs).1.recovery = s.recovery := by
  rw [renameDests_eq]
@[simp] theorem renameDests_rstate : (renameDests s fs).1.rstate = s.rstate := by
  rw [renameDests_eq]
@[simp] theorem renameDests_redirectPending : (renameDests s fs).1.redirectPending = s.redirectPending := by
  rw [renameDests_eq]
@[simp] theorem renameDests_status : (renameDests s fs).1.status = s.status := by
  rw [renameDests_eq]
@[simp] theorem renameDests_retiredCount : (renameDests s fs).1.retiredCount = s.retiredCount := by
  rw [renameDests_eq]
@[simp] theorem renameDests_lastRetireCycle : (renameDests s fs).1.lastRetireCycle = s.lastRetireCycle := by
  rw [renameDests_eq]
@[simp] theorem renameDests_seqNext : (renameDests s fs).1.seqNext = s.seqNext := by
  rw [renameDests_eq]
@[simp] theorem renameDests_mem : (renameDests s fs).1.mem = s.mem := by
  rw [renameDests_eq]
@[simp] theorem renameDests_log : (renameDests s fs).1.log = s.log := by
  rw [renameDests_eq]
@[simp] theorem renameDests_lastMatch : (renameDests s fs).1.lastMatch = s.lastMatch := by
  rw [renameDests_eq]
@[simp] theorem renameDests_predictCalls : (renameDests s fs).1.predictCalls = s.predictCalls := by
  rw [renameDests_eq]
@[simp] theorem renameDests_method : (renameDests s fs).1.method = s.method := by
  rw [renameDests_eq]
@[simp] theorem renameDests_prfOf (c' x' : Nat) :
    (renameDests s fs).1.prfOf c' x' = s.prfOf c' x' :=
  State.prfOf_of _ _ (by simp) c' x'
@[simp] theorem renameDests_uop? (g : Handle) :
    (renameDests s fs).1.uop? g = s.uop? g :=
  State.uop?_of _ _ (by simp) g
@[simp] theorem renameDests_station (k' : FuClass) (j' : Nat) :
    (renameDests s fs).1.station k' j' = s.station k' j' :=
  State.station_of _ _ (by simp) k' j'
@[simp] theorem renameDests_robAt (j' : Nat) : (renameDests s fs).1.robAt j' = s.robAt j' :=
  State.robAt_of _ _ (by simp) (by simp) (by simp) j'
@[simp] theorem renameDests_robList : (renameDests s fs).1.robList = s.robList :=
  State.robList_of _ _ (by simp) (by simp) (by simp) (by simp)
end

/-- Writing destinations writes the register files only. -/
theorem writeDests_eq : ∀ (s : State) (j : Nat) (ds : List (Option DstSlot)) (v : Nat → Nat),
    writeDests s j ds v = { s with prf := (writeDests s j ds v).prf }
  | _, _, [], _ => rfl
  | s, j, none :: ds, v => writeDests_eq s (j + 1) ds v
  | s, j, some d :: ds, v => (writeDests_eq (s.setPrf d.cls d.fresh (v j)) (j + 1) ds v).trans rfl

section
variable (s : State) (j : Nat) (ds : List (Option DstSlot)) (v : Nat → Nat)
@[simp] theorem writeDests_cfg : (writeDests s j ds v).cfg = s.cfg := by
  rw [writeDests_eq]
@[simp] theorem writeDests_cycle : (writeDests s j ds v).cycle = s.cycle := by
  rw [writeDests_eq]
@[simp] theorem writeDests_rat : (writeDests s j ds v).rat = s.rat := by
  rw [writeDests_eq]
@[simp] theorem writeDests_free : (writeDests s j ds v).free = s.free := by
  rw [writeDests_eq]
@[simp] theorem writeDests_valid : (writeDests s j ds v).valid = s.valid := by
  rw [writeDests_eq]
@[simp] theorem writeDests_arena : (writeDests s j ds v).arena = s.arena := by
  rw [writeDests_eq]
@[simp] theorem writeDests_robSlots : (writeDests s j ds v).robSlots = s.robSlots := by
  rw [writeDests_eq]
@[simp] theorem writeDests_robHead : (writeDests s j ds v).robHead = s.robHead := by
  rw [writeDests_eq]
@[simp] theorem writeDests_robTail : (writeDests s j ds v).robTail = s.robTail := by
  rw [writeDests_eq]
@[simp] theorem writeDests_robCount : (writeDests s j ds v).robCount = s.robCount := by
  rw [writeDests_eq]
@[simp] theorem writeDests_rs : (writeDests s j ds v).rs = s.rs := by
  rw [writeDests_eq]
@[simp] theorem writeDests_rr : (writeDests s j ds v).rr = s.rr := by
  rw [writeDests_eq]
@[simp] theorem writeDests_lq : (writeDests s j ds v).lq = s.lq := by
  rw [writeDests_eq]
@[simp] theorem writeDests_sq : (writeDests s j ds v).sq = s.sq := by
  rw [writeDests_eq]
@[simp] theorem writeDests_fq : (writeDests s j ds v).fq = s.fq := by
  rw [writeDests_eq]
@[simp] theorem writeDests_dq : (writeDests s j ds v).dq = s.dq := by
  rw [writeDests_eq]
@[simp] theorem writeDests_fetchPc : (writeDests s j ds v).fetchPc = s.fetchPc := by
  rw [writeDests_eq]
@[simp] theorem writeDests_pendingTarget : (writeDests s j ds v).pendingTarget = s.pendingTarget := by
  rw [writeDests_eq]
@[simp] theorem writeDests_recovery : (writeDests s j ds v).recovery = s.recovery := by
  rw [writeDests_eq]
@[simp] theorem writeDests_rstate : (writeDests s j ds v).rstate = s.rstate := by
  rw [writeDests_eq]
@[simp] theorem writeDests_redirectPending : (writeDests s j ds v).redirectPending = s.redirectPending := by
  rw [writeDests_eq]
@[simp] theorem writeDests_status : (writeDests s j ds v).status = s.status := by
  rw [writeDests_eq]
@[simp] theorem writeDests_retiredCount : (writeDests s j ds v).retiredCount = s.retiredCount := by
  rw [writeDests_eq]
@[simp] theorem writeDests_lastRetireCycle : (writeDests s j ds v).lastRetireCycle = s.lastRetireCycle := by
  rw [writeDests_eq]
@[simp] theorem writeDests_seqNext : (writeDests s j ds v).seqNext = s.seqNext := by
  rw [writeDests_eq]
@[simp] theorem writeDests_mem : (writeDests s j ds v).mem = s.mem := by
  rw [writeDests_eq]
@[simp] theorem writeDests_log : (writeDests s j ds v).log = s.log := by
  rw [writeDests_eq]
@[simp] theorem writeDests_lastMatch : (writeDests s j ds v).lastMatch = s.lastMatch := by
  rw [writeDests_eq]
@[simp] theorem writeDests_predictCalls : (writeDests s j ds v).predictCalls = s.predictCalls := by
  rw [writeDests_eq]
@[simp] theorem writeDests_method : (writeDests s j ds v).method = s.method := by
  rw [writeDests_eq]
@[simp] theorem writeDests_ratOf (c' x' : Nat) :
    (writeDests s j ds v).ratOf c' x' = s.ratOf c' x' :=
  State.ratOf_of _ _ (by simp) c' x'
@[simp] theorem writeDests_freeOf (c' x' : Nat) :
    (writeDests s j ds v).freeOf c' x' = s.freeOf c' x' :=
  State.freeOf_of _ _ (by simp) c' x'
@[simp] theorem writeDests_validOf (c' x' : Nat) :
    (writeDests s j ds v).validOf c' x' = s.validOf c' x' :=
  State.validOf_of _ _ (by simp) c' x'
@[simp] theorem writeDests_uop? (g : Handle) :
    (writeDests s j ds v).uop? g = s.uop? g :=
  State.uop?_of _ _ (by simp) g
@[simp] theorem writeDests_station (k' : FuClass) (j' : Nat) :
    (writeDests s j ds v).station k' j' = s.station k' j' :=
  State.station_of _ _ (by simp) k' j'
@[simp] theorem writeDests_robAt (j' : Nat) : (writeDests s j ds v).robAt j' = s.robAt j' :=
  State.robAt_of _ _ (by simp) (by simp) (by simp) j'
@[simp] theorem writeDests_robList : (writeDests s j ds v).robList = s.robList :=
  State.robList_of _ _ (by simp) (by simp) (by simp) (by simp)
end

/-- Publishing destinations writes the validity bits only. -/
theorem publishDests_eq : ∀ (s : State) (ds : List (Option DstSlot)),
    publishDests s ds = { s with valid := (publishDests s ds).valid }
  | _, [] => rfl
  | s, none :: ds => publishDests_eq s ds
  | s, some d :: ds => (publishDests_eq (s.setValid d.cls d.fresh true) ds).trans rfl

section
variable (s : State) (ds : List (Option DstSlot))
@[simp] theorem publishDests_cfg : (publishDests s ds).cfg = s.cfg := by
  rw [publishDests_eq]
@[simp] theorem publishDests_cycle : (publishDests s ds).cycle = s.cycle := by
  rw [publishDests_eq]
@[simp] theorem publishDests_rat : (publishDests s ds).rat = s.rat := by
  rw [publishDests_eq]
@[simp] theorem publishDests_prf : (publishDests s ds).prf = s.prf := by
  rw [publishDests_eq]
@[simp] theorem publishDests_free : (publishDests s ds).free = s.free := by
  rw [publishDests_eq]
@[simp] theorem publishDests_arena : (publishDests s ds).arena = s.arena := by
  rw [publishDests_eq]
@[simp] theorem publishDests_robSlots : (publishDests s ds).robSlots = s.robSlots := by
  rw [publishDests_eq]
@[simp] theorem publishDests_robHead : (publishDests s ds).robHead = s.robHead := by
  rw [publishDests_eq]
@[simp] theorem publishDests_robTail : (publishDests s ds).robTail = s.robTail := by
  rw [publishDests_eq]
@[simp] theorem publishDests_robCount : (publishDests s ds).robCount = s.robCount := by
  rw [publishDests_eq]
@[simp] theorem publishDests_rs : (publishDests s ds).rs = s.rs := by
  rw [publishDests_eq]
@[simp] theorem publishDests_rr : (publishDests s ds).rr = s.rr := by
  rw [publishDests_eq]
@[simp] theorem publishDests_lq : (publishDests s ds).lq = s.lq := by
  rw [publishDests_eq]
@[simp] theorem publishDests_sq : (publishDests s ds).sq = s.sq := by
  rw [publishDests_eq]
@[simp] theorem publishDests_fq : (publishDests s ds).fq = s.fq := by
  rw [publishDests_eq]
@[simp] theorem publishDests_dq : (publishDests s ds).dq = s.dq := by
  rw [publishDests_eq]
@[simp] theorem publishDests_fetchPc : (publishDests s ds).fetchPc = s.fetchPc := by
  rw [publishDests_eq]
@[simp] theorem publishDests_pendingTarget : (publishDests s ds).pendingTarget = s.pendingTarget := by
  rw [publishDests_eq]
@[simp] theorem publishDests_recovery : (publishDests s ds).recovery = s.recovery := by
  rw [publishDests_eq]
@[simp] theorem publishDests_rstate : (publishDests s ds).rstate = s.rstate := by
  rw [publishDests_eq]
@[simp] theorem publishDests_redirectPending : (publishDests s ds).redirectPending = s.redirectPending := by
  rw [publishDests_eq]
@[simp] theorem publishDests_status : (publishDests s ds).status = s.status := by
  rw [publishDests_eq]
@[simp] theorem publishDests_retiredCount : (publishDests s ds).retiredCount = s.retiredCount := by
  rw [publishDests_eq]
@[simp] theorem publishDests_lastRetireCycle : (publishDests s ds).lastRetireCycle = s.lastRetireCycle := by
  rw [publishDests_eq]
@[simp] theorem publishDests_seqNext : (publishDests s ds).seqNext = s.seqNext := by
  rw [publishDests_eq]
@[simp] theorem publishDests_mem : (publishDests s ds).mem = s.mem := by
  rw [publishDests_eq]
@[simp] theorem publishDests_log : (publishDests s ds).log = s.log := by
  rw [publishDests_eq]
@[simp] theorem publishDests_lastMatch : (publishDests s ds).lastMatch = s.lastMatch := by
  rw [publishDests_eq]
@[simp] theorem publishDests_predictCalls : (publishDests s ds).predictCalls = s.predictCalls := by
  rw [publishDests_eq]
@[simp] theorem publishDests_method : (publishDests s ds).method = s.method := by
  rw [publishDests_eq]
@[simp] theorem publishDests_ratOf (c' x' : Nat) :
    (publishDests s ds).ratOf c' x' = s.ratOf c' x' :=
  State.ratOf_of _ _ (by simp) c' x'
@[simp] theorem publishDests_prfOf (c' x' : Nat) :
    (publishDests s ds).prfOf c' x' = s.prfOf c' x' :=
  State.prfOf_of _ _ (by simp) c' x'
@[simp] theorem publishDests_freeOf (c' x' : Nat) :
    (publishDests s ds).freeOf c' x' = s.freeOf c' x' :=
  State.freeOf_of _ _ (by simp) c' x'
@[simp] theorem publishDests_uop? (g : Handle) :
    (publishDests s ds).uop? g = s.uop? g :=
  State.uop?_of _ _ (by simp) g
@[simp] theorem publishDests_station (k' : FuClass) (j' : Nat) :
    (publishDests s ds).station k' j' = s.station k' j' :=
  State.station_of _ _ (by simp) k' j'
@[simp] theorem publishDests_robAt (j' : Nat) : (publishDests s ds).robAt j' = s.robAt j' :=
  State.robAt_of _ _ (by simp) (by simp) (by simp) j'
@[simp] theorem publishDests_robList : (publishDests s ds).robList = s.robList :=
  State.robList_of _ _ (by simp) (by simp) (by simp) (by simp)
end

/-- Releasing destinations writes the free lists only. -/
theorem releaseDests_eq : ∀ (s : State) (ds : List (Option DstSlot)),
    releaseDests s ds = { s with free := (releaseDests s ds).free }
  | _, [] => rfl
  | s, none :: ds => releaseDests_eq s ds
  | s, some d :: ds => (releaseDests_eq (s.setFree d.cls d.prev true) ds).trans rfl

section
variable (s : State) (ds : List (Option DstSlot))
@[simp] theorem releaseDests_cfg : (releaseDests s ds).cfg = s.cfg := by
  rw [releaseDests_eq]
@[simp] theorem releaseDests_cycle : (releaseDests s ds).cycle = s.cycle := by
  rw [releaseDests_eq]
@[simp] theorem releaseDests_rat : (releaseDests s ds).rat = s.rat := by
  rw [releaseDests_eq]
@[simp] theorem releaseDests_prf : (releaseDests s ds).prf = s.prf := by
  rw [releaseDests_eq]
@[simp] theorem releaseDests_valid : (releaseDests s ds).valid = s.valid := by
  rw [releaseDests_eq]
@[simp] theorem releaseDests_arena : (releaseDests s ds).arena = s.arena := by
  rw [releaseDests_eq]
@[simp] theorem releaseDests_robSlots : (releaseDests s ds).robSlots = s.robSlots := by
  rw [releaseDests_eq]
@[simp] theorem releaseDests_robHead : (releaseDests s ds).robHead = s.robHead := by
  rw [releaseDests_eq]
@[simp] theorem releaseDests_robTail : (releaseDests s ds).robTail = s.robTail := by
  rw [releaseDests_eq]
@[simp] theorem releaseDests_robCount : (releaseDests s ds).robCount = s.robCount := by
  rw [releaseDests_eq]
@[simp] theorem releaseDests_rs : (releaseDests s ds).rs = s.rs := by
  rw [releaseDests_eq]
@[simp] theorem releaseDests_rr : (releaseDests s ds).rr = s.rr := by
  rw [releaseDests_eq]
@[simp] theorem releaseDests_lq : (releaseDests s ds).lq = s.lq := by
  rw [releaseDests_eq]
@[simp] theorem releaseDests_sq : (releaseDests s ds).sq = s.sq := by
  rw [releaseDests_eq]
@[simp] theorem releaseDests_fq : (releaseDests s ds).fq = s.fq := by
  rw [releaseDests_eq]
@[simp] theorem releaseDests_dq : (releaseDests s ds).dq = s.dq := by
  rw [releaseDests_eq]
@[simp] theorem releaseDests_fetchPc : (releaseDests s ds).fetchPc = s.fetchPc := by
  rw [releaseDests_eq]
@[simp] theorem releaseDests_pendingTarget : (releaseDests s ds).pendingTarget = s.pendingTarget := by
  rw [releaseDests_eq]
@[simp] theorem releaseDests_recovery : (releaseDests s ds).recovery = s.recovery := by
  rw [releaseDests_eq]
@[simp] theorem releaseDests_rstate : (releaseDests s ds).rstate = s.rstate := by
  rw [releaseDests_eq]
@[simp] theorem releaseDests_redirectPending : (releaseDests s ds).redirectPending = s.redirectPending := by
  rw [releaseDests_eq]
@[simp] theorem releaseDests_status : (releaseDests s ds).status = s.status := by
  rw [releaseDests_eq]
@[simp] theorem releaseDests_retiredCount : (releaseDests s ds).retiredCount = s.retiredCount := by
  rw [releaseDests_eq]
@[simp] theorem releaseDests_lastRetireCycle : (releaseDests s ds).lastRetireCycle = s.lastRetireCycle := by
  rw [releaseDests_eq]
@[simp] theorem releaseDests_seqNext : (releaseDests s ds).seqNext = s.seqNext := by
  rw [releaseDests_eq]
@[simp] theorem releaseDests_mem : (releaseDests s ds).mem = s.mem := by
  rw [releaseDests_eq]
@[simp] theorem releaseDests_log : (releaseDests s ds).log = s.log := by
  rw [releaseDests_eq]
@[simp] theorem releaseDests_lastMatch : (releaseDests s ds).lastMatch = s.lastMatch := by
  rw [releaseDests_eq]
@[simp] theorem releaseDests_predictCalls : (releaseDests s ds).predictCalls = s.predictCalls := by
  rw [releaseDests_eq]
@[simp] theorem releaseDests_method : (releaseDests s ds).method = s.method := by
  rw [releaseDests_eq]
@[simp] theorem releaseDests_ratOf (c' x' : Nat) :
    (releaseDests s ds).ratOf c' x' = s.ratOf c' x' :=
  State.ratOf_of _ _ (by simp) c' x'
@[simp] theorem releaseDests_prfOf (c' x' : Nat) :
    (releaseDests s ds).prfOf c' x' = s.prfOf c' x' :=
  State.prfOf_of _ _ (by simp) c' x'
@[simp] theorem releaseDests_validOf (c' x' : Nat) :
    (releaseDests s ds).validOf c' x' = s.validOf c' x' :=
  State.validOf_of _ _ (by simp) c' x'
@[simp] theorem releaseDests_uop? (g : Handle) :
    (releaseDests s ds).uop? g = s.uop? g :=
  State.uop?_of _ _ (by simp) g
@[simp] theorem releaseDests_station (k' : FuClass) (j' : Nat) :
    (releaseDests s ds).station k' j' = s.station k' j' :=
  State.station_of _ _ (by simp) k' j'
@[simp] theorem releaseDests_robAt (j' : Nat) : (releaseDests s ds).robAt j' = s.robAt j' :=
  State.robAt_of _ _ (by simp) (by simp) (by simp) j'
@[simp] theorem releaseDests_robList : (releaseDests s ds).robList = s.robList :=
  State.robList_of _ _ (by simp) (by simp) (by simp) (by simp)
end

/-- Restoring destinations writes the alias tables and the free lists only. -/
theorem restoreDests_eq : ∀ (s : State) (ds : List (Option DstSlot)),
    restoreDests s ds = { s with rat := (restoreDests s ds).rat, free := (restoreDests s ds).free }
  | _, [] => rfl
  | s, none :: ds => restoreDests_eq s ds
  | s, some d :: ds => by
    rw [restoreDests]
    generalize hr : restoreDests s ds = r
    rw [restoreDests_eq s ds] at hr
    subst hr; rfl

section
variable (s : State) (ds : List (Option DstSlot))
@[simp] theorem restoreDests_cfg : (restoreDests s ds).cfg = s.cfg := by
  rw [restoreDests_eq]
@[simp] theorem restoreDests_cycle : (restoreDests s ds).cycle = s.cycle := by
  rw [restoreDests_eq]
@[simp] theorem restoreDests_prf : (restoreDests s ds).prf = s.prf := by
  rw [restoreDests_eq]
@[simp] theorem restoreDests_valid : (restoreDests s ds).valid = s.valid := by
  rw [restoreDests_eq]
@[simp] theorem restoreDests_arena : (restoreDests s ds).arena = s.arena := by
  rw [restoreDests_eq]
@[simp] theorem restoreDests_robSlots : (restoreDests s ds).robSlots = s.robSlots := by
  rw [restoreDests_eq]
@[simp] theorem restoreDests_robHead : (restoreDests s ds).robHead = s.robHead := by
  rw [restoreDests_eq]
@[simp] theorem restoreDests_robTail : (restoreDests s ds).robTail = s.robTail := by
  rw [restoreDests_eq]
@[simp] theorem restoreDests_robCount : (restoreDests s ds).robCount = s.robCount := by
  rw [restoreDests_eq]
@[simp] theorem restoreDests_rs : (restoreDests s ds).rs = s.rs := by
  rw [restoreDests_eq]
@[simp] theorem restoreDests_rr : (restoreDests s ds).rr = s.rr := by
  rw [restoreDests_eq]
@[simp] theorem restoreDests_lq : (restoreDests s ds).lq = s.lq := by
  rw [restoreDests_eq]
@[simp] theorem restoreDests_sq : (restoreDests s ds).sq = s.sq := by
  rw [restoreDests_eq]
@[simp] theorem restoreDests_fq : (restoreDests s ds).fq = s.fq := by
  rw [restoreDests_eq]
@[simp] theorem restoreDests_dq : (restoreDests s ds).dq = s.dq := by
  rw [restoreDests_eq]
@[simp] theorem restoreDests_fetchPc : (restoreDests s ds).fetchPc = s.fetchPc := by
  rw [restoreDests_eq]
@[simp] theorem restoreDests_pendingTarget : (restoreDests s ds).pendingTarget = s.pendingTarget := by
  rw [restoreDests_eq]
@[simp] theorem restoreDests_recovery : (restoreDests s ds).recovery = s.recovery := by
  rw [restoreDests_eq]
@[simp] theorem restoreDests_rstate : (restoreDests s ds).rstate = s.rstate := by
  rw [restoreDests_eq]
@[simp] theorem restoreDests_redirectPending : (restoreDests s ds).redirectPending = s.redirectPending := by
  rw [restoreDests_eq]
@[simp] theorem restoreDests_status : (restoreDests s ds).status = s.status := by
  rw [restoreDests_eq]
@[simp] theorem restoreDests_retiredCount : (restoreDests s ds).retiredCount = s.retiredCount := by
  rw [restoreDests_eq]
@[simp] theorem restoreDests_lastRetireCycle : (restoreDests s ds).lastRetireCycle = s.lastRetireCycle := by
  rw [restoreDests_eq]
@[simp] theorem restoreDests_seqNext : (restoreDests s ds).seqNext = s.seqNext := by
  rw [restoreDests_eq]
@[simp] theorem restoreDests_mem : (restoreDests s ds).mem = s.mem := by
  rw [restoreDests_eq]
@[simp] theorem restoreDests_log : (restoreDests s ds).log = s.log := by
  rw [restoreDests_eq]
@[simp] theorem restoreDests_lastMatch : (restoreDests s ds).lastMatch = s.lastMatch := by
  rw [restoreDests_eq]
@[simp] theorem restoreDests_predictCalls : (restoreDests s ds).predictCalls = s.predictCalls := by
  rw [restoreDests_eq]
@[simp] theorem restoreDests_method : (restoreDests s ds).method = s.method := by
  rw [restoreDests_eq]
@[simp] theorem restoreDests_prfOf (c' x' : Nat) :
    (restoreDests s ds).prfOf c' x' = s.prfOf c' x' :=
  State.prfOf_of _ _ (by simp) c' x'
@[simp] theorem restoreDests_validOf (c' x' : Nat) :
    (restoreDests s ds).validOf c' x' = s.validOf c' x' :=
  State.validOf_of _ _ (by simp) c' x'
@[simp] theorem restoreDests_uop? (g : Handle) :
    (restoreDests s ds).uop? g = s.uop? g :=
  State.uop?_of _ _ (by simp) g
@[simp] theorem restoreDests_station (k' : FuClass) (j' : Nat) :
    (restoreDests s ds).station k' j' = s.station k' j' :=
  State.station_of _ _ (by simp) k' j'
@[simp] theorem restoreDests_robAt (j' : Nat) : (restoreDests s ds).robAt j' = s.robAt j' :=
  State.robAt_of _ _ (by simp) (by simp) (by simp) j'
@[simp] theorem restoreDests_robList : (restoreDests s ds).robList = s.robList :=
  State.robList_of _ _ (by simp) (by simp) (by simp) (by simp)
end

/-- Leaving a station writes the stations only. -/
theorem leaveStation_eq (s : State) (h : Handle) (p : Option (FuClass × Nat)) :
    s.leaveStation h p = { s with rs := (s.leaveStation h p).rs } := by
  cases p <;> rfl

section
variable (s : State) (h : Handle) (p : Option (FuClass × Nat))
@[simp] theorem leaveStation_cfg : (s.leaveStation h p).cfg = s.cfg := by
  rw [leaveStation_eq]
@[simp] theorem leaveStation_cycle : (s.leaveStation h p).cycle = s.cycle := by
  rw [leaveStation_eq]
@[simp] theorem leaveStation_rat : (s.leaveStation h p).rat = s.rat := by
  rw [leaveStation_eq]
@[simp] theorem leaveStation_prf : (s.leaveStation h p).prf = s.prf := by
  rw [leaveStation_eq]
@[simp] theorem leaveStation_free : (s.leaveStation h p).free = s.free := by
  rw [leaveStation_eq]
@[simp] theorem leaveStation_valid : (s.leaveStation h p).valid = s.valid := by
  rw [leaveStation_eq]
@[simp] theorem leaveStation_arena : (s.leaveStation h p).arena = s.arena := by
  rw [leaveStation_eq]
@[simp] theorem leaveStation_robSlots : (s.leaveStation h p).robSlots = s.robSlots := by
  rw [leaveStation_eq]
@[simp] theorem leaveStation_robHead : (s.leaveStation h p).robHead = s.robHead := by
  rw [leaveStation_eq]
@[simp] theorem leaveStation_robTail : (s.leaveStation h p).robTail = s.robTail := by
  rw [leaveStation_eq]
@[simp] theorem leaveStation_robCount : (s.leaveStation h p).robCount = s.robCount := by
  rw [leaveStation_eq]
@[simp] theorem leaveStation_rr : (s.leaveStation h p).rr = s.rr := by
  rw [leaveStation_eq]
@[simp] theorem leaveStation_lq : (s.leaveStation h p).lq = s.lq := by
  rw [leaveStation_eq]
@[simp] theorem leaveStation_sq : (s.leaveStation h p).sq = s.sq := by
  rw [leaveStation_eq]
@[simp] theorem leaveStation_fq : (s.leaveStation h p).fq = s.fq := by
  rw [leaveStation_eq]
@[simp] theorem leaveStation_dq : (s.leaveStation h p).dq = s.dq := by
  rw [leaveStation_eq]
@[simp] theorem leaveStation_fetchPc : (s.leaveStation h p).fetchPc = s.fetchPc := by
  rw [leaveStation_eq]
@[simp] theorem leaveStation_pendingTarget : (s.leaveStation h p).pendingTarget = s.pendingTarget := by
  rw [leaveStation_eq]
@[simp] theorem leaveStation_recovery : (s.leaveStation h p).recovery = s.recovery := by
  rw [leaveStation_eq]
@[simp] theorem leaveStation_rstate : (s.leaveStation h p).rstate = s.rstate := by
  rw [leaveStation_eq]
@[simp] theorem leaveStation_redirectPending : (s.leaveStation h p).redirectPending = s.redirectPending := by
  rw [leaveStation_eq]
@[simp] theorem leaveStation_status : (s.leaveStation h p).status = s.status := by
  rw [leaveStation_eq]
@[simp] theorem leaveStation_retiredCount : (s.leaveStation h p).retiredCount = s.retiredCount := by
  rw [leaveStation_eq]
@[simp] theorem leaveStation_lastRetireCycle : (s.leaveStation h p).lastRetireCycle = s.lastRetireCycle := by
  rw [leaveStation_eq]
@[simp] theorem leaveStation_seqNext : (s.leaveStation h p).seqNext = s.seqNext := by
  rw [leaveStation_eq]
@[simp] theorem leaveStation_mem : (s.leaveStation h p).mem = s.mem := by
  rw [leaveStation_eq]
@[simp] theorem leaveStation_log : (s.leaveStation h p).log = s.log := by
  rw [leaveStation_eq]
@[simp] theorem leaveStation_lastMatch : (s.leaveStation h p).lastMatch = s.lastMatch := by
  rw [leaveStation_eq]
@[simp] theorem leaveStation_predictCalls : (s.leaveStation h p).predictCalls = s.predictCalls := by
  rw [leaveStation_eq]
@[simp] theorem leaveStation_method : (s.leaveStation h p).method = s.method := by
  rw [leaveStation_eq]
@[simp] theorem leaveStation_ratOf (c' x' : Nat) :
    (s.leaveStation h p).ratOf c' x' = s.ratOf c' x' :=
  State.ratOf_of _ _ (by simp) c' x'
@[simp] theorem leaveStation_prfOf (c' x' : Nat) :
    (s.leaveStation h p).prfOf c' x' = s.prfOf c' x' :=
  State.prfOf_of _ _ (by simp) c' x'
@[simp] theorem leaveStation_freeOf (c' x' : Nat) :
    (s.leaveStation h p).freeOf c' x' = s.freeOf c' x' :=
  State.freeOf_of _ _ (by simp) c' x'
@[simp] theorem leaveStation_validOf (c' x' : Nat) :
    (s.leaveStation h p).validOf c' x' = s.validOf c' x' :=
  State.validOf_of _ _ (by simp) c' x'
@[simp] theorem leaveStation_uop? (g : Handle) :
    (s.leaveStation h p).uop? g = s.uop? g :=
  State.uop?_of _ _ (by simp) g
@[simp] theorem leaveStation_robAt (j' : Nat) : (s.leaveStation h p).robAt j' = s.robAt j' :=
  State.robAt_of _ _ (by simp) (by simp) (by simp) j'
@[simp] theorem leaveStation_robList : (s.leaveStation h p).robList = s.robList :=
  State.robList_of _ _ (by simp) (by simp) (by simp) (by simp)
end

/-- Entering a table writes the two tables only. -/
theorem tablePush_eq (s : State) (h : Handle) (t : LsTable) :
    s.tablePush h t = { s with lq := (s.tablePush h t).lq, sq := (s.tablePush h t).sq } := by
  cases t <;> rfl

section
variable (s : State) (h : Handle) (t : LsTable)
@[simp] theorem tablePush_cfg : (s.tablePush h t).cfg = s.cfg := by
  rw [tablePush_eq]
@[simp] theorem tablePush_cycle : (s.tablePush h t).cycle = s.cycle := by
  rw [tablePush_eq]
@[simp] theorem tablePush_rat : (s.tablePush h t).rat = s.rat := by
  rw [tablePush_eq]
@[simp] theorem tablePush_prf : (s.tablePush h t).prf = s.prf := by
  rw [tablePush_eq]
@[simp] theorem tablePush_free : (s.tablePush h t).free = s.free := by
  rw [tablePush_eq]
@[simp] theorem tablePush_valid : (s.tablePush h t).valid = s.valid := by
  rw [tablePush_eq]
@[simp] theorem tablePush_arena : (s.tablePush h t).arena = s.arena := by
  rw [tablePush_eq]
@[simp] theorem tablePush_robSlots : (s.tablePush h t).robSlots = s.robSlots := by
  rw [tablePush_eq]
@[simp] theorem tablePush_robHead : (s.tablePush h t).robHead = s.robHead := by
  rw [tablePush_eq]
@[simp] theorem tablePush_robTail : (s.tablePush h t).robTail = s.robTail := by
  rw [tablePush_eq]
@[simp] theorem tablePush_robCount : (s.tablePush h t).robCount = s.robCount := by
  rw [tablePush_eq]
@[simp] theorem tablePush_rs : (s.tablePush h t).rs = s.rs := by
  rw [tablePush_eq]
@[simp] theorem tablePush_rr : (s.tablePush h t).rr = s.rr := by
  rw [tablePush_eq]
@[simp] theorem tablePush_fq : (s.tablePush h t).fq = s.fq := by
  rw [tablePush_eq]
@[simp] theorem tablePush_dq : (s.tablePush h t).dq = s.dq := by
  rw [tablePush_eq]
@[simp] theorem tablePush_fetchPc : (s.tablePush h t).fetchPc = s.fetchPc := by
  rw [tablePush_eq]
@[simp] theorem tablePush_pendingTarget : (s.tablePush h t).pendingTarget = s.pendingTarget := by
  rw [tablePush_eq]
@[simp] theorem tablePush_recovery : (s.tablePush h t).recovery = s.recovery := by
  rw [tablePush_eq]
@[simp] theorem tablePush_rstate : (s.tablePush h t).rstate = s.rstate := by
  rw [tablePush_eq]
@[simp] theorem tablePush_redirectPending : (s.tablePush h t).redirectPending = s.redirectPending := by
  rw [tablePush_eq]
@[simp] theorem tablePush_status : (s.tablePush h t).status = s.status := by
  rw [tablePush_eq]
@[simp] theorem tablePush_retiredCount : (s.tablePush h t).retiredCount = s.retiredCount := by
  rw [tablePush_eq]
@[simp] theorem tablePush_lastRetireCycle : (s.tablePush h t).lastRetireCycle = s.lastRetireCycle := by
  rw [tablePush_eq]
@[simp] theorem tablePush_seqNext : (s.tablePush h t).seqNext = s.seqNext := by
  rw [tablePush_eq]
@[simp] theorem tablePush_mem : (s.tablePush h t).mem = s.mem := by
  rw [tablePush_eq]
@[simp] theorem tablePush_log : (s.tablePush h t).log = s.log := by
  rw [tablePush_eq]
@[simp] theorem tablePush_lastMatch : (s.tablePush h t).lastMatch = s.lastMatch := by
  rw [tablePush_eq]
@[simp] theorem tablePush_predictCalls : (s.tablePush h t).predictCalls = s.predictCalls := by
  rw [tablePush_eq]
@[simp] theorem tablePush_method : (s.tablePush h t).method = s.method := by
  rw [tablePush_eq]
@[simp] theorem tablePush_ratOf (c' x' : Nat) :
    (s.tablePush h t).ratOf c' x' = s.ratOf c' x' :=
  State.ratOf_of _ _ (by simp) c' x'
@[simp] theorem tablePush_prfOf (c' x' : Nat) :
    (s.tablePush h t).prfOf c' x' = s.prfOf c' x' :=
  State.prfOf_of _ _ (by simp) c' x'
@[simp] theorem tablePush_freeOf (c' x' : Nat) :
    (s.tablePush h t).freeOf c' x' = s.freeOf c' x' :=
  State.freeOf_of _ _ (by simp) c' x'
@[simp] theorem tablePush_validOf (c' x' : Nat) :
    (s.tablePush h t).validOf c' x' = s.validOf c' x' :=
  State.validOf_of _ _ (by simp) c' x'
@[simp] theorem tablePush_uop? (g : Handle) :
    (s.tablePush h t).uop? g = s.uop? g :=
  State.uop?_of _ _ (by simp) g
@[simp] theorem tablePush_station (k' : FuClass) (j' : Nat) :
    (s.tablePush h t).station k' j' = s.station k' j' :=
  State.station_of _ _ (by simp) k' j'
@[simp] theorem tablePush_robAt (j' : Nat) : (s.tablePush h t).robAt j' = s.robAt j' :=
  State.robAt_of _ _ (by simp) (by simp) (by simp) j'
@[simp] theorem tablePush_robList : (s.tablePush h t).robList = s.robList :=
  State.robList_of _ _ (by simp) (by simp) (by simp) (by simp)
end

/-- Leaving a table writes the two tables only. -/
theorem tableRemove_eq (s : State) (h : Handle) (t : LsTable) :
    s.tableRemove h t = { s with lq := (s.tableRemove h t).lq, sq := (s.tableRemove h t).sq } := by
  cases t <;> rfl

section
variable (s : State) (h : Handle) (t : LsTable)
@[simp] theorem tableRemove_cfg : (s.tableRemove h t).cfg = s.cfg := by
  rw [tableRemove_eq]
@[simp] theorem tableRemove_cycle : (s.tableRemove h t).cycle = s.cycle := by
  rw [tableRemove_eq]
@[simp] theorem tableRemove_rat : (s.tableRemove h t).rat = s.rat := by
  rw [tableRemove_eq]
@[simp] theorem tableRemove_prf : (s.tableRemove h t).prf = s.prf := by
  rw [tableRemove_eq]
@[simp] theorem tableRemove_free : (s.tableRemove h t).free = s.free := by
  rw [tableRemove_eq]
@[simp] theorem tableRemove_valid : (s.tableRemove h t).valid = s.valid := by
  rw [tableRemove_eq]
@[simp] theorem tableRemove_arena : (s.tableRemove h t).arena = s.arena := by
  rw [tableRemove_eq]
@[simp] theorem tableRemove_robSlots : (s.tableRemove h t).robSlots = s.robSlots := by
  rw [tableRemove_eq]
@[simp] theorem tableRemove_robHead : (s.tableRemove h t).robHead = s.robHead := by
  rw [tableRemove_eq]
@[simp] theorem tableRemove_robTail : (s.tableRemove h t).robTail = s.robTail := by
  rw [tableRemove_eq]
@[simp] theorem tableRemove_robCount : (s.tableRemove h t).robCount = s.robCount := by
  rw [tableRemove_eq]
@[simp] theorem tableRemove_rs : (s.tableRemove h t).rs = s.rs := by
  rw [tableRemove_eq]
@[simp] theorem tableRemove_rr : (s.tableRemove h t).rr = s.rr := by
  rw [tableRemove_eq]
@[simp] theorem tableRemove_fq : (s.tableRemove h t).fq = s.fq := by
  rw [tableRemove_eq]
@[simp] theorem tableRemove_dq : (s.tableRemove h t).dq = s.dq := by
  rw [tableRemove_eq]
@[simp] theorem tableRemove_fetchPc : (s.tableRemove h t).fetchPc = s.fetchPc := by
  rw [tableRemove_eq]
@[simp] theorem tableRemove_pendingTarget : (s.tableRemove h t).pendingTarget = s.pendingTarget := by
  rw [tableRemove_eq]
@[simp] theorem tableRemove_recovery : (s.tableRemove h t).recovery = s.recovery := by
  rw [tableRemove_eq]
@[simp] theorem tableRemove_rstate : (s.tableRemove h t).rstate = s.rstate := by
  rw [tableRemove_eq]
@[simp] theorem tableRemove_redirectPending : (s.tableRemove h t).redirectPending = s.redirectPending := by
  rw [tableRemove_eq]
@[simp] theorem tableRemove_status : (s.tableRemove h t).status = s.status := by
  rw [tableRemove_eq]
@[simp] theorem tableRemove_retiredCount : (s.tableRemove h t).retiredCount = s.retiredCount := by
  rw [tableRemove_eq]
@[simp] theorem tableRemove_lastRetireCycle : (s.tableRemove h t).lastRetireCycle = s.lastRetireCycle := by
  rw [tableRemove_eq]
@[simp] theorem tableRemove_seqNext : (s.tableRemove h t).seqNext = s.seqNext := by
  rw [tableRemove_eq]
@[simp] theorem tableRemove_mem : (s.tableRemove h t).mem = s.mem := by
  rw [tableRemove_eq]
@[simp] theorem tableRemove_log : (s.tableRemove h t).log = s.log := by
  rw [tableRemove_eq]
@[simp] theorem tableRemove_lastMatch : (s.tableRemove h t).lastMatch = s.lastMatch := by
  rw [tableRemove_eq]
@[simp] theorem tableRemove_predictCalls : (s.tableRemove h t).predictCalls = s.predictCalls := by
  rw [tableRemove_eq]
@[simp] theorem tableRemove_method : (s.tableRemove h t).method = s.method := by
  rw [tableRemove_eq]
@[simp] theorem tableRemove_ratOf (c' x' : Nat) :
    (s.tableRemove h t).ratOf c' x' = s.ratOf c' x' :=
  State.ratOf_of _ _ (by simp) c' x'
@[simp] theorem tableRemove_prfOf (c' x' : Nat) :
    (s.tableRemove h t).prfOf c' x' = s.prfOf c' x' :=
  State.prfOf_of _ _ (by simp) c' x'
@[simp] theorem tableRemove_freeOf (c' x' : Nat) :
    (s.tableRemove h t).freeOf c' x' = s.freeOf c' x' :=
  State.freeOf_of _ _ (by simp) c' x'
@[simp] theorem tableRemove_validOf (c' x' : Nat) :
    (s.tableRemove h t).validOf c' x' = s.validOf c' x' :=
  State.validOf_of _ _ (by simp) c' x'
@[simp] theorem tableRemove_uop? (g : Handle) :
    (s.tableRemove h t).uop? g = s.uop? g :=
  State.uop?_of _ _ (by simp) g
@[simp] theorem tableRemove_station (k' : FuClass) (j' : Nat) :
    (s.tableRemove h t).station k' j' = s.station k' j' :=
  State.station_of _ _ (by simp) k' j'
@[simp] theorem tableRemove_robAt (j' : Nat) : (s.tableRemove h t).robAt j' = s.robAt j' :=
  State.robAt_of _ _ (by simp) (by simp) (by simp) j'
@[simp] theorem tableRemove_robList : (s.tableRemove h t).robList = s.robList :=
  State.robList_of _ _ (by simp) (by simp) (by simp) (by simp)
end

/-- What a pass over records writes: the arena only, if every pass does. -/
theorem forEach_arena {f : Handle → State → Out}
    (hf : ∀ h s t, f h s = .next t → t = { s with arena := t.arena }) :
    ∀ (l : List Handle) {s t : State}, forEach f l s = .next t → t = { s with arena := t.arena }
  | [], _, _, h => by simp at h; subst h; rfl
  | a :: as, s, t, h => by
    obtain ⟨s1, h1, h2⟩ := andThen_eq_next.mp h
    have e1 := hf _ _ _ h1
    have e2 := forEach_arena hf as h2
    rw [e1] at e2
    exact e2.trans rfl

/-- `OrderingCheck` writes records only. -/
theorem orderingCheck_eq {u : Uop} {s t : State} (h : orderingCheck u s = .next t) :
    t = { s with arena := t.arena } := by
  refine forEach_arena (fun l s t ht => ?_) _ h
  obtain ⟨v, _, ht⟩ := withUop_eq_next.mp ht
  simp only [Host.Outcome.next.injEq] at ht
  subst ht
  split <;> rfl

/-- What retire does to memory and the tables writes these and records only. -/
theorem commitMemory_eq {tbl : LsTable} {h : Handle} {u : Uop} {s t : State}
    (ht : commitMemory tbl h u s = .next t) :
    t = { s with arena := t.arena, mem := t.mem, lq := t.lq, sq := t.sq } := by
  cases tbl with
  | neither => simp [commitMemory] at ht; subst ht; rfl
  | loads => simp [commitMemory] at ht; subst ht; rfl
  | stores =>
    obtain ⟨s1, h1, h2⟩ := andThen_eq_next.mp ht
    have e := orderingCheck_eq h1
    simp only [Host.Outcome.next.injEq] at h2
    subst h2
    rw [e]; rfl

/-- `Flush` writes the queues, the stations, the tables, the pending target, records and the log
only. -/
theorem flush_eq {s t : State} (h : flush s = .next t) :
    t = { s with
      arena := t.arena
      log := t.log
      fq := []
      dq := []
      rs := t.rs
      lq := []
      sq := []
      pendingTarget := none } := by
  obtain ⟨s1, h1, h2⟩ := andThen_eq_next.mp h
  obtain ⟨s2, h3, h4⟩ := andThen_eq_next.mp h2
  have e1 : s1 = { s with arena := s1.arena, log := s1.log } := by
    refine forEach_rel (R := fun a b => b = { a with arena := b.arena, log := b.log })
      (fun _ => rfl) (fun a b c hab hbc => ?_) (fun a s t ht => ?_) _ h1
    · rw [hab] at hbc; exact hbc.trans rfl
    · obtain ⟨v, _, ht⟩ := withUop_eq_next.mp ht
      simp only [Host.Outcome.next.injEq] at ht
      subst ht; rfl
  have e2 : s2 = { s1 with arena := s2.arena } := by
    refine forEach_arena (fun l s t ht => ?_) _ h3
    obtain ⟨v, _, ht⟩ := withUop_eq_next.mp ht
    simp only [Host.Outcome.next.injEq] at ht
    subst ht; rfl
  simp only [Host.Outcome.next.injEq] at h4
  subst h4
  rw [e1] at e2
  rw [e2]; rfl

/-- Taking a speculative exception writes what `Flush` writes, the recovery state and the log. -/
theorem enterRecovery_eq {kind : ExcKind} {carrier target : Pc} {s t : State}
    (h : enterRecovery kind carrier target s = .next t) :
    t = { s with
      arena := t.arena
      log := t.log
      fq := []
      dq := []
      rs := t.rs
      lq := []
      sq := []
      pendingTarget := none
      recovery := true
      redirectPending := some target
      rstate := .unwind } := by
  obtain ⟨s1, h1, h2⟩ := andThen_eq_next.mp h
  have e := flush_eq h1
  simp only [Host.Outcome.next.injEq] at h2
  subst h2
  rw [e]; rfl

section
variable {u : Uop} {s t : State}
theorem orderingCheck_cfg (ht : orderingCheck u s = .next t) :
    t.cfg = s.cfg := by
  rw [orderingCheck_eq ht]
theorem orderingCheck_cycle (ht : orderingCheck u s = .next t) :
    t.cycle = s.cycle := by
  rw [orderingCheck_eq ht]
theorem orderingCheck_rat (ht : orderingCheck u s = .next t) :
    t.rat = s.rat := by
  rw [orderingCheck_eq ht]
theorem orderingCheck_prf (ht : orderingCheck u s = .next t) :
    t.prf = s.prf := by
  rw [orderingCheck_eq ht]
theorem orderingCheck_free (ht : orderingCheck u s = .next t) :
    t.free = s.free := by
  rw [orderingCheck_eq ht]
theorem orderingCheck_valid (ht : orderingCheck u s = .next t) :
    t.valid = s.valid := by
  rw [orderingCheck_eq ht]
theorem orderingCheck_robSlots (ht : orderingCheck u s = .next t) :
    t.robSlots = s.robSlots := by
  rw [orderingCheck_eq ht]
theorem orderingCheck_robHead (ht : orderingCheck u s = .next t) :
    t.robHead = s.robHead := by
  rw [orderingCheck_eq ht]
theorem orderingCheck_robTail (ht : orderingCheck u s = .next t) :
    t.robTail = s.robTail := by
  rw [orderingCheck_eq ht]
theorem orderingCheck_robCount (ht : orderingCheck u s = .next t) :
    t.robCount = s.robCount := by
  rw [orderingCheck_eq ht]
theorem orderingCheck_rs (ht : orderingCheck u s = .next t) :
    t.rs = s.rs := by
  rw [orderingCheck_eq ht]
theorem orderingCheck_rr (ht : orderingCheck u s = .next t) :
    t.rr = s.rr := by
  rw [orderingCheck_eq ht]
theorem orderingCheck_lq (ht : orderingCheck u s = .next t) :
    t.lq = s.lq := by
  rw [orderingCheck_eq ht]
theorem orderingCheck_sq (ht : orderingCheck u s = .next t) :
    t.sq = s.sq := by
  rw [orderingCheck_eq ht]
theorem orderingCheck_fq (ht : orderingCheck u s = .next t) :
    t.fq = s.fq := by
  rw [orderingCheck_eq ht]
theorem orderingCheck_dq (ht : orderingCheck u s = .next t) :
    t.dq = s.dq := by
  rw [orderingCheck_eq ht]
theorem orderingCheck_fetchPc (ht : orderingCheck u s = .next t) :
    t.fetchPc = s.fetchPc := by
  rw [orderingCheck_eq ht]
theorem orderingCheck_pendingTarget (ht : orderingCheck u s = .next t) :
    t.pendingTarget = s.pendingTarget := by
  rw [orderingCheck_eq ht]
theorem orderingCheck_recovery (ht : orderingCheck u s = .next t) :
    t.recovery = s.recovery := by
  rw [orderingCheck_eq ht]
theorem orderingCheck_rstate (ht : orderingCheck u s = .next t) :
    t.rstate = s.rstate := by
  rw [orderingCheck_eq ht]
theorem orderingCheck_redirectPending (ht : orderingCheck u s = .next t) :
    t.redirectPending = s.redirectPending := by
  rw [orderingCheck_eq ht]
theorem orderingCheck_status (ht : orderingCheck u s = .next t) :
    t.status = s.status := by
  rw [orderingCheck_eq ht]
theorem orderingCheck_retiredCount (ht : orderingCheck u s = .next t) :
    t.retiredCount = s.retiredCount := by
  rw [orderingCheck_eq ht]
theorem orderingCheck_lastRetireCycle (ht : orderingCheck u s = .next t) :
    t.lastRetireCycle = s.lastRetireCycle := by
  rw [orderingCheck_eq ht]
theorem orderingCheck_seqNext (ht : orderingCheck u s = .next t) :
    t.seqNext = s.seqNext := by
  rw [orderingCheck_eq ht]
theorem orderingCheck_mem (ht : orderingCheck u s = .next t) :
    t.mem = s.mem := by
  rw [orderingCheck_eq ht]
theorem orderingCheck_log (ht : orderingCheck u s = .next t) :
    t.log = s.log := by
  rw [orderingCheck_eq ht]
theorem orderingCheck_lastMatch (ht : orderingCheck u s = .next t) :
    t.lastMatch = s.lastMatch := by
  rw [orderingCheck_eq ht]
theorem orderingCheck_predictCalls (ht : orderingCheck u s = .next t) :
    t.predictCalls = s.predictCalls := by
  rw [orderingCheck_eq ht]
theorem orderingCheck_method (ht : orderingCheck u s = .next t) :
    t.method = s.method := by
  rw [orderingCheck_eq ht]
end

section
variable {tbl : LsTable} {h : Handle} {u : Uop} {s t : State}
theorem commitMemory_cfg (ht : commitMemory tbl h u s = .next t) :
    t.cfg = s.cfg := by
  rw [commitMemory_eq ht]
theorem commitMemory_cycle (ht : commitMemory tbl h u s = .next t) :
    t.cycle = s.cycle := by
  rw [commitMemory_eq ht]
theorem commitMemory_rat (ht : commitMemory tbl h u s = .next t) :
    t.rat = s.rat := by
  rw [commitMemory_eq ht]
theorem commitMemory_prf (ht : commitMemory tbl h u s = .next t) :
    t.prf = s.prf := by
  rw [commitMemory_eq ht]
theorem commitMemory_free (ht : commitMemory tbl h u s = .next t) :
    t.free = s.free := by
  rw [commitMemory_eq ht]
theorem commitMemory_valid (ht : commitMemory tbl h u s = .next t) :
    t.valid = s.valid := by
  rw [commitMemory_eq ht]
theorem commitMemory_robSlots (ht : commitMemory tbl h u s = .next t) :
    t.robSlots = s.robSlots := by
  rw [commitMemory_eq ht]
theorem commitMemory_robHead (ht : commitMemory tbl h u s = .next t) :
    t.robHead = s.robHead := by
  rw [commitMemory_eq ht]
theorem commitMemory_robTail (ht : commitMemory tbl h u s = .next t) :
    t.robTail = s.robTail := by
  rw [commitMemory_eq ht]
theorem commitMemory_robCount (ht : commitMemory tbl h u s = .next t) :
    t.robCount = s.robCount := by
  rw [commitMemory_eq ht]
theorem commitMemory_rs (ht : commitMemory tbl h u s = .next t) :
    t.rs = s.rs := by
  rw [commitMemory_eq ht]
theorem commitMemory_rr (ht : commitMemory tbl h u s = .next t) :
    t.rr = s.rr := by
  rw [commitMemory_eq ht]
theorem commitMemory_fq (ht : commitMemory tbl h u s = .next t) :
    t.fq = s.fq := by
  rw [commitMemory_eq ht]
theorem commitMemory_dq (ht : commitMemory tbl h u s = .next t) :
    t.dq = s.dq := by
  rw [commitMemory_eq ht]
theorem commitMemory_fetchPc (ht : commitMemory tbl h u s = .next t) :
    t.fetchPc = s.fetchPc := by
  rw [commitMemory_eq ht]
theorem commitMemory_pendingTarget (ht : commitMemory tbl h u s = .next t) :
    t.pendingTarget = s.pendingTarget := by
  rw [commitMemory_eq ht]
theorem commitMemory_recovery (ht : commitMemory tbl h u s = .next t) :
    t.recovery = s.recovery := by
  rw [commitMemory_eq ht]
theorem commitMemory_rstate (ht : commitMemory tbl h u s = .next t) :
    t.rstate = s.rstate := by
  rw [commitMemory_eq ht]
theorem commitMemory_redirectPending (ht : commitMemory tbl h u s = .next t) :
    t.redirectPending = s.redirectPending := by
  rw [commitMemory_eq ht]
theorem commitMemory_status (ht : commitMemory tbl h u s = .next t) :
    t.status = s.status := by
  rw [commitMemory_eq ht]
theorem commitMemory_retiredCount (ht : commitMemory tbl h u s = .next t) :
    t.retiredCount = s.retiredCount := by
  rw [commitMemory_eq ht]
theorem commitMemory_lastRetireCycle (ht : commitMemory tbl h u s = .next t) :
    t.lastRetireCycle = s.lastRetireCycle := by
  rw [commitMemory_eq ht]
theorem commitMemory_seqNext (ht : commitMemory tbl h u s = .next t) :
    t.seqNext = s.seqNext := by
  rw [commitMemory_eq ht]
theorem commitMemory_log (ht : commitMemory tbl h u s = .next t) :
    t.log = s.log := by
  rw [commitMemory_eq ht]
theorem commitMemory_lastMatch (ht : commitMemory tbl h u s = .next t) :
    t.lastMatch = s.lastMatch := by
  rw [commitMemory_eq ht]
theorem commitMemory_predictCalls (ht : commitMemory tbl h u s = .next t) :
    t.predictCalls = s.predictCalls := by
  rw [commitMemory_eq ht]
theorem commitMemory_method (ht : commitMemory tbl h u s = .next t) :
    t.method = s.method := by
  rw [commitMemory_eq ht]
end

section
variable  {s t : State}
theorem flush_cfg (ht : flush s = .next t) :
    t.cfg = s.cfg := by
  rw [flush_eq ht]
theorem flush_cycle (ht : flush s = .next t) :
    t.cycle = s.cycle := by
  rw [flush_eq ht]
theorem flush_rat (ht : flush s = .next t) :
    t.rat = s.rat := by
  rw [flush_eq ht]
theorem flush_prf (ht : flush s = .next t) :
    t.prf = s.prf := by
  rw [flush_eq ht]
theorem flush_free (ht : flush s = .next t) :
    t.free = s.free := by
  rw [flush_eq ht]
theorem flush_valid (ht : flush s = .next t) :
    t.valid = s.valid := by
  rw [flush_eq ht]
theorem flush_robSlots (ht : flush s = .next t) :
    t.robSlots = s.robSlots := by
  rw [flush_eq ht]
theorem flush_robHead (ht : flush s = .next t) :
    t.robHead = s.robHead := by
  rw [flush_eq ht]
theorem flush_robTail (ht : flush s = .next t) :
    t.robTail = s.robTail := by
  rw [flush_eq ht]
theorem flush_robCount (ht : flush s = .next t) :
    t.robCount = s.robCount := by
  rw [flush_eq ht]
theorem flush_rr (ht : flush s = .next t) :
    t.rr = s.rr := by
  rw [flush_eq ht]
theorem flush_fetchPc (ht : flush s = .next t) :
    t.fetchPc = s.fetchPc := by
  rw [flush_eq ht]
theorem flush_recovery (ht : flush s = .next t) :
    t.recovery = s.recovery := by
  rw [flush_eq ht]
theorem flush_rstate (ht : flush s = .next t) :
    t.rstate = s.rstate := by
  rw [flush_eq ht]
theorem flush_redirectPending (ht : flush s = .next t) :
    t.redirectPending = s.redirectPending := by
  rw [flush_eq ht]
theorem flush_status (ht : flush s = .next t) :
    t.status = s.status := by
  rw [flush_eq ht]
theorem flush_retiredCount (ht : flush s = .next t) :
    t.retiredCount = s.retiredCount := by
  rw [flush_eq ht]
theorem flush_lastRetireCycle (ht : flush s = .next t) :
    t.lastRetireCycle = s.lastRetireCycle := by
  rw [flush_eq ht]
theorem flush_seqNext (ht : flush s = .next t) :
    t.seqNext = s.seqNext := by
  rw [flush_eq ht]
theorem flush_mem (ht : flush s = .next t) :
    t.mem = s.mem := by
  rw [flush_eq ht]
theorem flush_lastMatch (ht : flush s = .next t) :
    t.lastMatch = s.lastMatch := by
  rw [flush_eq ht]
theorem flush_predictCalls (ht : flush s = .next t) :
    t.predictCalls = s.predictCalls := by
  rw [flush_eq ht]
theorem flush_method (ht : flush s = .next t) :
    t.method = s.method := by
  rw [flush_eq ht]
end

section
variable {kind : ExcKind} {carrier target : Pc} {s t : State}
theorem enterRecovery_cfg (ht : enterRecovery kind carrier target s = .next t) :
    t.cfg = s.cfg := by
  rw [enterRecovery_eq ht]
theorem enterRecovery_cycle (ht : enterRecovery kind carrier target s = .next t) :
    t.cycle = s.cycle := by
  rw [enterRecovery_eq ht]
theorem enterRecovery_rat (ht : enterRecovery kind carrier target s = .next t) :
    t.rat = s.rat := by
  rw [enterRecovery_eq ht]
theorem enterRecovery_prf (ht : enterRecovery kind carrier target s = .next t) :
    t.prf = s.prf := by
  rw [enterRecovery_eq ht]
theorem enterRecovery_free (ht : enterRecovery kind carrier target s = .next t) :
    t.free = s.free := by
  rw [enterRecovery_eq ht]
theorem enterRecovery_valid (ht : enterRecovery kind carrier target s = .next t) :
    t.valid = s.valid := by
  rw [enterRecovery_eq ht]
theorem enterRecovery_robSlots (ht : enterRecovery kind carrier target s = .next t) :
    t.robSlots = s.robSlots := by
  rw [enterRecovery_eq ht]
theorem enterRecovery_robHead (ht : enterRecovery kind carrier target s = .next t) :
    t.robHead = s.robHead := by
  rw [enterRecovery_eq ht]
theorem enterRecovery_robTail (ht : enterRecovery kind carrier target s = .next t) :
    t.robTail = s.robTail := by
  rw [enterRecovery_eq ht]
theorem enterRecovery_robCount (ht : enterRecovery kind carrier target s = .next t) :
    t.robCount = s.robCount := by
  rw [enterRecovery_eq ht]
theorem enterRecovery_rr (ht : enterRecovery kind carrier target s = .next t) :
    t.rr = s.rr := by
  rw [enterRecovery_eq ht]
theorem enterRecovery_fetchPc (ht : enterRecovery kind carrier target s = .next t) :
    t.fetchPc = s.fetchPc := by
  rw [enterRecovery_eq ht]
theorem enterRecovery_status (ht : enterRecovery kind carrier target s = .next t) :
    t.status = s.status := by
  rw [enterRecovery_eq ht]
theorem enterRecovery_retiredCount (ht : enterRecovery kind carrier target s = .next t) :
    t.retiredCount = s.retiredCount := by
  rw [enterRecovery_eq ht]
theorem enterRecovery_lastRetireCycle (ht : enterRecovery kind carrier target s = .next t) :
    t.lastRetireCycle = s.lastRetireCycle := by
  rw [enterRecovery_eq ht]
theorem enterRecovery_seqNext (ht : enterRecovery kind carrier target s = .next t) :
    t.seqNext = s.seqNext := by
  rw [enterRecovery_eq ht]
theorem enterRecovery_mem (ht : enterRecovery kind carrier target s = .next t) :
    t.mem = s.mem := by
  rw [enterRecovery_eq ht]
theorem enterRecovery_lastMatch (ht : enterRecovery kind carrier target s = .next t) :
    t.lastMatch = s.lastMatch := by
  rw [enterRecovery_eq ht]
theorem enterRecovery_predictCalls (ht : enterRecovery kind carrier target s = .next t) :
    t.predictCalls = s.predictCalls := by
  rw [enterRecovery_eq ht]
theorem enterRecovery_method (ht : enterRecovery kind carrier target s = .next t) :
    t.method = s.method := by
  rw [enterRecovery_eq ht]
end

end Sys2Proof.Machine
end

