-- ==== Sys2Proof/Laws/Memory.lean ====
section
/-!
SUPPORT. Memory: a write is read back and leaves every other byte alone, and every memory operation
keeps the canonical form.
-/

namespace Sys2Proof.Machine

/-- In a canonical memory no address below the first entry is listed. -/
theorem memByte_below : ∀ (m : Memory) (k : Nat) (v : Byte) (a : Nat),
    Memory.wf ((k, v) :: m) = true → a < k → memByte m a = unlistedByte
  | [], _, _, _, _, _ => rfl
  | (k', v') :: m, k, v, a, h, ha => by
    simp only [Memory.wf, Bool.and_eq_true, decide_eq_true_eq] at h
    have hk : k < k' := h.1.2
    have : ¬ k' = a := by omega
    simp only [memByte, this, if_false]
    exact memByte_below m k' v' a (by simpa [Memory.wf] using h.2) (by omega)

/-- In a canonical memory the address of the first entry is not listed again. -/
theorem memByte_head (m : Memory) (k : Nat) (v : Byte) (h : Memory.wf ((k, v) :: m) = true) :
    memByte m k = unlistedByte := by
  cases m with
  | nil => rfl
  | cons e m =>
    obtain ⟨k', v'⟩ := e
    simp only [Memory.wf, Bool.and_eq_true, decide_eq_true_eq] at h
    have hk : k < k' := h.1.2
    have : ¬ k' = k := by omega
    simp only [memByte, this, if_false]
    exact memByte_below m k' v' k (by simpa [Memory.wf] using h.2) hk

theorem Memory.wf_tail {e : Host.Cell} {m : Memory} (h : Memory.wf (e :: m) = true) :
    Memory.wf m = true := by
  obtain ⟨k, v⟩ := e
  simp only [Memory.wf, Bool.and_eq_true] at h
  exact h.2

/-- A byte written is read back, and every other byte reads as before. -/
theorem memByte_memSet : ∀ (m : Memory) (a : Nat) (b : Byte) (x : Nat), Memory.wf m = true →
    memByte (memSet m a b) x = if x = a then b else memByte m x
  | [], a, b, x, _ => by
    by_cases hb : b = unlistedByte <;> by_cases hx : x = a <;> simp_all [memSet, memByte]
    intro h; exact absurd h.symm hx
  | (k, v) :: m, a, b, x, h => by
    have ih := memByte_memSet m a b x (Memory.wf_tail h)
    by_cases hak : a < k
    · by_cases hb : b = unlistedByte
      · by_cases hx : x = a
        · subst hx
          have hne : ¬ k = x := by omega
          simp [memSet, hak, hb, memByte, hne, memByte_below m k v x h hak]
        · simp [memSet, hak, hb, hx]
      · by_cases hx : x = a
        · subst hx; simp [memSet, hak, hb, memByte]
        · have : ¬ a = x := fun e => hx e.symm
          simp [memSet, hak, hb, memByte, hx, this]
    · by_cases heq : a = k
      · subst heq
        by_cases hb : b = unlistedByte
        · by_cases hx : x = a
          · subst hx; simp [memSet, hb, memByte_head m x v h]
          · have : ¬ a = x := fun e => hx e.symm
            simp [memSet, hb, memByte, hx, this]
        · by_cases hx : x = a
          · subst hx; simp [memSet, hb, memByte]
          · have : ¬ a = x := fun e => hx e.symm
            simp [memSet, hb, memByte, hx, this]
      · have hka : ¬ k = a := fun e => heq e.symm
        by_cases hx : x = a
        · subst hx
          simp only [memSet, hak, heq, if_false, memByte, hka, ih, if_true]
        · simp only [memSet, hak, heq, if_false, memByte, ih, hx]

/-- Canonical form, one entry at a time. -/
theorem Memory.wf_cons (k : Nat) (v : Byte) (m : Memory) :
    Memory.wf ((k, v) :: m) = true ↔
      v ≠ unlistedByte ∧ k < 2 ^ 32 ∧ (∀ e ∈ m.head?, k < e.1) ∧ Memory.wf m = true := by
  cases m with
  | nil => simp [Memory.wf]
  | cons e m => simp [Memory.wf]; tauto

/-- Writing a byte above `j` lists nothing at or below `j`. -/
theorem memSet_head (m : Memory) (a : Nat) (b : Byte) (j : Nat) (hj : j < a) (hw : Memory.wf m = true)
    (hm : ∀ e ∈ m.head?, j < e.1) : ∀ e ∈ (memSet m a b).head?, j < e.1 := by
  intro e he
  cases m with
  | nil =>
    by_cases hb : b = unlistedByte <;> simp [memSet, hb] at he
    subst he; exact hj
  | cons c m =>
    obtain ⟨k, v⟩ := c
    have hk : j < k := hm (k, v) (by simp)
    obtain ⟨_, _, hh, _⟩ := (Memory.wf_cons k v m).mp hw
    by_cases hak : a < k
    · by_cases hb : b = unlistedByte <;> simp [memSet, hak, hb] at he <;> subst he <;> assumption
    · by_cases heq : a = k
      · subst heq
        by_cases hb : b = unlistedByte
        · simp [memSet, hb] at he
          exact lt_trans hj (hh e he)
        · simp [memSet, hb] at he; subst he; exact hk
      · simp [memSet, hak, heq] at he; subst he; exact hk

/-- Writing a byte keeps the canonical form. -/
theorem memSet_wf : ∀ (m : Memory) (a : Nat) (b : Byte), a < 2 ^ 32 → Memory.wf m = true →
    Memory.wf (memSet m a b) = true
  | [], a, b, ha, _ => by
    by_cases hb : b = unlistedByte
    · simp [memSet, hb, Memory.wf]
    · simp only [memSet, hb, if_false]
      exact (Memory.wf_cons a b []).mpr ⟨hb, ha, by simp, rfl⟩
  | (k, v) :: m, a, b, ha, h => by
    obtain ⟨hv, hk, hh, hw⟩ := (Memory.wf_cons k v m).mp h
    have ih := memSet_wf m a b ha hw
    by_cases hak : a < k
    · by_cases hb : b = unlistedByte
      · simpa [memSet, hak, hb] using h
      · simp only [memSet, hak, hb, if_true, if_false]
        exact (Memory.wf_cons a b _).mpr ⟨hb, ha, by simpa using hak, h⟩
    · by_cases heq : a = k
      · subst heq
        by_cases hb : b = unlistedByte
        · simpa [memSet, hb] using hw
        · simp only [memSet, hb, lt_irrefl, if_false, if_true]
          exact (Memory.wf_cons a b m).mpr ⟨hb, ha, hh, hw⟩
      · have hka : k < a := by omega
        simp only [memSet, hak, heq, if_false]
        exact (Memory.wf_cons k v _).mpr ⟨hv, hk, memSet_head m a b k hka hw hh, ih⟩

/-- Writing bytes keeps the canonical form. -/
theorem memSetBytes_wf : ∀ (bs : List Byte) (m : Memory) (a : Addr), Memory.wf m = true →
    Memory.wf (memSetBytes m a bs) = true
  | [], _, _, h => h
  | b :: bs, m, a, h => memSetBytes_wf bs _ _ (memSet_wf m a.toNat b a.isLt h)

/-- `MemWrite` keeps the canonical form. -/
theorem memWrite_wf (e : Endian) (m : Memory) (a : Addr) (n : MemSize) (v : BitVec 64)
    (h : Memory.wf m = true) : Memory.wf (memWrite e m a n v) = true :=
  memSetBytes_wf _ m a h

/-- The memory of a reset lists nothing and is canonical. -/
theorem reset_mem_wf : Memory.wf State.reset.mem = true := rfl

/-- Bytes written at rising addresses: the first byte stands at the first address, if the bytes do
not wrap all the way round. -/
theorem memByte_memSetBytes_other : ∀ (bs : List Byte) (m : Memory) (a : Addr) (x : Nat),
    Memory.wf m = true → (∀ k < bs.length, x ≠ (a + BitVec.ofNat 32 k).toNat) →
    memByte (memSetBytes m a bs) x = memByte m x
  | [], _, _, _, _, _ => rfl
  | b :: bs, m, a, x, h, hx => by
    have h0 : x ≠ a.toNat := by simpa using hx 0 (by simp)
    have hrest : ∀ k < bs.length, x ≠ (a + 1 + BitVec.ofNat 32 k).toNat := by
      intro k hk
      have := hx (k + 1) (by simp; omega)
      have e : a + 1 + BitVec.ofNat 32 k = a + BitVec.ofNat 32 (k + 1) := by
        rw [BitVec.add_assoc]; congr 1
        apply BitVec.eq_of_toNat_eq; simp [Nat.add_comm]
      rwa [e]
    rw [memSetBytes, memByte_memSetBytes_other bs _ _ x (memSet_wf m _ b a.isLt h) hrest,
      memByte_memSet m _ b x h, if_neg h0]

/-- Bytes written at rising addresses are read back, as long as they do not lap the address space. -/
theorem memByte_memSetBytes : ∀ (bs : List Byte) (m : Memory) (a : Addr) (k : Nat),
    Memory.wf m = true → bs.length ≤ 2 ^ 32 → (hk : k < bs.length) →
    memByte (memSetBytes m a bs) (a + BitVec.ofNat 32 k).toNat = bs[k]
  | b :: bs, m, a, 0, h, hl, _ => by
    have hs := memSet_wf m a.toNat b a.isLt h
    have hl' : bs.length + 1 ≤ 2 ^ 32 := by simpa using hl
    rw [memSetBytes, memByte_memSetBytes_other bs _ _ _ hs]
    · simp [memByte_memSet m a.toNat b _ h]
    · intro k hk he
      have := congrArg (BitVec.ofNat 32) he
      have h2 : a + BitVec.ofNat 32 0 = a + 1 + BitVec.ofNat 32 k := by
        apply BitVec.eq_of_toNat_eq; exact he
      have h3 : (a + BitVec.ofNat 32 0).toNat = (a + 1 + BitVec.ofNat 32 k).toNat := congrArg _ h2
      simp [BitVec.toNat_add] at h3
      have := a.isLt
      omega
  | b :: bs, m, a, k + 1, h, hl, hk => by
    have hs := memSet_wf m a.toNat b a.isLt h
    have e : a + BitVec.ofNat 32 (k + 1) = a + 1 + BitVec.ofNat 32 k := by
      rw [BitVec.add_assoc]; congr 1
      apply BitVec.eq_of_toNat_eq; simp [Nat.add_comm]
    have hl' : bs.length ≤ 2 ^ 32 := by simp at hl; omega
    rw [memSetBytes, e, memByte_memSetBytes bs _ _ k hs hl' (by simpa using hk)]
    simp

@[simp] theorem length_toBytesLE : ∀ (d n : Nat), (toBytesLE d n).length = n
  | _, 0 => rfl
  | d, n + 1 => by simp [toBytesLE, length_toBytesLE]

@[simp] theorem length_toBytes (e : Endian) (d n : Nat) : (toBytes e d n).length = n := by
  cases e <;> simp [toBytes]

/-- The number the low bytes of a number hold. -/
theorem ofBytesLE_toBytesLE : ∀ (n d : Nat), ofBytesLE (toBytesLE d n) = d % 2 ^ (8 * n)
  | 0, d => by simp [toBytesLE, ofBytesLE, Nat.mod_one]
  | n + 1, d => by
    have : 2 ^ (8 * (n + 1)) = 256 * 2 ^ (8 * n) := by rw [Nat.mul_add, Nat.pow_add]; ring
    simp only [toBytesLE, ofBytesLE, ofBytesLE_toBytesLE n (d / 256), BitVec.toNat_ofNat, this,
      Nat.mod_mul]

/-- The byte order cancels. -/
theorem ofBytes_toBytes (e : Endian) (d n : Nat) : ofBytes e (toBytes e d n) = d % 2 ^ (8 * n) := by
  cases e <;> simp [ofBytes, toBytes, ofBytesLE_toBytesLE]

theorem MemSize.bytes_le (n : MemSize) : n.bytes ≤ 8 := by cases n <;> decide

end Sys2Proof.Machine
end

