-- ==== Sys2Proof/Laws/Methods.lean ====
section
/-!
SUPPORT. What each method of the Operation contract can answer, once, and which method each meaning
calls.
-/

namespace Sys2Proof.Machine

/-- What a category's `Exec` reads from memory. -/
def dataOf : Category → State → ExecResult → BitVec 64
  | .load => loadData
  | _ => noData

/-- What execution notes in the record of a micro-op. -/
def noteOf : Instr → ExecResult → Uop → Uop
  | .branch ds _ => noteCti ds
  | .jump ds _ => noteCti ds
  | .load _ => noteLoad
  | .store _ => noteStore
  | _ => notePlain

/-- Every meaning is a choice of one method by the field `method`. -/
theorem exec_eq (i : Instr) (s : State) :
    exec i s = match s.method with
      | .allocate => allocateOp i.category.fu i.category.lsTable i.operands s
      | .execute h => executeOp (dataOf i.category) (noteOf i) h s
      | .complete h => completeOp h s
      | .retire => retireOp i.category.lsTable s
      | .rollback => undoOp s := by
  cases i <;> rfl

theorem exec_allocate (i : Instr) (s : State) (h : s.method = .allocate) :
    exec i s = allocateOp i.category.fu i.category.lsTable i.operands s := by rw [exec_eq, h]

theorem exec_execute (i : Instr) (s : State) (g : Handle) (h : s.method = .execute g) :
    exec i s = executeOp (dataOf i.category) (noteOf i) g s := by rw [exec_eq, h]

theorem exec_complete (i : Instr) (s : State) (g : Handle) (h : s.method = .complete g) :
    exec i s = completeOp g s := by rw [exec_eq, h]

theorem exec_retire (i : Instr) (s : State) (h : s.method = .retire) :
    exec i s = retireOp i.category.lsTable s := by rw [exec_eq, h]

theorem exec_rollback (i : Instr) (s : State) (h : s.method = .rollback) :
    exec i s = undoOp s := by rw [exec_eq, h]

/-- What allocate can answer: the head of the decode queue waits, or is placed whole. -/
theorem allocateOp_eq_next {k : FuClass} {tbl : LsTable} {o : Operands} {s t : State} :
    allocateOp k tbl o s = .next t ↔ ∃ h rest u, s.dq = h :: rest ∧ s.uop? h = some u ∧
      ((s.placement k tbl o u = none ∧ t = s) ∨
        ∃ i, s.placement k tbl o u = some i ∧ t = s.place k tbl o h u i) := by
  unfold allocateOp
  cases hd : s.dq with
  | nil => simp
  | cons h rest =>
    rw [withUop_eq_next]
    constructor
    · rintro ⟨u, hu, ht⟩
      refine ⟨h, rest, u, rfl, hu, ?_⟩
      cases hp : s.placement k tbl o u with
      | none => simp [hp] at ht; simp [ht]
      | some i => simp [hp] at ht; simp [ht]
    · rintro ⟨h', rest', u, he, hu, hp⟩
      simp only [List.cons.injEq] at he
      obtain ⟨rfl, rfl⟩ := he
      refine ⟨u, hu, ?_⟩
      rcases hp with ⟨hp, rfl⟩ | ⟨i, hp, rfl⟩ <;> simp [hp]

/-- Where a micro-op is placed: it has aged, the ROB and the table have room, every destination can
be renamed, and its station is the one the port arbiter selects. -/
theorem placement_eq_some {s : State} {k : FuClass} {tbl : LsTable} {o : Operands} {u : Uop} {i : Nat} :
    s.placement k tbl o u = some i ↔ before u.tDecode s.cycle = true ∧ s.robCount ≠ s.cfg.robN ∧
      s.canRename o.dst = true ∧ s.tableFull tbl = false ∧ s.selectStation k = some i := by
  unfold State.placement
  split
  · rename_i h; simp [h]
  · rename_i h
    constructor
    · intro h'; cases h'
    · rintro ⟨h1, h2, h3, h4, _⟩; exact absurd ⟨h1, h2, h3, h4⟩ h

/-- The selected station exists and has room. -/
theorem selectStation_eq_some {s : State} {k : FuClass} {i : Nat} (h : s.selectStation k = some i) :
    i < s.cfg.ns k ∧ (s.station k i).length < (s.cfg.port k i).cap := by
  unfold State.selectStation at h
  have h1 := List.find?_some h
  have h2 := List.mem_of_find?_eq_some h
  simp only [List.mem_map, List.mem_range] at h2
  obtain ⟨t, ht, rfl⟩ := h2
  exact ⟨Nat.mod_lt _ (by omega), by simpa using h1⟩

/-- What execute answers. -/
theorem executeOp_eq_next {data : State → ExecResult → BitVec 64} {note : ExecResult → Uop → Uop}
    {h : Handle} {s t : State} :
    executeOp data note h s = .next t ↔ ∃ u, s.uop? h = some u ∧
      t = (writeDests (s.leaveStation h u.station) 0 u.dst fun j =>
          (Config.exec u.view (s.sourceValues u)).value j
            (data s (Config.exec u.view (s.sourceValues u)))).setUop h
        { (u.issued s.cycle).computed note (Config.exec u.view (s.sourceValues u)) with
          tDue := some (s.cycle + Config.lat ((u.issued s.cycle).computed note
            (Config.exec u.view (s.sourceValues u)))) } := by
  unfold executeOp
  rw [withUop_eq_next]
  constructor
  · rintro ⟨u, hu, ht⟩; exact ⟨u, hu, by simpa using ht.symm⟩
  · rintro ⟨u, hu, rfl⟩; exact ⟨u, hu, rfl⟩

/-- What complete answers. -/
theorem completeOp_eq_next {h : Handle} {s t : State} :
    completeOp h s = .next t ↔ ∃ u, s.uop? h = some u ∧
      t = if u.complete then s.setUop h { u with state := .complete }
        else (publishDests s u.dst).setUop h { u.published s.cycle with state := .complete } := by
  unfold completeOp
  rw [withUop_eq_next]
  constructor
  · rintro ⟨u, hu, ht⟩
    refine ⟨u, hu, ?_⟩
    by_cases hc : u.complete = true <;> simp [hc] at ht ⊢ <;> exact ht.symm
  · rintro ⟨u, hu, rfl⟩
    refine ⟨u, hu, ?_⟩
    by_cases hc : u.complete = true <;> simp [hc]

/-- What retire answers. -/
theorem retireOp_eq_next {tbl : LsTable} {s t : State} :
    retireOp tbl s = .next t ↔ s.robCount ≠ 0 ∧ ∃ u, s.uop? (s.robAt 0) = some u ∧
      s.wordStale u = false ∧
      ((u.unmodelled = true ∧ t = s.raise (.unmodelled u.pc u.insn)) ∨
        (u.unmodelled = false ∧ ∃ s1,
          commitMemory tbl (s.robAt 0) u (releaseDests s u.dst) = .next s1 ∧
          t = finishRetire (s.robAt 0) u ((s1.retireHook u).countRetired (s.robAt 0) u))) := by
  unfold retireOp
  by_cases h0 : s.robCount = 0
  · simp [h0]
  · simp only [h0, if_false, ne_eq, not_false_eq_true, true_and]
    rw [withUop_eq_next]
    constructor
    · rintro ⟨u, hu, ht⟩
      cases hw : s.wordStale u
      · refine ⟨u, hu, hw, ?_⟩
        cases hm : u.unmodelled
        · simp only [hw, hm, Bool.false_eq_true, if_false, andThen_eq_next] at ht
          obtain ⟨s1, h1, h2⟩ := ht
          exact .inr ⟨rfl, s1, h1, by simpa using h2.symm⟩
        · simp only [hw, hm, Bool.false_eq_true, if_false, if_true] at ht
          exact .inl ⟨rfl, by simpa using ht.symm⟩
      · simp [hw] at ht
    · rintro ⟨u, hu, hw, ⟨hm, rfl⟩ | ⟨hm, s1, h1, rfl⟩⟩
      · exact ⟨u, hu, by simp [hw, hm]⟩
      · exact ⟨u, hu, by simp [hw, hm, h1]⟩

/-- What rollback answers. -/
theorem undoOp_eq_next {s t : State} :
    undoOp s = .next t ↔ s.robCount ≠ 0 ∧ ∃ u, s.uop? (s.robAt (s.robCount - 1)) = some u ∧
      t = (((restoreDests s u.dst).robPopTail).freeSlot (s.robAt (s.robCount - 1))).emit
        (.left { u with state := .rolledBack }) := by
  unfold undoOp
  by_cases h0 : s.robCount = 0
  · simp [h0]
  · simp only [h0, if_false, ne_eq, not_false_eq_true, true_and]
    rw [withUop_eq_next]
    constructor
    · rintro ⟨u, hu, ht⟩; exact ⟨u, hu, by simpa using ht.symm⟩
    · rintro ⟨u, hu, rfl⟩; exact ⟨u, hu, rfl⟩

/-! ## The ordering check, record by record -/

/-- What the ordering check of a store makes of the record of a load-table entry. -/
def flagged (store load : Uop) : Uop :=
  if orderViolated store load then { load with loadViolation := true } else load

theorem flagged_flagged (store load : Uop) : flagged store (flagged store load) = flagged store load := by
  unfold flagged
  by_cases h : orderViolated store load = true
  · have h' : orderViolated store { load with loadViolation := true } = true := h
    simp [h, h']
  · simp [h]

/-- A flagged record is the same micro-op. -/
@[simp] theorem flagged_instr (store load : Uop) : (flagged store load).instr = load.instr := by
  unfold flagged; split <;> rfl

/-- One pass of the ordering check writes the record it reads. -/
theorem orderingPass_uop? {store u : Uop} {l g : Handle} {s : State} (hu : s.uop? l = some u) :
    (if orderViolated store u then s.setUop l { u with loadViolation := true } else s).uop? g =
      if g = l then some (flagged store u) else s.uop? g := by
  unfold flagged
  split
  · rw [State.uop?_setUop]
    by_cases hg : g = l <;> simp [hg, State.lt_of_uop? hu]
  · by_cases hg : g = l
    · subst hg; simp [hu]
    · simp [hg]

/-- What the ordering check writes: every entry of the load table is live, and its record is flagged
if it must be. -/
theorem orderingCheck_uop? {store : Uop} : ∀ (l : List Handle) {s t : State},
    forEach (fun l s => withUop s l fun u =>
      .next (if orderViolated store u then s.setUop l { u with loadViolation := true } else s)) l s =
        .next t →
    ∀ g, t.uop? g = if g ∈ l then (s.uop? g).map (flagged store) else s.uop? g
  | [], s, t, h, g => by simp at h; simp [h]
  | a :: as, s, t, h, g => by
    obtain ⟨s1, h1, h2⟩ := andThen_eq_next.mp h
    obtain ⟨u, hu, h1⟩ := withUop_eq_next.mp h1
    simp only [Host.Outcome.next.injEq] at h1
    subst h1
    rw [orderingCheck_uop? as h2 g, orderingPass_uop? hu]
    by_cases hg : g = a
    · subst hg; by_cases hm : g ∈ as <;> simp [hm, hu, flagged_flagged]
    · simp [hg]

/-- The ordering check completes when every entry of the load table is live. -/
theorem orderingCheck_next {store : Uop} : ∀ (l : List Handle) (s : State),
    (∀ g ∈ l, s.uop? g ≠ none) → ∃ t,
    forEach (fun l s => withUop s l fun u =>
      .next (if orderViolated store u then s.setUop l { u with loadViolation := true } else s)) l s =
        .next t
  | [], s, _ => ⟨s, rfl⟩
  | a :: as, s, h => by
    obtain ⟨u, hu⟩ := Option.ne_none_iff_exists'.mp (h a (by simp))
    rw [forEach_cons, withUop_of hu]
    simp only [andThen_next]
    apply orderingCheck_next as
    intro g hg
    rw [orderingPass_uop? hu]
    by_cases hga : g = a
    · simp [hga]
    · simp only [hga, if_false]; exact h g (by simp [hg])

/-- What retire does to the records other than the head's: it flags loads. -/
theorem commitMemory_uop? {tbl : LsTable} {h : Handle} {u : Uop} {s t : State}
    (ht : commitMemory tbl h u s = .next t) (g : Handle) :
    t.uop? g = if tbl = .stores ∧ g ∈ s.lq then (s.uop? g).map (flagged u) else s.uop? g := by
  cases tbl with
  | neither => simp [commitMemory] at ht; simp [← ht]
  | loads => simp [commitMemory] at ht; subst ht; rfl
  | stores =>
    obtain ⟨s1, h1, h2⟩ := andThen_eq_next.mp ht
    simp only [Host.Outcome.next.injEq] at h2
    subst h2
    simp only [true_and]
    exact orderingCheck_uop? _ h1 g

/-- The memory after retire's memory part. -/
theorem commitMemory_mem {tbl : LsTable} {h : Handle} {u : Uop} {s t : State}
    (ht : commitMemory tbl h u s = .next t) :
    t.mem = if tbl = .stores then memWrite s.cfg.endian s.mem u.maddr u.msize u.mdata else s.mem := by
  cases tbl with
  | neither => simp [commitMemory] at ht; simp [← ht]
  | loads => simp [commitMemory] at ht; subst ht; rfl
  | stores =>
    obtain ⟨s1, h1, h2⟩ := andThen_eq_next.mp ht
    simp only [Host.Outcome.next.injEq] at h2
    subst h2
    rw [if_pos rfl]
    exact orderingCheck_mem h1

/-- The tables after retire's memory part. -/
theorem commitMemory_tables {tbl : LsTable} {h : Handle} {u : Uop} {s t : State}
    (ht : commitMemory tbl h u s = .next t) :
    t.lq = (if tbl = .loads then s.lq.filter (· ≠ h) else s.lq) ∧
      t.sq = if tbl = .stores then s.sq.filter (· ≠ h) else s.sq := by
  cases tbl with
  | neither => simp [commitMemory] at ht; simp [← ht]
  | loads => simp [commitMemory] at ht; subst ht; exact ⟨rfl, rfl⟩
  | stores =>
    obtain ⟨s1, h1, h2⟩ := andThen_eq_next.mp ht
    simp only [Host.Outcome.next.injEq] at h2
    subst h2
    simp [State.tableRemove, orderingCheck_sq h1, orderingCheck_lq h1]

/-! ## What a retirement leaves -/

/-- A retirement in the middle of the scan: what the counters, the pointers and the run status are. -/
theorem finishRetire_running {h : Handle} {u : Uop} {s : State}
    (hr : (finishRetire h u s).status = .running) :
    s.oracleAgrees (s.commitRecord u) = true ∧ s.status = .running ∧
      s.cfg.maxInsns ≠ some s.retiredCount := by
  unfold finishRetire at hr
  dsimp only at hr
  split at hr
  · cases hr
  · rename_i h1
    have h1' : s.oracleAgrees (s.commitRecord u) = true := by
      have h2 : s.oracleAgrees (s.commitRecord u) ≠ false := h1
      simpa using h2
    refine ⟨h1', ?_⟩
    by_cases hm : s.cfg.maxInsns = some s.retiredCount
    · simp [hm] at hr
    · simp [hm] at hr; exact ⟨hr, hm⟩

/-- The state after a retirement that does not end the run. -/
theorem finishRetire_eq {h : Handle} {u : Uop} {s : State}
    (ha : s.oracleAgrees (s.commitRecord u) = true) :
    finishRetire h u s = ((((s.emit (.commit (s.commitRecord u))).matched (s.commitRecord u)).freeSlot
      h).emit (.left (u.retiredAt s.cycle))) := by
  unfold finishRetire
  have : (s.emit (.commit (s.commitRecord u))).oracleAgrees (s.commitRecord u) = true := ha
  simp [this]

/-- A retirement that leaves the machine running: every record but the head's stays, with at most its
ordering flag set, and the head's is gone. -/
theorem retireOp_uop? {tbl : LsTable} {s t : State} (h : retireOp tbl s = .next t)
    (hr : t.status = .running) (g : Handle) :
    ∃ u, s.uop? (s.robAt 0) = some u ∧ t.uop? g =
      if g = s.robAt 0 then none
      else if tbl = .stores ∧ g ∈ s.lq then (s.uop? g).map (flagged u) else s.uop? g := by
  obtain ⟨h0, u, hu, hw, ⟨hm, rfl⟩ | ⟨hm, s1, h1, rfl⟩⟩ := retireOp_eq_next.mp h
  · cases hr
  · refine ⟨u, hu, ?_⟩
    have hf := finishRetire_running hr
    rw [finishRetire_eq hf.1]
    have e : ∀ x : State, ∀ e : EnvEvent, (x.emit e).uop? g = x.uop? g := fun _ _ => rfl
    rw [e, State.uop?_freeSlot]
    split
    · rfl
    · rename_i hg
      have e2 : ((((s1.retireHook u).countRetired (s.robAt 0) u).emit (.commit
          (((s1.retireHook u).countRetired (s.robAt 0) u).commitRecord u))).matched
          (((s1.retireHook u).countRetired (s.robAt 0) u).commitRecord u)).uop? g = s1.uop? g := by
        show ((s1.retireHook u).robPopHead.setUop (s.robAt 0) _).uop? g = _
        rw [State.uop?_setUop, if_neg (fun h => hg h.1)]
        rfl
      rw [e2, commitMemory_uop? h1]
      simp only [releaseDests_lq]
      rw [State.uop?_of _ _ (releaseDests_arena s u.dst)]

/-- After a retirement the head is the entry after the old head. -/
theorem retireOp_head {tbl : LsTable} {s t : State} (h : retireOp tbl s = .next t)
    (hr : t.status = .running) : t.robAt 0 = s.robAt 1 := by
  obtain ⟨h0, u, hu, hw, ⟨hm, rfl⟩ | ⟨hm, s1, h1, rfl⟩⟩ := retireOp_eq_next.mp h
  · cases hr
  · have hf := finishRetire_running hr
    rw [finishRetire_eq hf.1]
    have e1 := commitMemory_robHead h1
    have e2 := commitMemory_robSlots h1
    have e3 := commitMemory_cfg h1
    simp only [releaseDests_robHead, releaseDests_robSlots, releaseDests_cfg] at e1 e2 e3
    simp [State.robAt, State.countRetired, e1, e2, e3]

end Sys2Proof.Machine
end

