-- ==== Sys2Proof/Laws/Cycle.lean ====
section
/-!
SUPPORT. What one step can do, once: a step that answers a next state is a sequence of the effects
below, so an invariant is kept by the step when every effect keeps it.
-/

namespace Sys2Proof.Machine

/-- When the stages call a method of a micro-op `i`. -/
def calls (i : Instr) (s : State) : Method → Prop
  | .allocate => s.stageActive = true ∧
      ∃ h rest u, s.dq = h :: rest ∧ s.uop? h = some u ∧ u.instr = some i
  | .execute h => s.stageActive = true ∧ ∃ u, s.uop? h = some u ∧ u.instr = some i ∧ s.eligible u = true
  | .complete h => s.stageActive = true ∧ ∃ u, s.uop? h = some u ∧ u.instr = some i ∧ u.due s.cycle = true
  | .retire => s.status = .running ∧ ∃ u, s.uop? (s.robAt 0) = some u ∧ u.instr = some i
  | .rollback => s.robCount ≠ 0 ∧ ∃ u, s.uop? (s.robAt (s.robCount - 1)) = some u ∧ u.instr = some i

/-- One effect of a step. -/
inductive Effect : State → State → Prop where
  | method {i : Instr} {m : Method} {s t : State} :
      calls i s m → exec i (s.setMethod m) = .next t → Effect s (t.setMethod .allocate)
  | raise (s : State) (f : Fatal) : Effect s (s.raise f)
  | rstate (s : State) (r : RState) : s.rstate ≠ .unwind → r ≠ .unwind → Effect s (s.setRstate r)
  | enter {kind : ExcKind} {carrier target : Pc} {s t : State} :
      enterRecovery kind carrier target s = .next t → Effect s t
  | resume (s : State) : s.robCount = 0 → Effect s s.endRecovery
  | stamp {s : State} {h : Handle} {u : Uop} :
      s.uop? h = some u → Effect s (s.setUop h (s.stampReady u))
  | decode {s : State} {h : Handle} {rest : List Handle} {u : Uop} :
      s.stageActive = true → s.fq = h :: rest → s.dq.length < s.cfg.dqN → s.uop? h = some u →
      Effect s (decodeHead h u s)
  | fetch (s : State) (pc : Pc) (pending : Option Pc) :
      s.stageActive = true → s.fq.length < s.cfg.fqN →
      Effect s (s.fetchOne.steer pc pending)
  | tick (s : State) : s.status = .running → Effect s s.tick

/-- A sequence of effects. -/
abbrev Effects : State → State → Prop := Relation.ReflTransGen Effect

open Relation in
/-- An invariant that every effect keeps, a sequence of effects keeps. -/
theorem Effects.keeps {P : State → Prop} (hP : ∀ s t, Effect s t → P s → P t) {s t : State}
    (h : Effects s t) (hs : P s) : P t := by
  induction h with
  | refl => exact hs
  | tail _ he ih => exact hP _ _ he ih

theorem call_effect {i : Instr} {m : Method} {s t : State} (hc : calls i s m)
    (h : call i m s = .next t) : Effect s t := by
  obtain ⟨s1, h1, h2⟩ := andThen_eq_next.mp h
  simp only [Host.Outcome.next.injEq] at h2
  exact h2 ▸ .method hc h1

theorem callOf_eq_next {h : Handle} {u : Uop} {m : Method} {s t : State} :
    callOf h u m s = .next t ↔ ∃ i, u.instr = some i ∧ call i m s = .next t := by
  unfold callOf
  cases u.instr <;> simp

theorem unwindLoop_effects : ∀ (m : Nat) {s t : State}, unwindLoop m s = .next t → Effects s t
  | 0, s, t, h => by simp [unwindLoop] at h; exact h ▸ .refl
  | m + 1, s, t, h => by
    unfold unwindLoop at h
    split at h
    · simp at h; exact h ▸ .refl
    · rename_i h0
      obtain ⟨u, hu, h⟩ := withUop_eq_next.mp h
      obtain ⟨s1, h1, h2⟩ := andThen_eq_next.mp h
      obtain ⟨i, hi, h1⟩ := callOf_eq_next.mp h1
      exact .head (call_effect (m := .rollback) ⟨h0, u, hu, hi⟩ h1) (unwindLoop_effects m h2)

theorem unwindStep_effects {s t : State} (h : unwindStep s = .next t) : Effects s t := by
  obtain ⟨s1, h1, h2⟩ := andThen_eq_next.mp h
  have e1 := unwindLoop_effects _ h1
  simp only [Host.Outcome.next.injEq] at h2
  subst h2
  split
  · rename_i h0; exact e1.tail (.resume s1 h0)
  · exact e1

theorem beginRecovery_effects {kind : ExcKind} {carrier target : Pc} {s t : State}
    (h : beginRecovery kind carrier target s = .next t) : Effects s t := by
  obtain ⟨s1, h1, h2⟩ := andThen_eq_next.mp h
  exact .head (.enter h1) (unwindStep_effects h2)

theorem whileRunning_effects {f : State → Out} {s t : State}
    (hf : s.status = .running → f s = .next t → Effects s t) (h : whileRunning f s = .next t) :
    Effects s t := by
  unfold whileRunning at h
  split at h
  · rename_i hr; exact hf hr h
  · simp at h; exact h ▸ .refl

theorem afterCommit_effects {u : Uop} {rest : State → Out} {s t : State}
    (hf : rest s = .next t → Effects s t) (h : afterCommit u rest s = .next t) : Effects s t := by
  unfold afterCommit at h
  split at h
  · exact beginRecovery_effects h
  · exact hf h

/-- The retire scan goes on: the run has not ended and no recovery has begun. -/
abbrev State.scanning (s : State) : Prop := s.status = .running ∧ s.rstate ≠ .unwind

/-- A call of retire of the head's micro-op is one effect. -/
theorem retireCall_effect {h : Handle} {u v : Uop} {s t : State} (hr : s.scanning)
    (hv : s.uop? (s.robAt 0) = some v) (hi : v.instr = u.instr) (hc : callOf h u .retire s = .next t) :
    Effect s t ∧ t.rstate ≠ .unwind := by
  obtain ⟨i, hu, h1⟩ := callOf_eq_next.mp hc
  refine ⟨call_effect (m := .retire) ⟨hr.1, v, hv, hi.trans hu⟩ h1, ?_⟩
  obtain ⟨s1, h2, h3⟩ := andThen_eq_next.mp h1
  simp only [Host.Outcome.next.injEq] at h3
  subst h3
  rw [exec_retire _ _ rfl, retireOp_eq_next] at h2
  obtain ⟨_, w, _, _, ⟨_, rfl⟩ | ⟨_, s2, h4, rfl⟩⟩ := h2
  · exact hr.2
  · have e := commitMemory_rstate h4
    simp only [releaseDests_rstate, State.setMethod_rstate] at e
    unfold finishRetire
    dsimp only
    split <;> simp [State.countRetired, e, hr.2]

/-- The second retirement of a pair retires the micro-op the scan read as the successor. -/
theorem pairSecond_instr {u v : Uop} {s s1 t : State} (h1 : callOf (s.robAt 0) u .retire s = .next s1)
    (hr : s1.status = .running) (hv : s.uop? (s.robAt 1) = some v)
    (h2 : callOf (s1.robAt 0) v .retire s1 = .next t) :
    ∃ w, s1.uop? (s1.robAt 0) = some w ∧ w.instr = v.instr := by
  obtain ⟨i, _, hc⟩ := callOf_eq_next.mp h1
  obtain ⟨s2, h3, h4⟩ := andThen_eq_next.mp hc
  simp only [Host.Outcome.next.injEq] at h4
  subst h4
  rw [exec_retire _ _ rfl] at h3
  have hr' : s2.status = .running := hr
  have hh : s2.robAt 0 = (s.setMethod .retire).robAt 1 := retireOp_head h3 hr'
  obtain ⟨w0, _, e⟩ := retireOp_uop? h3 hr' (s.robAt 1)
  have e' : (s2.setMethod .allocate).uop? (s.robAt 1) = _ := e
  obtain ⟨j, _, hc2⟩ := callOf_eq_next.mp h2
  obtain ⟨s3, h5, _⟩ := andThen_eq_next.mp hc2
  rw [exec_retire _ _ rfl, retireOp_eq_next] at h5
  obtain ⟨_, w, hw, _⟩ := h5
  have hw' : (s2.setMethod .allocate).uop? (s.robAt 1) = some w := by
    have : (s2.setMethod .allocate).uop? (s2.robAt 0) = some w := hw
    rwa [hh] at this
  refine ⟨w, hw, ?_⟩
  have hv' : (s.setMethod .retire).uop? (s.robAt 1) = some v := hv
  rw [e', hv'] at hw'
  split at hw'
  · cases hw'
  · split at hw'
    · simp only [Option.map_some, Option.some.injEq] at hw'
      rw [← hw', flagged_instr]
    · simp only [Option.some.injEq] at hw'
      rw [hw']

theorem commitPair_effects {u v : Uop} {rest : State → Out} {s t : State}
    (hf : ∀ s', s'.scanning → rest s' = .next t → Effects s' t) (hr : s.scanning)
    (hu : s.uop? (s.robAt 0) = some u) (hv : s.uop? (s.robAt 1) = some v)
    (h : commitPair u v rest s = .next t) : Effects s t := by
  obtain ⟨s1, h1, h2⟩ := andThen_eq_next.mp h
  have e1 := retireCall_effect hr hu rfl h1
  refine .head e1.1 (whileRunning_effects (fun hr1 h2 => ?_) h2)
  obtain ⟨s2, h3, h4⟩ := andThen_eq_next.mp h2
  obtain ⟨w, hw, hi⟩ := pairSecond_instr h1 hr1 hv h3
  have e2 := retireCall_effect ⟨hr1, e1.2⟩ hw hi h3
  exact .head e2.1
    (whileRunning_effects (fun hr2 => afterCommit_effects (hf s2 ⟨hr2, e2.2⟩)) h4)

theorem retirePair_effects {n : Nat} {u : Uop} {rest : State → Out} {s t : State}
    (hf : ∀ s', s'.scanning → rest s' = .next t → Effects s' t) (hr : s.scanning)
    (hu : s.uop? (s.robAt 0) = some u) (h : retirePair n u rest s = .next t) : Effects s t := by
  unfold retirePair State.retireEnds at h
  split at h
  · simp at h; exact h ▸ .single (.rstate s _ hr.2 (by simp))
  · obtain ⟨v, hv, h⟩ := withUop_eq_next.mp h
    split at h
    · simp at h; exact h ▸ .single (.rstate s _ hr.2 (by simp))
    · split at h
      · simp at h; exact h ▸ .single (.raise s _)
      · split at h
        · exact beginRecovery_effects h
        · split at h
          · simp at h; exact h ▸ .single (.rstate s _ hr.2 (by simp))
          · exact commitPair_effects hf hr hu hv h

theorem retireSingle_effects {u : Uop} {rest : State → Out} {s t : State}
    (hf : ∀ s', s'.scanning → rest s' = .next t → Effects s' t) (hr : s.scanning)
    (hu : s.uop? (s.robAt 0) = some u) (h : retireSingle u rest s = .next t) : Effects s t := by
  unfold retireSingle at h
  split at h
  · exact beginRecovery_effects h
  · obtain ⟨s1, h1, h2⟩ := andThen_eq_next.mp h
    have e1 := retireCall_effect hr hu rfl h1
    exact .head e1.1
      (whileRunning_effects (fun hr2 => afterCommit_effects (hf s1 ⟨hr2, e1.2⟩)) h2)

theorem retireLoop_effects : ∀ (f n : Nat) {s t : State}, s.scanning →
    retireLoop f n s = .next t → Effects s t
  | 0, _, _, _, _, h => by simp [retireLoop] at h; exact h ▸ .refl
  | f + 1, n, s, t, hr, h => by
    unfold retireLoop State.retireEnds at h
    split at h
    · simp at h; exact h ▸ .single (.rstate s _ hr.2 (by simp))
    · obtain ⟨u, hu, h⟩ := withUop_eq_next.mp h
      split at h
      · simp at h; exact h ▸ .single (.rstate s _ hr.2 (by simp))
      · split at h
        · exact retirePair_effects (fun _ hr' => retireLoop_effects f (n + 2) hr') hr hu h
        · exact retireSingle_effects (fun _ hr' => retireLoop_effects f (n + 1) hr') hr hu h

theorem retireStage_effects {s t : State} (h : retireStage s = .next t) : Effects s t := by
  unfold retireStage at h
  split at h
  · simp at h; exact h ▸ .refl
  · rename_i hr
    split at h
    · exact unwindStep_effects h
    · rename_i hu
      exact retireLoop_effects _ _ ⟨not_not.mp hr, hu⟩ h

theorem stageActive_iff {s : State} : s.stageActive = true ↔ s.status = .running ∧ s.recovery = false := by
  simp [State.stageActive]

/-- Whether the later stages act depends on the status and the recovery mode only. -/
theorem stageActive_of {s t : State} (h1 : t.status = s.status) (h2 : t.recovery = s.recovery) :
    t.stageActive = s.stageActive := by
  simp [State.stageActive, h1, h2]

/-- Allocating, executing and completing a micro-op keep the later stages acting. -/
theorem exec_stageActive {i : Instr} {m : Method} {s t : State} (hm : m ≠ .retire) (hm' : m ≠ .rollback)
    (h : exec i (s.setMethod m) = .next t) : t.stageActive = s.stageActive := by
  cases m with
  | retire => exact absurd rfl hm
  | rollback => exact absurd rfl hm'
  | allocate =>
    rw [exec_allocate _ _ rfl, allocateOp_eq_next] at h
    obtain ⟨h, rest, u, _, _, ⟨_, rfl⟩ | ⟨j, _, rfl⟩⟩ := h
    · rfl
    · exact stageActive_of (by simp [State.place]) (by simp [State.place])
  | execute g =>
    rw [exec_execute _ _ _ rfl, executeOp_eq_next] at h
    obtain ⟨u, _, rfl⟩ := h
    exact stageActive_of (by simp) (by simp)
  | complete g =>
    rw [exec_complete _ _ _ rfl, completeOp_eq_next] at h
    obtain ⟨u, _, rfl⟩ := h
    split <;> exact stageActive_of (by simp) (by simp)

/-- A call of allocate, execute or complete is one effect and keeps the later stages acting. -/
theorem stageCall_effect {h : Handle} {u : Uop} {m : Method} {s t : State} (hm : m ≠ .retire)
    (hm' : m ≠ .rollback) (hc : ∀ i, u.instr = some i → calls i s m) (h : callOf h u m s = .next t) :
    Effect s t ∧ t.stageActive = s.stageActive := by
  obtain ⟨i, hi, h1⟩ := callOf_eq_next.mp h
  refine ⟨call_effect (hc i hi) h1, ?_⟩
  obtain ⟨s1, h2, h3⟩ := andThen_eq_next.mp h1
  simp only [Host.Outcome.next.injEq] at h3
  subst h3
  exact (exec_stageActive hm hm' h2 : s1.stageActive = _)

/-- A sequence of effects of a stage after retire, which ends with the later stages still acting. -/
abbrev ActiveEffects (s t : State) : Prop := Effects s t ∧ t.stageActive = true

theorem forEach_effects {α : Type} {f : α → State → Out}
    (hf : ∀ a s t, s.stageActive = true → f a s = .next t → ActiveEffects s t) :
    ∀ (l : List α) {s t : State}, s.stageActive = true → forEach f l s = .next t → ActiveEffects s t
  | [], _, _, ha, h => by simp at h; exact h ▸ ⟨.refl, ha⟩
  | a :: as, _, _, ha, h => by
    obtain ⟨s1, h1, h2⟩ := andThen_eq_next.mp h
    have e1 := hf a _ _ ha h1
    have e2 := forEach_effects hf as e1.2 h2
    exact ⟨e1.1.trans e2.1, e2.2⟩

theorem completeEntry_effects {h : Handle} {s t : State} (ha : s.stageActive = true)
    (ht : completeEntry h s = .next t) : ActiveEffects s t := by
  obtain ⟨u, hu, ht⟩ := withUop_eq_next.mp ht
  split at ht
  · rename_i hd
    have e := stageCall_effect (m := .complete h) (s := s) (by simp) (by simp)
      (fun i hi => ⟨ha, u, hu, hi, hd⟩) ht
    exact ⟨.single e.1, e.2.trans ha⟩
  · simp at ht; exact ht ▸ ⟨.refl, ha⟩

theorem completeStage_effects {s t : State} (h : completeStage s = .next t) : Effects s t := by
  unfold completeStage at h
  split at h
  · rename_i ha; exact (forEach_effects (fun _ _ _ => completeEntry_effects) _ ha h).1
  · simp at h; exact h ▸ .refl

/-- A ready stamp changes nothing that the source operands and the class of a micro-op depend on. -/
theorem stampReady_instr (s : State) (u : Uop) : (s.stampReady u).instr = u.instr := by
  unfold State.stampReady; split <;> rfl

theorem scanStation_effects (w : Nat) : ∀ (l : List Handle) (n : Nat) {s t : State},
    s.stageActive = true → scanStation w l n s = .next t → ActiveEffects s t
  | [], _, _, _, ha, h => by simp [scanStation] at h; exact h ▸ ⟨.refl, ha⟩
  | g :: gs, n, s, t, ha, h => by
    unfold scanStation at h
    obtain ⟨u, hu, h⟩ := withUop_eq_next.mp h
    have e1 : Effect s (s.setUop g (s.stampReady u)) := .stamp hu
    have ha1 : (s.setUop g (s.stampReady u)).stageActive = true := ha
    dsimp only at h
    split at h
    · rename_i he
      obtain ⟨s2, h1, h2⟩ := andThen_eq_next.mp h
      have hu1 : (s.setUop g (s.stampReady u)).uop? g = some (s.stampReady u) := by
        simp [State.uop?_setUop, State.lt_of_uop? hu]
      have e2 := stageCall_effect (m := .execute g) (s := s.setUop g (s.stampReady u)) (by simp)
        (by simp) (fun i hi => ⟨ha1, _, hu1, hi, he.2⟩) h1
      have e3 := scanStation_effects w gs (n + 1) (e2.2.trans ha1) h2
      exact ⟨.head e1 (.head e2.1 e3.1), e3.2⟩
    · have e3 := scanStation_effects w gs n ha1 h
      exact ⟨.head e1 e3.1, e3.2⟩

theorem executeStage_effects {s t : State} (h : executeStage s = .next t) : Effects s t := by
  unfold executeStage at h
  split at h
  · rename_i ha
    exact (forEach_effects (fun _ _ _ ha h => scanStation_effects _ _ _ ha h) _ ha h).1
  · simp at h; exact h ▸ .refl

theorem allocateLoop_effects : ∀ (n : Nat) {s t : State}, s.stageActive = true →
    allocateLoop n s = .next t → Effects s t
  | 0, _, _, _, h => by simp [allocateLoop] at h; exact h ▸ .refl
  | n + 1, s, t, ha, h => by
    unfold allocateLoop at h
    split at h
    · simp at h; exact h ▸ .refl
    · rename_i g rest hd
      obtain ⟨u, hu, h⟩ := withUop_eq_next.mp h
      obtain ⟨s1, h1, h2⟩ := andThen_eq_next.mp h
      have e := stageCall_effect (m := .allocate) (s := s) (by simp) (by simp)
        (fun i hi => ⟨ha, g, rest, u, hd, hu, hi⟩) h1
      split at h2
      · exact .head e.1 (allocateLoop_effects n (e.2.trans ha) h2)
      · simp at h2; exact h2 ▸ .single e.1

theorem allocateStage_effects {s t : State} (h : allocateStage s = .next t) : Effects s t := by
  unfold allocateStage at h
  split at h
  · rename_i ha; exact allocateLoop_effects _ ha h
  · simp at h; exact h ▸ .refl

/-- Decoding a micro-op leaves the recovery mode as it was. -/
theorem decodeHead_recovery (h : Handle) (u : Uop) (s : State) :
    (decodeHead h u s).recovery = s.recovery := by
  unfold decodeHead decodeAs
  split
  · rfl
  · split <;> rfl

theorem decodeLoop_effects : ∀ (n : Nat) {s t : State}, s.stageActive = true →
    decodeLoop n s = .next t → Effects s t
  | 0, _, _, _, h => by simp [decodeLoop] at h; exact h ▸ .refl
  | n + 1, s, t, ha, h => by
    unfold decodeLoop at h
    split at h
    · simp at h; exact h ▸ .refl
    · rename_i g rest hq
      split at h
      · rename_i hl
        obtain ⟨u, hu, h⟩ := withUop_eq_next.mp h
        refine .head (.decode ha hq hl hu) (whileRunning_effects (fun hr h => ?_) h)
        exact decodeLoop_effects n
          (stageActive_iff.mpr ⟨hr, (decodeHead_recovery g u s).trans (stageActive_iff.mp ha).2⟩) h
      · simp at h; exact h ▸ .refl

theorem decodeStage_effects {s t : State} (h : decodeStage s = .next t) : Effects s t := by
  unfold decodeStage at h
  split at h
  · rename_i ha; exact decodeLoop_effects _ ha h
  · simp at h; exact h ▸ .refl

theorem fetchLoop_effects : ∀ (n : Nat) {s : State}, s.stageActive = true →
    Effects s (fetchLoop n s)
  | 0, _, _ => .refl
  | n + 1, s, ha => by
    unfold fetchLoop
    split
    · exact .refl
    · rename_i hq
      have e : ∀ pc p, Effect s (s.fetchOne.steer pc p) := fun pc p => .fetch s pc p ha (by omega)
      dsimp only
      split
      · exact .single (e _ _)
      · split
        · split
          · exact .head (e _ _) (fetchLoop_effects n ha)
          · exact .single (e _ _)
        · exact .head (e _ _) (fetchLoop_effects n ha)

theorem fetchStage_effects (s : State) : Effects s (fetchStage s) := by
  unfold fetchStage
  split
  · rename_i ha; exact fetchLoop_effects _ ha
  · exact .refl

theorem clockAdvance_effects (s : State) : Effects s (clockAdvance s) := by
  unfold clockAdvance
  split
  · rename_i hr
    split
    · exact .single (.raise s _)
    · exact .single (.tick s hr)
  · exact .refl

/-- A step is a sequence of effects of an admitted configuration. -/
theorem step_effects {s t : State} (h : step s = .next t) :
    s.cfg.admitted = true ∧ Effects s t := by
  unfold step at h
  split at h
  · rename_i hc
    refine ⟨hc, ?_⟩
    obtain ⟨s1, h1, h⟩ := andThen_eq_next.mp h
    obtain ⟨s2, h2, h⟩ := andThen_eq_next.mp h
    obtain ⟨s3, h3, h⟩ := andThen_eq_next.mp h
    obtain ⟨s4, h4, h⟩ := andThen_eq_next.mp h
    obtain ⟨s5, h5, h⟩ := andThen_eq_next.mp h
    simp only [Host.Outcome.next.injEq] at h
    subst h
    exact (retireStage_effects h1).trans <| (completeStage_effects h2).trans <|
      (executeStage_effects h3).trans <| (allocateStage_effects h4).trans <|
      (decodeStage_effects h5).trans <| (fetchStage_effects s5).trans (clockAdvance_effects _)
  · cases h

end Sys2Proof.Machine
end

