-- ==== Sys2Proof/Laws/PerInstr.lean ====
section
/-!
SUPPORT. Laws made of every micro-op by one lemma per constructor of `Instr`.
-/

namespace Sys2Proof.Laws.HeaderRoundTrip

/-- The header byte of a micro-op decodes to its category and its `ds` bit, from which the micro-op is
built again with its operand fields (30_encoding.md R81, R82). -/
def Statement (i : Instr) : Prop :=
  decodeHeader (encodeHeader i) = .ok (i.category, i.ds) ∧ encodeHeader i < 256 ∧
    Instr.ofParts i.category i.ds i.operands = i

/-- A micro-op whose `ds` bit is set only if it is a control transfer. -/
theorem of_code (i : Instr) (hc : i.ds = true → i.category.isCti = true)
    (hi : Instr.ofParts i.category i.ds i.operands = i) : Statement i := by
  unfold Statement encodeHeader
  refine ⟨?_, ?_, hi⟩ <;> revert hc <;> cases i.category <;> cases i.ds <;> decide

theorem aluImm (o : Operands) : Statement (.aluImm o) := of_code _ (by simp [Instr.ds]) rfl

theorem aluReg (o : Operands) : Statement (.aluReg o) := of_code _ (by simp [Instr.ds]) rfl

theorem branch (ds : Bool) (o : Operands) : Statement (.branch ds o) := of_code _ (fun _ => rfl) rfl

theorem jump (ds : Bool) (o : Operands) : Statement (.jump ds o) := of_code _ (fun _ => rfl) rfl

theorem load (o : Operands) : Statement (.load o) := of_code _ (by simp [Instr.ds]) rfl

theorem store (o : Operands) : Statement (.store o) := of_code _ (by simp [Instr.ds]) rfl

theorem system (o : Operands) : Statement (.system o) := of_code _ (by simp [Instr.ds]) rfl

theorem fp (o : Operands) : Statement (.fp o) := of_code _ (by simp [Instr.ds]) rfl

end Sys2Proof.Laws.HeaderRoundTrip
end

