-- ==== Sys2Proof/Laws/Rename.lean ====
section
/-!
SUPPORT. The rename arrays: reading an entry after it was written, and what renaming, writing,
publishing, releasing and restoring the destinations of a micro-op make of each entry.
-/

namespace Sys2Proof

open Sys2Proof.Machine

/-! ## Registers that exist -/

theorem Config.cls_of_lt {cfg : Config} {c : Nat} (h : c < cfg.classes.length) :
    cfg.cls c = cfg.classes[c] := by
  simp [Config.cls, List.getD_eq_getElem?_getD, h]

theorem RegRef.inRange_iff {cfg : Config} {r : RegRef} :
    r.inRange cfg = true ↔ r.cls < cfg.classes.length ∧ r.arch < cfg.na r.cls := by
  unfold RegRef.inRange Config.na
  by_cases h : r.cls < cfg.classes.length
  · simp [h, Config.cls_of_lt h]
  · simp [h]

theorem RegRef.isWiredZero_iff {cfg : Config} {r : RegRef} :
    r.isWiredZero cfg = true ↔ cfg.zr r.cls = some r.arch := by
  unfold RegRef.isWiredZero Config.zr
  by_cases h : r.cls < cfg.classes.length
  · simp [h, Config.cls_of_lt h]
  · simp [h, Config.cls, List.getD_eq_getElem?_getD]

namespace Machine

/-! ## Reading an entry after one was written -/

theorem State.ratOf_setRat (s : State) (c a : Nat) (p : Nat) (c' a' : Nat) :
    (s.setRat c a p).ratOf c' a' =
      if c' = c ∧ a' = a ∧ c < s.rat.length ∧ a < (s.rat.getD c []).length then p
      else s.ratOf c' a' := get2_set2 _ _ _ _ _ _ _

theorem State.prfOf_setPrf (s : State) (c p : Nat) (v : Nat) (c' p' : Nat) :
    (s.setPrf c p v).prfOf c' p' =
      if c' = c ∧ p' = p ∧ c < s.prf.length ∧ p < (s.prf.getD c []).length then v % 2 ^ s.cfg.vw c
      else s.prfOf c' p' := get2_set2 _ _ _ _ _ _ _

theorem State.freeOf_setFree (s : State) (c p : Nat) (b : Bool) (c' p' : Nat) :
    (s.setFree c p b).freeOf c' p' =
      if c' = c ∧ p' = p ∧ c < s.free.length ∧ p < (s.free.getD c []).length then b
      else s.freeOf c' p' := get2_set2 _ _ _ _ _ _ _

theorem State.validOf_setValid (s : State) (c p : Nat) (b : Bool) (c' p' : Nat) :
    (s.setValid c p b).validOf c' p' =
      if c' = c ∧ p' = p ∧ c < s.valid.length ∧ p < (s.valid.getD c []).length then b
      else s.validOf c' p' := get2_set2 _ _ _ _ _ _ _

/-- Two lists of lists have the same shape. -/
def sameShape {α β : Type} (l : List (List α)) (m : List (List β)) : Prop :=
  l.length = m.length ∧ ∀ c, (l.getD c []).length = (m.getD c []).length

theorem sameShape.refl {α : Type} (l : List (List α)) : sameShape l l := ⟨rfl, fun _ => rfl⟩

theorem sameShape.trans {α β γ : Type} {l : List (List α)} {m : List (List β)} {n : List (List γ)}
    (h1 : sameShape l m) (h2 : sameShape m n) : sameShape l n :=
  ⟨h1.1.trans h2.1, fun c => (h1.2 c).trans (h2.2 c)⟩

theorem sameShape_set2 {α : Type} (l : List (List α)) (c i : Nat) (v : α) :
    sameShape (set2 l c i v) l := ⟨by simp, fun _ => length_getD_set2 _ _ _ _ _⟩

/-- Entry `p` of list `c` exists. -/
abbrev hasEntry {α : Type} (l : List (List α)) (c p : Nat) : Prop :=
  c < l.length ∧ p < (l.getD c []).length

theorem hasEntry_of {α β : Type} {l : List (List α)} {m : List (List β)} (h : sameShape l m)
    {c p : Nat} : hasEntry l c p ↔ hasEntry m c p := by
  unfold hasEntry; rw [h.1, h.2 c]

theorem ite_hasEntry {α β : Type} {l : List (List α)} {c p c' p' : Nat} (h : hasEntry l c p) (x y : β) :
    (if c' = c ∧ p' = p ∧ c < l.length ∧ p < (l.getD c []).length then x else y) =
      if c' = c ∧ p' = p then x else y := by
  by_cases hc : c' = c ∧ p' = p
  · rw [if_pos ⟨hc.1, hc.2, h.1, h.2⟩, if_pos hc]
  · rw [if_neg fun e => hc ⟨e.1, e.2.1⟩, if_neg hc]

/-- Setting a bit that one of several slots names. -/
theorem ite_or_any {b : Bool} {c p c' p' : Nat} {q : Bool} :
    ((if c' = c ∧ p' = p then true else b) || q) = (b || (decide (c = c' ∧ p = p') || q)) := by
  by_cases h : c' = c ∧ p' = p
  · obtain ⟨rfl, rfl⟩ := h; simp
  · have h' : ¬(c = c' ∧ p = p') := fun e => h ⟨e.1.symm, e.2.symm⟩
    rw [if_neg h, decide_eq_false h']; simp

/-! ## The shapes stay -/

theorem renameDests_shape : ∀ (s : State) (fs : List (Option RegRef)),
    sameShape (renameDests s fs).1.rat s.rat ∧ sameShape (renameDests s fs).1.free s.free ∧
      sameShape (renameDests s fs).1.valid s.valid
  | s, [] => ⟨.refl _, .refl _, .refl _⟩
  | s, none :: fs => renameDests_shape s fs
  | s, some f :: fs => by
    obtain ⟨h1, h2, h3⟩ := renameDests_shape (s.renameDest f).1 fs
    exact ⟨h1.trans (sameShape_set2 _ _ _ _), h2.trans (sameShape_set2 _ _ _ _),
      h3.trans (sameShape_set2 _ _ _ _)⟩

theorem writeDests_shape : ∀ (s : State) (j : Nat) (ds : List (Option DstSlot)) (v : Nat → Nat),
    sameShape (writeDests s j ds v).prf s.prf
  | _, _, [], _ => .refl _
  | s, j, none :: ds, v => writeDests_shape s (j + 1) ds v
  | s, j, some d :: ds, v =>
    (writeDests_shape (s.setPrf d.cls d.fresh (v j)) (j + 1) ds v).trans (sameShape_set2 _ _ _ _)

theorem publishDests_shape : ∀ (s : State) (ds : List (Option DstSlot)),
    sameShape (publishDests s ds).valid s.valid
  | _, [] => .refl _
  | s, none :: ds => publishDests_shape s ds
  | s, some d :: ds =>
    (publishDests_shape (s.setValid d.cls d.fresh true) ds).trans (sameShape_set2 _ _ _ _)

theorem releaseDests_shape : ∀ (s : State) (ds : List (Option DstSlot)),
    sameShape (releaseDests s ds).free s.free
  | _, [] => .refl _
  | s, none :: ds => releaseDests_shape s ds
  | s, some d :: ds =>
    (releaseDests_shape (s.setFree d.cls d.prev true) ds).trans (sameShape_set2 _ _ _ _)

theorem restoreDests_shape : ∀ (s : State) (ds : List (Option DstSlot)),
    sameShape (restoreDests s ds).rat s.rat ∧ sameShape (restoreDests s ds).free s.free
  | s, [] => ⟨.refl _, .refl _⟩
  | s, none :: ds => restoreDests_shape s ds
  | s, some d :: ds => by
    obtain ⟨h1, h2⟩ := restoreDests_shape s ds
    exact ⟨(sameShape_set2 _ _ _ _).trans h1, (sameShape_set2 _ _ _ _).trans h2⟩

/-! ## Each operation, entry by entry -/

@[simp] theorem presentSlots_nil : presentSlots [] = [] := rfl
@[simp] theorem presentSlots_none (ds : List (Option DstSlot)) :
    presentSlots (none :: ds) = presentSlots ds := rfl
@[simp] theorem presentSlots_some (d : DstSlot) (ds : List (Option DstSlot)) :
    presentSlots (some d :: ds) = d :: presentSlots ds := rfl

/-- A validity bit after publishing: set for the new registers, as before for the others. -/
theorem validOf_publishDests : ∀ (s : State) (ds : List (Option DstSlot)),
    (∀ d ∈ presentSlots ds, hasEntry s.valid d.cls d.fresh) → ∀ c p,
    (publishDests s ds).validOf c p =
      (s.validOf c p || (presentSlots ds).any fun d => decide (d.cls = c ∧ d.fresh = p))
  | s, [], _, c, p => by simp [publishDests]
  | s, none :: ds, h, c, p => validOf_publishDests s ds h c p
  | s, some d :: ds, h, c, p => by
    have hd := h d (by simp)
    have ih := validOf_publishDests (s.setValid d.cls d.fresh true) ds
      (fun e he => (hasEntry_of (sameShape_set2 _ _ _ _)).mpr (h e (by simp [he]))) c p
    rw [publishDests, ih, State.validOf_setValid, presentSlots_some, List.any_cons, ite_hasEntry hd, ite_or_any]

/-- A free bit after releasing: set for the previous registers, as before for the others. -/
theorem freeOf_releaseDests : ∀ (s : State) (ds : List (Option DstSlot)),
    (∀ d ∈ presentSlots ds, hasEntry s.free d.cls d.prev) → ∀ c p,
    (releaseDests s ds).freeOf c p =
      (s.freeOf c p || (presentSlots ds).any fun d => decide (d.cls = c ∧ d.prev = p))
  | s, [], _, c, p => by simp [releaseDests]
  | s, none :: ds, h, c, p => freeOf_releaseDests s ds h c p
  | s, some d :: ds, h, c, p => by
    have hd := h d (by simp)
    have ih := freeOf_releaseDests (s.setFree d.cls d.prev true) ds
      (fun e he => (hasEntry_of (sameShape_set2 _ _ _ _)).mpr (h e (by simp [he]))) c p
    rw [releaseDests, ih, State.freeOf_setFree, presentSlots_some, List.any_cons, ite_hasEntry hd, ite_or_any]

/-- A free bit after restoring: set for the new registers, as before for the others. -/
theorem freeOf_restoreDests : ∀ (s : State) (ds : List (Option DstSlot)),
    (∀ d ∈ presentSlots ds, hasEntry s.free d.cls d.fresh) → ∀ c p,
    (restoreDests s ds).freeOf c p =
      (s.freeOf c p || (presentSlots ds).any fun d => decide (d.cls = c ∧ d.fresh = p))
  | s, [], _, c, p => by simp [restoreDests]
  | s, none :: ds, h, c, p => freeOf_restoreDests s ds h c p
  | s, some d :: ds, h, c, p => by
    have hd := h d (by simp)
    have ih := freeOf_restoreDests s ds (fun e he => h e (by simp [he])) c p
    have hs := (hasEntry_of (restoreDests_shape s ds).2).mpr hd
    have e : ((restoreDests s ds).setRat d.cls d.arch d.prev).freeOf c p =
        (restoreDests s ds).freeOf c p := rfl
    rw [restoreDests, State.freeOf_setFree, presentSlots_some, List.any_cons, e, ih,
      State.setRat_free, ite_hasEntry hs, ← ite_or_any]
    by_cases hc : c = d.cls ∧ p = d.fresh
    · rw [if_pos hc, if_pos hc]; rfl
    · rw [if_neg hc, if_neg hc]

/-- An alias table entry that no slot names is restored to itself. -/
theorem ratOf_restoreDests_other : ∀ (s : State) (ds : List (Option DstSlot)) (c a : Nat),
    (∀ d ∈ presentSlots ds, ¬(d.cls = c ∧ d.arch = a)) → (restoreDests s ds).ratOf c a = s.ratOf c a
  | s, [], _, _, _ => rfl
  | s, none :: ds, c, a, h => ratOf_restoreDests_other s ds c a h
  | s, some d :: ds, c, a, h => by
    have hd := h d (by simp)
    have e : (restoreDests s (some d :: ds)).ratOf c a =
        ((restoreDests s ds).setRat d.cls d.arch d.prev).ratOf c a := rfl
    rw [e, State.ratOf_setRat, if_neg (fun e => hd ⟨e.1.symm, e.2.1.symm⟩)]
    exact ratOf_restoreDests_other s ds c a fun x hx => h x (by simp [hx])

/-- The alias table entry a slot names is restored to its previous mapping, if no other slot names
it. -/
theorem ratOf_restoreDests : ∀ (s : State) (ds : List (Option DstSlot)),
    (∀ d ∈ presentSlots ds, hasEntry s.rat d.cls d.arch) →
    ((presentSlots ds).map fun d => (d.cls, d.arch)).Nodup →
    ∀ d ∈ presentSlots ds, (restoreDests s ds).ratOf d.cls d.arch = d.prev
  | s, none :: ds, h, hn, d, hd => ratOf_restoreDests s ds h hn d hd
  | s, some e :: ds, h, hn, d, hd => by
    have he := (hasEntry_of (restoreDests_shape s ds).1).mpr (h e (by simp))
    rw [presentSlots_some, List.map_cons, List.nodup_cons] at hn
    have eq : (restoreDests s (some e :: ds)).ratOf d.cls d.arch =
        ((restoreDests s ds).setRat e.cls e.arch e.prev).ratOf d.cls d.arch := rfl
    rw [eq, State.ratOf_setRat, ite_hasEntry he]
    rcases List.mem_cons.mp hd with rfl | hd
    · simp
    · have hne : ¬(d.cls = e.cls ∧ d.arch = e.arch) := fun x => hn.1
        (List.mem_map.mpr ⟨d, hd, by simp [x.1, x.2]⟩)
      rw [if_neg hne]
      exact ratOf_restoreDests s ds (fun x hx => h x (by simp [hx])) hn.2 d hd

/-- A register that no slot was given keeps its value when results are written. -/
theorem prfOf_writeDests_other : ∀ (s : State) (j : Nat) (ds : List (Option DstSlot)) (v : Nat → Nat)
    (c p : Nat), (∀ d ∈ presentSlots ds, ¬(d.cls = c ∧ d.fresh = p)) →
    (writeDests s j ds v).prfOf c p = s.prfOf c p
  | s, _, [], _, _, _, _ => rfl
  | s, j, none :: ds, v, c, p, h => prfOf_writeDests_other s (j + 1) ds v c p h
  | s, j, some d :: ds, v, c, p, h => by
    have hd := h d (by simp)
    rw [writeDests, prfOf_writeDests_other _ _ ds v c p fun x hx => h x (by simp [hx]),
      State.prfOf_setPrf, if_neg fun x => hd ⟨x.1.symm, x.2.1.symm⟩]

/-- Slot `j`'s new register holds value `j` after results are written, if the registers are distinct. -/
theorem prfOf_writeDests : ∀ (s : State) (j : Nat) (ds : List (Option DstSlot)) (v : Nat → Nat),
    (∀ d ∈ presentSlots ds, hasEntry s.prf d.cls d.fresh) →
    ((presentSlots ds).map fun d => (d.cls, d.fresh)).Nodup →
    ∀ i d, ds[i]? = some (some d) →
    (writeDests s j ds v).prfOf d.cls d.fresh = v (j + i) % 2 ^ s.cfg.vw d.cls
  | s, j, [], _, _, _, i, d, hi => by simp at hi
  | s, j, none :: ds, v, h, hn, i, d, hi => by
    cases i with
    | zero => simp at hi
    | succ i =>
      have := prfOf_writeDests s (j + 1) ds v h hn i d (by simpa using hi)
      rw [writeDests, this]; congr 2; omega
  | s, j, some e :: ds, v, h, hn, i, d, hi => by
    have he := h e (by simp)
    rw [presentSlots_some, List.map_cons, List.nodup_cons] at hn
    rw [writeDests]
    cases i with
    | zero =>
      simp only [List.getElem?_cons_zero, Option.some.injEq] at hi
      subst hi
      rw [prfOf_writeDests_other, State.prfOf_setPrf, ite_hasEntry he]
      · simp
      · intro x hx hh
        exact hn.1 (List.mem_map.mpr ⟨x, hx, by simp [hh.1, hh.2]⟩)
    | succ i =>
      have := prfOf_writeDests (s.setPrf e.cls e.fresh (v j)) (j + 1) ds v
        (fun x hx => (hasEntry_of (sameShape_set2 _ _ _ _)).mpr (h x (by simp [hx]))) hn.2 i d
        (by simpa using hi)
      rw [this]; simp only [State.setPrf_cfg]; congr 2; omega

/-- A bitmap with a bit set has its first set bit in range. -/
theorem findIdx_eq_true (l : List Bool) (h : 1 ≤ l.count true) :
    l.findIdx id < l.length ∧ l.getD (l.findIdx id) false = true := by
  have hm : true ∈ l := List.count_pos_iff.mp (by omega)
  have hlt : l.findIdx id < l.length := List.findIdx_lt_length.mpr ⟨true, hm, rfl⟩
  refine ⟨hlt, ?_⟩
  have := List.findIdx_getElem (w := hlt)
  simpa [List.getD_eq_getElem?_getD, hlt] using this

theorem State.freeOf_firstFree {s : State} {c : Nat} (h : 1 ≤ s.avail c) :
    s.freeOf c (s.firstFree c) = true := (findIdx_eq_true _ h).2

theorem State.hasEntry_firstFree {s : State} {c : Nat} (h : 1 ≤ s.avail c) :
    hasEntry s.free c (s.firstFree c) := by
  refine ⟨?_, (findIdx_eq_true _ h).1⟩
  by_contra hc
  simp [State.avail, List.getD_eq_getElem?_getD, hc] at h

/-- Below the first free register none is free. -/
theorem State.freeOf_below {s : State} {c q : Nat} (h : q < s.firstFree c) : s.freeOf c q = false := by
  have := List.not_of_lt_findIdx h
  simp only [id] at this
  have hl : q < (s.free.getD c []).length :=
    Nat.lt_of_lt_of_le h List.findIdx_le_length
  unfold State.freeOf get2
  rw [List.getD_eq_getElem?_getD, List.getElem?_eq_getElem hl, Option.getD_some]
  exact this

/-- Clearing a bit that was set takes one from the number of set bits. -/
theorem count_set_false (l : List Bool) (p : Nat) (h : l.getD p false = true) :
    (l.set p false).count true + 1 = l.count true := by
  induction l generalizing p with
  | nil => simp at h
  | cons b l ih =>
    cases p with
    | zero => simp at h; subst h; simp
    | succ p =>
      have := ih p (by simpa using h)
      cases b <;> simp at this ⊢ <;> omega

theorem State.avail_grant {s : State} {c : Nat} (h : 1 ≤ s.avail c) (c' : Nat) :
    (s.setFree c (s.firstFree c) false).avail c' + (if c' = c then 1 else 0) = s.avail c' := by
  have he := State.hasEntry_firstFree h
  unfold State.avail
  rw [State.setFree_free]
  unfold set2
  by_cases hc : c' = c
  · subst hc
    have hf := State.freeOf_firstFree h
    unfold State.freeOf get2 at hf
    have := count_set_false _ _ hf
    simp only [if_true]
    rw [← this]
    simp [List.getD_eq_getElem?_getD, he.1]
  · have : ¬ c = c' := fun e => hc e.symm
    simp [hc, this, List.getD_eq_getElem?_getD]

end Machine

end Sys2Proof
end

