-- ==== Sys2Proof/Laws/Decode.lean ====
section
/-!
SUPPORT. The descriptor codec: a field and a list of fields decode to what was encoded, and when the
header, the operands and a whole descriptor decode.
-/

namespace Sys2Proof

open Sys2Proof.Machine

/-! ## Fields -/

theorem le_pow_bitsFor (n : Nat) : n ≤ 2 ^ bitsFor n := by
  unfold bitsFor
  split
  · simpa using by assumption
  · have := Nat.lt_log2_self (n := n - 1)
    omega

theorem foldl_max_le (l : List Nat) (b : Nat) : b ≤ l.foldl max b ∧ ∀ x ∈ l, x ≤ l.foldl max b := by
  induction l generalizing b with
  | nil => simp
  | cons a l ih =>
    obtain ⟨h1, h2⟩ := ih (max b a)
    simp only [List.foldl_cons, List.mem_cons]
    refine ⟨by omega, ?_⟩
    rintro x (rfl | hx)
    · omega
    · exact h2 x hx

theorem RegRef.inRange_bits {cfg : Config} {r : RegRef} (h : r.inRange cfg = true) :
    r.cls < 2 ^ cfg.clsW ∧ r.arch < 2 ^ cfg.archW := by
  obtain ⟨h1, h2⟩ := RegRef.inRange_iff.mp h
  refine ⟨Nat.lt_of_lt_of_le h1 (le_pow_bitsFor _), Nat.lt_of_lt_of_le h2 (Nat.le_trans ?_ (le_pow_bitsFor _))⟩
  unfold Config.maxNa
  apply (foldl_max_le _ 0).2
  rw [List.mem_map]
  exact ⟨cfg.cls r.cls, by rw [Config.cls_of_lt h1]; exact List.getElem_mem h1, rfl⟩

theorem encodeField_lt {cfg : Config} {f : Option RegRef} (h : ∀ r ∈ f, r.inRange cfg = true) :
    encodeField cfg f < 2 ^ cfg.fieldW := by
  unfold Config.fieldW
  cases f with
  | none => exact Nat.two_pow_pos _
  | some r =>
    obtain ⟨h1, h2⟩ := RegRef.inRange_bits (h r rfl)
    have e1 : 2 ^ (1 + cfg.clsW + cfg.archW) = 2 * (2 ^ cfg.archW * 2 ^ cfg.clsW) := by rw [pow_add, pow_add]; ring
    have e2 : 2 ^ (cfg.clsW + cfg.archW) = 2 ^ cfg.archW * 2 ^ cfg.clsW := by rw [pow_add]; ring
    have : 2 ^ cfg.archW * r.cls + 2 ^ cfg.archW ≤ 2 ^ cfg.archW * 2 ^ cfg.clsW := by
      rw [← Nat.mul_succ]; exact Nat.mul_le_mul_left _ h1
    simp only [encodeField, e1, e2]
    omega

theorem decodeField_encodeField {cfg : Config} {f : Option RegRef} (h : ∀ r ∈ f, r.inRange cfg = true) :
    decodeField cfg (encodeField cfg f) = f := by
  cases f with
  | none => simp [decodeField, encodeField]
  | some r =>
    obtain ⟨h1, h2⟩ := RegRef.inRange_bits (h r rfl)
    have e2 : 2 ^ (cfg.clsW + cfg.archW) = 2 ^ cfg.archW * 2 ^ cfg.clsW := by rw [pow_add]; ring
    have hlow : r.arch + 2 ^ cfg.archW * r.cls < 2 ^ cfg.archW * 2 ^ cfg.clsW := by
      have : 2 ^ cfg.archW * r.cls + 2 ^ cfg.archW ≤ 2 ^ cfg.archW * 2 ^ cfg.clsW := by
        rw [← Nat.mul_succ]; exact Nat.mul_le_mul_left _ h1
      omega
    have a1 : encodeField cfg (some r) / 2 ^ (cfg.clsW + cfg.archW) = 1 := by
      simp only [encodeField, e2]
      rw [Nat.add_div_right _ (by positivity), Nat.div_eq_of_lt hlow]
    have a2 : encodeField cfg (some r) / 2 ^ cfg.archW = r.cls + 2 ^ cfg.clsW := by
      simp only [encodeField, e2]
      rw [show r.arch + 2 ^ cfg.archW * r.cls + 2 ^ cfg.archW * 2 ^ cfg.clsW = r.arch + 2 ^ cfg.archW * (r.cls + 2 ^ cfg.clsW) by ring,
        Nat.add_mul_div_left _ _ (by positivity), Nat.div_eq_of_lt h2, Nat.zero_add]
    have a3 : encodeField cfg (some r) % 2 ^ cfg.archW = r.arch := by
      simp only [encodeField, e2]
      rw [show r.arch + 2 ^ cfg.archW * r.cls + 2 ^ cfg.archW * 2 ^ cfg.clsW = r.arch + 2 ^ cfg.archW * (r.cls + 2 ^ cfg.clsW) by ring,
        Nat.add_mul_mod_self_left, Nat.mod_eq_of_lt h2]
    simp only [decodeField, a1, a2, a3, Nat.add_mod_right, Nat.mod_eq_of_lt h1]
    simp

theorem decodeField_mod {cfg : Config} (f : Nat) : decodeField cfg (f % 2 ^ cfg.fieldW) = decodeField cfg f := by
  have e : cfg.fieldW = (cfg.clsW + cfg.archW) + 1 := by unfold Config.fieldW; omega
  unfold decodeField
  have a1 : f % 2 ^ cfg.fieldW / 2 ^ (cfg.clsW + cfg.archW) % 2 = f / 2 ^ (cfg.clsW + cfg.archW) % 2 := by
    rw [e, pow_succ, Nat.mod_mul_right_div_self, Nat.mod_mod]
  have a2 : f % 2 ^ cfg.fieldW / 2 ^ cfg.archW % 2 ^ cfg.clsW = f / 2 ^ cfg.archW % 2 ^ cfg.clsW := by
    rw [show cfg.fieldW = cfg.archW + (cfg.clsW + 1) by unfold Config.fieldW; omega, pow_add, Nat.mod_mul_right_div_self, Nat.mod_mod_of_dvd]
    exact pow_dvd_pow 2 (Nat.le_succ _)
  have a3 : f % 2 ^ cfg.fieldW % 2 ^ cfg.archW = f % 2 ^ cfg.archW := by
    apply Nat.mod_mod_of_dvd
    exact pow_dvd_pow 2 (by unfold Config.fieldW; omega)
  rw [a1, a2, a3]

theorem decodeFields_encodeFields {cfg : Config} : ∀ (fs : List (Option RegRef)) (rest : Nat),
    (∀ r ∈ Operands.present fs, r.inRange cfg = true) →
    decodeFields cfg fs.length (encodeFields cfg fs + 2 ^ (cfg.fieldW * fs.length) * rest) = fs
  | [], _, _ => rfl
  | f :: fs, rest, h => by
    have hf : ∀ r ∈ f, r.inRange cfg = true := fun r hr => h r (by
      simp only [Option.mem_def] at hr; subst hr; simp [Operands.present])
    have hfs : ∀ r ∈ Operands.present fs, r.inRange cfg = true := fun r hr => h r (by
      simp only [Operands.present, List.mem_filterMap] at hr ⊢
      obtain ⟨a, ha, e⟩ := hr
      exact ⟨a, List.mem_cons_of_mem _ ha, e⟩)
    have hlt := encodeField_lt hf
    have e : encodeFields cfg (f :: fs) + 2 ^ (cfg.fieldW * (fs.length + 1)) * rest =
        encodeField cfg f + 2 ^ cfg.fieldW * (encodeFields cfg fs + 2 ^ (cfg.fieldW * fs.length) * rest) := by
      simp only [encodeFields, Nat.mul_succ, pow_add]; ring
    simp only [List.length_cons, decodeFields]
    rw [e]
    congr 1
    · rw [← decodeField_mod, Nat.add_mul_mod_self_left, Nat.mod_eq_of_lt hlt, decodeField_encodeField hf]
    · rw [Nat.add_mul_div_left _ _ (by positivity), Nat.div_eq_of_lt hlt, Nat.zero_add]
      exact decodeFields_encodeFields fs rest hfs

theorem encodeFields_lt {cfg : Config} : ∀ (fs : List (Option RegRef)),
    (∀ r ∈ Operands.present fs, r.inRange cfg = true) → encodeFields cfg fs < 2 ^ (cfg.fieldW * fs.length)
  | [], _ => by simp [encodeFields]
  | f :: fs, h => by
    have hf : ∀ r ∈ f, r.inRange cfg = true := fun r hr => h r (by
      simp only [Option.mem_def] at hr; subst hr; simp [Operands.present])
    have hfs : ∀ r ∈ Operands.present fs, r.inRange cfg = true := fun r hr => h r (by
      simp only [Operands.present, List.mem_filterMap] at hr ⊢
      obtain ⟨a, ha, e⟩ := hr
      exact ⟨a, List.mem_cons_of_mem _ ha, e⟩)
    have h1 := encodeField_lt hf
    have h2 := encodeFields_lt fs hfs
    simp only [encodeFields, List.length_cons, Nat.mul_succ, pow_add]
    have : 2 ^ cfg.fieldW * encodeFields cfg fs + 2 ^ cfg.fieldW ≤ 2 ^ cfg.fieldW * 2 ^ (cfg.fieldW * fs.length) := by
      rw [← Nat.mul_succ]; exact Nat.mul_le_mul_left _ h2
    rw [Nat.mul_comm (2 ^ (cfg.fieldW * fs.length))]; omega

theorem headerRoundTrip (i : Instr) : Laws.HeaderRoundTrip.Statement i := by
  cases i
  · exact Laws.HeaderRoundTrip.aluImm _
  · exact Laws.HeaderRoundTrip.aluReg _
  · exact Laws.HeaderRoundTrip.branch _ _
  · exact Laws.HeaderRoundTrip.jump _ _
  · exact Laws.HeaderRoundTrip.load _
  · exact Laws.HeaderRoundTrip.store _
  · exact Laws.HeaderRoundTrip.system _
  · exact Laws.HeaderRoundTrip.fp _

/-! ## Headers and descriptors -/

theorem Operands.check_eq_none {cfg : Config} {o : Operands} : o.check cfg = none ↔ o.wellFormed cfg = true := by
  unfold Operands.check Operands.wellFormed
  cases o.slotsOk cfg <;> cases o.rangesOk cfg <;> cases o.noWiredZero cfg <;> cases o.destsDistinct <;> simp

theorem Category.ofCode_eq_some {n : Nat} {c : Category} : Category.ofCode n = some c ↔ c.code = n ∧ n < 8 := by
  constructor
  · intro h
    unfold Category.ofCode at h
    split at h <;> first | (cases h; exact ⟨rfl, by decide⟩) | cases h
  · rintro ⟨rfl, _⟩; cases c <;> rfl

theorem decodeHeader_eq_ok {h : Nat} {c : Category} {ds : Bool} : decodeHeader h = .ok (c, ds) ↔
    c.code = h % 16 ∧ h % 16 < 8 ∧ h / 32 % 8 = 0 ∧ ds = decide (h / 16 % 2 = 1) ∧ (ds = true → c.isCti = true) := by
  unfold decodeHeader
  cases hc : Category.ofCode (h % 16) with
  | none =>
    simp only [reduceCtorEq, false_iff]
    rintro ⟨e, hl, _⟩
    rw [Category.ofCode_eq_some.mpr ⟨e, hl⟩] at hc; cases hc
  | some c' =>
    obtain ⟨e, hl⟩ := Category.ofCode_eq_some.mp hc
    have inj : ∀ a b : Category, a.code = b.code → a = b := by intro a b; cases a <;> cases b <;> decide
    dsimp only
    by_cases h1 : h / 32 % 8 = 0
    · by_cases h2 : h / 16 % 2 = 1
      · cases h3 : c'.isCti
        · simp only [h1, h2]
          simp only [ne_eq, not_true_eq_false, if_false, and_self, if_true, reduceCtorEq, false_iff]
          rintro ⟨e', _, _, rfl, hq⟩
          have := inj c c' (e'.trans e.symm); subst this; simp [h3] at hq
        · simp only [h1, h2]
          simp only [ne_eq, not_true_eq_false, if_false, and_false, reduceCtorEq]
          constructor
          · intro hx; simp at hx; obtain ⟨rfl, rfl⟩ := hx; simp [e, hl, h3]
          · rintro ⟨e', _, _, rfl, hq⟩
            have := inj c c' (e'.trans e.symm); subst this; simp
      · simp only [h1, h2]
        simp only [ne_eq, not_true_eq_false, if_false, false_and]
        constructor
        · intro hx; simp at hx; obtain ⟨rfl, rfl⟩ := hx; simp [e, hl]
        · rintro ⟨e', _, _, rfl, hq⟩
          have := inj c c' (e'.trans e.symm); subst this; simp
    · simp only [ne_eq, h1, not_false_eq_true, if_true, reduceCtorEq, false_and, and_false]

theorem decode_eq_ok {cfg : Config} {bits : Nat} {i : Instr} : decode cfg bits = .ok i ↔
    ∃ c ds, decodeHeader (bits % 256) = .ok (c, ds) ∧ (decodeOperands cfg bits).wellFormed cfg = true ∧
      i = Instr.ofParts c ds (decodeOperands cfg bits) := by
  unfold decode
  cases hh : decodeHeader (bits % 256) with
  | error e => simp
  | ok p =>
    obtain ⟨c, ds⟩ := p
    dsimp only
    cases hk : (decodeOperands cfg bits).check cfg with
    | none =>
      have := Operands.check_eq_none.mp hk
      constructor
      · intro hx; cases hx; exact ⟨c, ds, rfl, this, rfl⟩
      · rintro ⟨c', ds', hx, _, rfl⟩; cases hx; rfl
    | some e =>
      simp only [reduceCtorEq, false_iff]
      rintro ⟨c', ds', _, hw, _⟩
      rw [Operands.check_eq_none.mpr hw] at hk; cases hk

@[simp] theorem Instr.ofParts_category (c : Category) (ds : Bool) (o : Operands) : (Instr.ofParts c ds o).category = c := by cases c <;> rfl
@[simp] theorem Instr.ofParts_operands (c : Category) (ds : Bool) (o : Operands) : (Instr.ofParts c ds o).operands = o := by cases c <;> rfl
@[simp] theorem Instr.ofParts_ds (c : Category) (ds : Bool) (o : Operands) : (Instr.ofParts c ds o).ds = (c.isCti && ds) := by cases c <;> simp [Instr.ofParts, Instr.ds, Category.isCti]
theorem decodeOperands_slotsOk (cfg : Config) (bits : Nat) : (decodeOperands cfg bits).slotsOk cfg = true := by
  have : ∀ n b, (decodeFields cfg n b).length = n := by
    intro n; induction n with
    | zero => intro; rfl
    | succ n ih => intro b; simp [decodeFields, ih]
  simp [Operands.slotsOk, decodeOperands, this]

theorem decodeOperands_wellFormed (cfg : Config) (bits : Nat) :
    let o := decodeOperands cfg bits
    o.wellFormed cfg = true ↔ ¬((∃ r ∈ Operands.present (o.src ++ o.dst),
        cfg.classes.length ≤ r.cls ∨ cfg.na r.cls ≤ r.arch) ∨
      (∃ r ∈ Operands.present o.dst, cfg.zr r.cls = some r.arch) ∨
      ¬(Operands.present o.dst).Nodup) := by
  intro o
  unfold Operands.wellFormed
  have hs : o.slotsOk cfg = true := decodeOperands_slotsOk cfg bits
  rw [hs]
  simp only [Bool.true_and, Bool.and_eq_true, Operands.rangesOk, Operands.noWiredZero, Operands.destsDistinct, List.all_eq_true, decide_eq_true_eq,
    Bool.not_eq_true', Bool.eq_false_iff, ne_eq, RegRef.inRange_iff, RegRef.isWiredZero_iff]
  have hp : Operands.present (o.src ++ o.dst) = Operands.present o.src ++ Operands.present o.dst := by simp [Operands.present]
  rw [hp]
  simp only [List.mem_append, not_or, not_exists, not_and, not_not, not_le]
  constructor
  · rintro ⟨⟨⟨a, b⟩, c⟩, d⟩
    refine ⟨?_, fun r hr => ?_, d⟩
    · rintro r (hr | hr)
      · exact a r hr
      · exact b r hr
    · simpa using c r hr
  · rintro ⟨a, b, c⟩
    refine ⟨⟨⟨fun r hr => a r (.inl hr), fun r hr => a r (.inr hr)⟩, fun r hr => ?_⟩, c⟩
    simpa using b r hr

end Sys2Proof
end

