-- ==== Sys2Proof/Laws/Placement.lean ====
section
/-!
SUPPORT. What a record's destination slots give in a state whose rename arrays have their shape; the
stations and the port arbiter; the ROB after a retirement; a stored byte.
-/

namespace Sys2Proof.Machine

/-! ## The entries a destination slot names -/

theorem DstSlot.hasEntry_rat {s : State} (hs : s.renameShaped) {d : DstSlot} (hd : d.inRange s.cfg) : hasEntry s.rat d.cls d.arch := by
  have h1 := (RegRef.inRange_iff.mp hd.1)
  obtain ⟨e2, _, _, _, h⟩ := hs
  exact ⟨by rw [e2]; exact h1.1, by rw [(h _ h1.1).1]; exact h1.2⟩

theorem DstSlot.hasEntry_prf {s : State} (hs : s.renameShaped) {d : DstSlot} (hd : d.inRange s.cfg) : hasEntry s.prf d.cls d.fresh := by
  have h1 := (RegRef.inRange_iff.mp hd.1).1
  obtain ⟨_, e2, _, _, h⟩ := hs
  exact ⟨by rw [e2]; exact h1, by rw [(h _ h1).2.1]; exact hd.2.2.1⟩

theorem DstSlot.hasEntry_free_fresh {s : State} (hs : s.renameShaped) {d : DstSlot} (hd : d.inRange s.cfg) : hasEntry s.free d.cls d.fresh := by
  have h1 := (RegRef.inRange_iff.mp hd.1).1
  obtain ⟨_, _, e2, _, h⟩ := hs
  exact ⟨by rw [e2]; exact h1, by rw [(h _ h1).2.2.1]; exact hd.2.2.1⟩

theorem DstSlot.hasEntry_free_prev {s : State} (hs : s.renameShaped) {d : DstSlot} (hd : d.inRange s.cfg) : hasEntry s.free d.cls d.prev := by
  have h1 := (RegRef.inRange_iff.mp hd.1).1
  obtain ⟨_, _, e2, _, h⟩ := hs
  exact ⟨by rw [e2]; exact h1, by rw [(h _ h1).2.2.1]; exact hd.2.2.2⟩

theorem DstSlot.hasEntry_valid_fresh {s : State} (hs : s.renameShaped) {d : DstSlot} (hd : d.inRange s.cfg) : hasEntry s.valid d.cls d.fresh := by
  have h1 := (RegRef.inRange_iff.mp hd.1).1
  obtain ⟨_, _, _, e2, h⟩ := hs
  exact ⟨by rw [e2]; exact h1, by rw [(h _ h1).2.2.2.1]; exact hd.2.2.1⟩

theorem State.canRename_iff {s : State} {fs : List (Option RegRef)} : s.canRename fs = true ↔ ∀ c, need fs c ≤ s.avail c := by
  unfold State.canRename need
  simp only [List.all_eq_true, decide_eq_true_eq]
  constructor
  · intro h c
    by_cases hc : ∃ r ∈ Operands.present fs, r.cls = c
    · obtain ⟨r, hr, rfl⟩ := hc; exact h r hr
    · have : (Operands.present fs).countP (fun r => decide (r.cls = c)) = 0 := by
        rw [List.countP_eq_zero]
        intro r hr h'; exact hc ⟨r, hr, by simpa using h'⟩
      omega
  · intro h r _; exact h r.cls

/-! ## Stations -/

theorem FuClass.code_inj {k k' : FuClass} (h : k.code = k'.code) : k = k' := by
  cases k <;> cases k' <;> simp_all [FuClass.code]

theorem FuClass.code_lt (k : FuClass) : k.code < 6 := by cases k <;> decide

theorem State.leaveStation_station (s : State) (h : Handle) (p : Option (FuClass × Nat)) (k : FuClass) (i : Nat) :
    (s.leaveStation h p).station k i = if p = some (k, i) then (s.station k i).filter (· ≠ h) else s.station k i := by
  cases p with
  | none => simp [State.leaveStation]
  | some q =>
    obtain ⟨k', i'⟩ := q
    unfold State.leaveStation State.station State.setStation
    dsimp only
    rw [get2_set2]
    by_cases hq : k' = k ∧ i' = i
    · obtain ⟨rfl, rfl⟩ := hq
      by_cases hh : k'.code < s.rs.length ∧ i' < (s.rs.getD k'.code []).length
      · simp only [hh.1, hh.2, and_self, if_true]
      · have : get2 s.rs k'.code i' [] = [] := by
          unfold get2
          rw [List.getD_eq_default]
          by_contra hc
          simp only [not_le] at hc
          refine hh ⟨?_, hc⟩
          by_contra h2
          simp [List.getD_eq_getElem?_getD, h2] at hc
        rw [if_neg (fun e => hh e.2.2)]
        simp [this]
    · have hne : ¬ (some (k', i') = some (k, i)) := by simpa using fun h1 h2 => hq ⟨h1, h2⟩
      rw [if_neg hne, if_neg]
      rintro ⟨h1, h2, _⟩
      exact hq ⟨(FuClass.code_inj h1).symm, h2.symm⟩

theorem find_range_eq_some {α : Type} {p : α → Bool} {f : Nat → α} : ∀ {N : Nat} {x : α},
    ((List.range N).map f).find? p = some x ↔ ∃ n < N, x = f n ∧ p (f n) = true ∧ ∀ m < n, p (f m) = false := by
  intro N
  induction N with
  | zero => simp
  | succ N ih =>
    intro x
    rw [List.range_succ, List.map_append, List.find?_append]
    cases hf : ((List.range N).map f).find? p with
    | some y =>
      simp only [Option.some_or, Option.some.injEq]
      obtain ⟨n, hn, e, h1, h2⟩ := ih.mp hf
      constructor
      · rintro rfl; exact ⟨n, by omega, e, h1, h2⟩
      · rintro ⟨n', hn', rfl, h1', h2'⟩
        have : n' = n := by
          rcases Nat.lt_trichotomy n' n with h | h | h
          · simp [h2 _ h] at h1'
          · exact h
          · simp [h2' _ h] at h1
        rw [e, this]
    | none =>
      simp only [Option.none_or, List.map_cons, List.map_nil]
      have hnone : ∀ m < N, p (f m) = false := by
        rw [List.find?_eq_none] at hf
        intro m hm
        simpa using hf (f m) (by simp; exact ⟨m, hm, rfl⟩)
      constructor
      · intro h
        simp only [List.find?_cons] at h
        split at h
        · simp at h; exact ⟨N, by omega, h.symm, by assumption, hnone⟩
        · simp at h
      · rintro ⟨n, hn, rfl, h1, h2⟩
        have : n = N := by
          by_contra hc
          simp [hnone n (by omega)] at h1
        subst this
        simp [h1]

theorem selectStation_eq_none {s : State} {k : FuClass} : s.selectStation k = none ↔ ∀ i < s.cfg.ns k, (s.cfg.port k i).cap ≤ (s.station k i).length := by
  unfold State.selectStation
  rw [List.find?_eq_none]
  simp only [List.mem_map, List.mem_range, decide_eq_true_eq, not_lt, forall_exists_index, and_imp, forall_apply_eq_imp_iff₂]
  constructor
  · intro h i hi
    have hn : 0 < s.cfg.ns k := by omega
    have := h ((i + (s.cfg.ns k - s.rrOf k % s.cfg.ns k)) % s.cfg.ns k) (Nat.mod_lt _ hn)
    have e : (s.rrOf k + (i + (s.cfg.ns k - s.rrOf k % s.cfg.ns k)) % s.cfg.ns k) % s.cfg.ns k = i := by
      have hr := Nat.mod_lt (s.rrOf k) hn
      rw [Nat.add_mod_mod, ← Nat.mod_add_mod]
      have : s.rrOf k % s.cfg.ns k + (i + (s.cfg.ns k - s.rrOf k % s.cfg.ns k)) = i + s.cfg.ns k := by omega
      rw [this, Nat.add_mod_right, Nat.mod_eq_of_lt hi]
    rwa [e] at this
  · intro h i hi
    exact h _ (Nat.mod_lt _ (by omega))

/-! ## Records, the ROB and memory -/

theorem State.setUop_self {s : State} {h : Handle} {u : Uop} (hu : s.uop? h = some u) : s.setUop h u = s := by
  have hl := State.lt_of_uop? hu
  have : s.arena.set h (some u) = s.arena := by
    apply List.ext_getElem?
    intro j
    rw [List.getElem?_set]
    split
    · rename_i hj; subst hj
      try rw [if_pos hl]
      unfold State.uop? at hu
      rw [List.getD_eq_getElem?_getD, List.getElem?_eq_getElem hl, Option.getD_some] at hu
      rw [List.getElem?_eq_getElem hl, hu]
    · rfl
  unfold State.setUop; rw [this]

theorem State.robList_pop {s x : State} (h0 : s.robCount ≠ 0) (h1 : x.robSlots = s.robSlots) (h2 : x.cfg = s.cfg)
    (h3 : x.robHead = (s.robHead + 1) % s.cfg.robN) (h4 : x.robCount = s.robCount - 1) :
    x.robList = s.robList.tail := by
  obtain ⟨n, hn⟩ := Nat.exists_eq_succ_of_ne_zero h0
  unfold State.robList
  rw [h4, hn]
  simp only [Nat.succ_eq_add_one, Nat.add_sub_cancel, List.range_succ_eq_map, List.map_cons, List.tail_cons, List.map_map]
  apply List.map_congr_left
  intro j _
  simp only [Function.comp, State.robAt, h1, h2, h3]
  congr 1
  rw [Nat.mod_add_mod]; congr 1; omega

theorem State.commitRecord_of {s x : State} (h : x.prf = s.prf) (u : Uop) : x.commitRecord u = s.commitRecord u := by
  unfold State.commitRecord State.commitRegs
  simp [State.prfOf_of _ _ h]

theorem orderingCheck_arena_length {u : Uop} : ∀ (l : List Handle) {s t : State},
    forEach (fun l s => withUop s l fun w =>
      .next (if orderViolated u w then s.setUop l { w with loadViolation := true } else s)) l s =
        .next t → t.arena.length = s.arena.length
  | [], s, t, h => by simp at h; rw [h]
  | a :: as, s, t, h => by
    obtain ⟨s1, h1, h2⟩ := andThen_eq_next.mp h
    obtain ⟨w, hw, h1⟩ := withUop_eq_next.mp h1
    simp only [Host.Outcome.next.injEq] at h1
    rw [orderingCheck_arena_length as h2, ← h1]
    split <;> simp

theorem toBytes_getElem (e : Endian) (d n k : Nat) (hk : k < n) : (toBytes e d n)[k]'(by simpa using hk) = BitVec.ofNat 8 (d / 256 ^ (if e = .little then k else n - 1 - k)) := by
  have key : ∀ (n d k : Nat) (hk : k < n), (toBytesLE d n)[k]'(by simpa using hk) = BitVec.ofNat 8 (d / 256 ^ k) := by
    intro n
    induction n with
    | zero => intro d k hk; omega
    | succ n ih =>
      intro d k hk
      cases k with
      | zero => simp [toBytesLE]
      | succ k =>
        simp only [toBytesLE, List.getElem_cons_succ]
        rw [ih (d/256) k (by omega), Nat.div_div_eq_div_mul, Nat.pow_succ, Nat.mul_comm]
  cases e with
  | little => simpa [toBytes] using key n d k hk
  | big =>
    simp only [toBytes, List.getElem_reverse, length_toBytesLE]
    rw [key n d _ (by omega)]; simp

end Sys2Proof.Machine
end

