-- ==== Sys2Proof/Tests/Slice0.lean ====
section
/-!
SUPPORT. Tests on fixed values, from the vectors of 95_test_vectors.md and from the encodings of
30_encoding.md by hand, and for every statement with hypotheses a witness that meets them together.
-/

open Sys2Proof Sys2Proof.Machine

namespace Sys2Proof.Tests

/-! ## Well-formedness: one ill-formed micro-op for each check of 30_encoding.md R89 -/

def some3 (a b c : Option RegRef) (d : Option RegRef) : Operands := ⟨[a, b, c], [d]⟩

theorem test_check_slotCount : Operands.check Config.atReset ⟨[none], [none]⟩ = some .slotCount := by
  decide

theorem test_check_source_range :
    Operands.check Config.atReset (some3 (some ⟨4, 0⟩) none none none) = some .operandOutOfRange := by
  decide

theorem test_check_dest_range :
    Operands.check Config.atReset (some3 none none none (some ⟨2, 5⟩)) = some .operandOutOfRange := by
  decide

theorem test_check_wiredZero :
    Operands.check Config.atReset (some3 none none none (some ⟨0, 0⟩)) =
      some .destinationWiredZero := by decide

theorem test_check_duplicate :
    Operands.check { Config.atReset with maxDst := 2 }
      ⟨[none, none, none], [some ⟨3, 0⟩, some ⟨3, 0⟩]⟩ = some .duplicateDestination := by decide

theorem test_wellFormed_refuses :
    Instr.wellFormed Config.atReset (.jump true (some3 none none none (some ⟨0, 0⟩))) = false ∧
      Instr.wellFormed Config.atReset (.jump true (some3 none none none (some ⟨0, 31⟩))) = true := by
  decide

theorem test_ds_mismatch : checkDescriptor Config.atReset false false 0x12 = .error .dsMismatch := by
  decide

/-- 20_memory.md R71: whatever the category of the header byte. -/
theorem test_atomic_everyCategory :
    ∀ c < 8, checkDescriptor Config.atReset false true c = .error .atomicOperation := by
  decide

/-! ## Decoding: words written out from 30_encoding.md R81, R82, R84

Under the reset configuration a field is 8 bits: `present` in bit 7, `cls` in bits 6..5, `arch` in
bits 4..0. -/

theorem test_decode_aluImm : decode Config.atReset 0x00 = .ok (.aluImm (some3 none none none none)) := by
  decide

theorem test_decode_aluReg :
    decode Config.atReset 0x8300828101 =
      .ok (.aluReg (some3 (some ⟨0, 1⟩) (some ⟨0, 2⟩) none (some ⟨0, 3⟩))) := by decide

theorem test_decode_branch :
    decode Config.atReset 0x02 = .ok (.branch false (some3 none none none none)) ∧
      decode Config.atReset 0x808112 =
        .ok (.branch true (some3 (some ⟨0, 1⟩) (some ⟨0, 0⟩) none none)) := by decide

theorem test_decode_jump :
    decode Config.atReset 0x9f00000013 = .ok (.jump true (some3 none none none (some ⟨0, 31⟩))) := by
  decide

theorem test_decode_load :
    decode Config.atReset 0x8500008404 =
      .ok (.load (some3 (some ⟨0, 4⟩) none none (some ⟨0, 5⟩))) := by decide

theorem test_decode_store :
    decode Config.atReset 0x818405 =
      .ok (.store (some3 (some ⟨0, 4⟩) (some ⟨0, 1⟩) none none)) := by decide

theorem test_decode_system :
    decode Config.atReset 0xe00006 = .ok (.system (some3 none (some ⟨3, 0⟩) none none)) := by decide

theorem test_decode_fp :
    decode Config.atReset 0xa200a1a007 =
      .ok (.fp (some3 (some ⟨1, 0⟩) (some ⟨1, 1⟩) none (some ⟨1, 2⟩))) := by decide

/-- EN7 to EN9 and EN11 of 95_test_vectors.md, and a third reserved bit. -/
theorem test_decode_refused :
    decode Config.atReset 0x0f = .error .reservedCategory ∧
      decode Config.atReset 0x08 = .error .reservedCategory ∧
      decode Config.atReset 0x14 = .error .dsOnNonCti ∧
      decode Config.atReset 0x20 = .error .reservedHeaderBits ∧
      decode Config.atReset 0x80 = .error .reservedHeaderBits ∧
      decode Config.atReset 0x8000000000 = .error .destinationWiredZero := by decide

theorem test_encode :
    encode Config.atReset (.store (some3 (some ⟨0, 4⟩) (some ⟨0, 1⟩) none none)) = 0x818405 ∧
      encode Config.atReset (.jump true (some3 none none none (some ⟨0, 31⟩))) = 0x9f00000013 := by
  decide

/-- Words of the programs of 95_test_vectors.md under the layouts of 30_encoding.md R92:
`addiu $1, $0, 5`, `addu $3, $1, $2`, `sw $1, 0($4)`, `bne $1, $0, -4`, `jal 0x200`, and an opcode
the decoder does not know. -/
theorem test_informative_decoder :
    mipsInstr 0x24010005 = some (.aluImm (some3 (some ⟨0, 0⟩) none none (some ⟨0, 1⟩))) ∧
      mipsInstr 0x00221821 =
        some (.aluReg (some3 (some ⟨0, 1⟩) (some ⟨0, 2⟩) none (some ⟨0, 3⟩))) ∧
      mipsInstr 0xac810000 = some (.store (some3 (some ⟨0, 4⟩) (some ⟨0, 1⟩) none none)) ∧
      mipsInstr 0x1420fffc = some (.branch true (some3 (some ⟨0, 1⟩) (some ⟨0, 0⟩) none none)) ∧
      mipsInstr 0x0c000080 = some (.jump true (some3 none none none (some ⟨0, 31⟩))) ∧
      mipsInstr 0xfc000000 = none := by decide

/-! ## A configuration, records and states -/

/-- One class with `NA = 4`, `NP = 8` and a wired zero, as in 95_test_vectors.md section 2. -/
def cfgT : Config :=
  { Config.atReset with
    classes := [⟨4, 8, some 0, 32⟩], maxSrc := 2, robN := 4, fetchW := 1, decodeW := 1, allocW := 1
    fqN := 2, dqN := 2, lqN := 2, sqN := 2 }

def fresh : State := State.resetWith cfgT LoaderImage.empty

/-- A record that has been allocated. -/
def uopT (c : Category) (src : List (Option SrcSlot)) (dst : List (Option DstSlot)) (seq : Nat) : Uop :=
  { Uop.fetched 0x100 0 false ⟨false, 0⟩ 0 with
    cat := some c, src := src, dst := dst, seq := seq, tDecode := some 1, tAlloc := some 2
    state := .allocated }

/-- The same micro-op, complete since cycle 8. -/
def doneT (u : Uop) : Uop :=
  { u with
    executed := true, complete := true, tExec := some 7, tDue := some 8, tComplete := some 8
    state := .complete, station := none }

/-- `G1: new p4, prev p1`. -/
def headT : Uop := doneT (uopT .aluImm [none, none] [some ⟨0, 1, 4, 1⟩] 0)

/-- `G2: new p5, prev p2`, executed and due at cycle 10. -/
def loadT : Uop :=
  { uopT .load [some ⟨0, 1, 4⟩, none] [some ⟨0, 2, 5, 2⟩] 1 with
    executed := true, tExec := some 9, tDue := some 10, maddr := 0x1000, msize := .b4
    state := .executed }

/-- `G3: new p6, prev p3`, in station 0 of `ALU`, waiting for `p5`. -/
def waitT : Uop :=
  { uopT .aluReg [some ⟨0, 2, 5⟩, none] [some ⟨0, 3, 6, 3⟩] 2 with station := some (.alu, 0) }

/-- A micro-op of a category between decode and allocate, decoded in cycle 1. -/
def nextT (c : Category) : Uop :=
  { uopT c [none, none] [some ⟨0, 1, 0, 0⟩] 0 with tAlloc := none, state := .decoded }

def freshT : Uop := Uop.fetched 0x110 0 false ⟨false, 0⟩ 9

/-- Cycle 10 of a run: three micro-ops in the ROB, one in each queue. -/
def busy : State :=
  { fresh with
    cycle := 10
    rat := [[0, 4, 5, 6]]
    free := [[false, false, false, false, false, false, false, true]]
    valid := [[true, true, true, true, true, false, false, false]]
    arena := [some headT, some loadT, some waitT, some (nextT .aluImm), some freshT, none, none, none]
    robSlots := [0, 1, 2, 0]
    robTail := 3
    robCount := 3
    rs := [[[2], []], [[]], [[]], [[]], [[]], [[]]]
    rr := [1, 0, 0, 0, 0, 0]
    lq := [1]
    fq := [4]
    dq := [3]
    fetchPc := 0x114
    retiredCount := 5
    lastRetireCycle := 8
    seqNext := 3 }

/-- `busy` with other records of the first two entries of the ROB. -/
def busyWith (u v : Uop) : State :=
  { busy with arena := [some u, some v, some waitT, some (nextT .aluImm), some freshT, none, none, none] }

/-- `busy` with an empty fetch queue: its step does not ask the external decoder, of which nothing can
be evaluated. -/
def calm : State :=
  { busy with fq := [], arena := [some headT, some loadT, some waitT, some (nextT .aluImm), none, none, none, none] }

/-- A recovery in progress, with the three micro-ops of `busy` still to undo. -/
def unwinding : State :=
  { busy with
    arena := [some headT, some loadT, some { waitT with station := none }, none, none, none, none, none]
    rs := [[[], []], [[]], [[]], [[]], [[]], [[]]]
    lq := [], fq := [], dq := [], recovery := true, rstate := .unwind, redirectPending := some 0x200 }

/-- The same with two left. -/
def unwindingLast : State :=
  { unwinding with
    rat := [[0, 4, 5, 3]]
    free := [[false, false, false, false, false, false, true, true]]
    arena := [some headT, some loadT, none, none, none, none, none, none]
    robTail := 2, robCount := 2 }

/-- `G2: new p4, prev p2`, a ready `ALU_REG` reading the committed `G1`. -/
def readyT : Uop :=
  { uopT .aluReg [some ⟨0, 1, 1⟩, none] [some ⟨0, 2, 4, 2⟩] 0 with station := some (.alu, 0) }

/-- Cycle 10 of a run with that micro-op alone in the ROB. -/
def issuing : State :=
  { fresh with
    cycle := 10
    rat := [[0, 1, 4, 3]]
    free := [[false, false, false, false, false, true, true, true]]
    arena := [some readyT, none, none, none, none, none, none, none]
    robTail := 1, robCount := 1, rs := [[[0], []], [[]], [[]], [[]], [[]], [[]]]
    fetchPc := 0x114, lastRetireCycle := 8, seqNext := 1 }

/-- What `Exec` returns for it. -/
def readyResult : ExecResult := Config.exec readyT.view [0]

/-- The same micro-op complete, its `unmodelled` bit this. -/
def committingT (b : Bool) : Uop := { doneT readyT with unmodelled := b }

/-- `issuing` a few cycles later: the micro-op is about to commit, with this value in `p4`. -/
def committingAs (b : Bool) (v : Nat) : State :=
  { issuing with
    arena := [some (committingT b), none, none, none, none, none, none, none]
    prf := [[0, 0, 0, 0, v, 0, 0, 0]]
    rs := [[[], []], [[]], [[]], [[]], [[]], [[]]] }

/-- The bit and the value are what `Exec` returns. -/
def committing : State := committingAs readyResult.unmodelled (readyResult.value 0 0 % 2 ^ 32)

theorem committingAs_step (b : Bool) (v : Nat) : ∃ t, step (committingAs b v) = .next t := by
  cases b <;> exact ⟨_, rfl⟩

theorem fresh_renameOk : fresh.renameOk := by
  refine ⟨⟨by decide, by decide, by decide, ⟨by decide, by decide, by decide, by decide, by decide,
    by decide, by decide, by decide⟩, by decide, by decide, rfl⟩, by decide, by decide, trivial,
    by decide, by decide⟩

theorem busy_renameOk : busy.renameOk := by
  refine ⟨⟨by decide, by decide, by decide, ⟨by decide, by decide, by decide, by decide, by decide,
    by decide, by decide, by decide⟩, by decide, by decide, rfl⟩, by decide, by decide,
    ⟨rfl, rfl, rfl, trivial⟩, by decide, by decide⟩

theorem calm_renameOk : calm.renameOk := by
  refine ⟨⟨by decide, by decide, by decide, ⟨by decide, by decide, by decide, by decide, by decide,
    by decide, by decide, by decide⟩, by decide, by decide, rfl⟩, by decide, by decide,
    ⟨rfl, rfl, rfl, trivial⟩, by decide, by decide⟩

theorem unwinding_renameOk : unwinding.renameOk := by
  refine ⟨⟨by decide, by decide, by decide, ⟨by decide, by decide, by decide, by decide, by decide,
    by decide, by decide, by decide⟩, by decide, by decide, rfl⟩, by decide, by decide,
    ⟨rfl, rfl, rfl, trivial⟩, by decide, by decide⟩

theorem unwindingLast_renameOk : unwindingLast.renameOk := by
  refine ⟨⟨by decide, by decide, by decide, ⟨by decide, by decide, by decide, by decide, by decide,
    by decide, by decide, by decide⟩, by decide, by decide, rfl⟩, by decide, by decide,
    ⟨rfl, rfl, trivial⟩, by decide, by decide⟩

theorem issuing_renameOk : issuing.renameOk := by
  refine ⟨⟨by decide, by decide, by decide, ⟨by decide, by decide, by decide, by decide, by decide,
    by decide, by decide, by decide⟩, by decide, by decide, rfl⟩, by decide, by decide,
    ⟨rfl, trivial⟩, by decide, by decide⟩

/-- The one record of a ROB of one. -/
theorem eq_of_single {l : List Uop} {v u : Uop} {j : Nat} (hl : l = [v]) (h : l[j]? = some u) :
    j = 0 ∧ u = v := by
  subst hl
  rcases j with _ | j
  · simpa using h.symm
  · simp at h

theorem issuing_dataflowOk : issuing.dataflowOk := by
  refine ⟨by decide, by decide, fun j u h => ?_⟩
  obtain ⟨rfl, rfl⟩ := eq_of_single rfl h
  exact ⟨by decide, by decide, by decide, fun h => (Bool.noConfusion h : False).elim,
    fun h => (Bool.noConfusion h : False).elim⟩

theorem issuing_accessesFit : issuing.accessesFit := by
  intro j u h hc
  obtain ⟨rfl, rfl⟩ := eq_of_single rfl h
  exact absurd hc (by decide)

/-! ## One step of each meaning -/

/-- The state after a meaning, where it answers a next state. -/
def after (o : Out) : State :=
  match o with
  | .next s => s
  | _ => fresh

def atHead (w : Nat) : State := State.reset.withFetchWord 40 w

/-- RN4 of 95_test_vectors.md (its `p4` is the first free register, here `p32`). -/
theorem test_allocate_aluImm :
    let t := after (exec (.aluImm (some3 (some ⟨0, 1⟩) none none (some ⟨0, 1⟩))) (atHead 0x8100008100))
    t.ratOf 0 1 = 32 ∧ t.robCount = 1 ∧ t.station .alu 0 = [0] ∧
      ((t.uop? 0).map Uop.sources) = some [⟨0, 1, 1⟩] ∧
      ((t.uop? 0).map Uop.dests) = some [⟨0, 1, 32, 1⟩] := by decide

/-- RN3 of 95_test_vectors.md. -/
theorem test_allocate_aluReg :
    let t := after (exec (.aluReg (some3 (some ⟨0, 1⟩) (some ⟨0, 2⟩) none (some ⟨0, 3⟩)))
      (atHead 0x8300828101))
    t.ratOf 0 3 = 32 ∧ t.freeOf 0 32 = false ∧ t.freeOf 0 33 = true ∧ t.validOf 0 32 = false ∧
      ((t.uop? 0).map Uop.sources) = some [⟨0, 1, 1⟩, ⟨0, 2, 2⟩] := by decide

theorem test_allocate_branch :
    let t := after (exec (.branch true (some3 (some ⟨0, 1⟩) (some ⟨0, 0⟩) none none)) (atHead 0x808112))
    t.station .jmp 0 = [0] ∧ t.rat = State.reset.rat ∧ t.dq = [] ∧ t.seqNext = 1 := by decide

theorem test_allocate_jump :
    let t := after (exec (.jump true (some3 none none none (some ⟨0, 31⟩))) (atHead 0x9f00000013))
    t.station .jmp 0 = [0] ∧ t.ratOf 0 31 = 32 := by decide

theorem test_allocate_load :
    let t := after (exec (.load (some3 (some ⟨0, 4⟩) none none (some ⟨0, 5⟩))) (atHead 0x8500008404))
    t.station .ld 0 = [0] ∧ t.lq = [0] ∧ t.sq = [] := by decide

theorem test_allocate_store :
    let t := after (exec (.store (some3 (some ⟨0, 4⟩) (some ⟨0, 1⟩) none none)) (atHead 0x818405))
    t.station .st 0 = [0] ∧ t.sq = [0] ∧ t.lq = [] := by decide

theorem test_allocate_system :
    let t := after (exec (.system (some3 none none none none)) (atHead 0x06))
    t.station .sys 0 = [0] ∧ t.robList = [0] := by decide

theorem test_allocate_fp :
    let t := after (exec (.fp (some3 (some ⟨1, 0⟩) (some ⟨1, 1⟩) none (some ⟨1, 2⟩)))
      (atHead 0xa200a1a007))
    t.station .fp 0 = [0] ∧ t.ratOf 1 2 = 32 ∧ t.ratOf 0 2 = 2 := by decide

/-- RN8 of 95_test_vectors.md: the first publication. -/
theorem test_complete_aluReg :
    let s := { busyWith headT { loadT with cat := some .aluReg } with method := .complete 1, cycle := 12 }
    let t := after (exec (.aluReg ⟨[none, none], [some ⟨0, 2⟩]⟩) s)
    t.validOf 0 5 = true ∧ t.validOf 0 6 = false ∧
      ((t.uop? 1).map Uop.tComplete) = some (some 12) := by decide

/-- RN9 and RB1 of 95_test_vectors.md: release frees the previous register alone. -/
theorem test_retire_aluImm :
    let t := after (exec (.aluImm ⟨[none, none], [some ⟨0, 1⟩]⟩) { busy with method := .retire })
    t.freeOf 0 1 = true ∧ t.freeOf 0 4 = false ∧ t.ratOf 0 1 = 4 ∧ t.retiredCount = 6 ∧
      t.robList = [1, 2] ∧ t.uop? 0 = none := by decide

/-- ME6 of 95_test_vectors.md: a four-byte store at `0x1000` flags a load of one byte at `0x1002`. -/
theorem test_retire_store :
    let st := { doneT (uopT .store [none, none] [none] 0) with
      maddr := 0x1000, msize := .b4, mdata := 0xaabbccdd }
    let s := { busyWith st { loadT with maddr := 0x1002, msize := .b1 } with method := .retire, sq := [0] }
    let t := after (exec (.store ⟨[none, none], [none]⟩) s)
    memByte t.mem 0x1000 = 0xaa ∧ memByte t.mem 0x1003 = 0xdd ∧ memByte t.mem 0x1004 = 0 ∧
      t.sq = [] ∧ ((t.uop? 1).map Uop.loadViolation) = some true := by decide

/-- ME2 of 95_test_vectors.md: the next word is not flagged. -/
theorem test_retire_store_beside :
    let st := { doneT (uopT .store [none, none] [none] 0) with
      maddr := 0x1000, msize := .b4, mdata := 0xaabbccdd }
    let s := { busyWith st { loadT with maddr := 0x1004 } with method := .retire, sq := [0] }
    (((after (exec (.store ⟨[none, none], [none]⟩) s)).uop? 1).map Uop.loadViolation) =
      some false := by decide

/-- RN10 of 95_test_vectors.md. -/
theorem test_rollback_load :
    let s := { busy with method := .rollback, robCount := 2, robTail := 2 }
    let t := after (exec (.load ⟨[some ⟨0, 1⟩, none], [some ⟨0, 2⟩]⟩) s)
    t.ratOf 0 2 = 2 ∧ t.freeOf 0 5 = true ∧ t.freeOf 0 2 = false ∧ t.robList = [0] := by decide

/-- SC8 to SC10 of 95_test_vectors.md. -/
theorem test_predNext :
    predNext false (Uop.fetched 0x100 0 false ⟨false, 0⟩ 0) = 0x104 ∧
      predNext true (Uop.fetched 0x40 0 true ⟨false, 0⟩ 0) = 0x48 ∧
      predNext true (Uop.fetched 0x40 0 true ⟨true, 0x200⟩ 0) = 0x200 := by decide

/-- ME1 to ME5 of 95_test_vectors.md. -/
theorem test_overlap :
    overlap 0x1000 .b4 0x1002 .b1 = true ∧ overlap 0x1000 .b4 0x1004 .b4 = false ∧
      overlap 0x0fff .b2 0x1000 .b1 = true ∧ overlap 0x1000 .b2 0x1002 .b2 = false ∧
      overlap 0x1000 .b8 0x1004 .b1 = true := by decide

/-- Both byte orders of 20_memory.md R61, at the top of memory too. -/
theorem test_memory :
    memRead .big (memWrite .big [] 0x10 .b4 0xaabbccdd) 0x12 .b1 = 0xcc ∧
      memRead .little (memWrite .little [] 0x10 .b4 0xaabbccdd) 0x12 .b1 = 0xbb ∧
      memRead .little (memWrite .little [] 0xffffffff .b2 0x1234) 0 .b1 = 0x12 := by decide

/-- SC1 to SC3 of 95_test_vectors.md. -/
theorem test_selectStation :
    ({ busy with rs := [[[], [2, 1]], [[]], [[]], [[]], [[]], [[]]] }).selectStation .alu = some 0 ∧
      busy.selectStation .alu = some 1 ∧
      ({ busy with rs := [[[2, 1], [0, 3]], [[]], [[]], [[]], [[]], [[]]] }).selectStation .alu = none := by
  decide

/-- RS1 of 95_test_vectors.md. -/
theorem test_reset :
    let s := State.resetWith cfgT ⟨0x400, [[7, 0x1000]], []⟩
    s.rat = [[0, 1, 2, 3]] ∧ s.free = [[false, false, false, false, true, true, true, true]] ∧
      s.valid = [[true, true, true, true, false, false, false, false]] ∧ s.prfOf 0 0 = 0 ∧
      s.prfOf 0 1 = 0x1000 ∧ s.fetchPc = 0x400 := by decide

/-- RS2 and RS3 of 95_test_vectors.md. -/
theorem test_admitted :
    ({ cfgT with classes := [⟨4, 4, some 0, 32⟩] }).admitted = true ∧
      ({ cfgT with classes := [⟨4, 3, some 0, 32⟩] }).admitted = false ∧
      ({ cfgT with robN := 1 }).admitted = true := by decide

/-- RN13 of 95_test_vectors.md. -/
theorem test_committedTag :
    let a := uopT .aluImm [none, none] [some ⟨0, 1, 4, 1⟩] 0
    let b := uopT .aluImm [none, none] [some ⟨0, 1, 5, 4⟩] 1
    let s := { busyWith a b with rat := [[0, 5, 2, 3]], robCount := 2, robTail := 2 }
    s.committedTag 0 1 = 1 ∧ s.committedTag 0 2 = 2 := by decide

/-- A jump without a delay slot of its own in a delay slot (45_uop_categories.md R252). -/
theorem test_ctiInDelaySlot :
    let u := { headT with cat := some .branch, hasDs := true }
    let v := { doneT loadT with cat := some .jump, pc := 0x104 }
    (after (retireStage (busyWith u v))).status = .fatal (.ctiInDelaySlot 0x104) := by decide

/-- A word overwritten since its fetch is refused at commit (20_memory.md R72). -/
theorem test_staleWord :
    exec (.aluImm ⟨[none, none], [some ⟨0, 1⟩]⟩)
      { busy with method := .retire, mem := [(0x103, 1)] } = .refused (.staleWord 0x100) := rfl

/-! ## Witnesses: states and operands that meet a statement's hypotheses together -/

theorem witness_DecodeEncodeRoundTrip :
    Config.atReset.admitted = true ∧
      Instr.wellFormed Config.atReset (.store (some3 (some ⟨0, 31⟩) (some ⟨3, 1⟩) none none)) = true := by decide

theorem witness_DecodedMicroOpIsWellFormed :
    decode Config.atReset 0x808112 =
      .ok (.branch true (some3 (some ⟨0, 1⟩) (some ⟨0, 0⟩) none none)) := by decide

theorem witness_DescriptorRefusedExactly_refused :
    let d : Descriptor := ⟨0, 0x08⟩
    8 ≤ d.bits % 16 := by decide

theorem witness_DescriptorRefusedExactly_accepted :
    let d : Descriptor := ⟨0, 0x8300828101⟩
    let u := Uop.fetched 0 0 false ⟨false, 0⟩ 0
    let o := decodeOperands Config.atReset d.bits
    ¬(8 ≤ d.bits % 16 ∨ d.bits / 32 % 8 ≠ 0 ∨
      (d.bits / 16 % 2 = 1 ∧ d.bits % 16 ≠ 2 ∧ d.bits % 16 ≠ 3) ∨
      decide (d.bits / 16 % 2 = 1) ≠ u.hasDs ∨
      (∃ r ∈ Operands.present (o.src ++ o.dst),
        Config.atReset.classes.length ≤ r.cls ∨ Config.atReset.na r.cls ≤ r.arch) ∨
      (∃ r ∈ Operands.present o.dst, Config.atReset.zr r.cls = some r.arch) ∨
      ¬(Operands.present o.dst).Nodup ∨
      (fun _ => false : OpHandle → Bool) d.op = true) := by decide

theorem witness_DecodedRecordHoldsMicroOp :
    checkDescriptor Config.atReset true false 0x9f00000013 =
      .ok (.jump true (some3 none none none (some ⟨0, 31⟩))) := by decide

theorem witness_GrantTakesLowestFree :
    1 ≤ busy.avail 0 := by decide

theorem witness_RenameDestsRecordsAndMaps :
    let fs : List (Option RegRef) := [some ⟨0, 3⟩, none, some ⟨0, 1⟩]
    fresh.renameShaped ∧ (∀ r ∈ Operands.present fs, r.inRange fresh.cfg = true) ∧
      (Operands.present fs).Nodup ∧ fresh.canRename fs = true := by decide

theorem witness_RenameThenRestore :
    busy.canRename [some ⟨0, 3⟩] = true := by decide

theorem witness_PortArbiterRoundRobin :
    FuClass.sys.code < busy.rr.length := by decide

theorem witness_AllocateStageWaits_aged :
    let s : State := { busy with arena := [some headT, some loadT, some waitT, some ({ nextT .aluImm with tDecode := some 10 }), some freshT, none, none, none] }
    s.method = .allocate ∧ s.stageActive = true ∧ s.dq = [3] ∧
      (∃ u, s.uop? 3 = some u ∧ u.instr = some (.aluImm ⟨[none, none], [some ⟨0, 1⟩]⟩) ∧ ∀ d ∈ u.tDecode, s.cycle ≤ d) := by
  refine ⟨rfl, rfl, rfl, _, rfl, rfl, ?_⟩
  decide

theorem witness_AllocateStageWaits_rob :
    let s : State := { busy with robCount := 4 }
    s.method = .allocate ∧ s.stageActive = true ∧ s.dq = [3] ∧
      (∃ u, s.uop? 3 = some u ∧ u.instr = some (.aluImm ⟨[none, none], [some ⟨0, 1⟩]⟩) ∧ s.robCount = s.cfg.robN) := by
  refine ⟨rfl, rfl, rfl, _, rfl, rfl, ?_⟩
  decide

theorem witness_AllocateStageWaits_registers :
    let s : State := { busy with free := [[false, false, false, false, false, false, false, false]] }
    s.method = .allocate ∧ s.stageActive = true ∧ s.dq = [3] ∧
      (∃ u, s.uop? 3 = some u ∧ u.instr = some (.aluImm ⟨[none, none], [some ⟨0, 1⟩]⟩) ∧ s.avail 0 < need [some ⟨0, 1⟩] 0) := by
  refine ⟨rfl, rfl, rfl, _, rfl, rfl, ?_⟩
  decide

theorem witness_AllocateStageWaits_stations :
    let s : State := { busy with rs := [[[2, 0], [1, 0]], [[]], [[]], [[]], [[]], [[]]] }
    s.method = .allocate ∧ s.stageActive = true ∧ s.dq = [3] ∧
      (∃ u, s.uop? 3 = some u ∧ u.instr = some (.aluImm ⟨[none, none], [some ⟨0, 1⟩]⟩) ∧ ∀ j < s.cfg.ns .alu, (s.cfg.port .alu j).cap ≤ (s.station .alu j).length) := by
  refine ⟨rfl, rfl, rfl, _, rfl, rfl, ?_⟩
  decide

theorem witness_AllocateStageWaits_loads :
    let s : State := { busy with arena := [some headT, some loadT, some waitT, some (nextT .load), some freshT, none, none, none], lq := [1, 0] }
    s.method = .allocate ∧ s.stageActive = true ∧ s.dq = [3] ∧
      (∃ u, s.uop? 3 = some u ∧ u.instr = some (.load ⟨[none, none], [some ⟨0, 1⟩]⟩) ∧ s.cfg.lqN ≤ s.lq.length) := by
  refine ⟨rfl, rfl, rfl, _, rfl, rfl, ?_⟩
  decide

theorem witness_AllocateStageWaits_stores :
    let s : State := { busy with arena := [some headT, some loadT, some waitT, some (nextT .store), some freshT, none, none, none], sq := [1, 0] }
    s.method = .allocate ∧ s.stageActive = true ∧ s.dq = [3] ∧
      (∃ u, s.uop? 3 = some u ∧ u.instr = some (.store ⟨[none, none], [some ⟨0, 1⟩]⟩) ∧ s.cfg.sqN ≤ s.sq.length) := by
  refine ⟨rfl, rfl, rfl, _, rfl, rfl, ?_⟩
  decide

theorem witness_AllocatePlacesMicroOp :
    let s : State := { busy with arena := [some headT, some loadT, some waitT, some (nextT .aluImm), some freshT, none, none, none] }
    let o : Operands := ⟨[none, none], [some ⟨0, 1⟩]⟩
    let i : Instr := .aluImm o
    s.method = .allocate ∧ s.dq = 3 :: [] ∧ s.uop? 3 = some (nextT .aluImm) ∧ s.queuesShaped ∧
      s.cfg.ports.length = 6 ∧ (nextT .aluImm).tDecode = some 1 ∧ 1 < s.cycle ∧
      s.robCount < s.cfg.robN ∧ (∀ c, need i.operands.dst c ≤ s.avail c) ∧
      (∃ j < s.cfg.ns i.category.fu,
        (s.station i.category.fu j).length < (s.cfg.port i.category.fu j).cap) ∧
      (i.category = .load → s.lq.length < s.cfg.lqN) ∧
      (i.category = .store → s.sq.length < s.cfg.sqN) := by
  refine ⟨rfl, rfl, rfl, by decide, rfl, rfl, by decide, by decide, ?_, by decide, by decide,
    by decide⟩
  intro c
  rcases c with _ | c
  · decide
  · simp [need, Operands.present, Instr.operands]

theorem witness_AllocatePlacesMicroOp_load :
    let s : State := { busy with arena := [some headT, some loadT, some waitT, some (nextT .load), some freshT, none, none, none] }
    let o : Operands := ⟨[none, none], [some ⟨0, 1⟩]⟩
    let i : Instr := .load o
    s.method = .allocate ∧ s.dq = 3 :: [] ∧ s.uop? 3 = some (nextT .load) ∧ s.queuesShaped ∧
      s.cfg.ports.length = 6 ∧ (nextT .load).tDecode = some 1 ∧ 1 < s.cycle ∧
      s.robCount < s.cfg.robN ∧ (∀ c, need i.operands.dst c ≤ s.avail c) ∧
      (∃ j < s.cfg.ns i.category.fu,
        (s.station i.category.fu j).length < (s.cfg.port i.category.fu j).cap) ∧
      (i.category = .load → s.lq.length < s.cfg.lqN) ∧
      (i.category = .store → s.sq.length < s.cfg.sqN) := by
  refine ⟨rfl, rfl, rfl, by decide, rfl, rfl, by decide, by decide, ?_, by decide, by decide,
    by decide⟩
  intro c
  rcases c with _ | c
  · decide
  · simp [need, Operands.present, Instr.operands]

theorem witness_AllocatePlacesMicroOp_store :
    let s : State := { busy with arena := [some headT, some loadT, some waitT, some (nextT .store), some freshT, none, none, none] }
    let o : Operands := ⟨[none, none], [some ⟨0, 1⟩]⟩
    let i : Instr := .store o
    s.method = .allocate ∧ s.dq = 3 :: [] ∧ s.uop? 3 = some (nextT .store) ∧ s.queuesShaped ∧
      s.cfg.ports.length = 6 ∧ (nextT .store).tDecode = some 1 ∧ 1 < s.cycle ∧
      s.robCount < s.cfg.robN ∧ (∀ c, need i.operands.dst c ≤ s.avail c) ∧
      (∃ j < s.cfg.ns i.category.fu,
        (s.station i.category.fu j).length < (s.cfg.port i.category.fu j).cap) ∧
      (i.category = .load → s.lq.length < s.cfg.lqN) ∧
      (i.category = .store → s.sq.length < s.cfg.sqN) := by
  refine ⟨rfl, rfl, rfl, by decide, rfl, rfl, by decide, by decide, ?_, by decide, by decide,
    by decide⟩
  intro c
  rcases c with _ | c
  · decide
  · simp [need, Operands.present, Instr.operands]

theorem witness_ExecutePlainMicroOp :
    let u : Uop := { waitT with tReady := some 9 }
    let s : State := { busy with
      method := .execute 2, arena := [some headT, some loadT, some u, none, none, none, none, none] }
    s.method = .execute 2 ∧ s.uop? 2 = some u ∧ s.renameShaped ∧ (∀ d ∈ u.dests, d.inRange s.cfg) ∧
      (u.dests.map fun d => (d.cls, d.fresh)).Nodup := by decide

theorem witness_ExecuteControlTransfer :
    let u : Uop := { waitT with cat := some .jump }
    let s : State := { busy with
      method := .execute 2, arena := [some headT, some loadT, some u, none, none, none, none, none] }
    s.method = .execute 2 ∧ s.uop? 2 = some u ∧ s.renameShaped ∧ (∀ d ∈ u.dests, d.inRange s.cfg) ∧
      (u.dests.map fun d => (d.cls, d.fresh)).Nodup := by decide

theorem witness_ExecuteLoad :
    let u : Uop := { waitT with cat := some .load }
    let s : State := { busy with
      method := .execute 2, arena := [some headT, some loadT, some u, none, none, none, none, none] }
    s.method = .execute 2 ∧ s.uop? 2 = some u ∧ s.renameShaped ∧ (∀ d ∈ u.dests, d.inRange s.cfg) ∧
      (u.dests.map fun d => (d.cls, d.fresh)).Nodup := by decide

theorem witness_ExecuteStore :
    let u : Uop := { waitT with cat := some .store, dst := [none] }
    let s : State := { busy with
      method := .execute 2, arena := [some headT, some loadT, some u, none, none, none, none, none] }
    s.method = .execute 2 ∧ s.uop? 2 = some u ∧ s.renameShaped ∧ (∀ d ∈ u.dests, d.inRange s.cfg) ∧
      (u.dests.map fun d => (d.cls, d.fresh)).Nodup := by decide

/-- An entry that waits for a source. -/
theorem witness_StationsIssueUpToWidth :
    busy.wellFormed ∧ busy.stageActive = true ∧ ∃ t, executeStage busy = .next t := ⟨busy_renameOk.1, rfl, _, rfl⟩

/-- An entry that issues. -/
theorem witness_StationsIssueUpToWidth_issue :
    let s := { busy with valid := [[true, true, true, true, true, true, false, false]] }
    s.stageActive = true ∧ (∀ u ∈ s.uop? 2, s.eligible (s.stampReady u) = true) ∧
      ∃ t, executeStage s = .next t := ⟨rfl, by decide, _, rfl⟩

theorem witness_ScanOrderFollowsParameter :
    (∀ h ∈ [2, 1, 0], busy.uop? h ≠ none) ∧ busy.cfg.issueOrder = .newestFirst ∧
      ({ busy with cfg := { cfgT with issueOrder := .oldestFirst } }).scanOrder [2, 1, 0] = [0, 1, 2] := by decide

theorem witness_CompletePublishes :
    let s := { busy with method := .complete 1 }
    s.method = .complete 1 ∧ s.uop? 1 = some loadT ∧ loadT.complete = false ∧ s.renameShaped ∧
      ∀ d ∈ loadT.dests, d.inRange s.cfg := by decide

theorem witness_CompleteTwiceIsOnce :
    let s := { busy with method := .complete 1 }
    s.method = .complete 1 ∧ ∃ t, exec (.load ⟨[some ⟨0, 1⟩, none], [some ⟨0, 2⟩]⟩) s = .next t := ⟨rfl, _, rfl⟩

theorem witness_CompleteStageCompletesAllDue :
    busy.wellFormed ∧ busy.renameShaped ∧ (∀ d ∈ busy.robDests, d.inRange busy.cfg) ∧
      busy.stageActive = true ∧ loadT.due busy.cycle = true ∧ waitT.due busy.cycle = false := ⟨busy_renameOk.1, busy_renameOk.2.1, by decide, by decide, by decide, by decide⟩

theorem witness_RetirePlainMicroOp :
    let u : Uop := headT
    let s := { busyWith u loadT with method := .retire }
    s.method = .retire ∧ s.robCount ≠ 0 ∧ s.uop? (s.robAt 0) = some u ∧
      u.insn = imem s.cfg.endian s.mem u.pc ∧ u.unmodelled = false ∧ s.renameShaped ∧ ∀ d ∈ u.dests, d.inRange s.cfg := by decide

theorem witness_RetireLoad :
    let u : Uop := doneT loadT
    let s := { busyWith u loadT with method := .retire }
    s.method = .retire ∧ s.robCount ≠ 0 ∧ s.uop? (s.robAt 0) = some u ∧
      u.insn = imem s.cfg.endian s.mem u.pc ∧ u.unmodelled = false ∧ s.renameShaped ∧ ∀ d ∈ u.dests, d.inRange s.cfg := by decide

theorem witness_RetireStore :
    let u : Uop := { doneT (uopT .store [none, none] [none] 0) with maddr := 0xffffffff, msize := .b8 }
    let s := { busyWith u loadT with method := .retire, sq := [0] }
    s.method = .retire ∧ s.robCount ≠ 0 ∧ s.uop? (s.robAt 0) = some u ∧
      u.insn = imem s.cfg.endian s.mem u.pc ∧ u.unmodelled = false ∧ s.renameShaped ∧ (∀ d ∈ u.dests, d.inRange s.cfg) ∧ s.memoryCanonical ∧
      ∀ l ∈ s.lq, s.uop? l ≠ none := by decide

theorem witness_UnmodelledEndsRunAtRetire :
    let u : Uop := { headT with unmodelled := true }
    let s := { busyWith u loadT with method := .retire }
    s.method = .retire ∧ s.robCount ≠ 0 ∧ s.uop? (s.robAt 0) = some u ∧
      u.insn = imem s.cfg.endian s.mem u.pc ∧ u.unmodelled = true := by decide

theorem witness_UnmodelledEndsRunAtRetire_stale :
    let s := { busy with method := .retire, mem := [(0x103, 1)] }
    s.method = .retire ∧ s.robCount ≠ 0 ∧ s.uop? (s.robAt 0) = some headT ∧
      headT.insn ≠ imem s.cfg.endian s.mem headT.pc := by decide

theorem witness_ReadAfterWrite :
    Memory.wf [(4, 1), (0xffffffff, 2)] = true ∧
      ∀ x < MemSize.b2.bytes, ∀ y < MemSize.b1.bytes,
        (0xffffffff : Addr) + BitVec.ofNat 32 x ≠ 1 + BitVec.ofNat 32 y := by decide

theorem witness_RetireAwaitsSuccessor_absent :
    let u : Uop := { headT with cat := some .branch, hasDs := true }
    let s := { busyWith u loadT with rstate := .run, robCount := 1 }
    s.cfg.admitted = true ∧ s.status = .running ∧ s.rstate ≠ .unwind ∧ s.robCount ≠ 0 ∧
      s.uop? (s.robAt 0) = some u ∧ s.resolved u = true ∧ u.hasDs = true ∧ s.robCount < 2 := by decide

theorem witness_RetireAwaitsSuccessor_unresolved :
    let u : Uop := { headT with cat := some .branch, hasDs := true }
    let s := { busyWith u loadT with rstate := .run }
    s.cfg.admitted = true ∧ s.status = .running ∧ s.rstate ≠ .unwind ∧ s.robCount ≠ 0 ∧
      s.uop? (s.robAt 0) = some u ∧ s.resolved u = true ∧ u.hasDs = true ∧ ∃ v ∈ s.uop? (s.robAt 1), s.resolved v = false := by decide

theorem witness_RetireStopsAtUnresolvedHead_incomplete :
    let u : Uop := loadT
    let s := busyWith u loadT
    s.status = .running ∧ s.rstate ≠ .unwind ∧ s.robCount ≠ 0 ∧ s.uop? (s.robAt 0) = some u ∧
      u.complete = false := by decide

theorem witness_RetireStopsAtUnresolvedHead_sameCycle :
    let u : Uop := { headT with tComplete := some 10 }
    let s := busyWith u loadT
    s.status = .running ∧ s.rstate ≠ .unwind ∧ s.robCount ≠ 0 ∧ s.uop? (s.robAt 0) = some u ∧
      ∀ n ∈ u.tComplete, s.cycle ≤ n := by decide

theorem witness_ControlTransferInDelaySlotEndsRun_ds :
    let u : Uop := { headT with cat := some .branch, hasDs := true }
    let v : Uop := { doneT loadT with cat := some .jump, hasDs := true }
    let s := busyWith u v
    s.cfg.admitted = true ∧ s.status = .running ∧ s.rstate ≠ .unwind ∧ 2 ≤ s.robCount ∧
      s.uop? (s.robAt 0) = some u ∧ s.uop? (s.robAt 1) = some v ∧ s.resolved u = true ∧
      s.resolved v = true ∧ u.hasDs = true ∧
      (v.hasDs = true ∨ v.cat = some .branch ∨ v.cat = some .jump) := by decide

theorem witness_ControlTransferInDelaySlotEndsRun_noDs :
    let u : Uop := { headT with cat := some .branch, hasDs := true }
    let v : Uop := { doneT loadT with cat := some .branch }
    let s := busyWith u v
    s.cfg.admitted = true ∧ s.status = .running ∧ s.rstate ≠ .unwind ∧ 2 ≤ s.robCount ∧
      s.uop? (s.robAt 0) = some u ∧ s.uop? (s.robAt 1) = some v ∧ s.resolved u = true ∧
      s.resolved v = true ∧ u.hasDs = true ∧
      (v.hasDs = true ∨ v.cat = some .branch ∨ v.cat = some .jump) := by decide

theorem witness_RetireBandwidth :
    (∃ t, step calm = .next t) ∧ calm.cfg.retireW = 2 ∧
      ∃ t, step { calm with cfg := { cfgT with retireW := 1 } } = .next t := ⟨⟨_, rfl⟩, rfl, _, rfl⟩

/-- For `CommitsInProgramOrder`, `MemoryIsCommittedStores` and `CountersAndStatusProgress`. -/
theorem witness_step :
    calm.wellFormed ∧ ∃ t, step calm = .next t := ⟨calm_renameOk.1, _, rfl⟩

theorem witness_RollbackUndoesMicroOp :
    let s := { busy with method := .rollback }
    s.method = .rollback ∧ s.robCount ≠ 0 ∧ s.uop? (s.robAt (s.robCount - 1)) = some waitT ∧
      s.renameShaped ∧ (∀ d ∈ waitT.dests, d.inRange s.cfg) ∧
      (waitT.dests.map fun d => (d.cls, d.arch)).Nodup := by decide

theorem witness_ExceptionFlushesAndHoldsTarget :
    busy.wellFormed := busy_renameOk.1

theorem witness_UnwindUndoesYoungestFirst :
    unwinding.wellFormed ∧ unwinding.status = .running ∧ unwinding.recovery = true ∧
      unwinding.cfg.retireW < unwinding.robCount ∧ unwindingLast.wellFormed ∧
      unwindingLast.recovery = true ∧ unwindingLast.robCount = unwindingLast.cfg.retireW := ⟨unwinding_renameOk.1, rfl, rfl, by decide, unwindingLast_renameOk.1, rfl, rfl⟩

theorem witness_LoadViolationRecovers_head :
    let u : Uop := { doneT loadT with loadViolation := true, seq := 0 }
    let s := { busyWith u { loadT with seq := 1 } with lq := [0, 1] }
    s.wellFormed ∧ s.status = .running ∧ s.recovery = false ∧ s.robCount ≠ 0 ∧
      s.uop? (s.robAt 0) = some u ∧ s.resolved u = true ∧ u.loadViolation = true ∧ u.hasDs = false ∧
      ¬s.robCount ≤ s.cfg.retireW := by
  refine ⟨⟨by decide, by decide, by decide, ⟨by decide, by decide, by decide, by decide, by decide,
    by decide, by decide, by decide⟩, by decide, by decide, rfl⟩, ?_⟩
  decide

theorem witness_LoadViolationRecovers_slot :
    let u : Uop := { headT with cat := some .branch, hasDs := true }
    let v : Uop := { doneT loadT with loadViolation := true }
    let s := { busyWith u v with
      robCount := 2, robTail := 2, rs := [[[], []], [[]], [[]], [[]], [[]], [[]]]
      arena := [some u, some v, none, some (nextT .aluImm), some freshT, none, none, none] }
    s.wellFormed ∧ s.status = .running ∧ s.recovery = false ∧ s.robCount ≠ 0 ∧
      s.uop? (s.robAt 0) = some u ∧ s.resolved u = true ∧ v.loadViolation = true ∧ u.hasDs = true ∧
      2 ≤ s.robCount ∧ s.uop? (s.robAt 1) = some v ∧ s.resolved v = true ∧ v.isCti = false ∧
      s.robCount ≤ s.cfg.retireW := by
  refine ⟨⟨by decide, by decide, by decide, ⟨by decide, by decide, by decide, by decide, by decide,
    by decide, by decide, by decide⟩, by decide, by decide, rfl⟩, ?_⟩
  decide

theorem witness_MispredictionCommitsThenRecovers_all :
    let u : Uop := { headT with cat := some .branch, mispredict := true, redirectPc := 0x200 }
    let us : List Uop := [u]
    let s := { busyWith u loadT with cfg := { cfgT with retireW := 2 } }
    s.wellFormed ∧ s.status = .running ∧ s.recovery = false ∧ s.robCount ≠ 0 ∧
      s.uop? (s.robAt 0) = some u ∧ s.resolved u = true ∧ u.mispredict = true ∧
      (u.cat = some .branch ∨ u.cat = some .jump) ∧
      (u.hasDs = false ∧ u.loadViolation = false ∧ us = [u]) ∧
      (∀ w ∈ us, w.unmodelled = false ∧ w.insn = imem s.cfg.endian s.mem w.pc) ∧
      s.cfg.oracle = false ∧ s.cfg.maxInsns = none ∧ s.robCount - 1 ≤ s.cfg.retireW := by
  refine ⟨⟨by decide, by decide, by decide, ⟨by decide, by decide, by decide, by decide, by decide,
    by decide, by decide, by decide⟩, by decide, by decide, rfl⟩, ?_⟩
  decide

theorem witness_MispredictionCommitsThenRecovers_more :
    let u : Uop := { headT with cat := some .branch, mispredict := true, redirectPc := 0x200 }
    let us : List Uop := [u]
    let s := { busyWith u loadT with cfg := { cfgT with retireW := 1 } }
    s.wellFormed ∧ s.status = .running ∧ s.recovery = false ∧ s.robCount ≠ 0 ∧
      s.uop? (s.robAt 0) = some u ∧ s.resolved u = true ∧ u.mispredict = true ∧
      (u.cat = some .branch ∨ u.cat = some .jump) ∧
      (u.hasDs = false ∧ u.loadViolation = false ∧ us = [u]) ∧
      (∀ w ∈ us, w.unmodelled = false ∧ w.insn = imem s.cfg.endian s.mem w.pc) ∧
      s.cfg.oracle = false ∧ s.cfg.maxInsns = none ∧ ¬s.robCount - 1 ≤ s.cfg.retireW := by
  refine ⟨⟨by decide, by decide, by decide, ⟨by decide, by decide, by decide, by decide, by decide,
    by decide, by decide, by decide⟩, by decide, by decide, rfl⟩, ?_⟩
  decide

theorem witness_MispredictionCommitsThenRecovers_pair :
    let u : Uop := { headT with cat := some .branch, hasDs := true, mispredict := true, redirectPc := 0x200 }
    let v : Uop := doneT loadT
    let us : List Uop := [u, v]
    let s := busyWith u v
    s.wellFormed ∧ s.status = .running ∧ s.recovery = false ∧ s.robCount ≠ 0 ∧
      s.uop? (s.robAt 0) = some u ∧ s.resolved u = true ∧ u.mispredict = true ∧
      (u.cat = some .branch ∨ u.cat = some .jump) ∧ u.hasDs = true ∧ 2 ≤ s.robCount ∧
      s.uop? (s.robAt 1) = some v ∧ s.resolved v = true ∧ v.isCti = false ∧
      v.loadViolation = false ∧ us = [u, v] ∧
      (∀ w ∈ us, w.unmodelled = false ∧ w.insn = imem s.cfg.endian s.mem w.pc) ∧
      s.cfg.oracle = false ∧ s.cfg.maxInsns = none ∧ s.robCount - 2 ≤ s.cfg.retireW := by
  refine ⟨⟨by decide, by decide, by decide, ⟨by decide, by decide, by decide, by decide, by decide,
    by decide, by decide, by decide⟩, by decide, by decide, rfl⟩, ?_⟩
  decide

theorem witness_ResolvedHeadRetires_single :
    let u : Uop := headT
    let v : Uop := loadT
    let us : List Uop := [u]
    let s := { busyWith u v with cfg := { cfgT with retireW := 1 } }
    s.wellFormed ∧ s.codeStable ∧ s.status = .running ∧ s.recovery = false ∧ s.robCount ≠ 0 ∧
      s.uop? (s.robAt 0) = some u ∧ s.resolved u = true ∧ u.hasDs = false ∧ u.loadViolation = false ∧ us = [u] ∧
      ∀ w ∈ us, w.unmodelled = false := by
  refine ⟨⟨by decide, by decide, by decide, ⟨by decide, by decide, by decide, by decide, by decide,
    by decide, by decide, by decide⟩, by decide, by decide, rfl⟩, ?_⟩
  decide

theorem witness_ResolvedHeadRetires_pair :
    let u : Uop := { headT with cat := some .jump, hasDs := true }
    let v : Uop := doneT loadT
    let us : List Uop := [u, v]
    let s := { busyWith u v with cfg := { cfgT with retireW := 1 } }
    s.wellFormed ∧ s.codeStable ∧ s.status = .running ∧ s.recovery = false ∧ s.robCount ≠ 0 ∧
      s.uop? (s.robAt 0) = some u ∧ s.resolved u = true ∧ u.hasDs = true ∧ 2 ≤ s.robCount ∧ s.uop? (s.robAt 1) = some v ∧ s.resolved v = true ∧
      v.isCti = false ∧ v.loadViolation = false ∧ us = [u, v] ∧ s.cfg.oracle = false ∧
      s.cfg.maxInsns ≠ some (s.retiredCount + 1) ∧
      ∀ w ∈ us, w.unmodelled = false := by
  refine ⟨⟨by decide, by decide, by decide, ⟨by decide, by decide, by decide, by decide, by decide,
    by decide, by decide, by decide⟩, by decide, by decide, rfl⟩, ?_⟩
  decide

theorem witness_RecoveryRestoresCommittedMap :
    unwinding.renameOk ∧ unwinding.recovery = true ∧ unwinding.status = .running ∧
      (∃ t, retireStage unwinding = .next t ∧ t.recovery = true) ∧ unwindingLast.renameOk ∧
      ∃ t, retireStage unwindingLast = .next t ∧ t.recovery = false := ⟨unwinding_renameOk, rfl, rfl, ⟨_, rfl, rfl⟩, unwindingLast_renameOk, _, rfl, rfl⟩

theorem witness_FetchFillsQueue :
    busy.wellFormed ∧ busy.stageActive = true ∧ busy.fq.length < busy.cfg.fqN ∧
      ({ busy with pendingTarget := some 0x200 }).stageActive = true := ⟨busy_renameOk.1, rfl, by decide, rfl⟩

theorem witness_FetchFollowsPrediction :
    busy.wellFormed ∧ busy.stageActive = true ∧ busy.fq.length < busy.cfg.fqN ∧
      ({ busy with pendingTarget := some 0x200, cfg := { cfgT with fetchW := 3 } }).wellFormed ∧
      ({ busy with cfg := { cfgT with fqN := 1, dqN := 3 } }).wellFormed := by
  refine ⟨busy_renameOk.1, rfl, by decide, ?_, ?_⟩ <;>
  exact ⟨by decide, by decide, by decide, ⟨by decide, by decide, by decide, by decide, by decide,
    by decide, by decide, by decide⟩, by decide, by decide, rfl⟩

theorem witness_DecodeStageMovesOrEndsRun :
    busy.stageActive = true ∧ busy.fq = 4 :: [] ∧ busy.dq.length < busy.cfg.dqN ∧
      busy.uop? 4 = some freshT ∧ busy.cfg.decodeW = 0 + 1 := by decide

theorem witness_StepRunsDecodedMicroOp :
    let s := atHead 0x8300828101
    let i : Instr := .aluReg (some3 (some ⟨0, 1⟩) (some ⟨0, 2⟩) none (some ⟨0, 3⟩))
    s.cfg.admitted = true ∧ s.status = .running ∧ s.recovery = false ∧ s.rstate = .run ∧
      s.method = .allocate ∧ s.robCount = 0 ∧ (∀ p ∈ s.cfg.stations, s.station p.1 p.2 = []) ∧
      s.dq = 0 :: [] ∧ (∃ u, s.uop? 0 = some u ∧ u.instr = some i) ∧ s.cfg.allocW = 1 + 1 := by
  refine ⟨by decide, rfl, rfl, rfl, rfl, rfl, by decide, rfl, ⟨_, rfl, ?_⟩, rfl⟩
  decide

theorem witness_StagesObeyStatusAndRecovery :
    ({ busy with status := .terminated }).status ≠ .running ∧ unwinding.recovery = true ∧
      busy.cfg.admitted = true := by decide

theorem witness_WatchdogThenClock :
    busy.status = .running ∧ (busy.cycle : Int) - busy.lastRetireCycle < busy.cfg.watchdogN ∧
      (({ busy with cycle := 108 }).cfg.watchdogN : Int) ≤ (({ busy with cycle := 108 }).cycle : Int) -
        ({ busy with cycle := 108 }).lastRetireCycle := by decide

theorem witness_IllFormedConfigurationRefused :
    let c : ClassCfg := ⟨4, 3, some 0, 32⟩
    ({ cfgT with classes := [c] }).classes = [c] ∧ ¬c.na ≤ c.np ∧ busy.cfg.admitted = true := by decide

/-- For `ResetState` and `ResetHasRenameInvariants`. -/
theorem witness_ResetState :
    cfgT.admitted = true ∧ get2 [[7, 0x1000]] 0 1 0 = 0x1000 ∧ 0x1000 < 2 ^ cfgT.vw 0 := by decide

theorem witness_StepKeepsMemoryCanonical :
    calm.memoryCanonical ∧ ∃ t, step calm = .next t := ⟨rfl, _, rfl⟩

theorem witness_StepKeepsValuesFit :
    fresh.valuesFit ∧ ∃ t, step fresh = .next t := by
  refine ⟨fun c p => ?_, _, rfl⟩
  have : fresh.prfOf c p = 0 := by
    rcases c with _ | c
    · by_cases h : p < 8
      · revert p; decide
      · exact (List.getD_eq_default _ _ (by show 8 ≤ p; omega))
    · rfl
  rw [this]; exact Nat.two_pow_pos _

theorem witness_StepKeepsStructure :
    fresh.wellFormed ∧ busy.wellFormed ∧ unwinding.wellFormed ∧ busy.codeStable := ⟨fresh_renameOk.1, busy_renameOk.1, unwinding_renameOk.1, by decide⟩

/-- A micro-op that executes in the step. -/
theorem witness_StepKeepsDataflow :
    issuing.renameOk ∧ issuing.dataflowOk ∧ issuing.accessesFit ∧
      issuing.program = [readyT] ∧ issuing.eligible (issuing.stampReady readyT) = true ∧
      ∃ t, step issuing = .next t := ⟨issuing_renameOk, issuing_dataflowOk, issuing_accessesFit, rfl, rfl, _, rfl⟩

/-- A micro-op that commits, for `CommitsAreSequential` too. -/
theorem witness_StepKeepsDataflow_commit :
    committing.renameOk ∧ committing.dataflowOk ∧ committing.accessesFit ∧
      committing.program = [committingT readyResult.unmodelled] ∧
      committing.resolved (committingT readyResult.unmodelled) = true ∧
      ∃ t, step committing = .next t := by
  refine ⟨⟨⟨by decide, by decide, by decide, ⟨by decide, by decide, by decide, by decide, by decide,
    by decide, by decide, by decide⟩, by decide, by decide, rfl⟩, by decide, by decide,
    ⟨rfl, trivial⟩, by decide, by decide⟩, ⟨by decide, by decide, fun j u h => ?_⟩, fun j u h hc => ?_, rfl,
    rfl, committingAs_step _ _⟩ <;>
  obtain ⟨rfl, rfl⟩ := eq_of_single rfl h
  · refine ⟨by decide, by decide, by decide, by decide, fun _ _ => ⟨fun n d h => ?_, rfl,
      fun h => absurd h (by decide), fun h => absurd h (by decide), fun h => absurd h (by decide)⟩⟩
    rcases n with _ | n
    · cases h; rfl
    · simp [committingT, doneT, readyT, uopT] at h
  · exact absurd hc (by decide)

theorem witness_ValidSourcesHoldSequentialValues :
    issuing.renameOk ∧ issuing.dataflowOk ∧ issuing.program[0]? = some readyT ∧
      readyT.sources = [⟨0, 1, 1⟩] ∧ issuing.validOf 0 1 = true ∧ ∀ i < 0, ¬issuing.staleLoad i := ⟨issuing_renameOk, issuing_dataflowOk, rfl, rfl, rfl, fun i h => absurd h (Nat.not_lt_zero i)⟩

/-- For `StepKeepsOwnership` and `FreeCountFollowsOwnership`. -/
theorem witness_StepKeepsOwnership :
    calm.renameOk ∧ ∃ t, step calm = .next t := ⟨calm_renameOk, _, rfl⟩

theorem witness_StepKeepsZeroWired :
    calm.renameOk ∧ calm.zeroWired ∧ ∃ t, step calm = .next t := ⟨calm_renameOk, by decide, _, rfl⟩

theorem witness_OnlyRetirementChangesCommittedState :
    unwinding.renameOk ∧ ∃ t, step unwinding = .next t ∧ t.commits = unwinding.commits := ⟨unwinding_renameOk, _, rfl, rfl⟩

end Sys2Proof.Tests
end

section
/-!
SUPPORT. What each accessor of the state reads right after a reset (10_state.md R48).
-/

namespace Sys2Proof.Machine

/-- The constraint `NA <= NP` of 00_scope.md R7, for each class by its index. -/
theorem na_le_np_of_admitted {cfg : Config} (h : cfg.admitted = true) {c : Nat}
    (hc : c < cfg.classes.length) : cfg.na c ≤ cfg.np c := by
  have hall : cfg.classes.all Config.classOk = true := by
    simp only [Config.admitted, List.all_cons, Bool.and_eq_true] at h
    obtain ⟨-, hclasses, -⟩ := h
    exact hclasses
  have hok : Config.classOk (cfg.cls c) = true := by
    rw [Config.cls, List.getD_eq_getElem _ _ hc]
    exact List.all_eq_true.mp hall _ (List.getElem_mem hc)
  simp only [Config.classOk, Bool.and_eq_true, decide_eq_true_eq] at hok
  obtain ⟨⟨⟨-, hle⟩, -⟩, -⟩ := hok
  exact hle

/-- Reading a table that holds for every class `k` the values `f k i` of the indices `i < n k`. -/
theorem get2_map_classes {α : Type} (cfg : Config) (n : ClassCfg → Nat) (f : ClassCfg → Nat → α)
    (d : α) {c i : Nat} (hc : c < cfg.classes.length) (hi : i < n (cfg.cls c)) :
    get2 (cfg.classes.map fun k => (List.range (n k)).map (f k)) c i d = f (cfg.cls c) i := by
  rw [Config.cls, List.getD_eq_getElem _ _ hc] at hi ⊢
  simp [get2, hc, hi]

/-- The register file of a class at reset is made from the loader's list for that class. -/
theorem getD_initialPrfs (k : ClassCfg) : ∀ (ks : List ClassCfg) (regs : List (List Nat)) (c : Nat),
    c < ks.length →
      (initialPrfs ks regs).getD c [] = initialPrf (ks.getD c k) (regs.getD c [])
  | _ :: _, regs, 0, _ => by cases regs <;> rfl
  | _ :: ks, regs, c + 1, hc => by
    have ih := getD_initialPrfs k ks regs.tail c (Nat.lt_of_succ_lt_succ hc)
    cases regs <;> exact ih

section
variable (cfg : Config) (img : LoaderImage)

theorem State.resetWith_ratOf {c a : Nat} (hc : c < cfg.classes.length) (ha : a < cfg.na c) :
    (State.resetWith cfg img).ratOf c a = a := by
  have h := get2_map_classes cfg ClassCfg.na (fun _ i => i) 0 hc ha
  simpa [State.ratOf, State.resetWith] using h

theorem State.resetWith_freeOf {c p : Nat} (hc : c < cfg.classes.length) (hp : p < cfg.np c) :
    (State.resetWith cfg img).freeOf c p = decide (cfg.na c ≤ p) :=
  get2_map_classes cfg ClassCfg.np (fun k i => decide (k.na ≤ i)) false hc hp

theorem State.resetWith_validOf {c p : Nat} (hc : c < cfg.classes.length) (hp : p < cfg.np c) :
    (State.resetWith cfg img).validOf c p = decide (p < cfg.na c) :=
  get2_map_classes cfg ClassCfg.np (fun k i => decide (i < k.na)) false hc hp

theorem State.resetWith_prfOf {c p : Nat} (hc : c < cfg.classes.length) (hp : p < cfg.np c) :
    (State.resetWith cfg img).prfOf c p =
      if p < cfg.na c ∧ cfg.zr c ≠ some p then get2 img.regs c p 0 % 2 ^ cfg.vw c else 0 := by
  have hfile : (State.resetWith cfg img).prf.getD c [] = initialPrf (cfg.cls c) (img.regs.getD c []) :=
    getD_initialPrfs _ _ _ _ hc
  have hlen : p < (cfg.cls c).np := hp
  rw [State.prfOf, get2, hfile, initialPrf]
  simp [hlen, get2, Config.na, Config.zr, Config.vw]

@[simp] theorem State.resetWith_station (k : FuClass) (i : Nat) :
    (State.resetWith cfg img).station k i = [] := by
  show ((cfg.ports.map fun ps => ps.map fun _ => ([] : List Handle)).getD k.code []).getD i [] = []
  by_cases hk : k.code < cfg.ports.length
  · by_cases hi : i < cfg.ports[k.code].length <;> simp [hk, hi]
  · simp [hk]

@[simp] theorem State.resetWith_rrOf (k : FuClass) :
    (State.resetWith cfg img).rrOf k = 0 := by
  show (cfg.ports.map fun _ => 0).getD k.code 0 = 0
  by_cases hk : k.code < cfg.ports.length <;> simp [hk]

@[simp] theorem State.resetWith_uop? (h : Handle) :
    (State.resetWith cfg img).uop? h = none := by
  show (List.replicate cfg.arenaN none).getD h none = none
  by_cases hh : h < cfg.arenaN <;> simp [hh]

end

/-- Settles O48: the rename arrays, stations, arbiters and arena by the lemma about each accessor,
the scalar fields by computation. -/
theorem resetState : Obligations.ResetState := by
  intro cfg img hadm s
  refine ⟨rfl, rfl, fun c hc => ?_, rfl, rfl, rfl, State.resetWith_station cfg img,
    State.resetWith_rrOf cfg img, rfl, rfl, rfl, rfl, rfl, rfl, rfl, rfl, rfl, rfl, rfl, rfl, rfl,
    State.resetWith_uop? cfg img, rfl⟩
  have hle : cfg.na c ≤ cfg.np c := na_le_np_of_admitted hadm hc
  refine ⟨fun a ha => State.resetWith_ratOf cfg img hc ha,
    fun p hp => ⟨State.resetWith_freeOf cfg img hc hp, State.resetWith_validOf cfg img hc hp⟩,
    fun p hp => ?_⟩
  have hprf := State.resetWith_prfOf cfg img hc (Nat.lt_of_lt_of_le hp hle)
  refine ⟨fun hz => ?wiredZero, fun hz v hv hfit => ?loaded⟩
  case wiredZero => simpa [hz] using hprf
  case loaded => simpa [hp, hz, hv, Nat.mod_eq_of_lt hfit] using hprf

end Sys2Proof.Machine
end

section
namespace Sys2Proof.Machine

/-! ## Overlapping accesses (20_memory.md R67) -/

theorem MemSize.bytes_pos (n : MemSize) : 0 < n.bytes := by cases n <;> decide

theorem overlap_iff {a1 a2 : Addr} {n1 n2 : MemSize} :
    overlap a1 n1 a2 n2 = true ↔
      a1.toNat < a2.toNat + n2.bytes ∧ a2.toNat < a1.toNat + n1.bytes := by
  simp [overlap]

/-- Settles O25: no access is empty, so of two ranges that each start before the other ends, the
later start is a byte of both. -/
theorem overlapIffByteShared : Obligations.OverlapIffByteShared := by
  intro a1 n1 a2 n2
  rw [overlap_iff]
  constructor
  · rintro ⟨h12, h21⟩
    have hstart1 : a1.toNat < a1.toNat + n1.bytes := Nat.lt_add_of_pos_right n1.bytes_pos
    have hstart2 : a2.toNat < a2.toNat + n2.bytes := Nat.lt_add_of_pos_right n2.bytes_pos
    exact ⟨max a1.toNat a2.toNat, le_max_left _ _, max_lt hstart1 h21, le_max_right _ _,
      max_lt h12 hstart2⟩
  · rintro ⟨x, hlow1, hhigh1, hlow2, hhigh2⟩
    exact ⟨hlow1.trans_lt hhigh2, hlow2.trans_lt hhigh1⟩

end Sys2Proof.Machine
end

section
namespace Sys2Proof.Machine

/-! ## Renaming and at once restoring (40_rename.md R113) -/

theorem need_some (r : RegRef) (fs : List (Option RegRef)) (c : Nat) :
    need (some r :: fs) c = need fs c + if c = r.cls then 1 else 0 := by
  simp [need, Operands.present, List.countP_cons, eq_comm]

/-- What can be renamed has a free register for its first destination. -/
theorem State.one_le_avail_of_canRename {s : State} {r : RegRef} {fs : List (Option RegRef)}
    (h : s.canRename (some r :: fs) = true) : 1 ≤ s.avail r.cls := by
  have hneed := State.canRename_iff.mp h r.cls
  rw [need_some, if_pos rfl] at hneed
  omega

/-- The rename of the first destination leaves registers enough for the rest: it takes one of its
own class only, which `Need` counted for it. -/
theorem State.canRename_renameDest {s : State} {r : RegRef} {fs : List (Option RegRef)}
    (h : s.canRename (some r :: fs) = true) : (s.renameDest r).1.canRename fs = true := by
  rw [State.canRename_iff]
  intro c
  have hneed := State.canRename_iff.mp h c
  have hgrant : (s.renameDest r).1.avail c + (if c = r.cls then 1 else 0) = s.avail c :=
    State.avail_grant (State.one_le_avail_of_canRename h) c
  rw [need_some] at hneed
  omega

/-- Restoring one destination right after its rename gives the alias table back: the slot records
the mapping it replaced. -/
theorem rat_restore_renameDest (s : State) (r : RegRef) :
    set2 (s.renameDest r).1.rat r.cls r.arch (s.ratOf r.cls r.arch) = s.rat :=
  set2_restore s.rat r.cls r.arch (s.firstFree r.cls) 0

/-- Restoring one destination right after its rename gives the free list back: the register it was
given had been free. -/
theorem free_restore_renameDest {s : State} {r : RegRef} (h : 1 ≤ s.avail r.cls) :
    set2 (s.renameDest r).1.free r.cls (s.firstFree r.cls) true = s.free := by
  have hfree : get2 s.free r.cls (s.firstFree r.cls) false = true := State.freeOf_firstFree h
  rw [← hfree]
  exact set2_restore s.free r.cls (s.firstFree r.cls) false false

/-- Settles O8, by induction on the slots: the slots after the first are restored before it, which
leaves the tables as its own rename made them, and putting its entries back undoes that. -/
theorem renameThenRestore : Obligations.RenameThenRestore := by
  intro s fs
  induction fs generalizing s with
  | nil => exact fun _ => ⟨rfl, rfl⟩
  | cons f fs ih =>
    intro hcan
    cases f with
    | none => exact ih s hcan
    | some r =>
      obtain ⟨hrat, hfree⟩ := ih (s.renameDest r).1 (State.canRename_renameDest hcan)
      constructor
      · calc
          _ = set2 (s.renameDest r).1.rat r.cls r.arch (s.ratOf r.cls r.arch) :=
            congrArg (set2 · r.cls r.arch (s.ratOf r.cls r.arch)) hrat
          _ = s.rat := rat_restore_renameDest s r
      · calc
          _ = set2 (s.renameDest r).1.free r.cls (s.firstFree r.cls) true :=
            congrArg (set2 · r.cls (s.firstFree r.cls) true) hfree
          _ = s.free := free_restore_renameDest (State.one_le_avail_of_canRename hcan)

/-! ## Completing twice (40_rename.md R109) -/

/-- Completing leaves a record that is complete, in its flag and in its lifecycle state. -/
theorem completeOp_completes {h : Handle} {s t : State} (ht : completeOp h s = .next t) :
    ∃ u, t.uop? h = some u ∧ u.complete = true ∧ u.state = .complete := by
  obtain ⟨u, hu, rfl⟩ := completeOp_eq_next.mp ht
  have hlt : h < s.arena.length := State.lt_of_uop? hu
  by_cases hc : u.complete = true
  · exact ⟨{ u with state := .complete }, by simp [hc, State.uop?_setUop, hlt], hc, rfl⟩
  · exact ⟨{ u.published s.cycle with state := .complete },
      by simp [hc, State.uop?_setUop, hlt], rfl, rfl⟩

theorem completeOp_method {h : Handle} {s t : State} (ht : completeOp h s = .next t) :
    t.method = s.method := by
  obtain ⟨u, -, rfl⟩ := completeOp_eq_next.mp ht
  split <;> simp

/-- Completing a record that is complete writes back what it reads. -/
theorem completeOp_of_complete {h : Handle} {s : State} {u : Uop} (hu : s.uop? h = some u)
    (hc : u.complete = true) (hstate : u.state = .complete) : completeOp h s = .next s := by
  have hsame : { u with state := .complete } = u := by rw [← hstate]
  rw [completeOp_eq_next]
  exact ⟨u, hu, by rw [if_pos hc, hsame, State.setUop_self hu]⟩

/-- Settles O19: the first call leaves the record complete, and neither the record nor the method
asked for depends on the cycle. -/
theorem completeTwiceIsOnce : Obligations.CompleteTwiceIsOnce := by
  intro i j s t h now hm ht
  rw [exec_complete i s h hm] at ht
  obtain ⟨u, hu, hc, hstate⟩ := completeOp_completes ht
  have hmethod : t.method = .complete h := (completeOp_method ht).trans hm
  rw [exec_complete j { t with cycle := now } h hmethod]
  exact completeOp_of_complete hu hc hstate

end Sys2Proof.Machine
end

section
namespace Sys2Proof.Machine

/-! ## The watchdog and the clock (44_cycle.md R228, R229) -/

theorem clockAdvance_of_not_running {s : State} (hrun : s.status ≠ .running) :
    clockAdvance s = s := if_neg hrun

theorem clockAdvance_of_watchdog {s : State} (hrun : s.status = .running)
    (hdue : s.lastRetireCycle + s.cfg.watchdogN ≤ s.cycle) :
    clockAdvance s = s.raise (.watchdog s.cycle s.lastRetireCycle) := by
  rw [clockAdvance, if_pos hrun, if_pos hdue]

theorem clockAdvance_of_not_watchdog {s : State} (hrun : s.status = .running)
    (hdue : ¬s.lastRetireCycle + s.cfg.watchdogN ≤ s.cycle) : clockAdvance s = s.tick := by
  rw [clockAdvance, if_pos hrun, if_neg hdue]

/-- Settles O45, by the three cases of the clock: the statement's difference of cycles, an integer
that may be negative, is compared with `WATCHDOG_N` as the model's sum of naturals is. -/
theorem watchdogThenClock : Obligations.WatchdogThenClock := by
  refine fun s => ⟨clockAdvance_of_not_running, fun hrun hdue => ?expired, fun hrun hdue => ?ticks⟩
  case expired => exact clockAdvance_of_watchdog hrun (by omega)
  case ticks => exact clockAdvance_of_not_watchdog hrun (by omega)

end Sys2Proof.Machine
end

section
namespace Sys2Proof

open Sys2Proof.Machine

/-! ## The descriptor codec (30_encoding.md R81 to R89) -/

/-- The header byte of an encoded micro-op stands in the low 8 bits. -/
theorem encode_mod (cfg : Config) (i : Instr) : encode cfg i % 256 = encodeHeader i := by
  obtain ⟨-, hlt, -⟩ := headerRoundTrip i
  rw [encode, Nat.add_mul_mod_self_left, Nat.mod_eq_of_lt hlt]

/-- The operand fields of an encoded micro-op stand above the header byte. -/
theorem encode_div (cfg : Config) (i : Instr) : encode cfg i / 256 =
    encodeFields cfg i.operands.src +
      2 ^ (cfg.fieldW * cfg.maxSrc) * encodeFields cfg i.operands.dst := by
  obtain ⟨-, hlt, -⟩ := headerRoundTrip i
  rw [encode, Nat.add_mul_div_left _ _ (by decide), Nat.div_eq_of_lt hlt, Nat.zero_add]

/-- What well-formed operands are, check by check. -/
theorem Operands.wellFormed_iff {cfg : Config} {o : Operands} : o.wellFormed cfg = true ↔
    (o.src.length = cfg.maxSrc ∧ o.dst.length = cfg.maxDst) ∧
    ((∀ r ∈ present o.src, r.inRange cfg = true) ∧ ∀ r ∈ present o.dst, r.inRange cfg = true) ∧
    (∀ r ∈ present o.dst, r.isWiredZero cfg = false) ∧ (present o.dst).Nodup := by
  simp [wellFormed, slotsOk, rangesOk, noWiredZero, destsDistinct, and_assoc]

/-- The operand fields of an encoded well-formed micro-op are read back. -/
theorem decodeOperands_encode {cfg : Config} {i : Instr} (hw : i.wellFormed cfg = true) :
    decodeOperands cfg (encode cfg i) = i.operands := by
  obtain ⟨⟨hsrc, hdst⟩, ⟨hsrcs, hdsts⟩, -, -⟩ := Operands.wellFormed_iff.mp hw
  have hsrcField := decodeFields_encodeFields i.operands.src (encodeFields cfg i.operands.dst) hsrcs
  have hdstField := decodeFields_encodeFields i.operands.dst 0 hdsts
  have hlt := encodeFields_lt i.operands.src hsrcs
  rw [hsrc] at hsrcField hlt
  rw [hdst, Nat.mul_zero, Nat.add_zero] at hdstField
  rw [decodeOperands, encode_div, hsrcField, Nat.add_mul_div_left _ _ (Nat.two_pow_pos _),
    Nat.div_eq_of_lt hlt, Nat.zero_add, hdstField]

/-- Settles O1: the header, the operand fields and the choice of the constructor each come back. -/
theorem decodeEncodeRoundTrip : Obligations.DecodeEncodeRoundTrip := by
  intro cfg i _ hw
  obtain ⟨hheader, -, hparts⟩ := headerRoundTrip i
  have hops := decodeOperands_encode hw
  refine decode_eq_ok.mpr ⟨i.category, i.ds, ?_, ?_, ?_⟩
  · rw [encode_mod, hheader]
  · rw [hops]; exact hw
  · rw [hops, hparts]

/-- What the decoder accepts, bit by bit. -/
theorem decode_eq_ok_bits {cfg : Config} {bits : Nat} {i : Instr} : decode cfg bits = .ok i ↔
    ∃ c : Category, c.code = bits % 16 ∧ bits / 32 % 8 = 0 ∧
      (bits / 16 % 2 = 1 → c.isCti = true) ∧ (decodeOperands cfg bits).wellFormed cfg = true ∧
      i = Instr.ofParts c (decide (bits / 16 % 2 = 1)) (decodeOperands cfg bits) := by
  have hcat : bits % 256 % 16 = bits % 16 := by omega
  have hreserved : bits % 256 / 32 % 8 = bits / 32 % 8 := by omega
  have hds : bits % 256 / 16 % 2 = bits / 16 % 2 := by omega
  simp only [decode_eq_ok, decodeHeader_eq_ok, hcat, hreserved, hds]
  constructor
  · rintro ⟨c, ds, ⟨hc, -, hr, rfl, hcti⟩, hw, rfl⟩
    exact ⟨c, hc, hr, by simpa using hcti, hw, rfl⟩
  · rintro ⟨c, hc, hr, hcti, hw, rfl⟩
    have hlt : c.code < 8 := by cases c <;> decide
    exact ⟨c, _, ⟨hc, by omega, hr, rfl, by simpa using hcti⟩, hw, rfl⟩

/-- Settles O2. -/
theorem decodedMicroOpIsWellFormed : Obligations.DecodedMicroOpIsWellFormed := by
  intro cfg bits i h
  obtain ⟨c, hc, hr, hcti, hw, rfl⟩ := decode_eq_ok_bits.mp h
  refine ⟨by simpa [Instr.wellFormed] using hw, by simpa using hc, hr, ?_, by simp⟩
  simp only [Instr.ofParts_ds, Bool.and_eq_true, decide_eq_true_eq]
  exact ⟨fun h => h.2, fun h => ⟨hcti h, h⟩⟩

/-- What the decode-stage check accepts: what the decoder accepts, if the pre-decoder and the
Operation agree. -/
theorem checkDescriptor_eq_ok {cfg : Config} {hasDs atomic : Bool} {bits : Nat} {i : Instr} :
    checkDescriptor cfg hasDs atomic bits = .ok i ↔
      decode cfg bits = .ok i ∧ i.ds = hasDs ∧ atomic = false := by
  unfold checkDescriptor
  cases hd : decode cfg bits with
  | error e => simp
  | ok j =>
    by_cases hds : j.ds = hasDs <;> cases atomic <;> simp [hds]
    · rintro rfl; exact hds
    all_goals rintro rfl h; exact absurd h hds

/-- A control transfer by its category code. -/
theorem Category.isCti_iff (c : Category) : c.isCti = true ↔ c.code = 2 ∨ c.code = 3 := by
  cases c <;> decide

/-- The checks of R89 and R71 on a descriptor, as O3 lists them. -/
def descriptorBad (cfg : Config) (hasDs atomic : Bool) (bits : Nat) : Prop :=
  8 ≤ bits % 16 ∨ bits / 32 % 8 ≠ 0 ∨
  (bits / 16 % 2 = 1 ∧ bits % 16 ≠ 2 ∧ bits % 16 ≠ 3) ∨
  decide (bits / 16 % 2 = 1) ≠ hasDs ∨
  (∃ r ∈ Operands.present ((decodeOperands cfg bits).src ++ (decodeOperands cfg bits).dst),
    cfg.classes.length ≤ r.cls ∨ cfg.na r.cls ≤ r.arch) ∨
  (∃ r ∈ Operands.present (decodeOperands cfg bits).dst, cfg.zr r.cls = some r.arch) ∨
  ¬(Operands.present (decodeOperands cfg bits).dst).Nodup ∨
  atomic = true

/-- A descriptor that passes no check of `descriptorBad` is accepted. -/
theorem checkDescriptor_of_not_bad {cfg : Config} {hasDs atomic : Bool} {bits : Nat}
    (h : ¬descriptorBad cfg hasDs atomic bits) :
    ∃ i, checkDescriptor cfg hasDs atomic bits = .ok i := by
  simp only [descriptorBad, not_or] at h
  obtain ⟨hcat, hres, hcti, hds, hrange, hzero, hdup, hatomic⟩ := h
  have hlt : bits % 16 < 8 := by omega
  obtain ⟨c, hc⟩ : ∃ c, Category.ofCode (bits % 16) = some c := by
    generalize bits % 16 = n at hlt
    interval_cases n <;> exact ⟨_, rfl⟩
  have hcode := (Category.ofCode_eq_some.mp hc).1
  have hw : (decodeOperands cfg bits).wellFormed cfg = true :=
    (decodeOperands_wellFormed cfg bits).mpr (by simp only [not_or]; exact ⟨hrange, hzero, hdup⟩)
  have hisCti : bits / 16 % 2 = 1 → c.isCti = true := fun h =>
    (Category.isCti_iff c).mpr (by rw [hcode]; by_contra hn; exact hcti ⟨h, by omega, by omega⟩)
  refine ⟨_, checkDescriptor_eq_ok.mpr ⟨decode_eq_ok_bits.mpr
    ⟨c, hcode, not_not.mp hres, hisCti, hw, rfl⟩, ?_, by simpa using hatomic⟩⟩
  rw [Instr.ofParts_ds, ← not_not.mp hds]
  by_cases h : bits / 16 % 2 = 1
  · simp [h, hisCti h]
  · simp [h]

/-- A descriptor that fails a check of `descriptorBad` is refused. -/
theorem not_bad_of_checkDescriptor {cfg : Config} {hasDs atomic : Bool} {bits : Nat} {i : Instr}
    (h : checkDescriptor cfg hasDs atomic bits = .ok i) : ¬descriptorBad cfg hasDs atomic bits := by
  obtain ⟨hd, hds, hatomic⟩ := checkDescriptor_eq_ok.mp h
  obtain ⟨c, hc, hr, hcti, hw, rfl⟩ := decode_eq_ok_bits.mp hd
  have hops := (decodeOperands_wellFormed cfg bits).mp hw
  simp only [not_or] at hops
  have hlt : c.code < 8 := by cases c <;> decide
  simp only [descriptorBad, not_or]
  refine ⟨by omega, not_not.mpr hr, ?_, ?_, hops.1, hops.2.1, hops.2.2, by simp [hatomic]⟩
  · rintro ⟨h1, h2, h3⟩
    have := (Category.isCti_iff c).mp (hcti h1)
    omega
  · rw [← hds, Instr.ofParts_ds]
    by_cases h : bits / 16 % 2 = 1
    · simp [h, hcti h]
    · simp [h]

/-- Settles O3: what is refused is what is `descriptorBad`, and what is not is moved on. -/
theorem descriptorRefusedExactly : Obligations.DescriptorRefusedExactly := by
  intro isAtomic s h u d
  refine ⟨fun hbad => ?refused, fun hgood => ?accepted⟩
  case refused =>
    unfold decodeAs
    dsimp only
    cases hc : checkDescriptor s.cfg u.hasDs (isAtomic d.op) d.bits with
    | error e => rfl
    | ok i => exact absurd hbad (not_bad_of_checkDescriptor hc)
  case accepted =>
    obtain ⟨i, hi⟩ := checkDescriptor_of_not_bad hgood
    obtain ⟨hd, hds, -⟩ := checkDescriptor_eq_ok.mp hi
    obtain ⟨hw, hcat, -, -, hops⟩ := decodedMicroOpIsWellFormed _ _ _ hd
    exact ⟨i, hcat, hds, hops, hw, by simp only [decodeAs, hi]⟩

/-- Settles O4, by evaluating the decoder on the written words. -/
theorem tableWordsDecode : Obligations.TableWordsDecode := by
  unfold Obligations.TableWordsDecode
  decide

/-- A micro-op is built again from its category, its `ds` bit and its operand fields. -/
theorem Instr.ofParts_self (i : Instr) : Instr.ofParts i.category i.ds i.operands = i :=
  (headerRoundTrip i).2.2

/-- The record decode writes names the operand fields of the descriptor. -/
@[simp] theorem Uop.decodedAs_operands (u : Uop) (op : OpHandle) (i : Instr) (now : Nat) :
    (u.decodedAs op i now).operands = i.operands := by
  have hid : ∀ {β : Type} (fs : List (Option RegRef)) (f : RegRef → β) (g : β → RegRef),
      (∀ r, g (f r) = r) → (fs.map fun o => o.map f).map (fun o => o.map g) = fs := by
    intro β fs f g hgf
    rw [List.map_map]
    conv_rhs => rw [← List.map_id fs]
    exact List.map_congr_left fun o _ => by cases o <;> simp [hgf]
  simp only [Uop.operands, Uop.decodedAs]
  rw [hid _ _ _ fun _ => rfl, hid _ _ _ fun _ => rfl]

/-- Settles O5: the record keeps the category and the operand fields, and the check compared `ds`
with the record's `has_ds`. -/
theorem decodedRecordHoldsMicroOp : Obligations.DecodedRecordHoldsMicroOp := by
  intro cfg u op atomic bits now i h
  obtain ⟨-, hds, -⟩ := checkDescriptor_eq_ok.mp h
  have hhasDs : (u.decodedAs op i now).hasDs = i.ds := hds.symm
  simp only [Uop.instr, Uop.decodedAs_operands, hhasDs]
  exact congrArg some i.ofParts_self

end Sys2Proof
end

section
namespace Sys2Proof.Machine

/-! ## What one retirement writes (41_rob_commit.md R138 to R140) -/

/-- The memory part of retire leaves the number of records. -/
theorem commitMemory_arena_length {tbl : LsTable} {h : Handle} {u : Uop} {s t : State}
    (ht : commitMemory tbl h u s = .next t) : t.arena.length = s.arena.length := by
  cases tbl with
  | neither => simp [commitMemory] at ht; rw [ht]
  | loads => simp [commitMemory] at ht; subst ht; rfl
  | stores =>
    obtain ⟨s1, h1, h2⟩ := andThen_eq_next.mp ht
    simp only [Host.Outcome.next.injEq] at h2
    subst h2
    have e := orderingCheck_arena_length (u := u) _ (by unfold orderingCheck at h1; exact h1)
    exact e

/-- The memory part of retire writes the memory, the tables and the records. -/
theorem commitMemory_next {tbl : LsTable} {h : Handle} {u : Uop} {s t : State}
    (ht : commitMemory tbl h u s = .next t) : t = { s with
      mem := if tbl = .stores then memWrite s.cfg.endian s.mem u.maddr u.msize u.mdata else s.mem
      lq := if tbl = .loads then s.lq.filter (· ≠ h) else s.lq
      sq := if tbl = .stores then s.sq.filter (· ≠ h) else s.sq
      arena := t.arena } := by
  have hmem := commitMemory_mem ht
  obtain ⟨hlq, hsq⟩ := commitMemory_tables ht
  rw [← hmem, ← hlq, ← hsq]
  exact commitMemory_eq ht

/-- The end of a retirement writes the log, the run and the head's record. -/
theorem finishRetire_writes (h : Handle) (u : Uop) (s : State) : finishRetire h u s = { s with
    arena := (finishRetire h u s).arena
    log := (finishRetire h u s).log
    status := (finishRetire h u s).status
    lastMatch := (finishRetire h u s).lastMatch } := by
  unfold finishRetire
  dsimp only
  split <;> rfl

/-- A commit of the head: everything a retirement writes, the oracle's verdict and the records
apart. -/
theorem retireOp_commit {tbl : LsTable} {s t : State} {u : Uop} (h : retireOp tbl s = .next t)
    (hu : s.uop? (s.robAt 0) = some u) (hm : u.unmodelled = false) : t = { s with
      free := (releaseDests s u.dst).free
      mem := if tbl = .stores then memWrite s.cfg.endian s.mem u.maddr u.msize u.mdata else s.mem
      lq := if tbl = .loads then s.lq.filter (· ≠ s.robAt 0) else s.lq
      sq := if tbl = .stores then s.sq.filter (· ≠ s.robAt 0) else s.sq
      robHead := (s.robHead + 1) % s.cfg.robN
      robCount := s.robCount - 1
      retiredCount := s.retiredCount + 1
      lastRetireCycle := s.cycle
      arena := t.arena
      log := t.log
      status := t.status
      lastMatch := t.lastMatch } := by
  obtain ⟨-, v, hv, -, ⟨hm', -⟩ | ⟨-, s1, h1, rfl⟩⟩ := retireOp_eq_next.mp h
  · rw [hu] at hv; cases hv; rw [hm] at hm'; cases hm'
  · rw [hu] at hv; cases hv
    have e := commitMemory_next h1
    have er : releaseDests s u.dst = { s with free := (releaseDests s u.dst).free } :=
      releaseDests_eq s u.dst
    rw [er] at e
    dsimp only at e
    generalize s1.arena = a at e
    subst e
    exact finishRetire_writes _ _ _

/-- The commit records in a log. -/
def commitsOf (l : List EnvEvent) : List CommitRecord :=
  l.filterMap fun e => match e with
    | .commit r => some r
    | _ => none

theorem State.commits_eq (s : State) : s.commits = commitsOf s.log := rfl

@[simp] theorem commitsOf_append (l m : List EnvEvent) :
    commitsOf (l ++ m) = commitsOf l ++ commitsOf m := List.filterMap_append
@[simp] theorem commitsOf_nil : commitsOf [] = [] := rfl
@[simp] theorem commitsOf_commit (r : CommitRecord) (l : List EnvEvent) :
    commitsOf (.commit r :: l) = r :: commitsOf l := rfl
@[simp] theorem commitsOf_left (u : Uop) (l : List EnvEvent) :
    commitsOf (.left u :: l) = commitsOf l := rfl
@[simp] theorem commitsOf_hook (u : Uop) (l : List EnvEvent) :
    commitsOf (.hook u :: l) = commitsOf l := rfl
@[simp] theorem commitsOf_recovery (e : RecoveryEvent) (l : List EnvEvent) :
    commitsOf (.recovery e :: l) = commitsOf l := rfl

/-- The oracle's verdict on the head's commit: it is absent, or it agrees with the next retirement. -/
def State.verdict (s : State) (u : Uop) : Bool :=
  !s.cfg.oracle || Config.oracleOk (s.retiredCount + 1) (s.commitRecord u)

/-- What a commit of the head hands out and what it makes of the run, by the oracle's verdict. -/
theorem retireOp_run {tbl : LsTable} {s t : State} {u : Uop} (h : retireOp tbl s = .next t)
    (hu : s.uop? (s.robAt 0) = some u) (hm : u.unmodelled = false) :
    if s.verdict u = true then
      t.status = (if s.cfg.maxInsns = some (s.retiredCount + 1) then .terminated else s.status) ∧
        t.lastMatch = some (s.commitRecord u) ∧ t.uop? (s.robAt 0) = none ∧
        t.log = s.log ++ [.hook u, .commit (s.commitRecord u), .left (u.retiredAt s.cycle)]
    else
      t.status = .fatal (.oracleMismatch u.pc u.insn s.lastMatch) ∧ t.lastMatch = s.lastMatch ∧
        t.uop? (s.robAt 0) = some (u.retiredAt s.cycle) ∧
        t.log = s.log ++ [.hook u, .commit (s.commitRecord u)] := by
  obtain ⟨-, v, hv, -, ⟨hm', -⟩ | ⟨-, s1, h1, rfl⟩⟩ := retireOp_eq_next.mp h
  · rw [hu] at hv; cases hv; rw [hm] at hm'; cases hm'
  · rw [hu] at hv; cases hv
    have hlen : s1.arena.length = s.arena.length := by
      rw [commitMemory_arena_length h1, releaseDests_arena]
    have hlive : s.robAt 0 < s1.arena.length := hlen ▸ State.lt_of_uop? hu
    have er : releaseDests s u.dst = { s with free := (releaseDests s u.dst).free } :=
      releaseDests_eq s u.dst
    have e := commitMemory_next h1
    rw [er] at e
    dsimp only at e
    have hrec : ∀ x : State, x.prf = s1.prf → x.commitRecord u = s.commitRecord u := fun x hx =>
      State.commitRecord_of (hx.trans (by rw [e])) u
    generalize hx : (s1.retireHook u).countRetired (s.robAt 0) u = x
    have hxrec : x.commitRecord u = s.commitRecord u := hrec x (by rw [← hx]; rfl)
    have hcfg : x.cfg = s.cfg := by rw [← hx, e]; rfl
    have hcount : x.retiredCount = s.retiredCount + 1 := by rw [← hx, e]; rfl
    have hstatus : x.status = s.status := by rw [← hx, e]; rfl
    have hmatch : x.lastMatch = s.lastMatch := by rw [← hx, e]; rfl
    have hcycle : x.cycle = s.cycle := by rw [← hx, e]; rfl
    have hlog : x.log = s.log ++ [.hook u] := by rw [← hx, e]; rfl
    have hagree : (x.emit (.commit (x.commitRecord u))).oracleAgrees (x.commitRecord u) =
        s.verdict u := by
      simp [State.oracleAgrees, State.verdict, hxrec, hcfg, hcount]
    have hhead : x.uop? (s.robAt 0) = some (u.retiredAt s.cycle) := by
      have hc1 : s1.cycle = s.cycle := by rw [e]
      rw [← hx]
      show ((s1.retireHook u).robPopHead.setUop (s.robAt 0) _).uop? _ = _
      rw [State.uop?_setUop, if_pos ⟨rfl, hlive⟩]
      simp [hc1]
    unfold finishRetire
    dsimp only
    rw [hagree]
    cases hverdict : s.verdict u
    · simp only [if_true, Bool.false_eq_true, if_false]
      exact ⟨by simp [hmatch], by simp [hmatch], hhead, by simp [hlog, hxrec]⟩
    · simp only [Bool.true_eq_false, if_false, if_true]
      refine ⟨by simp [hcfg, hcount, hstatus], by simp [hxrec], ?_, by simp [hlog, hxrec, hcycle]⟩
      show (State.freeSlot _ _).uop? _ = _
      rw [State.uop?_freeSlot, if_pos rfl]

/-- A commit hands over the head's commit record. -/
theorem retireOp_commits {tbl : LsTable} {s t : State} {u : Uop} (h : retireOp tbl s = .next t)
    (hu : s.uop? (s.robAt 0) = some u) (hm : u.unmodelled = false) :
    t.commits = s.commits ++ [s.commitRecord u] := by
  have hrun := retireOp_run h hu hm
  rw [State.commits_eq, State.commits_eq]
  split at hrun <;> (obtain ⟨-, -, -, hlog⟩ := hrun; rw [hlog]; simp)

/-- A retirement commits the head, or ends the run at a micro-op without a meaning. -/
theorem retireOp_cases {tbl : LsTable} {s t : State} (h : retireOp tbl s = .next t) :
    ∃ u, s.uop? (s.robAt 0) = some u ∧ s.robCount ≠ 0 ∧ s.wordStale u = false ∧
      (u.unmodelled = false ∨ u.unmodelled = true ∧ t = s.raise (.unmodelled u.pc u.insn)) := by
  obtain ⟨h0, u, hu, hw, ⟨hm, rfl⟩ | ⟨hm, -⟩⟩ := retireOp_eq_next.mp h
  · exact ⟨u, hu, h0, hw, .inr ⟨hm, rfl⟩⟩
  · exact ⟨u, hu, h0, hw, .inl hm⟩

/-! ## What every other sub-step leaves alone -/

/-- Nothing is committed: the configuration, the clock, the memory, the retirement counters and the
commit records are as before. -/
structure Uncommitting (s t : State) : Prop where
  cfg : t.cfg = s.cfg
  cycle : t.cycle = s.cycle
  mem : t.mem = s.mem
  retiredCount : t.retiredCount = s.retiredCount
  lastRetireCycle : t.lastRetireCycle = s.lastRetireCycle
  commits : t.commits = s.commits

theorem Uncommitting.rfl {s : State} : Uncommitting s s :=
  ⟨Eq.refl _, Eq.refl _, Eq.refl _, Eq.refl _, Eq.refl _, Eq.refl _⟩

theorem Uncommitting.trans {a b c : State} (h : Uncommitting a b) (g : Uncommitting b c) :
    Uncommitting a c :=
  ⟨g.cfg.trans h.cfg, g.cycle.trans h.cycle, g.mem.trans h.mem,
    g.retiredCount.trans h.retiredCount, g.lastRetireCycle.trans h.lastRetireCycle,
    g.commits.trans h.commits⟩

/-- Every method but retire commits nothing. -/
theorem exec_uncommitting {i : Instr} {m : Method} {s t : State} (hm : m ≠ .retire)
    (h : exec i (s.setMethod m) = .next t) : Uncommitting s (t.setMethod .allocate) := by
  cases m with
  | retire => exact absurd rfl hm
  | allocate =>
    rw [exec_allocate _ _ rfl, allocateOp_eq_next] at h
    obtain ⟨h, rest, u, -, -, ⟨-, rfl⟩ | ⟨j, -, rfl⟩⟩ := h
    · exact ⟨rfl, rfl, rfl, rfl, rfl, rfl⟩
    · constructor <;> simp [State.place, State.commits_eq]
  | execute g =>
    rw [exec_execute _ _ _ rfl, executeOp_eq_next] at h
    obtain ⟨u, -, rfl⟩ := h
    constructor <;> simp [State.commits_eq]
  | complete g =>
    rw [exec_complete _ _ _ rfl, completeOp_eq_next] at h
    obtain ⟨u, -, rfl⟩ := h
    split <;> constructor <;> simp [State.commits_eq]
  | rollback =>
    rw [exec_rollback _ _ rfl, undoOp_eq_next] at h
    obtain ⟨-, u, -, rfl⟩ := h
    constructor <;> simp [State.commits_eq]

theorem callOf_uncommitting {h : Handle} {u : Uop} {m : Method} {s t : State} (hm : m ≠ .retire)
    (ht : callOf h u m s = .next t) : Uncommitting s t := by
  obtain ⟨i, -, hc⟩ := callOf_eq_next.mp ht
  obtain ⟨s1, h1, h2⟩ := andThen_eq_next.mp hc
  simp only [Host.Outcome.next.injEq] at h2
  exact h2 ▸ exec_uncommitting hm h1

/-- Flushing discards micro-ops and commits none. -/
theorem flush_commits {s t : State} (h : flush s = .next t) : t.commits = s.commits := by
  obtain ⟨s1, h1, h⟩ := andThen_eq_next.mp h
  obtain ⟨s2, h2, h⟩ := andThen_eq_next.mp h
  simp only [Host.Outcome.next.injEq] at h
  have e1 : s1.commits = s.commits := by
    refine forEach_rel (R := fun s t => t.commits = s.commits) (fun _ => rfl)
      (fun _ _ _ hab hbc => hbc.trans hab) (fun h a b hab => ?_) _ h1
    obtain ⟨u, -, hab⟩ := withUop_eq_next.mp hab
    simp only [Host.Outcome.next.injEq] at hab
    rw [← hab, State.commits_eq, State.commits_eq]; simp
  have e2 : s2.commits = s1.commits := by
    refine forEach_rel (R := fun s t => t.commits = s.commits) (fun _ => rfl)
      (fun _ _ _ hab hbc => hbc.trans hab) (fun h a b hab => ?_) _ h2
    obtain ⟨u, -, hab⟩ := withUop_eq_next.mp hab
    simp only [Host.Outcome.next.injEq] at hab
    rw [← hab]; rfl
  rw [← h]
  exact e2.trans e1

theorem enterRecovery_uncommitting {kind : ExcKind} {carrier target : Pc} {s t : State}
    (h : enterRecovery kind carrier target s = .next t) : Uncommitting s t := by
  refine ⟨enterRecovery_cfg h, enterRecovery_cycle h, enterRecovery_mem h,
    enterRecovery_retiredCount h, enterRecovery_lastRetireCycle h, ?_⟩
  obtain ⟨s1, h1, h⟩ := andThen_eq_next.mp h
  simp only [Host.Outcome.next.injEq] at h
  have e := flush_commits h1
  rw [← h]
  simpa [State.commits_eq] using e

theorem unwindLoop_uncommitting : ∀ (m : Nat) {s t : State}, unwindLoop m s = .next t →
    Uncommitting s t
  | 0, s, t, h => by simp [unwindLoop] at h; exact h ▸ .rfl
  | m + 1, s, t, h => by
    unfold unwindLoop at h
    split at h
    · simp at h; exact h ▸ .rfl
    · obtain ⟨u, -, h⟩ := withUop_eq_next.mp h
      obtain ⟨s1, h1, h2⟩ := andThen_eq_next.mp h
      exact (callOf_uncommitting (by simp) h1).trans (unwindLoop_uncommitting m h2)

theorem unwindStep_uncommitting {s t : State} (h : unwindStep s = .next t) : Uncommitting s t := by
  obtain ⟨s1, h1, h2⟩ := andThen_eq_next.mp h
  simp only [Host.Outcome.next.injEq] at h2
  refine (unwindLoop_uncommitting _ h1).trans ?_
  rw [← h2]
  split <;> exact ⟨rfl, rfl, rfl, rfl, rfl, rfl⟩

theorem beginRecovery_uncommitting {kind : ExcKind} {carrier target : Pc} {s t : State}
    (h : beginRecovery kind carrier target s = .next t) : Uncommitting s t := by
  obtain ⟨s1, h1, h2⟩ := andThen_eq_next.mp h
  exact (enterRecovery_uncommitting h1).trans (unwindStep_uncommitting h2)

theorem completeStage_uncommitting {s t : State} (h : completeStage s = .next t) :
    Uncommitting s t := by
  unfold completeStage at h
  split at h
  · refine forEach_rel (R := Uncommitting) (fun _ => .rfl) (fun _ _ _ h g => h.trans g) (fun g a b hab => ?_) _ h
    obtain ⟨u, -, hab⟩ := withUop_eq_next.mp hab
    split at hab
    · exact callOf_uncommitting (by simp) hab
    · simp at hab; exact hab ▸ .rfl
  · simp at h; exact h ▸ .rfl

theorem scanStation_uncommitting (w : Nat) : ∀ (l : List Handle) (n : Nat) {s t : State},
    scanStation w l n s = .next t → Uncommitting s t
  | [], _, _, _, h => by simp [scanStation] at h; exact h ▸ .rfl
  | g :: gs, n, s, t, h => by
    unfold scanStation at h
    obtain ⟨u, -, h⟩ := withUop_eq_next.mp h
    have e1 : Uncommitting s (s.setUop g (s.stampReady u)) := ⟨rfl, rfl, rfl, rfl, rfl, rfl⟩
    dsimp only at h
    split at h
    · obtain ⟨s2, h1, h2⟩ := andThen_eq_next.mp h
      exact e1.trans <| (callOf_uncommitting (by simp) h1).trans
        (scanStation_uncommitting w gs _ h2)
    · exact e1.trans (scanStation_uncommitting w gs _ h)

theorem executeStage_uncommitting {s t : State} (h : executeStage s = .next t) :
    Uncommitting s t := by
  unfold executeStage at h
  split at h
  · exact forEach_rel (R := Uncommitting) (fun _ => .rfl) (fun _ _ _ h g => h.trans g)
      (fun _ _ _ => scanStation_uncommitting _ _ _) _ h
  · simp at h; exact h ▸ .rfl

theorem allocateLoop_uncommitting : ∀ (n : Nat) {s t : State}, allocateLoop n s = .next t →
    Uncommitting s t
  | 0, _, _, h => by simp [allocateLoop] at h; exact h ▸ .rfl
  | n + 1, s, t, h => by
    unfold allocateLoop at h
    split at h
    · simp at h; exact h ▸ .rfl
    · obtain ⟨u, -, h⟩ := withUop_eq_next.mp h
      obtain ⟨s1, h1, h2⟩ := andThen_eq_next.mp h
      have e := callOf_uncommitting (by simp) h1
      split at h2
      · exact e.trans (allocateLoop_uncommitting n h2)
      · simp at h2; exact h2 ▸ e

theorem allocateStage_uncommitting {s t : State} (h : allocateStage s = .next t) :
    Uncommitting s t := by
  unfold allocateStage at h
  split at h
  · exact allocateLoop_uncommitting _ h
  · simp at h; exact h ▸ .rfl

theorem decodeHead_uncommitting (h : Handle) (u : Uop) (s : State) :
    Uncommitting s (decodeHead h u s) := by
  unfold decodeHead decodeAs
  split
  · exact ⟨rfl, rfl, rfl, rfl, rfl, rfl⟩
  · split <;> exact ⟨rfl, rfl, rfl, rfl, rfl, rfl⟩

theorem decodeLoop_uncommitting : ∀ (n : Nat) {s t : State}, decodeLoop n s = .next t →
    Uncommitting s t
  | 0, _, _, h => by simp [decodeLoop] at h; exact h ▸ .rfl
  | n + 1, s, t, h => by
    unfold decodeLoop at h
    split at h
    · simp at h; exact h ▸ .rfl
    · rename_i g rest hq
      split at h
      · obtain ⟨u, -, h⟩ := withUop_eq_next.mp h
        unfold whileRunning at h
        split at h
        · exact (decodeHead_uncommitting g u s).trans (decodeLoop_uncommitting n h)
        · simp at h; exact h ▸ decodeHead_uncommitting g u s
      · simp at h; exact h ▸ .rfl

theorem decodeStage_uncommitting {s t : State} (h : decodeStage s = .next t) :
    Uncommitting s t := by
  unfold decodeStage at h
  split at h
  · exact decodeLoop_uncommitting _ h
  · simp at h; exact h ▸ .rfl

theorem fetchLoop_uncommitting : ∀ (n : Nat) (s : State), Uncommitting s (fetchLoop n s)
  | 0, _ => .rfl
  | n + 1, s => by
    have e : ∀ pc p, Uncommitting s (s.fetchOne.steer pc p) :=
      fun pc p => ⟨rfl, rfl, rfl, rfl, rfl, rfl⟩
    unfold fetchLoop
    split
    · exact .rfl
    · dsimp only
      split
      · exact e _ _
      · split
        · split
          · exact (e _ _).trans (fetchLoop_uncommitting n _)
          · exact e _ _
        · exact (e _ _).trans (fetchLoop_uncommitting n _)

theorem fetchStage_uncommitting (s : State) : Uncommitting s (fetchStage s) := by
  unfold fetchStage
  split
  · exact fetchLoop_uncommitting _ s
  · exact .rfl

/-- The sub-steps of an admitted configuration's step, in order. -/
theorem step_eq_next {s t : State} : step s = .next t ↔ s.cfg.admitted = true ∧
    ∃ s1 s2 s3 s4 s5, retireStage s = .next s1 ∧ completeStage s1 = .next s2 ∧
      executeStage s2 = .next s3 ∧ allocateStage s3 = .next s4 ∧ decodeStage s4 = .next s5 ∧
      t = clockAdvance (fetchStage s5) := by
  unfold step cycleOf
  by_cases hc : s.cfg.admitted = true
  · simp only [hc, if_true, andThen_eq_next, Host.Outcome.next.injEq, true_and, memTick]
    constructor
    · rintro ⟨s1, h1, s2, h2, s3, h3, s4, h4, s5, h5, rfl⟩
      exact ⟨s1, s2, s3, s4, s5, h1, h2, h3, h4, h5, rfl⟩
    · rintro ⟨s1, s2, s3, s4, s5, h1, h2, h3, h4, h5, rfl⟩
      exact ⟨s1, h1, s2, h2, s3, h3, s4, h4, s5, h5, rfl⟩
  · simp [hc]

/-- After the retire stage a step commits nothing until its clock. -/
theorem step_after_retire {s t : State} (h : step s = .next t) : ∃ s1 x,
    retireStage s = .next s1 ∧ Uncommitting s1 x ∧ t = clockAdvance x := by
  obtain ⟨-, s1, s2, s3, s4, s5, h1, h2, h3, h4, h5, rfl⟩ := step_eq_next.mp h
  exact ⟨s1, _, h1, (completeStage_uncommitting h2).trans <| (executeStage_uncommitting h3).trans <|
    (allocateStage_uncommitting h4).trans <| (decodeStage_uncommitting h5).trans
      (fetchStage_uncommitting s5), rfl⟩

/-- The clock moves nothing but the status and the cycle. -/
theorem clockAdvance_eq (s : State) : clockAdvance s =
    { s with status := (clockAdvance s).status, cycle := (clockAdvance s).cycle } := by
  unfold clockAdvance
  split
  · split <;> rfl
  · rfl

end Sys2Proof.Machine
end

section
namespace Sys2Proof.Machine

/-! ## Reading and writing memory (20_memory.md R60, R61, R75) -/

theorem length_memBytes (m : Memory) (a : Addr) (n : Nat) : (memBytes m a n).length = n := by
  simp [memBytes]

/-- The bytes of a range depend on the bytes memory holds there. -/
theorem memBytes_congr {m m' : Memory} {a : Addr} {n : Nat}
    (h : ∀ k < n, memByte m (a + BitVec.ofNat 32 k).toNat = memByte m' (a + BitVec.ofNat 32 k).toNat) :
    memBytes m a n = memBytes m' a n :=
  List.map_congr_left fun k hk => h k (List.mem_range.mp hk)

/-- The bytes just written are read back. -/
theorem memBytes_memSetBytes {m : Memory} (a : Addr) {bs : List Byte} (hm : Memory.wf m = true)
    (hl : bs.length ≤ 2 ^ 32) : memBytes (memSetBytes m a bs) a bs.length = bs := by
  apply List.ext_getElem (length_memBytes _ _ _)
  intro k _ hk
  simp only [memBytes, List.getElem_map, List.getElem_range]
  exact memByte_memSetBytes bs m a k hm hl hk

/-- Settles O26: the bytes of the write are read back, and of a range apart none has changed. -/
theorem readAfterWrite : Obligations.ReadAfterWrite := by
  intro e m a b n k v hm
  have hlen : (toBytes e v.toNat n.bytes).length = n.bytes := length_toBytes _ _ _
  constructor
  · have hback := memBytes_memSetBytes a (bs := toBytes e v.toNat n.bytes) hm
      (by rw [hlen]; have := n.bytes_le; omega)
    rw [hlen] at hback
    rw [memRead, memWrite, hback, ofBytes_toBytes]
  · intro hdisj
    rw [memRead, memRead]
    congr 2
    refine memBytes_congr fun y hy => memByte_memSetBytes_other _ m a _ hm fun x hx he => ?_
    exact hdisj x (hlen ▸ hx) y hy (BitVec.eq_of_toNat_eq he.symm)

/-! ## The configuration's constraints (00_scope.md R7) -/

/-- The constraints of R7, written out. -/
structure ConfigConstraints (c : Config) : Prop where
  classes : c.classes ≠ []
  classOk : ∀ k ∈ c.classes, 1 ≤ k.na ∧ k.na ≤ k.np ∧ 1 ≤ k.vw ∧ ∀ z ∈ k.zr, z < k.na
  maxSrc : 1 ≤ c.maxSrc
  maxDst : 1 ≤ c.maxDst
  robN : 1 ≤ c.robN
  ports : c.ports.length = 6
  portsOk : ∀ ps ∈ c.ports, ps ≠ [] ∧ ∀ p ∈ ps, 1 ≤ p.cap ∧ 1 ≤ p.width
  fetchW : 1 ≤ c.fetchW
  decodeW : 1 ≤ c.decodeW
  allocW : 1 ≤ c.allocW
  retireW : 1 ≤ c.retireW
  fqN : 1 ≤ c.fqN
  dqN : 1 ≤ c.dqN
  lqN : 1 ≤ c.lqN
  sqN : 1 ≤ c.sqN
  watchdogN : 1 ≤ c.watchdogN
  maxInsns : ∀ m ∈ c.maxInsns, 1 ≤ m

theorem Config.classOk_iff {k : ClassCfg} : Config.classOk k = true ↔
    1 ≤ k.na ∧ k.na ≤ k.np ∧ 1 ≤ k.vw ∧ ∀ z ∈ k.zr, z < k.na := by
  cases hz : k.zr <;> simp [Config.classOk, hz, and_assoc]

theorem Config.portsOk_iff {ps : List PortCfg} : Config.portsOk ps = true ↔
    ps ≠ [] ∧ ∀ p ∈ ps, 1 ≤ p.cap ∧ 1 ≤ p.width := by
  simp [Config.portsOk]

/-- A configuration is admitted exactly when it meets the constraints. -/
theorem admitted_iff {c : Config} : c.admitted = true ↔ ConfigConstraints c := by
  have hm : c.maxInsns.all (fun m => decide (1 ≤ m)) = true ↔ ∀ m ∈ c.maxInsns, 1 ≤ m := by
    cases c.maxInsns <;> simp
  have hc : c.classes.all Config.classOk = true ↔
      ∀ k ∈ c.classes, 1 ≤ k.na ∧ k.na ≤ k.np ∧ 1 ≤ k.vw ∧ ∀ z ∈ k.zr, z < k.na := by
    simp only [List.all_eq_true, Config.classOk_iff]
  have hp : c.ports.all Config.portsOk = true ↔
      ∀ ps ∈ c.ports, ps ≠ [] ∧ ∀ p ∈ ps, 1 ≤ p.cap ∧ 1 ≤ p.width := by
    simp only [List.all_eq_true, Config.portsOk_iff]
  have he : (!c.classes.isEmpty) = true ↔ c.classes ≠ [] := by simp
  simp only [Config.admitted, List.all_cons, List.all_nil, id, Bool.and_eq_true, decide_eq_true_eq,
    hm, hc, hp, he]
  constructor
  · rintro ⟨h1, h2, h3, h4, h5, h6, h7, h8, h9, h10, h11, h12, h13, h14, h15, h16, h17, -⟩
    exact ⟨h1, h2, h3, h4, h5, h6, h7, h8, h9, h10, h11, h12, h13, h14, h15, h16, h17⟩
  · rintro ⟨h1, h2, h3, h4, h5, h6, h7, h8, h9, h10, h11, h12, h13, h14, h15, h16, h17⟩
    exact ⟨h1, h2, h3, h4, h5, h6, h7, h8, h9, h10, h11, h12, h13, h14, h15, h16, h17, trivial⟩

/-! ## What can refuse a step -/

/-- The only refusal an outcome can hold is that of an overwritten word. -/
def RefusesStaleOnly (o : Out) : Prop := ∀ r, o = .refused r → ∃ pc, r = .staleWord pc

theorem RefusesStaleOnly.next (s : State) : RefusesStaleOnly (.next s) := fun _ h => by cases h
theorem RefusesStaleOnly.fault (f : Fault) : RefusesStaleOnly (.fault f) := fun _ h => by cases h
theorem RefusesStaleOnly.stale (pc : Pc) : RefusesStaleOnly (.refused (.staleWord pc)) :=
  fun _ h => by cases h; exact ⟨pc, rfl⟩

theorem RefusesStaleOnly.andThen {o : Out} {f : State → Out} (ho : RefusesStaleOnly o)
    (hf : ∀ s, RefusesStaleOnly (f s)) : RefusesStaleOnly (andThen o f) := by
  cases o with
  | next s => exact hf s
  | fault r => exact .fault r
  | refused r => exact fun r' h => ho r' (by simpa using h)

theorem RefusesStaleOnly.withUop {s : State} {h : Handle} {f : Uop → Out}
    (hf : ∀ u, RefusesStaleOnly (f u)) : RefusesStaleOnly (withUop s h f) := by
  unfold Machine.withUop
  split
  · exact hf _
  · exact .fault _

theorem RefusesStaleOnly.forEach {α : Type} {f : α → State → Out}
    (hf : ∀ a s, RefusesStaleOnly (f a s)) : ∀ (l : List α) (s : State),
    RefusesStaleOnly (forEach f l s)
  | [], s => .next s
  | a :: as, s => (hf a s).andThen (RefusesStaleOnly.forEach hf as)

theorem RefusesStaleOnly.exec (i : Instr) (s : State) : RefusesStaleOnly (exec i s) := by
  rw [exec_eq]
  split
  case h_1 =>
    unfold allocateOp
    split
    · exact .fault _
    · refine .withUop fun u => ?_
      split <;> exact .next _
  case h_2 => exact .withUop fun u => .next _
  case h_3 =>
    refine .withUop fun u => ?_
    split <;> exact .next _
  case h_4 =>
    unfold retireOp
    split
    · exact .fault _
    · refine .withUop fun u => ?_
      split
      · exact .stale _
      · split
        · exact .next _
        · refine .andThen ?_ fun _ => .next _
          unfold commitMemory
          split
          · exact .next _
          · exact .next _
          · exact .andThen (.forEach (fun _ _ => .withUop fun _ => .next _) _ _) fun _ => .next _
  case h_5 =>
    unfold undoOp
    split
    · exact .fault _
    · exact .withUop fun _ => .next _

theorem RefusesStaleOnly.callOf (h : Handle) (u : Uop) (m : Method) (s : State) :
    RefusesStaleOnly (callOf h u m s) := by
  unfold Machine.callOf
  split
  · exact .andThen (.exec _ _) fun _ => .next _
  · exact .fault _

theorem RefusesStaleOnly.whileRunning {f : State → Out} (hf : ∀ s, RefusesStaleOnly (f s))
    (s : State) : RefusesStaleOnly (whileRunning f s) := by
  unfold Machine.whileRunning
  split
  · exact hf s
  · exact .next s

theorem RefusesStaleOnly.unwindStep (s : State) : RefusesStaleOnly (unwindStep s) := by
  refine .andThen ?_ fun _ => .next _
  generalize s.cfg.retireW = m
  induction m generalizing s with
  | zero => exact .next s
  | succ m ih =>
    unfold unwindLoop
    split
    · exact .next s
    · exact .withUop fun u => .andThen (.callOf _ _ _ _) ih

theorem RefusesStaleOnly.beginRecovery (kind : ExcKind) (carrier target : Pc) (s : State) :
    RefusesStaleOnly (beginRecovery kind carrier target s) := by
  have hflush : ∀ s, RefusesStaleOnly (flush s) := fun s =>
    .andThen (.forEach (fun _ _ => .withUop fun _ => .next _) _ _) fun _ =>
      .andThen (.forEach (fun _ _ => .withUop fun _ => .next _) _ _) fun _ => .next _
  exact .andThen (.andThen (hflush _) fun _ => .next _) .unwindStep

theorem RefusesStaleOnly.afterCommit {u : Uop} {rest : State → Out}
    (hf : ∀ s, RefusesStaleOnly (rest s)) (s : State) : RefusesStaleOnly (afterCommit u rest s) := by
  unfold Machine.afterCommit
  split
  · exact .beginRecovery _ _ _ _
  · exact hf s

theorem RefusesStaleOnly.retireLoop : ∀ (f n : Nat) (s : State),
    RefusesStaleOnly (retireLoop f n s)
  | 0, _, s => .next s
  | f + 1, n, s => by
    have ih := RefusesStaleOnly.retireLoop f
    unfold Machine.retireLoop
    split
    · exact .next _
    · refine .withUop fun u => ?_
      split
      · exact .next _
      · split
        · unfold retirePair
          split
          · exact .next _
          · refine .withUop fun v => ?_
            split
            · exact .next _
            · split
              · exact .next _
              · split
                · exact .beginRecovery _ _ _ _
                · split
                  · exact .next _
                  · exact .andThen (.callOf _ _ _ _) fun _ => .whileRunning (fun _ =>
                      .andThen (.callOf _ _ _ _) fun _ =>
                        .whileRunning (.afterCommit (ih (n + 2))) _) _
        · unfold retireSingle
          split
          · exact .beginRecovery _ _ _ _
          · exact .andThen (.callOf _ _ _ _) fun _ => .whileRunning (.afterCommit (ih (n + 1))) _

theorem RefusesStaleOnly.retireStage (s : State) : RefusesStaleOnly (retireStage s) := by
  unfold Machine.retireStage
  split
  · exact .next s
  · split
    · exact .unwindStep s
    · exact .retireLoop _ _ s

theorem RefusesStaleOnly.scanStation (w : Nat) : ∀ (l : List Handle) (n : Nat) (s : State),
    RefusesStaleOnly (scanStation w l n s)
  | [], _, s => .next s
  | g :: gs, n, s => by
    unfold Machine.scanStation
    refine .withUop fun u => ?_
    dsimp only
    split
    · exact .andThen (.callOf _ _ _ _) (RefusesStaleOnly.scanStation w gs _)
    · exact RefusesStaleOnly.scanStation w gs _ _

theorem RefusesStaleOnly.allocateLoop : ∀ (n : Nat) (s : State), RefusesStaleOnly (allocateLoop n s)
  | 0, s => .next s
  | n + 1, s => by
    unfold Machine.allocateLoop
    split
    · exact .next s
    · refine .withUop fun u => .andThen (.callOf _ _ _ _) fun s1 => ?_
      split
      · exact RefusesStaleOnly.allocateLoop n s1
      · exact .next s1

theorem RefusesStaleOnly.decodeLoop : ∀ (n : Nat) (s : State), RefusesStaleOnly (decodeLoop n s)
  | 0, s => .next s
  | n + 1, s => by
    unfold Machine.decodeLoop
    split
    · exact .next s
    · split
      · exact .withUop fun u => .whileRunning (RefusesStaleOnly.decodeLoop n) _
      · exact .next s

/-- An admitted configuration's cycle is refused at an overwritten word only. -/
theorem RefusesStaleOnly.cycleOf (s : State) : RefusesStaleOnly (cycleOf s) := by
  have hactive : ∀ (s : State) (o : Out), RefusesStaleOnly o →
      RefusesStaleOnly (if s.stageActive then o else .next s) := fun s o ho => by
    split
    · exact ho
    · exact .next s
  have hcomplete : ∀ g s, RefusesStaleOnly (completeEntry g s) := fun g s => by
    refine .withUop fun u => ?_
    split
    · exact .callOf _ _ _ _
    · exact .next s
  have hscan : ∀ p s, RefusesStaleOnly (executeStation p s) := fun _ _ => .scanStation _ _ _ _
  exact (RefusesStaleOnly.retireStage s).andThen fun s1 =>
    (hactive s1 _ (.forEach hcomplete _ s1)).andThen fun s2 =>
    (hactive s2 _ (.forEach hscan _ s2)).andThen fun s3 =>
    (hactive s3 _ (.allocateLoop _ s3)).andThen fun s4 =>
    (hactive s4 _ (.decodeLoop _ s4)).andThen fun _ => .next _

/-- Settles O47: `admitted` is the constraints of R7, and past that check only the retire method
refuses. -/
theorem illFormedConfigurationRefused : Obligations.IllFormedConfigurationRefused := by
  intro s
  constructor
  · intro hc
    have hn : ¬s.cfg.admitted = true := fun h => by
      obtain ⟨h1, h2, h3, h4, h5, h6, h7, h8, h9, h10, h11, h12, h13, h14, h15, h16, h17⟩ :=
        admitted_iff.mp h
      exact hc ⟨h1, h2, h3, h4, h5, h6, h7, h8, h9, h10, h11, h12, h13, h14, h15, h16, h17⟩
    exact if_neg hn
  · rintro ⟨h1, h2, h3, h4, h5, h6, h7, h8, h9, h10, h11, h12, h13, h14, h15, h16, h17⟩ r hr
    have ha : s.cfg.admitted = true := admitted_iff.mpr
      ⟨h1, h2, h3, h4, h5, h6, h7, h8, h9, h10, h11, h12, h13, h14, h15, h16, h17⟩
    rw [step, if_pos ha] at hr
    exact RefusesStaleOnly.cycleOf s r hr

/-! ## Commits and everything else, effect by effect -/

/-- What a record's dispatched micro-op says of the record. -/
theorem Uop.instr_eq_some {u : Uop} {i : Instr} (h : u.instr = some i) :
    u.cat = some i.category ∧ u.operands = i.operands := by
  unfold Uop.instr at h
  obtain ⟨c, hc, rfl⟩ := Option.map_eq_some_iff.mp h
  simp [hc]

theorem Category.lsTable_eq_stores {c : Category} : c.lsTable = .stores ↔ c = .store := by
  cases c <;> simp [Category.lsTable]

theorem Category.lsTable_eq_loads {c : Category} : c.lsTable = .loads ↔ c = .load := by
  cases c <;> simp [Category.lsTable]

/-- An effect commits the head with record `u`. -/
structure Committing (u : Uop) (s t : State) : Prop where
  head : s.uop? (s.robAt 0) = some u
  cfg : t.cfg = s.cfg
  mem : t.mem =
    if u.cat = some .store then memWrite s.cfg.endian s.mem u.maddr u.msize u.mdata else s.mem
  retiredCount : t.retiredCount = s.retiredCount + 1
  commits : t.commits = s.commits ++ [s.commitRecord u]

/-- The effects that neither commit nor move the clock, and the clock. -/
structure Silent (s t : State) : Prop where
  cfg : t.cfg = s.cfg
  mem : t.mem = s.mem
  retiredCount : t.retiredCount = s.retiredCount
  commits : t.commits = s.commits

theorem Uncommitting.silent {s t : State} (h : Uncommitting s t) : Silent s t :=
  ⟨h.cfg, h.mem, h.retiredCount, h.commits⟩

/-- A call of retire commits the head or commits nothing. -/
theorem retire_silent_or_committing {i : Instr} {s t : State} {v : Uop}
    (hv : s.uop? (s.robAt 0) = some v) (hi : v.instr = some i)
    (h : exec i (s.setMethod .retire) = .next t) :
    Silent s (t.setMethod .allocate) ∨ Committing v s (t.setMethod .allocate) := by
  rw [exec_retire _ _ rfl] at h
  obtain ⟨u, hu, -, -, hm | ⟨-, rfl⟩⟩ := retireOp_cases h
  · have huv : u = v := Option.some.inj (hu.symm.trans hv)
    subst huv
    have he := retireOp_commit h hu hm
    have hc := retireOp_commits h hu hm
    have htbl : i.category.lsTable = .stores ↔ u.cat = some .store := by
      rw [Category.lsTable_eq_stores, (Uop.instr_eq_some hi).1, Option.some.injEq]
    refine .inr ⟨hv, ?_, ?_, ?_, hc⟩
    · rw [he]; rfl
    · rw [he]; simp only [htbl]; rfl
    · rw [he]; rfl
  · exact .inl ⟨rfl, rfl, rfl, rfl⟩

theorem Effect.silent_or_committing {s t : State} (h : Effect s t) :
    Silent s t ∨ ∃ u, Committing u s t := by
  cases h with
  | method hc h =>
    rename_i i m t
    by_cases hm : m = .retire
    · subst hm
      obtain ⟨-, v, hv, hi⟩ := hc
      exact (retire_silent_or_committing hv hi h).imp_right fun hcom => ⟨v, hcom⟩
    · exact .inl (exec_uncommitting hm h).silent
  | enter h => exact .inl (enterRecovery_uncommitting h).silent
  | decode _ _ _ _ => exact .inl (decodeHead_uncommitting _ _ _).silent
  | raise | rstate | resume | stamp | fetch | tick => exact .inl ⟨rfl, rfl, rfl, rfl⟩

/-- Settles O51: only the commit of a store writes memory. -/
theorem stepKeepsMemoryCanonical : Obligations.StepKeepsMemoryCanonical := by
  intro s t hs h
  refine (step_effects h).2.keeps (P := State.memoryCanonical) (fun a b he ha => ?_) hs
  unfold State.memoryCanonical at ha ⊢
  obtain hq | ⟨u, hu⟩ := he.silent_or_committing
  · rw [hq.mem]; exact ha
  · rw [hu.mem]
    split
    · exact memWrite_wf _ _ _ _ _ ha
    · exact ha

theorem storesOf_append (e : Endian) (rs rs' : List CommitRecord) (m : Memory) :
    storesOf e (rs ++ rs') m = storesOf e rs' (storesOf e rs m) := by
  simp [storesOf]

/-- The memory after an effect is the memory before it with the stores it commits. -/
def StoresOnly (s t : State) : Prop :=
  t.cfg = s.cfg ∧ ∃ rs, t.commits = s.commits ++ rs ∧ t.mem = storesOf s.cfg.endian rs s.mem

theorem Effect.storesOnly {s t : State} (h : Effect s t) : StoresOnly s t := by
  obtain hq | ⟨u, hu⟩ := h.silent_or_committing
  · exact ⟨hq.cfg, [], by simpa using hq.commits, hq.mem⟩
  · refine ⟨hu.cfg, [s.commitRecord u], hu.commits, ?_⟩
    rw [hu.mem]
    by_cases hc : u.cat = some .store <;> simp [storesOf, State.commitRecord, hc]

/-- Settles O33: effect after effect, the stores committed so far make the memory. -/
theorem memoryIsCommittedStores : Obligations.MemoryIsCommittedStores := by
  intro s t h
  have key : StoresOnly s t := by
    refine (step_effects h).2.keeps (P := StoresOnly s) (fun a b he ⟨hcfg, rs, hrs, hmem⟩ => ?_)
      ⟨rfl, [], (List.append_nil _).symm, rfl⟩
    obtain ⟨hcfg', rs', hrs', hmem'⟩ := he.storesOnly
    refine ⟨hcfg'.trans hcfg, rs ++ rs', by rw [hrs', hrs, List.append_assoc], ?_⟩
    rw [hmem', hmem, hcfg, storesOf_append]
  exact key.2

/-! ## Register values (10_state.md R24) -/

theorem valuesFit_of {s t : State} (hs : s.valuesFit) (hp : t.prf = s.prf) (hc : t.cfg = s.cfg) :
    t.valuesFit := by
  intro c p
  rw [State.prfOf_of _ _ hp, hc]
  exact hs c p

theorem writeDests_valuesFit : ∀ (s : State) (j : Nat) (ds : List (Option DstSlot)) (v : Nat → Nat),
    s.valuesFit → (writeDests s j ds v).valuesFit
  | _, _, [], _, h => h
  | s, j, none :: ds, v, h => writeDests_valuesFit s (j + 1) ds v h
  | s, j, some d :: ds, v, h => by
    refine writeDests_valuesFit (s.setPrf d.cls d.fresh (v j)) (j + 1) ds v fun c p => ?_
    rw [State.prfOf_setPrf]
    split
    · rename_i hc
      rw [hc.1]
      exact Nat.mod_lt _ (Nat.two_pow_pos _)
    · exact h c p

theorem Effect.valuesFit {s t : State} (h : Effect s t) (hs : s.valuesFit) : t.valuesFit := by
  cases h with
  | method hc h =>
    rename_i i m t
    cases m with
    | allocate =>
      rw [exec_allocate _ _ rfl, allocateOp_eq_next] at h
      obtain ⟨h, rest, u, -, -, ⟨-, rfl⟩ | ⟨j, -, rfl⟩⟩ := h
      · exact hs
      · exact valuesFit_of hs (by simp [State.place]) (by simp [State.place])
    | execute g =>
      rw [exec_execute _ _ _ rfl, executeOp_eq_next] at h
      obtain ⟨u, -, rfl⟩ := h
      refine valuesFit_of (writeDests_valuesFit ((s.setMethod (.execute g)).leaveStation g u.station)
        0 u.dst _ ?_) rfl rfl
      exact valuesFit_of hs (by simp) (by simp)
    | complete g =>
      rw [exec_complete _ _ _ rfl, completeOp_eq_next] at h
      obtain ⟨u, -, rfl⟩ := h
      split <;> exact valuesFit_of hs (by simp) (by simp)
    | retire =>
      rw [exec_retire _ _ rfl] at h
      obtain ⟨u, hu, -, -, hm | ⟨-, rfl⟩⟩ := retireOp_cases h
      · have he := retireOp_commit h hu hm
        exact valuesFit_of hs (by rw [he]; rfl) (by rw [he]; rfl)
      · exact hs
    | rollback =>
      rw [exec_rollback _ _ rfl, undoOp_eq_next] at h
      obtain ⟨-, u, -, rfl⟩ := h
      exact valuesFit_of hs (by simp) (by simp)
  | enter h => exact valuesFit_of hs (enterRecovery_prf h) (enterRecovery_cfg h)
  | decode _ _ _ _ =>
    refine valuesFit_of hs ?_ (decodeHead_uncommitting _ _ _).cfg
    unfold decodeHead decodeAs
    split
    · rfl
    · split <;> rfl
  | raise | rstate | resume | stamp | fetch | tick => exact hs

/-- Settles O52: what execution writes is reduced to the width, and nothing else writes a register. -/
theorem stepKeepsValuesFit : Obligations.StepKeepsValuesFit := fun _ _ hs h =>
  (step_effects h).2.keeps (fun _ _ => Effect.valuesFit) hs

/-! ## The retire stage's counts -/

/-- At most `n` micro-ops are retired; the configuration and the clock stay. -/
structure RetiresAtMost (n : Nat) (s t : State) : Prop where
  cfg : t.cfg = s.cfg
  cycle : t.cycle = s.cycle
  count : t.retiredCount ≤ s.retiredCount + n

theorem RetiresAtMost.rfl {s : State} {n : Nat} : RetiresAtMost n s s :=
  ⟨Eq.refl _, Eq.refl _, Nat.le_add_right _ _⟩

theorem RetiresAtMost.trans {a b c : State} {m n : Nat} (h : RetiresAtMost m a b)
    (g : RetiresAtMost n b c) : RetiresAtMost (m + n) a c :=
  ⟨g.cfg.trans h.cfg, g.cycle.trans h.cycle, by have := h.count; have := g.count; omega⟩

theorem RetiresAtMost.mono {a b : State} {m n : Nat} (h : RetiresAtMost m a b) (hmn : m ≤ n) :
    RetiresAtMost n a b :=
  ⟨h.cfg, h.cycle, by have := h.count; omega⟩

theorem Uncommitting.retiresAtMost {s t : State} (h : Uncommitting s t) (n : Nat) :
    RetiresAtMost n s t :=
  ⟨h.cfg, h.cycle, h.retiredCount ▸ Nat.le_add_right _ _⟩

theorem retireCall_retiresAtMost {h : Handle} {u : Uop} {s t : State}
    (ht : callOf h u .retire s = .next t) : RetiresAtMost 1 s t := by
  obtain ⟨i, -, hc⟩ := callOf_eq_next.mp ht
  obtain ⟨s1, h1, h2⟩ := andThen_eq_next.mp hc
  simp only [Host.Outcome.next.injEq] at h2
  rw [exec_retire _ _ rfl] at h1
  obtain ⟨v, hv, -, -, hm | ⟨-, rfl⟩⟩ := retireOp_cases h1
  · have he := retireOp_commit h1 hv hm
    rw [← h2, he]
    exact ⟨rfl, rfl, Nat.le_refl _⟩
  · rw [← h2]; exact ⟨rfl, rfl, Nat.le_add_right _ _⟩

/-- The bandwidth of R135, for a pair when `RETIRE_W` is 1. -/
def retireBound (c : Config) : Nat := if c.retireW = 1 then 2 else c.retireW

theorem whileRunning_cases {f : State → Out} {s t : State} (h : whileRunning f s = .next t) :
    s.status = .running ∧ f s = .next t ∨ s.status ≠ .running ∧ t = s := by
  unfold whileRunning at h
  split at h
  · exact .inl ⟨by assumption, h⟩
  · simp at h; exact .inr ⟨by assumption, h.symm⟩

theorem afterCommit_retiresAtMost {u : Uop} {rest : State → Out} {n : Nat} {s t : State}
    (hrest : rest s = .next t → RetiresAtMost n s t)
    (h : whileRunning (afterCommit u rest) s = .next t) : RetiresAtMost n s t := by
  obtain ⟨-, h⟩ | ⟨-, rfl⟩ := whileRunning_cases h
  · unfold afterCommit at h
    split at h
    · exact (beginRecovery_uncommitting h).retiresAtMost n
    · exact hrest h
  · exact .rfl

/-- The scan with `n` retired so far retires up to what the bandwidth leaves. -/
theorem retireLoop_retiresAtMost : ∀ (f n : Nat) {s t : State}, n ≤ retireBound s.cfg →
    retireLoop f n s = .next t → RetiresAtMost (retireBound s.cfg - n) s t
  | 0, _, _, _, _, h => by simp [retireLoop] at h; exact h ▸ .rfl
  | f + 1, n, s, t, hn, h => by
    have hends : ∀ r, s.retireEnds r = .next t → RetiresAtMost (retireBound s.cfg - n) s t := by
      intro r h
      simp only [State.retireEnds, Host.Outcome.next.injEq] at h
      exact h ▸ ⟨rfl, rfl, Nat.le_add_right _ _⟩
    unfold retireLoop at h
    split at h
    · exact hends _ h
    · rename_i hw
      obtain ⟨u, -, h⟩ := withUop_eq_next.mp h
      split at h
      · exact hends _ h
      · split at h
        · unfold retirePair at h
          split at h
          · exact hends _ h
          · obtain ⟨v, -, h⟩ := withUop_eq_next.mp h
            split at h
            · exact hends _ h
            · split at h
              · simp at h; exact h ▸ ⟨rfl, rfl, Nat.le_add_right _ _⟩
              · split at h
                · exact (beginRecovery_uncommitting h).retiresAtMost _
                · split at h
                  · exact hends _ h
                  · have hroom : n + 2 ≤ retireBound s.cfg := by
                      unfold retireBound at hn ⊢
                      split <;> omega
                    obtain ⟨s1, h1, h⟩ := andThen_eq_next.mp h
                    have e1 := retireCall_retiresAtMost h1
                    obtain ⟨-, h⟩ | ⟨-, rfl⟩ := whileRunning_cases h
                    · obtain ⟨s2, h2, h⟩ := andThen_eq_next.mp h
                      have e2 := retireCall_retiresAtMost h2
                      have hcfg : s2.cfg = s.cfg := e2.cfg.trans e1.cfg
                      have e3 := afterCommit_retiresAtMost
                        (fun h => retireLoop_retiresAtMost f (n + 2) (by rw [hcfg]; exact hroom) h) h
                      rw [hcfg] at e3
                      exact ((e1.trans e2).trans e3).mono (by omega)
                    · exact e1.mono (by omega)
        · unfold retireSingle at h
          split at h
          · exact (beginRecovery_uncommitting h).retiresAtMost _
          · have hroom : n + 1 ≤ retireBound s.cfg := by
              unfold retireBound at hn ⊢
              split <;> omega
            obtain ⟨s1, h1, h⟩ := andThen_eq_next.mp h
            have e1 := retireCall_retiresAtMost h1
            have e2 := afterCommit_retiresAtMost
              (fun h => retireLoop_retiresAtMost f (n + 1) (by rw [e1.cfg]; exact hroom) h) h
            rw [e1.cfg] at e2
            exact (e1.trans e2).mono (by omega)

theorem retireStage_retiresAtMost {s t : State} (h : retireStage s = .next t) :
    RetiresAtMost (retireBound s.cfg) s t := by
  unfold retireStage at h
  split at h
  · simp at h; exact h ▸ .rfl
  · split at h
    · exact (unwindStep_uncommitting h).retiresAtMost _
    · exact retireLoop_retiresAtMost _ 0 (Nat.zero_le _) h

/-- Settles O31: the retire stage obeys the bound and nothing after it retires. -/
theorem retireBandwidth : Obligations.RetireBandwidth := by
  intro s t h
  obtain ⟨s1, x, h1, hx, rfl⟩ := step_after_retire h
  have hcount : (clockAdvance x).retiredCount = x.retiredCount := by rw [clockAdvance_eq]
  rw [hcount, hx.retiredCount]
  exact (retireStage_retiresAtMost h1).count

/-! ## Counters and the status over a step -/

/-- What every effect lets grow or stay: nothing handed out is taken back. -/
structure Progress (s t : State) : Prop where
  retiredCount : s.retiredCount ≤ t.retiredCount
  seqNext : s.seqNext ≤ t.seqNext
  log : s.log <+: t.log
  running : t.status = .running → s.status = .running

theorem Progress.rfl {s : State} : Progress s s :=
  ⟨Nat.le_refl _, Nat.le_refl _, List.prefix_refl _, id⟩

theorem Progress.trans {a b c : State} (h : Progress a b) (g : Progress b c) : Progress a c :=
  ⟨h.retiredCount.trans g.retiredCount, h.seqNext.trans g.seqNext, h.log.trans g.log,
    fun hr => h.running (g.running hr)⟩

/-- Flushing only appends to the log. -/
theorem flush_log {s t : State} (h : flush s = .next t) : s.log <+: t.log := by
  obtain ⟨s1, h1, h⟩ := andThen_eq_next.mp h
  obtain ⟨s2, h2, h⟩ := andThen_eq_next.mp h
  simp only [Host.Outcome.next.injEq] at h
  have e1 : s.log <+: s1.log := by
    refine forEach_rel (R := fun s t => s.log <+: t.log) (fun _ => List.prefix_refl _)
      (fun _ _ _ hab hbc => hab.trans hbc) (fun g a b hab => ?_) _ h1
    obtain ⟨u, -, hab⟩ := withUop_eq_next.mp hab
    simp only [Host.Outcome.next.injEq] at hab
    exact hab ▸ List.prefix_append _ _
  have e2 : s1.log <+: s2.log := by
    refine forEach_rel (R := fun s t => s.log <+: t.log) (fun _ => List.prefix_refl _)
      (fun _ _ _ hab hbc => hab.trans hbc) (fun g a b hab => ?_) _ h2
    obtain ⟨u, -, hab⟩ := withUop_eq_next.mp hab
    simp only [Host.Outcome.next.injEq] at hab
    exact hab ▸ List.prefix_refl _
  rw [← h]
  exact e1.trans e2

theorem enterRecovery_log {kind : ExcKind} {carrier target : Pc} {s t : State}
    (h : enterRecovery kind carrier target s = .next t) : s.log <+: t.log := by
  obtain ⟨s1, h1, h⟩ := andThen_eq_next.mp h
  simp only [Host.Outcome.next.injEq] at h
  have e : s.startRecovery.log <+: s1.log := flush_log h1
  rw [← h]
  exact e.trans (List.prefix_append _ _)

theorem retire_progress {tbl : LsTable} {s t : State} (h : retireOp tbl s = .next t) :
    Progress s t := by
  obtain ⟨u, hu, -, -, hm | ⟨-, rfl⟩⟩ := retireOp_cases h
  · have he := retireOp_commit h hu hm
    have hrun := retireOp_run h hu hm
    have hlog : s.log <+: t.log := by
      split at hrun <;> (obtain ⟨-, -, -, hl⟩ := hrun; rw [hl]; exact List.prefix_append _ _)
    have hstatus : t.status = .running → s.status = .running := by
      intro hr
      split at hrun <;> (obtain ⟨hst, -⟩ := hrun; rw [hr] at hst)
      · split at hst
        · cases hst
        · exact hst.symm
      · cases hst
    exact ⟨by rw [he]; exact Nat.le_succ _, by rw [he], hlog, hstatus⟩
  · exact ⟨Nat.le_refl _, Nat.le_refl _, List.prefix_refl _, fun h => by cases h⟩

theorem Effect.progress {s t : State} (h : Effect s t) : Progress s t := by
  cases h with
  | method hc h =>
    rename_i i m t
    cases m with
    | allocate =>
      rw [exec_allocate _ _ rfl, allocateOp_eq_next] at h
      obtain ⟨h, rest, u, -, -, ⟨-, rfl⟩ | ⟨j, -, rfl⟩⟩ := h
      · exact ⟨Nat.le_refl _, Nat.le_refl _, List.prefix_refl _, id⟩
      · constructor <;> simp [State.place]
    | execute g =>
      rw [exec_execute _ _ _ rfl, executeOp_eq_next] at h
      obtain ⟨u, -, rfl⟩ := h
      constructor <;> simp
    | complete g =>
      rw [exec_complete _ _ _ rfl, completeOp_eq_next] at h
      obtain ⟨u, -, rfl⟩ := h
      split <;> constructor <;> simp
    | retire =>
      rw [exec_retire _ _ rfl] at h
      obtain ⟨h1, h2, h3, h4⟩ := retire_progress h
      exact ⟨h1, h2, h3, h4⟩
    | rollback =>
      rw [exec_rollback _ _ rfl, undoOp_eq_next] at h
      obtain ⟨-, u, -, rfl⟩ := h
      constructor <;> simp
  | enter h =>
    exact ⟨(enterRecovery_retiredCount h).ge, (enterRecovery_seqNext h).ge, enterRecovery_log h,
      fun hr => (enterRecovery_status h) ▸ hr⟩
  | decode _ _ _ _ =>
    unfold decodeHead decodeAs
    split
    · constructor <;> simp
    · split <;> constructor <;> simp
  | raise | rstate | resume | stamp | fetch | tick => constructor <;> simp [State.fetchOne]

theorem Effects.progress {s t : State} (h : Effects s t) : Progress s t :=
  h.keeps (P := Progress s) (fun _ _ he hs => hs.trans he.progress) .rfl

/-- The clock rises exactly when the run goes on. -/
theorem clockAdvance_cycle (s : State) :
    ((clockAdvance s).status = .running → (clockAdvance s).cycle = s.cycle + 1) ∧
      ((clockAdvance s).status ≠ .running → (clockAdvance s).cycle = s.cycle) := by
  by_cases hstatus : s.status = .running
  · by_cases hw : s.lastRetireCycle + s.cfg.watchdogN ≤ s.cycle
    · rw [clockAdvance_of_watchdog hstatus hw]; simp
    · rw [clockAdvance_of_not_watchdog hstatus hw]; simp [hstatus]
  · rw [clockAdvance_of_not_running hstatus]; simp [hstatus]

/-- Settles O46: every effect makes progress, and only the clock, in a run that goes on, moves the
cycle. -/
theorem countersAndStatusProgress : Obligations.CountersAndStatusProgress := by
  intro s t h
  obtain ⟨s1, x, h1, hx, rfl⟩ := step_after_retire h
  have hp : Progress s (clockAdvance x) := (step_effects h).2.progress
  have hr := retireStage_retiresAtMost h1
  have hcycle : x.cycle = s.cycle := hx.cycle.trans hr.cycle
  have hcfg : (clockAdvance x).cfg = s.cfg := by
    rw [clockAdvance_eq]; exact hx.cfg.trans hr.cfg
  refine ⟨hcfg, hp.retiredCount, hp.seqNext, hp.log, fun hrun => ⟨hp.running hrun, ?_⟩, fun hrun => ?_⟩
  · rw [(clockAdvance_cycle x).1 hrun, hcycle]
  · rw [(clockAdvance_cycle x).2 hrun, hcycle]

end Sys2Proof.Machine
end

section
namespace Sys2Proof.Machine

/-! ## Granting and renaming (40_rename.md R103, R105) -/

theorem State.freeOf_renameDest {s : State} {r : RegRef} (h : 1 ≤ s.avail r.cls) (c q : Nat) :
    (s.renameDest r).1.freeOf c q =
      if c = r.cls ∧ q = s.firstFree r.cls then false else s.freeOf c q := by
  show (s.setFree r.cls (s.firstFree r.cls) false).freeOf c q = _
  rw [State.freeOf_setFree, ite_hasEntry (State.hasEntry_firstFree h)]

/-- Settles O6. -/
theorem grantTakesLowestFree : Obligations.GrantTakesLowestFree := fun _ _ h =>
  ⟨rfl, State.freeOf_firstFree h, fun _ hq => State.freeOf_below hq, State.freeOf_renameDest h⟩

/-- In a shaped state the free bits of an existing register's class are those below `NP`. -/
theorem State.firstFree_lt {s : State} (hs : s.renameShaped) {c : Nat} (hc : c < s.cfg.classes.length)
    (h : 1 ≤ s.avail c) : s.firstFree c < s.cfg.np c := by
  obtain ⟨-, -, -, -, hshape⟩ := hs
  obtain ⟨-, -, hfree, -, -⟩ := hshape c hc
  exact hfree ▸ (State.hasEntry_firstFree h).2

theorem State.ratOf_renameDest {s : State} (hs : s.renameShaped) {r : RegRef}
    (hr : r.inRange s.cfg = true) (c a : Nat) : (s.renameDest r).1.ratOf c a =
      if c = r.cls ∧ a = r.arch then s.firstFree r.cls else s.ratOf c a := by
  obtain ⟨hc, ha⟩ := RegRef.inRange_iff.mp hr
  obtain ⟨hlen, -, -, -, hshape⟩ := hs
  have hentry : hasEntry s.rat r.cls r.arch := ⟨hlen ▸ hc, (hshape _ hc).1 ▸ ha⟩
  show (s.setRat r.cls r.arch (s.firstFree r.cls)).ratOf c a = _
  rw [State.ratOf_setRat, ite_hasEntry hentry]

theorem State.validOf_renameDest {s : State} (hs : s.renameShaped) {r : RegRef}
    (hr : r.inRange s.cfg = true) (h : 1 ≤ s.avail r.cls) (c q : Nat) :
    (s.renameDest r).1.validOf c q =
      if c = r.cls ∧ q = s.firstFree r.cls then false else s.validOf c q := by
  obtain ⟨hc, -⟩ := RegRef.inRange_iff.mp hr
  have hlt := State.firstFree_lt hs hc h
  obtain ⟨-, -, -, hlen, hshape⟩ := hs
  obtain ⟨-, -, -, hvalid, -⟩ := hshape _ hc
  have hentry : hasEntry s.valid r.cls (s.firstFree r.cls) := ⟨hlen ▸ hc, hvalid ▸ hlt⟩
  show (s.setValid r.cls (s.firstFree r.cls) false).validOf c q = _
  rw [State.validOf_setValid, ite_hasEntry hentry]

/-- Renaming a register that exists keeps the shapes. -/
theorem renameDest_renameShaped {s : State} (hs : s.renameShaped) {r : RegRef}
    (hr : r.inRange s.cfg = true) (h : 1 ≤ s.avail r.cls) : (s.renameDest r).1.renameShaped := by
  have hrat := State.ratOf_renameDest hs hr
  have hp := State.firstFree_lt hs (RegRef.inRange_iff.mp hr).1 h
  obtain ⟨h1, h2, h3, h4, hshape⟩ := hs
  obtain ⟨e1, e1'⟩ := sameShape_set2 s.rat r.cls r.arch (s.firstFree r.cls)
  obtain ⟨e2, e2'⟩ := sameShape_set2 s.free r.cls (s.firstFree r.cls) false
  obtain ⟨e3, e3'⟩ := sameShape_set2 s.valid r.cls (s.firstFree r.cls) false
  refine ⟨e1.trans h1, h2, e2.trans h3, e3.trans h4, fun c hc => ?_⟩
  obtain ⟨g1, g2, g3, g4, g5⟩ := hshape c hc
  refine ⟨(e1' c).trans g1, g2, (e2' c).trans g3, (e3' c).trans g4, fun a ha => ?_⟩
  rw [hrat]
  split
  · rename_i he; rw [he.1]; exact hp
  · exact g5 a ha

@[simp] theorem present_nil : Operands.present [] = [] := rfl
@[simp] theorem present_none (fs : List (Option RegRef)) :
    Operands.present (none :: fs) = Operands.present fs := rfl
@[simp] theorem present_some (r : RegRef) (fs : List (Option RegRef)) :
    Operands.present (some r :: fs) = r :: Operands.present fs := rfl

/-- A destination slot of the architectural register `r`. -/
def DstSlot.reg (d : DstSlot) : RegRef := ⟨d.cls, d.arch⟩

/-- What renaming the destinations `fs` in `s` gives: the state `t` and the slots. -/
structure Renamed (s : State) (fs : List (Option RegRef)) (t : State)
    (slots : List (Option DstSlot)) : Prop where
  names : slots.map (fun f => f.map DstSlot.reg) = fs
  prev : ∀ d ∈ presentSlots slots, d.prev = s.ratOf d.cls d.arch
  granted : ∀ d ∈ presentSlots slots, s.freeOf d.cls d.fresh = true
  mapped : ∀ d ∈ presentSlots slots, t.ratOf d.cls d.arch = d.fresh
  busy : ∀ d ∈ presentSlots slots, t.freeOf d.cls d.fresh = false
  pending : ∀ d ∈ presentSlots slots, t.validOf d.cls d.fresh = false
  rising : ∀ c, (((presentSlots slots).filter fun d => d.cls = c).map DstSlot.fresh).Pairwise (· < ·)
  ratElse : ∀ c a, (⟨c, a⟩ : RegRef) ∉ Operands.present fs → t.ratOf c a = s.ratOf c a
  freeElse : ∀ c p, (∀ d ∈ presentSlots slots, ¬(d.cls = c ∧ d.fresh = p)) →
    t.freeOf c p = s.freeOf c p
  validElse : ∀ c p, (∀ d ∈ presentSlots slots, ¬(d.cls = c ∧ d.fresh = p)) →
    t.validOf c p = s.validOf c p
  shaped : t.renameShaped

/-- The registers of the slots present are those of the fields present. -/
theorem map_reg_presentSlots (slots : List (Option DstSlot)) :
    (presentSlots slots).map DstSlot.reg =
      Operands.present (slots.map fun f => f.map DstSlot.reg) := by
  induction slots with
  | nil => rfl
  | cons f fs ih => cases f <;> simp [ih]

theorem Renamed.reg_mem {s t : State} {fs : List (Option RegRef)} {slots : List (Option DstSlot)}
    (h : Renamed s fs t slots) {d : DstSlot} (hd : d ∈ presentSlots slots) :
    d.reg ∈ Operands.present fs := by
  rw [← h.names, ← map_reg_presentSlots]
  exact List.mem_map_of_mem hd

theorem Renamed.nil {s : State} (hs : s.renameShaped) : Renamed s [] s [] := by
  refine ⟨rfl, ?_, ?_, ?_, ?_, ?_, ?_, fun _ _ _ => rfl, fun _ _ _ => rfl, fun _ _ _ => rfl, hs⟩ <;>
    simp

/-- One more destination in front: it took the lowest free register, so those granted after it in its
class are higher. -/
theorem Renamed.cons {s t : State} {r : RegRef} {fs : List (Option RegRef)}
    {slots : List (Option DstSlot)} (hs : s.renameShaped) (hr : r.inRange s.cfg = true)
    (ha : 1 ≤ s.avail r.cls) (hn : r ∉ Operands.present fs)
    (h : Renamed (s.renameDest r).1 fs t slots) :
    Renamed s (some r :: fs) t (some (s.renameDest r).2 :: slots) := by
  have hfree := State.freeOf_renameDest ha
  have hrat := State.ratOf_renameDest hs hr
  have hvalid := State.validOf_renameDest hs hr ha
  have hne : ∀ d ∈ presentSlots slots, ¬(d.cls = r.cls ∧ d.arch = r.arch) := fun d hd he =>
    hn (by have := h.reg_mem hd; rwa [DstSlot.reg, he.1, he.2] at this)
  have hnew : ∀ d ∈ presentSlots slots, ¬(d.cls = r.cls ∧ d.fresh = s.firstFree r.cls) :=
    fun d hd he => by
      have := h.granted d hd
      rw [hfree, if_pos he] at this
      cases this
  have hother : ∀ d ∈ presentSlots slots, s.freeOf d.cls d.fresh = true := fun d hd => by
    have := h.granted d hd
    rwa [hfree, if_neg (hnew d hd)] at this
  refine
    { names := by rw [List.map_cons, h.names]; rfl
      prev := ?_, granted := ?_, mapped := ?_, busy := ?_, pending := ?_, rising := ?_
      ratElse := ?_, freeElse := ?_, validElse := ?_, shaped := h.shaped }
  · rintro d (_ | ⟨_, hd⟩)
    · rfl
    · rw [h.prev d hd, hrat, if_neg (hne d hd)]
  · rintro d (_ | ⟨_, hd⟩)
    · exact State.freeOf_firstFree ha
    · exact hother d hd
  · rintro d (_ | ⟨_, hd⟩)
    · show t.ratOf r.cls r.arch = s.firstFree r.cls
      rw [h.ratElse r.cls r.arch hn, hrat, if_pos ⟨rfl, rfl⟩]
    · exact h.mapped d hd
  · rintro d (_ | ⟨_, hd⟩)
    · show t.freeOf r.cls (s.firstFree r.cls) = false
      rw [h.freeElse _ _ hnew, hfree, if_pos ⟨rfl, rfl⟩]
    · exact h.busy d hd
  · rintro d (_ | ⟨_, hd⟩)
    · show t.validOf r.cls (s.firstFree r.cls) = false
      rw [h.validElse _ _ hnew, hvalid, if_pos ⟨rfl, rfl⟩]
    · exact h.pending d hd
  · intro c
    rw [presentSlots_some, List.filter_cons]
    split
    · rename_i hc
      rw [List.map_cons, List.pairwise_cons]
      refine ⟨fun p hp => ?_, h.rising c⟩
      obtain ⟨d, hd, rfl⟩ := List.mem_map.mp hp
      obtain ⟨hd, hdc⟩ := List.mem_filter.mp hd
      have hcls : d.cls = r.cls := (of_decide_eq_true hdc).trans (of_decide_eq_true hc).symm
      show s.firstFree r.cls < d.fresh
      by_contra hlt
      have hf := hother d hd
      have hnd := hnew d hd
      rw [hcls] at hf
      rw [State.freeOf_below (by
        have : d.fresh ≠ s.firstFree r.cls := fun e => hnd ⟨hcls, e⟩
        omega)] at hf
      cases hf
    · exact h.rising c
  · intro c a hca
    simp only [present_some, List.mem_cons, not_or] at hca
    rw [h.ratElse c a hca.2, hrat, if_neg]
    rintro ⟨rfl, rfl⟩
    exact hca.1 rfl
  · intro c p hp
    rw [h.freeElse c p fun d hd => hp d (by simp [hd]), hfree, if_neg]
    rintro ⟨rfl, rfl⟩
    exact hp (s.renameDest r).2 (by simp) ⟨rfl, rfl⟩
  · intro c p hp
    rw [h.validElse c p fun d hd => hp d (by simp [hd]), hvalid, if_neg]
    rintro ⟨rfl, rfl⟩
    exact hp (s.renameDest r).2 (by simp) ⟨rfl, rfl⟩

/-- Renaming destinations that exist, are distinct and for which there are registers. -/
theorem renameDests_renamed : ∀ (s : State) (fs : List (Option RegRef)), s.renameShaped →
    (∀ r ∈ Operands.present fs, r.inRange s.cfg = true) → (Operands.present fs).Nodup →
    s.canRename fs = true → Renamed s fs (renameDests s fs).1 (renameDests s fs).2
  | s, [], hs, _, _, _ => .nil hs
  | s, none :: fs, hs, hr, hn, hc => by
    have h := renameDests_renamed s fs hs hr hn hc
    exact { h with names := by rw [renameDests, List.map_cons, h.names]; rfl }
  | s, some r :: fs, hs, hr, hn, hc => by
    have ha := State.one_le_avail_of_canRename hc
    have hrr : r.inRange s.cfg = true := hr r (by simp)
    rw [present_some, List.nodup_cons] at hn
    exact (renameDests_renamed (s.renameDest r).1 fs (renameDest_renameShaped hs hrr ha)
      (fun q hq => hr q (by simp [hq])) hn.2 (State.canRename_renameDest hc)).cons hs hrr ha hn.1

/-- Settles O7, by `renameDests_renamed`. -/
theorem renameDestsRecordsAndMaps : Obligations.RenameDestsRecordsAndMaps := by
  intro s fs hs hr hn hc
  have h := renameDests_renamed s fs hs hr hn hc
  exact ⟨h.names, fun d hd => ⟨h.prev d hd, h.granted d hd, h.mapped d hd, h.busy d hd,
    h.pending d hd⟩, h.rising, h.ratElse, fun c p hp => ⟨h.freeElse c p hp, h.validElse c p hp⟩,
    renameDests_prf s fs⟩

/-! ## The port arbiter (42_scheduler.md R160) -/

theorem State.rrOf_commitStation {s : State} {k : FuClass} (i : Nat) (hk : k.code < s.rr.length)
    (k' : FuClass) : (s.commitStation k i).rrOf k' =
      if k' = k then (i + 1) % s.cfg.ns k else s.rrOf k' := by
  unfold State.rrOf State.commitStation
  simp only [List.getD_eq_getElem?_getD, List.getElem?_set]
  by_cases h : k' = k
  · subst h; simp [hk]
  · have hcode : ¬k.code = k'.code := fun e => h (FuClass.code_inj e).symm
    simp [h, hcode]

/-- Settles O9: the search is `find?` over the stations from the pointer on. -/
theorem portArbiterRoundRobin : Obligations.PortArbiterRoundRobin := by
  intro s k
  refine ⟨fun i => ?_, selectStation_eq_none, fun hk i => ?_⟩
  · unfold State.selectStation
    rw [find_range_eq_some]
    simp only [decide_eq_true_eq, decide_eq_false_iff_not, not_lt]
    constructor
    · rintro ⟨n, hn, rfl, h1, h2⟩; exact ⟨n, hn, rfl, h1, h2⟩
    · rintro ⟨n, hn, rfl, h1, h2⟩; exact ⟨n, hn, rfl, h1, h2⟩
  · rw [State.rrOf_commitStation i hk, if_pos rfl]

/-! ## Allocate (44_cycle.md R225, R226) -/

theorem before_eq_true {t : Option Nat} {now : Nat} :
    before t now = true ↔ ∃ n, t = some n ∧ n < now := by
  cases t <;> simp [before]

theorem State.setMethod_self {s : State} {m : Method} (h : s.method = m) : s.setMethod m = s := by
  rw [← h]; rfl

theorem State.tableFull_lsTable {s : State} {c : Category} : s.tableFull c.lsTable = true ↔
    c = .load ∧ s.cfg.lqN ≤ s.lq.length ∨ c = .store ∧ s.cfg.sqN ≤ s.sq.length := by
  cases c <;> simp [Category.lsTable, State.tableFull]

/-- A micro-op that lacks a resource has no placement. -/
theorem placement_eq_none {s : State} {k : FuClass} {tbl : LsTable} {o : Operands} {u : Uop}
    (h : (∀ d ∈ u.tDecode, s.cycle ≤ d) ∨ s.robCount = s.cfg.robN ∨
      (∃ c, s.avail c < need o.dst c) ∨ s.selectStation k = none ∨ s.tableFull tbl = true) :
    s.placement k tbl o u = none := by
  cases hp : s.placement k tbl o u with
  | none => rfl
  | some i =>
    exfalso
    obtain ⟨hbefore, hrob, hren, htbl, hsel⟩ := placement_eq_some.mp hp
    obtain ⟨d, hd, hlt⟩ := before_eq_true.mp hbefore
    obtain h | h | ⟨c, h⟩ | h | h := h
    · exact absurd (h d hd) (by omega)
    · exact hrob h
    · exact absurd (State.canRename_iff.mp hren c) (by omega)
    · rw [hsel] at h; cases h
    · rw [htbl] at h; cases h

theorem allocateOp_of_placement_none {k : FuClass} {tbl : LsTable} {o : Operands} {s : State}
    {h : Handle} {rest : List Handle} {u : Uop} (hd : s.dq = h :: rest) (hu : s.uop? h = some u)
    (hp : s.placement k tbl o u = none) : allocateOp k tbl o s = .next s :=
  allocateOp_eq_next.mpr ⟨h, rest, u, hd, hu, .inl ⟨hp, rfl⟩⟩

/-- A head of the decode queue that is not placed ends the scan. -/
theorem allocateLoop_of_waits {s : State} {h : Handle} {rest : List Handle} {u : Uop} {i : Instr}
    (hm : s.method = .allocate) (hd : s.dq = h :: rest) (hu : s.uop? h = some u)
    (hi : u.instr = some i) (he : exec i s = .next s) : ∀ n, allocateLoop n s = .next s
  | 0 => rfl
  | n + 1 => by
    unfold allocateLoop
    rw [hd]
    simp only [withUop_of hu, callOf, hi, call, State.setMethod_self hm, he, andThen_next, hd,
      Nat.lt_irrefl, if_false]

/-- Settles O10: without a placement the head waits, and the scan ends at it. -/
theorem allocateStageWaits : Obligations.AllocateStageWaits := by
  intro i s h rest u hm ha hd hu hi hlack
  have hp : s.placement i.category.fu i.category.lsTable i.operands u = none := by
    refine placement_eq_none ?_
    rw [selectStation_eq_none, State.tableFull_lsTable]
    exact hlack
  have he : exec i s = .next s := by
    rw [exec_allocate i s hm]
    exact allocateOp_of_placement_none hd hu hp
  refine ⟨he, ?_⟩
  rw [allocateStage, if_pos ha]
  exact allocateLoop_of_waits hm hd hu hi he _

/-- In shaped queues every station of the configuration has its list. -/
theorem State.hasEntry_station {s : State} (hq : s.queuesShaped) (hports : s.cfg.ports.length = 6)
    {k : FuClass} {i : Nat} (hi : i < s.cfg.ns k) : hasEntry s.rs k.code i := by
  obtain ⟨-, -, -, -, -, hlen, hports', -, -⟩ := hq
  have hk : k.code < s.cfg.ports.length := hports ▸ FuClass.code_lt k
  exact ⟨hlen ▸ hk, by rw [hports' _ hk]; exact hi⟩

theorem State.station_setStation {s : State} {k : FuClass} {i : Nat} (h : hasEntry s.rs k.code i)
    (l : List Handle) (k' : FuClass) (i' : Nat) : (s.setStation k i l).station k' i' =
      if k' = k ∧ i' = i then l else s.station k' i' := by
  show get2 (set2 s.rs k.code i l) k'.code i' [] = _
  rw [get2_set2, ite_hasEntry h]
  by_cases hk : k' = k
  · subst hk; simp [State.station]
  · rw [if_neg fun e => hk (FuClass.code_inj e.1), if_neg fun e => hk e.1]
    rfl

/-- Slots of a ring at different offsets are different. -/
theorem add_mod_inj {n h a b : Nat} (ha : a < n) (hb : b < n) (e : (h + a) % n = (h + b) % n) :
    a = b :=
  Nat.ModEq.eq_of_lt_of_lt (Nat.ModEq.add_left_cancel' h e) ha hb

/-- The ROB after a push. -/
theorem State.robList_push {s x : State} {h : Handle} (hq : s.queuesShaped)
    (hroom : s.robCount < s.cfg.robN) (h1 : x.robSlots = s.robSlots.set s.robTail h)
    (h2 : x.cfg = s.cfg) (h3 : x.robHead = s.robHead) (h4 : x.robCount = s.robCount + 1) :
    x.robList = s.robList ++ [h] := by
  obtain ⟨-, hslots, hhead, -, htail, -⟩ := hq
  have hlt : s.robTail < s.robSlots.length := by
    rw [htail, hslots]; exact Nat.mod_lt _ (by omega)
  have hat : ∀ j ≤ s.robCount, x.robAt j = if j = s.robCount then h else s.robAt j := by
    intro j hj
    unfold State.robAt
    rw [h1, h2, h3]
    split
    · rename_i he
      rw [he, ← htail]; simp [hlt]
    · rename_i he
      rw [List.getD_eq_getElem?_getD, List.getD_eq_getElem?_getD, List.getElem?_set, if_neg]
      rw [htail]
      intro hmod
      have := add_mod_inj hroom (by omega : j < s.cfg.robN) hmod
      omega
  unfold State.robList
  rw [h4, List.range_succ, List.map_append, List.map_singleton, hat _ le_rfl, if_pos rfl]
  congr 1
  refine List.map_congr_left fun j hj => ?_
  have hj := List.mem_range.mp hj
  rw [hat j hj.le, if_neg hj.ne]

end Sys2Proof.Machine
end

section
namespace Sys2Proof.Machine

/-! ## Placing a micro-op (44_cycle.md R226) -/

/-- What placing a micro-op of table `tbl` into station `j` of class `k` writes. -/
theorem place_eq (s : State) (k : FuClass) (tbl : LsTable) (o : Operands) (h : Handle) (u : Uop)
    (j : Nat) : s.place k tbl o h u j = { s with
      rat := (renameDests s o.dst).1.rat
      free := (renameDests s o.dst).1.free
      valid := (renameDests s o.dst).1.valid
      arena := s.arena.set h (some (u.allocatedAs (s.renameSources o.src) (renameDests s o.dst).2
        s.seqNext s.cycle k j))
      robSlots := s.robSlots.set s.robTail h
      robTail := (s.robTail + 1) % s.cfg.robN
      robCount := s.robCount + 1
      rs := set2 s.rs k.code j (h :: s.station k j)
      rr := s.rr.set k.code ((j + 1) % s.cfg.ns k)
      lq := if tbl = .loads then s.lq ++ [h] else s.lq
      sq := if tbl = .stores then s.sq ++ [h] else s.sq
      dq := s.dq.tail
      seqNext := s.seqNext + 1 } := by
  have er := renameDests_eq s o.dst
  unfold State.place
  generalize renameDests s o.dst = r at er ⊢
  obtain ⟨t, ds⟩ := r
  dsimp only at er ⊢
  generalize t.rat = rat, t.free = free, t.valid = valid at er ⊢
  subst er
  cases tbl <;> rfl

theorem State.uop?_place {s : State} {h : Handle} {u : Uop} (hu : s.uop? h = some u) (k : FuClass)
    (tbl : LsTable) (o : Operands) (j : Nat) (g : Handle) : (s.place k tbl o h u j).uop? g =
      if g = h then some (u.allocatedAs (s.renameSources o.src) (renameDests s o.dst).2 s.seqNext
        s.cycle k j) else s.uop? g := by
  rw [place_eq]
  show (s.setUop h _).uop? g = _
  rw [State.uop?_setUop]
  simp [State.lt_of_uop? hu]

/-- Settles O11: every test of the placement passes, and the selected station has its list. -/
theorem allocatePlacesMicroOp : Obligations.AllocatePlacesMicroOp := by
  intro i s h rest u d hm hd hu hq hports hdec hlt hrob hren ⟨j0, hj0, hroom0⟩ hload hstore
  obtain ⟨j, hsel⟩ : ∃ j, s.selectStation i.category.fu = some j := by
    cases hsel : s.selectStation i.category.fu with
    | some j => exact ⟨j, rfl⟩
    | none => exact absurd (selectStation_eq_none.mp hsel j0 hj0) (by omega)
  have htbl : s.tableFull i.category.lsTable = false := by
    rw [← Bool.not_eq_true, State.tableFull_lsTable]
    rintro (⟨hc, hfull⟩ | ⟨hc, hfull⟩)
    · exact absurd (hload hc) (by omega)
    · exact absurd (hstore hc) (by omega)
  have hp : s.placement i.category.fu i.category.lsTable i.operands u = some j :=
    placement_eq_some.mpr ⟨before_eq_true.mpr ⟨d, hdec, hlt⟩, hrob.ne, State.canRename_iff.mpr hren,
      htbl, hsel⟩
  have hentry := State.hasEntry_station hq hports (selectStation_eq_some hsel).1
  have hrr : i.category.fu.code < s.rr.length := by
    obtain ⟨-, -, -, -, -, -, -, hrr, -⟩ := hq
    rw [hrr, hports]
    exact FuClass.code_lt _
  refine ⟨s.place i.category.fu i.category.lsTable i.operands h u j, j, ?_, hsel, ?_⟩
  · rw [exec_allocate i s hm, allocateOp_eq_next]
    exact ⟨h, rest, u, hd, hu, .inr ⟨j, hp, rfl⟩⟩
  have hself := State.uop?_place hu i.category.fu i.category.lsTable i.operands j
  refine ⟨by rw [hself h, if_pos rfl]; rfl, ?_⟩
  have hothers : sameOtherUops h s (s.place i.category.fu i.category.lsTable i.operands h u j) :=
    fun g hg => by rw [hself g, if_neg hg]
  rw [place_eq] at hothers ⊢
  refine ⟨rfl, rfl, rfl, State.robList_push hq hrob rfl rfl rfl rfl, rfl, fun k n => ?_, fun k => ?_,
    ?_, ?_, by rw [hd]; rfl, rfl, rfl, fun _ => rfl, rfl, rfl, rfl, rfl, ⟨rfl, rfl, rfl, rfl, rfl⟩,
    ⟨rfl, rfl, rfl, rfl, rfl⟩, rfl, hothers⟩
  · refine (State.station_setStation hentry _ k n).trans ?_
    split
    · rename_i he; rw [he.1, he.2]
    · rfl
  · refine (State.rrOf_commitStation j hrr k).trans ?_
    split
    · rename_i he; rw [he]
    · rfl
  · simp only [Category.lsTable_eq_loads]
  · simp only [Category.lsTable_eq_stores]

/-! ## Executing a micro-op (42_scheduler.md R164, R165) -/

/-- The record after execution: issued, computed, and due. -/
def Uop.executedAs (u : Uop) (note : ExecResult → Uop → Uop) (r : ExecResult) (now : Nat) : Uop :=
  { (u.issued now).computed note r with
    tDue := some (now + Config.lat ((u.issued now).computed note r)) }

/-- Executing a live micro-op whose new registers exist and are distinct. -/
theorem executeOp_spec {data : State → ExecResult → BitVec 64} {note : ExecResult → Uop → Uop}
    {h : Handle} {s : State} {u : Uop} (hu : s.uop? h = some u) (hs : s.renameShaped)
    (hd : ∀ d ∈ u.dests, d.inRange s.cfg)
    (hn : (u.dests.map fun d => (d.cls, d.fresh)).Nodup) :
    ∃ t, executeOp data note h s = .next t ∧
      t.uop? h = some (u.executedAs note (Config.exec u.view (s.sourceValues u)) s.cycle) ∧
      resultsWritten u.dst (fun j => (Config.exec u.view (s.sourceValues u)).value j
        (data s (Config.exec u.view (s.sourceValues u)))) s t ∧
      stationLeft h u.station s t ∧ executeFrame h s t := by
  have hrec : ∀ g, (writeDests (s.leaveStation h u.station) 0 u.dst fun j =>
      (Config.exec u.view (s.sourceValues u)).value j
        (data s (Config.exec u.view (s.sourceValues u)))).uop? g = s.uop? g := fun g => by simp
  have hlive := State.lt_of_uop? hu
  have hent : ∀ d ∈ presentSlots u.dst, hasEntry (s.leaveStation h u.station).prf d.cls d.fresh :=
    fun d hd' => by simpa using DstSlot.hasEntry_prf hs (hd d hd')
  refine ⟨_, executeOp_eq_next.mpr ⟨u, hu, rfl⟩, ?_, ⟨fun j d hj => ?_, fun c p hp => ?_⟩, ?_, ?_⟩
  · rw [State.uop?_setUop, if_pos ⟨rfl, by simpa using hlive⟩]; rfl
  · have h1 := prfOf_writeDests (s.leaveStation h u.station) 0 u.dst
      (fun j => (Config.exec u.view (s.sourceValues u)).value j
        (data s (Config.exec u.view (s.sourceValues u)))) hent hn j d hj
    simpa using h1
  · have h1 := prfOf_writeDests_other (s.leaveStation h u.station) 0 u.dst
      (fun j => (Config.exec u.view (s.sourceValues u)).value j
        (data s (Config.exec u.view (s.sourceValues u)))) c p hp
    simpa using h1
  · intro k i
    have h1 := State.leaveStation_station s h u.station k i
    simpa using h1
  · refine ⟨⟨by simp, by simp⟩, by simp, fun a => by simp, ⟨by simp, by simp, by simp, by simp⟩,
      by simp, by simp, by simp, ⟨by simp, by simp, by simp, by simp, by simp⟩,
      ⟨by simp, by simp, by simp, by simp, by simp⟩, ⟨by simp, by simp, by simp, by simp, by simp⟩,
      by simp, by simp, fun g hg => ?_⟩
    rw [State.uop?_setUop, if_neg fun e => hg e.1]
    exact hrec g

/-- Settles O12. -/
theorem executePlainMicroOp : Obligations.ExecutePlainMicroOp := by
  intro o i s h u hi hm hu hs hd hn
  have hdn : dataOf i.category = noData ∧ noteOf i = notePlain := by
    simp only [List.mem_cons, List.not_mem_nil, or_false] at hi
    obtain rfl | rfl | rfl | rfl := hi <;> exact ⟨rfl, rfl⟩
  rw [exec_execute i s h hm, hdn.1, hdn.2]
  exact executeOp_spec hu hs hd hn

/-- Settles O13. -/
theorem executeControlTransfer : Obligations.ExecuteControlTransfer := by
  intro ds o i s h u hi hm hu hs hd hn
  have hdn : dataOf i.category = noData ∧ noteOf i = noteCti ds := by
    simp only [List.mem_cons, List.not_mem_nil, or_false] at hi
    obtain rfl | rfl := hi <;> exact ⟨rfl, rfl⟩
  rw [exec_execute i s h hm, hdn.1, hdn.2]
  exact executeOp_spec hu hs hd hn

/-- Settles O14. -/
theorem executeLoad : Obligations.ExecuteLoad := by
  intro o s h u hm hu hs hd hn
  rw [exec_execute _ s h hm]
  exact executeOp_spec hu hs hd hn

/-- Settles O15. -/
theorem executeStore : Obligations.ExecuteStore := by
  intro o s h u hm hu hs hd hn
  rw [exec_execute _ s h hm]
  exact executeOp_spec hu hs hd hn

/-! ## Completing a micro-op (42_scheduler.md R167, 40_rename.md R108) -/

/-- The record after its completion. -/
def Uop.completedAt (u : Uop) (now : Nat) : Uop := { u.published now with state := .complete }

/-- What completing a micro-op leaves alone: everything but the validity bits and its record. -/
structure CompleteFrame (s t : State) : Prop where
  maps : sameMaps s t
  prf : t.prf = s.prf
  mem : sameMemory s t
  rob : sameRob s t
  scheduler : sameScheduler s t
  front : sameFront s t
  control : sameControl s t
  run : sameRun s t
  seqNext : t.seqNext = s.seqNext
  method : t.method = s.method

/-- What completing a live micro-op that is not complete answers. -/
theorem completeOp_of_incomplete {h : Handle} {s : State} {u : Uop} (hu : s.uop? h = some u)
    (hc : u.complete = false) :
    completeOp h s = .next ((publishDests s u.dst).setUop h (u.completedAt s.cycle)) :=
  completeOp_eq_next.mpr ⟨u, hu, by rw [hc]; rfl⟩

theorem completed_frame (h : Handle) (s : State) (u v : Uop) :
    CompleteFrame s ((publishDests s u.dst).setUop h v) := by
  refine ⟨⟨by simp, by simp⟩, by simp, fun a => by simp, ⟨by simp, by simp, by simp, by simp⟩,
    ⟨by simp, by simp, by simp, by simp⟩, ⟨by simp, by simp, by simp, by simp, by simp⟩,
    ⟨by simp, by simp, by simp, by simp, by simp⟩, ⟨by simp, by simp, by simp, by simp, by simp⟩,
    by simp, by simp⟩

theorem completed_uop? {h : Handle} {s : State} {u : Uop} (hu : s.uop? h = some u) (v : Uop)
    (g : Handle) : ((publishDests s u.dst).setUop h v).uop? g = if g = h then some v else s.uop? g := by
  rw [State.uop?_setUop]
  simp [State.lt_of_uop? hu]

theorem completed_validOf {s : State} (hs : s.renameShaped) {u : Uop}
    (hd : ∀ d ∈ u.dests, d.inRange s.cfg) (h : Handle) (v : Uop) (c p : Nat) :
    ((publishDests s u.dst).setUop h v).validOf c p =
      (s.validOf c p || u.dests.any fun d => decide (d.cls = c ∧ d.fresh = p)) :=
  validOf_publishDests s u.dst (fun d hd' => DstSlot.hasEntry_valid_fresh hs (hd d hd')) c p

/-- Settles O18. -/
theorem completePublishes : Obligations.CompletePublishes := by
  intro i s h u hm hu hc hs hd
  obtain ⟨h1, h2, h3, h4, h5, h6, h7, h8, h9, h10⟩ := completed_frame h s u (u.completedAt s.cycle)
  have hrec := completed_uop? hu (u.completedAt s.cycle)
  refine ⟨_, (exec_complete i s h hm).trans (completeOp_of_incomplete hu hc), ?_,
    completed_validOf hs hd h _, h1, h2, h3, h4, h5, h6, h7, h8, h9, h10, fun g hg => ?_⟩
  · rw [hrec, if_pos rfl]; rfl
  · rw [hrec, if_neg hg]

/-! ## Retiring a micro-op (41_rob_commit.md R138) -/

theorem State.wordStale_eq_false {s : State} {u : Uop} :
    s.wordStale u = false ↔ u.insn = imem s.cfg.endian s.mem u.pc := by
  simp [State.wordStale]

/-- Retire commits a head whose word memory still holds and whose `Exec` had a meaning. -/
theorem retireOp_next {tbl : LsTable} {s : State} {u : Uop} (h0 : s.robCount ≠ 0)
    (hu : s.uop? (s.robAt 0) = some u) (hw : s.wordStale u = false) (hm : u.unmodelled = false)
    (hl : tbl = .stores → ∀ l ∈ s.lq, s.uop? l ≠ none) : ∃ t, retireOp tbl s = .next t := by
  have hmem : ∃ s1, commitMemory tbl (s.robAt 0) u (releaseDests s u.dst) = .next s1 := by
    cases tbl with
    | neither => exact ⟨_, rfl⟩
    | loads => exact ⟨_, rfl⟩
    | stores =>
      obtain ⟨t, ht⟩ := orderingCheck_next (store := u) (releaseDests s u.dst).lq
        ((releaseDests s u.dst).setMem (memWrite (releaseDests s u.dst).cfg.endian
          (releaseDests s u.dst).mem u.maddr u.msize u.mdata))
        (fun g hg => by simpa using hl rfl g (by simpa using hg))
      have ht' : orderingCheck u ((releaseDests s u.dst).setMem (memWrite
          (releaseDests s u.dst).cfg.endian (releaseDests s u.dst).mem u.maddr u.msize u.mdata)) =
          .next t := ht
      exact ⟨_, by simp only [commitMemory]; rw [ht']; rfl⟩
  obtain ⟨s1, h1⟩ := hmem
  exact ⟨_, retireOp_eq_next.mpr ⟨h0, u, hu, hw, .inr ⟨hm, s1, h1, rfl⟩⟩⟩

/-- A retirement leaves every record but the head's, with the ordering flags a store sets. -/
theorem retireOp_others {tbl : LsTable} {s t : State} {u : Uop} (h : retireOp tbl s = .next t)
    (hu : s.uop? (s.robAt 0) = some u) (hm : u.unmodelled = false) {g : Handle}
    (hg : g ≠ s.robAt 0) : t.uop? g =
      if tbl = .stores ∧ g ∈ s.lq then (s.uop? g).map (flagged u) else s.uop? g := by
  obtain ⟨-, v, hv, -, ⟨hm', -⟩ | ⟨-, s1, h1, rfl⟩⟩ := retireOp_eq_next.mp h
  · rw [hu] at hv; cases hv; rw [hm] at hm'; cases hm'
  · rw [hu] at hv; cases hv
    have hcount : ((s1.retireHook u).countRetired (s.robAt 0) u).uop? g = s1.uop? g := by
      show ((s1.retireHook u).robPopHead.setUop (s.robAt 0) _).uop? g = _
      rw [State.uop?_setUop, if_neg fun e => hg e.1]
      rfl
    have hs1 := commitMemory_uop? h1 g
    simp only [releaseDests_lq, releaseDests_uop?] at hs1
    rw [← hs1, ← hcount]
    unfold finishRetire
    dsimp only
    split
    · rfl
    · show (State.freeSlot _ _).uop? g = _
      rw [State.uop?_freeSlot, if_neg hg]
      rfl

/-- What every commit does, in the terms of the statements. -/
theorem retireOp_spec {tbl : LsTable} {s t : State} {u : Uop} (h : retireOp tbl s = .next t)
    (h0 : s.robCount ≠ 0) (hu : s.uop? (s.robAt 0) = some u) (hm : u.unmodelled = false)
    (hs : s.renameShaped) (hd : ∀ d ∈ u.dests, d.inRange s.cfg) :
    previousReleased u.dests s t ∧ headRetired (s.robAt 0) u s t ∧ retireFrame s t ∧
      t.lq = (if tbl = .loads then s.lq.filter (· ≠ s.robAt 0) else s.lq) ∧
      t.sq = (if tbl = .stores then s.sq.filter (· ≠ s.robAt 0) else s.sq) ∧
      t.mem = if tbl = .stores then memWrite s.cfg.endian s.mem u.maddr u.msize u.mdata
        else s.mem := by
  have he := retireOp_commit h hu hm
  have hrun := retireOp_run h hu hm
  have hrel : previousReleased u.dests s t := fun c p => by
    rw [State.freeOf_of (releaseDests s u.dst) t (by rw [he])]
    exact freeOf_releaseDests s u.dst
      (fun d hd' => DstSlot.hasEntry_free_prev hs (hd d hd')) c p
  have hrob : t.robList = s.robList.tail :=
    State.robList_pop h0 (by rw [he]) (by rw [he]) (by rw [he]) (by rw [he])
  refine ⟨hrel, ⟨hrob, by rw [he], by rw [he], by rw [he], hrun⟩, ?_, by rw [he], by rw [he],
    by rw [he]⟩
  rw [he]
  exact ⟨rfl, rfl, rfl, rfl, rfl, ⟨rfl, rfl, rfl, rfl, rfl⟩, ⟨rfl, rfl, rfl, rfl, rfl⟩, rfl, rfl⟩

/-- Settles O21. -/
theorem retirePlainMicroOp : Obligations.RetirePlainMicroOp := by
  intro ds o i s u hi hm h0 hu hw hum hs hd
  have htbl : i.category.lsTable = .neither := by
    simp only [List.mem_cons, List.not_mem_nil, or_false] at hi
    obtain rfl | rfl | rfl | rfl | rfl | rfl := hi <;> rfl
  rw [exec_retire i s hm, htbl]
  obtain ⟨t, ht⟩ := retireOp_next (tbl := .neither) h0 hu (State.wordStale_eq_false.mpr hw) hum
    (fun h => by cases h)
  obtain ⟨hrel, hret, hframe, hlq, hsq, hmem⟩ := retireOp_spec ht h0 hu hum hs hd
  exact ⟨t, ht, hrel, hret, fun a => by rw [hmem]; rfl, hlq, hsq,
    fun g hg => (retireOp_others ht hu hum hg).trans (by simp), hframe⟩

/-- Settles O22. -/
theorem retireLoad : Obligations.RetireLoad := by
  intro o s u hm h0 hu hw hum hs hd
  rw [exec_retire _ s hm]
  obtain ⟨t, ht⟩ := retireOp_next (tbl := .loads) h0 hu (State.wordStale_eq_false.mpr hw) hum
    (fun h => by cases h)
  obtain ⟨hrel, hret, hframe, hlq, hsq, hmem⟩ := retireOp_spec ht h0 hu hum hs hd
  exact ⟨t, ht, hrel, hret, fun a => by rw [hmem]; rfl, hlq, hsq,
    fun g hg => (retireOp_others ht hu hum hg).trans (by simp), hframe⟩

/-- A written byte is the one `ENDIAN` puts at its place. -/
theorem memByte_memWrite (e : Endian) {m : Memory} (hm : Memory.wf m = true) (a : Addr) (n : MemSize)
    (v : BitVec 64) {k : Nat} (hk : k < n.bytes) :
    memByte (memWrite e m a n v) (a + BitVec.ofNat 32 k).toNat =
      BitVec.ofNat 8 (v.toNat / 256 ^ (if e = .little then k else n.bytes - 1 - k)) := by
  have hlen : (toBytes e v.toNat n.bytes).length = n.bytes := length_toBytes _ _ _
  rw [memWrite, memByte_memSetBytes _ m a k hm (by rw [hlen]; have := n.bytes_le; omega)
    (by rw [hlen]; exact hk)]
  exact toBytes_getElem e v.toNat n.bytes k hk

/-- A byte outside the range of a write is as before. -/
theorem memByte_memWrite_other (e : Endian) {m : Memory} (hm : Memory.wf m = true) (a : Addr)
    (n : MemSize) (v : BitVec 64) {x : Nat}
    (hx : ∀ k < n.bytes, x ≠ (a + BitVec.ofNat 32 k).toNat) :
    memByte (memWrite e m a n v) x = memByte m x :=
  memByte_memSetBytes_other _ m a x hm fun k hk => hx k (by simpa using hk)

theorem flagged_eq (store w : Uop) : flagged store w =
    if store.seq < w.seq ∧ w.executed = true ∧
      overlap w.maddr w.msize store.maddr store.msize = true then { w with loadViolation := true }
    else w := by
  simp [flagged, orderViolated, and_assoc]

/-- Settles O23. -/
theorem retireStore : Obligations.RetireStore := by
  intro o s u hm h0 hu hw hum hs hd hcan hlq
  rw [exec_retire _ s hm]
  obtain ⟨t, ht⟩ := retireOp_next (tbl := .stores) h0 hu (State.wordStale_eq_false.mpr hw) hum
    (fun _ => hlq)
  obtain ⟨hrel, hret, hframe, hlq', hsq, hmem⟩ := retireOp_spec ht h0 hu hum hs hd
  rw [if_pos rfl] at hmem
  refine ⟨t, ht, fun k hk => ?_, fun a ha => ?_, fun l hl => ?_, hrel, hret, hlq', hsq, hframe⟩
  · rw [hmem]; exact memByte_memWrite _ hcan _ _ _ hk
  · rw [hmem]; exact memByte_memWrite_other _ hcan _ _ _ ha
  · rw [retireOp_others ht hu hum hl]
    simp [funext (flagged_eq u)]

/-- Settles O24. -/
theorem unmodelledEndsRunAtRetire : Obligations.UnmodelledEndsRunAtRetire := by
  intro i s u hm h0 hu
  rw [exec_retire i s hm]
  refine ⟨fun hw hum => ?_, fun hw => ?_⟩
  · exact retireOp_eq_next.mpr ⟨h0, u, hu, State.wordStale_eq_false.mpr hw, .inl ⟨hum, rfl⟩⟩
  · have hstale : s.wordStale u = true := by simpa [State.wordStale] using hw
    simp [retireOp, h0, withUop_of hu, hstale]

/-! ## Rolling back a micro-op (43_rollback.md R196) -/

theorem restoreDests_writes (s : State) (ds : List (Option DstSlot)) : restoreDests s ds =
    { s with rat := (restoreDests s ds).rat, free := (restoreDests s ds).free } :=
  restoreDests_eq s ds

/-- The ROB without its youngest entry. -/
theorem State.robList_popTail {s x : State} (h0 : s.robCount ≠ 0) (h1 : x.robSlots = s.robSlots)
    (h2 : x.cfg = s.cfg) (h3 : x.robHead = s.robHead) (h4 : x.robCount = s.robCount - 1) :
    x.robList = s.robList.dropLast := by
  obtain ⟨n, hn⟩ := Nat.exists_eq_succ_of_ne_zero h0
  unfold State.robList
  rw [h4, hn]
  simp only [Nat.succ_eq_add_one, Nat.add_sub_cancel, List.range_succ, List.map_append,
    List.map_singleton, List.dropLast_concat]
  exact List.map_congr_left fun j _ => State.robAt_of s x h1 h3 h2 j

/-- What rolling back the youngest entry answers. -/
theorem undoOp_of {s : State} {u : Uop} (h0 : s.robCount ≠ 0)
    (hu : s.uop? (s.robAt (s.robCount - 1)) = some u) : undoOp s = .next { s with
      rat := (restoreDests s u.dst).rat
      free := (restoreDests s u.dst).free
      robTail := (s.robTail + s.cfg.robN - 1) % s.cfg.robN
      robCount := s.robCount - 1
      arena := s.arena.set (s.robAt (s.robCount - 1)) none
      log := s.log ++ [.left { u with state := .rolledBack }] } := by
  rw [undoOp_eq_next]
  refine ⟨h0, u, hu, ?_⟩
  rw [restoreDests_writes]
  rfl

/-- Settles O34. -/
theorem rollbackUndoesMicroOp : Obligations.RollbackUndoesMicroOp := by
  intro i s u hm h0 hu hs hd hn
  refine ⟨_, (exec_rollback i s hm).trans (undoOp_of h0 hu), ?_, ?_, ?_,
    State.robList_popTail h0 rfl rfl rfl rfl, rfl, rfl, ?_, rfl, rfl, rfl, fun _ => rfl,
    ⟨rfl, rfl, rfl, rfl⟩, ⟨rfl, rfl, rfl, rfl, rfl⟩, ⟨rfl, rfl, rfl, rfl, rfl⟩, rfl, rfl, rfl, rfl,
    rfl, rfl, fun g hg => ?_⟩
  · exact fun d hd' => ratOf_restoreDests s u.dst
      (fun e he => DstSlot.hasEntry_rat hs (hd e he)) hn d hd'
  · exact fun c a hca => ratOf_restoreDests_other s u.dst c a hca
  · exact fun c p => freeOf_restoreDests s u.dst
      (fun e he => DstSlot.hasEntry_free_fresh hs (hd e he)) c p
  · show (s.freeSlot _).uop? _ = _
    rw [State.uop?_freeSlot, if_pos rfl]
  · show (s.freeSlot _).uop? g = _
    rw [State.uop?_freeSlot, if_neg hg]

/-! ## The retire scan at its head (41_rob_commit.md R132 to R134) -/

theorem State.resolved_eq_true {s : State} {u : Uop} : s.resolved u = true ↔
    u.complete = true ∧ ∃ n, u.tComplete = some n ∧ n < s.cycle := by
  simp [State.resolved, before_eq_true]

/-- In a running machine that does not unwind, the retire stage is the scan. -/
theorem retireStage_scan {s : State} (hrun : s.status = .running) (hr : s.rstate ≠ .unwind) :
    retireStage s = retireLoop (s.cfg.retireW + 1) 0 s := by
  rw [retireStage, if_neg (not_not.mpr hrun), if_neg hr]

/-- The scan at a resolved head, with bandwidth left. -/
theorem retireLoop_resolved {s : State} {u : Uop} {f n : Nat} (hw : n < s.cfg.retireW)
    (h0 : s.robCount ≠ 0) (hu : s.uop? (s.robAt 0) = some u) (hres : s.resolved u = true) :
    retireLoop (f + 1) n s =
      if u.hasDs then retirePair n u (retireLoop f (n + 2)) s
      else retireSingle u (retireLoop f (n + 1)) s := by
  rw [retireLoop, if_neg (by omega), withUop_of hu, if_neg (by simp [hres])]

theorem one_le_retireW {s : State} (h : s.cfg.admitted = true) : 1 ≤ s.cfg.retireW :=
  (admitted_iff.mp h).retireW

/-- Settles O27. -/
theorem retireAwaitsSuccessor : Obligations.RetireAwaitsSuccessor := by
  intro s u hadm hrun hr h0 hu hres hds hwait
  rw [retireStage_scan hrun hr, retireLoop_resolved (one_le_retireW hadm) h0 hu hres, if_pos hds,
    retirePair]
  by_cases h2 : s.robCount < 2
  · rw [if_pos h2]; rfl
  · obtain h | ⟨v, hv, hnres⟩ := hwait
    · exact absurd h h2
    · rw [if_neg h2, withUop_of hv, if_pos hnres]; rfl

/-- Settles O28. -/
theorem retireStopsAtUnresolvedHead : Obligations.RetireStopsAtUnresolvedHead := by
  intro s u hrun hr h0 hu hwait
  have hres : s.resolved u = false := by
    rw [← Bool.not_eq_true, State.resolved_eq_true]
    rintro ⟨hc, n, hn, hlt⟩
    obtain h | h := hwait
    · rw [h] at hc; cases hc
    · exact absurd (h n hn) (by omega)
  rw [retireStage_scan hrun hr, retireLoop]
  split
  · rfl
  · rw [withUop_of hu, if_pos hres]; rfl

theorem Uop.isCti_eq_true {v : Uop} :
    v.isCti = true ↔ v.hasDs = true ∨ v.cat = some .branch ∨ v.cat = some .jump := by
  have hcat : ∀ c : Category, c.isCti = true ↔ c = .branch ∨ c = .jump := by
    intro c; cases c <;> simp [Category.isCti]
  cases hv : v.cat <;> simp [Uop.isCti, hv, hcat]

/-- Settles O30. -/
theorem controlTransferInDelaySlotEndsRun : Obligations.ControlTransferInDelaySlotEndsRun := by
  intro s u v hadm hrun hr h2 hu hv hres hresv hds hcti
  rw [retireStage_scan hrun hr, retireLoop_resolved (one_le_retireW hadm) (by omega) hu hres,
    if_pos hds, retirePair, if_neg (by omega), withUop_of hv, if_neg (by simp [hresv]),
    if_pos (Uop.isCti_eq_true.mpr hcti)]

/-! ## The stages around it (44_cycle.md R220, R221, R224) -/

/-- Settles O44: every stage asks first. -/
theorem stagesObeyStatusAndRecovery : Obligations.StagesObeyStatusAndRecovery := by
  intro s
  have hidle : s.status ≠ .running ∨ s.recovery = true →
      completeStage s = .next s ∧ executeStage s = .next s ∧ allocateStage s = .next s ∧
      decodeStage s = .next s ∧ fetchStage s = s := by
    intro h
    have ha : ¬s.stageActive = true := by
      rw [stageActive_iff]
      rintro ⟨h1, h2⟩
      obtain h | h := h
      · exact h h1
      · rw [h2] at h; cases h
    exact ⟨if_neg ha, if_neg ha, if_neg ha, if_neg ha, if_neg ha⟩
  refine ⟨fun hrun => ?_, hidle⟩
  have hretire : retireStage s = .next s := if_pos hrun
  obtain ⟨h1, h2, h3, h4, h5⟩ := hidle (.inl hrun)
  refine ⟨hretire, fun hadm => step_eq_next.mpr
    ⟨hadm, s, s, s, s, s, hretire, h1, h2, h3, h4, ?_⟩⟩
  rw [h5, clockAdvance_of_not_running hrun]

/-- Settles O42. -/
theorem decodeStageMovesOrEndsRun : Obligations.DecodeStageMovesOrEndsRun := by
  intro s h rest u n ha hq hroom hu hw
  have hrun : s.status = .running := (stageActive_iff.mp ha).1
  have hstage : decodeStage s = whileRunning (decodeLoop n) (decodeHead h u s) := by
    rw [decodeStage, if_pos ha, hw, decodeLoop, hq]
    simp only [if_pos hroom, withUop_of hu]
  rw [hstage, decodeHead]
  cases hdec : Config.decode u.insn with
  | none => exact if_neg (by simp [decodeAs])
  | some d =>
    cases hcheck : checkDescriptor s.cfg u.hasDs (Config.isAtomic d.op) d.bits with
    | error e => simp only [hcheck, decodeAs]; exact if_neg (by simp)
    | ok i =>
      simp only [hcheck, decodeAs]
      refine ⟨_, if_pos (by simpa using hrun), by simp [hq], by simp, ?_, fun g hg => ?_,
        ⟨rfl, rfl, rfl, rfl, rfl⟩, ⟨rfl, rfl, rfl, rfl, rfl⟩⟩
      · show (s.setUop h _).uop? h = _
        rw [State.uop?_setUop, if_pos ⟨rfl, State.lt_of_uop? hu⟩]
      · show (s.setUop h _).uop? g = _
        rw [State.uop?_setUop, if_neg fun e => hg e.1]

/-- Stations that are empty issue nothing. -/
theorem forEach_executeStation_of_empty {s : State} : ∀ (l : List (FuClass × Nat)),
    (∀ p ∈ l, s.station p.1 p.2 = []) → forEach executeStation l s = .next s
  | [], _ => rfl
  | p :: l, h => by
    have hp : executeStation p s = .next s := by
      have hscan : s.scanOrder [] = [] := by unfold State.scanOrder; split <;> rfl
      rw [executeStation, h p (by simp), hscan, scanStation]
    rw [forEach_cons, hp, andThen_next]
    exact forEach_executeStation_of_empty l fun q hq => h q (by simp [hq])

/-- Settles O43: with an empty ROB and empty stations the stages before allocate leave the state. -/
theorem stepRunsDecodedMicroOp : Obligations.StepRunsDecodedMicroOp := by
  intro s h rest u i n hadm hrun hrec hr hm h0 hst hd hu hi hw
  have ha : s.stageActive = true := stageActive_iff.mpr ⟨hrun, hrec⟩
  have hretire : retireStage s = .next s := by
    rw [retireStage_scan hrun (by rw [hr]; simp), retireLoop, if_pos (.inr h0), State.retireEnds,
      ← hr]
    rfl
  have hcomplete : completeStage s = .next s := by
    rw [completeStage, if_pos ha, State.robList, h0]; rfl
  have hexecute : executeStage s = .next s := by
    rw [executeStage, if_pos ha]
    exact forEach_executeStation_of_empty _ hst
  have hallocate : allocateStage s = andThen (exec i s) fun t =>
      if t.dq.length < s.dq.length then allocateLoop n (t.setMethod .allocate)
        else .next (t.setMethod .allocate) := by
    rw [allocateStage, if_pos ha, hw, allocateLoop, hd]
    simp only [withUop_of hu, callOf, hi, call, State.setMethod_self hm]
    cases exec i s <;> rfl
  rw [step, if_pos hadm, cycleOf, hretire, andThen_next, hcomplete, andThen_next, hexecute,
    andThen_next, hallocate]
  cases exec i s <;> rfl

theorem length_initialPrfs : ∀ (cs : List ClassCfg) (regs : List (List Nat)),
    (initialPrfs cs regs).length = cs.length
  | [], _ => rfl
  | _ :: cs, regs => congrArg Nat.succ (length_initialPrfs cs regs.tail)

/-- The registers of a reset fit, whatever the loader gives. -/
theorem resetWith_valuesFit (cfg : Config) (img : LoaderImage) :
    (State.resetWith cfg img).valuesFit := by
  intro c p
  by_cases hc : c < cfg.classes.length
  · by_cases hp : p < cfg.np c
    · rw [State.resetWith_prfOf cfg img hc hp]
      split
      · exact Nat.mod_lt _ (Nat.two_pow_pos _)
      · exact Nat.two_pow_pos _
    · have hfile : (State.resetWith cfg img).prf.getD c [] =
          initialPrf (cfg.cls c) (img.regs.getD c []) := getD_initialPrfs _ _ _ _ hc
      have hlen : (initialPrf (cfg.cls c) (img.regs.getD c [])).length ≤ p := by
        simpa [initialPrf, Config.np] using Nat.le_of_not_lt hp
      rw [State.prfOf, get2, hfile, List.getD_eq_default _ _ hlen]
      exact Nat.two_pow_pos _
  · have hlen : (State.resetWith cfg img).prf.length ≤ c := by
      show (initialPrfs cfg.classes img.regs).length ≤ c
      rw [length_initialPrfs]; omega
    rw [State.prfOf, get2, List.getD_eq_default _ _ hlen]
    exact Nat.two_pow_pos _

/-- Settles O50. -/
theorem resetConfigurationAdmitted : Obligations.ResetConfigurationAdmitted :=
  ⟨rfl, by decide, rfl, resetWith_valuesFit _ _⟩

end Sys2Proof.Machine
end

section
namespace Sys2Proof.Machine

/-! ## The field `method` does not matter to a method's effect (log entry 6) -/

theorem renameDests_setMethod (m : Method) : ∀ (s : State) (fs : List (Option RegRef)),
    renameDests (s.setMethod m) fs = ((renameDests s fs).1.setMethod m, (renameDests s fs).2)
  | _, [] => rfl
  | s, none :: fs => by rw [renameDests, renameDests_setMethod m s fs]; rfl
  | s, some f :: fs => by
    have e : (s.setMethod m).renameDest f = ((s.renameDest f).1.setMethod m, (s.renameDest f).2) := rfl
    simp only [renameDests, e, renameDests_setMethod m (s.renameDest f).1 fs]

theorem writeDests_setMethod (m : Method) : ∀ (s : State) (j : Nat) (ds : List (Option DstSlot))
    (v : Nat → Nat), writeDests (s.setMethod m) j ds v = (writeDests s j ds v).setMethod m
  | _, _, [], _ => rfl
  | s, j, none :: ds, v => writeDests_setMethod m s (j + 1) ds v
  | s, j, some d :: ds, v => writeDests_setMethod m (s.setPrf d.cls d.fresh (v j)) (j + 1) ds v

theorem publishDests_setMethod (m : Method) : ∀ (s : State) (ds : List (Option DstSlot)),
    publishDests (s.setMethod m) ds = (publishDests s ds).setMethod m
  | _, [] => rfl
  | s, none :: ds => publishDests_setMethod m s ds
  | s, some d :: ds => publishDests_setMethod m (s.setValid d.cls d.fresh true) ds

theorem releaseDests_setMethod (m : Method) : ∀ (s : State) (ds : List (Option DstSlot)),
    releaseDests (s.setMethod m) ds = (releaseDests s ds).setMethod m
  | _, [] => rfl
  | s, none :: ds => releaseDests_setMethod m s ds
  | s, some d :: ds => releaseDests_setMethod m (s.setFree d.cls d.prev true) ds

theorem restoreDests_setMethod (m : Method) : ∀ (s : State) (ds : List (Option DstSlot)),
    restoreDests (s.setMethod m) ds = (restoreDests s ds).setMethod m
  | _, [] => rfl
  | s, none :: ds => restoreDests_setMethod m s ds
  | s, some d :: ds => by simp only [restoreDests, restoreDests_setMethod m s ds]; rfl

theorem call_of_exec {i : Instr} {m : Method} {s t : State} (h : exec i (s.setMethod m) = .next t) :
    call i m s = .next (t.setMethod .allocate) := by
  rw [call, h]; rfl

theorem setMethod_allocate {s : State} (hm : s.method = .allocate) (m : Method) :
    (s.setMethod m).setMethod .allocate = s := State.setMethod_self hm

/-- Asking a micro-op to be allocated. -/
theorem call_allocate {i : Instr} {s : State} (hm : s.method = .allocate) :
    call i .allocate s = allocateOp i.category.fu i.category.lsTable i.operands s := by
  unfold call
  rw [State.setMethod_self hm, exec_allocate i s hm]
  cases ho : allocateOp i.category.fu i.category.lsTable i.operands s with
  | fault r => rfl
  | refused r => rfl
  | next t =>
    rw [andThen_next]
    congr 1
    refine State.setMethod_self ?_
    obtain ⟨h, rest, u, -, -, ⟨-, rfl⟩ | ⟨j, -, rfl⟩⟩ := allocateOp_eq_next.mp ho
    · exact hm
    · rw [place_eq]; exact hm

/-- The state after executing the micro-op `h` with record `u` and dispatched micro-op `i`. -/
def State.execute (s : State) (h : Handle) (u : Uop) (i : Instr) : State :=
  (writeDests (s.leaveStation h u.station) 0 u.dst fun j =>
      (Config.exec u.view (s.sourceValues u)).value j
        (dataOf i.category s (Config.exec u.view (s.sourceValues u)))).setUop h
    (u.executedAs (noteOf i) (Config.exec u.view (s.sourceValues u)) s.cycle)

/-- Asking a live micro-op to execute. -/
theorem call_execute {i : Instr} {s : State} {h : Handle} {u : Uop} (hm : s.method = .allocate)
    (hu : s.uop? h = some u) : call i (.execute h) s = .next (s.execute h u i) := by
  have hx := executeOp_eq_next (data := dataOf i.category) (note := noteOf i)
    (s := s.setMethod (.execute h)) |>.mpr ⟨u, hu, rfl⟩
  rw [← exec_execute i _ h rfl] at hx
  rw [call_of_exec hx]
  congr 1
  have hleave : (s.setMethod (.execute h)).leaveStation h u.station =
      (s.leaveStation h u.station).setMethod (.execute h) := by cases u.station <;> rfl
  have hdata : ∀ r, dataOf i.category (s.setMethod (.execute h)) r = dataOf i.category s r := by
    intro r; cases i.category <;> rfl
  have hmethod : (s.leaveStation h u.station).method = .allocate := by simpa using hm
  have hsrc : (s.setMethod (.execute h)).sourceValues u = s.sourceValues u := rfl
  simp only [hleave, hdata, hsrc, writeDests_setMethod]
  show State.setMethod (State.setUop (State.setMethod _ _) h _) .allocate = _
  have hw : (writeDests (s.leaveStation h u.station) 0 u.dst fun j =>
      (Config.exec u.view (s.sourceValues u)).value j
        (dataOf i.category s (Config.exec u.view (s.sourceValues u)))).method = .allocate := by
    simpa using hm
  exact congrArg (fun x : State => x.setUop h _) (setMethod_allocate hw (.execute h))

/-- Asking a live micro-op that is not complete to complete. -/
theorem call_complete {i : Instr} {s : State} {h : Handle} {u : Uop} (hm : s.method = .allocate)
    (hu : s.uop? h = some u) (hc : u.complete = false) : call i (.complete h) s =
      .next ((publishDests s u.dst).setUop h (u.completedAt s.cycle)) := by
  have hx := completeOp_of_incomplete (s := s.setMethod (.complete h)) (h := h) hu hc
  rw [← exec_complete i _ h rfl] at hx
  rw [call_of_exec hx, publishDests_setMethod]
  congr 1
  have hw : (publishDests s u.dst).method = .allocate := by simpa using hm
  exact congrArg (fun x : State => x.setUop h (u.completedAt s.cycle))
    (setMethod_allocate hw (.complete h))

/-- The state after undoing the youngest entry of the ROB, with record `u`. -/
def State.undo (s : State) (u : Uop) : State :=
  { s with
    rat := (restoreDests s u.dst).rat
    free := (restoreDests s u.dst).free
    robTail := (s.robTail + s.cfg.robN - 1) % s.cfg.robN
    robCount := s.robCount - 1
    arena := s.arena.set (s.robAt (s.robCount - 1)) none
    log := s.log ++ [.left { u with state := .rolledBack }] }

/-- Asking the youngest entry to be rolled back. -/
theorem call_rollback {i : Instr} {s : State} {u : Uop} (hm : s.method = .allocate)
    (h0 : s.robCount ≠ 0) (hu : s.uop? (s.robAt (s.robCount - 1)) = some u) :
    call i .rollback s = .next (s.undo u) := by
  have hx := undoOp_of (s := s.setMethod .rollback) h0 hu
  rw [← exec_rollback i _ rfl] at hx
  rw [call_of_exec hx, restoreDests_setMethod, State.undo, ← hm]
  rfl

/-! ## A commit (41_rob_commit.md R138) -/

/-- The head, with record `u`, is committed. -/
structure Commit (u : Uop) (s t : State) : Prop where
  count : s.robCount ≠ 0
  head : s.uop? (s.robAt 0) = some u
  fresh : s.wordStale u = false
  modelled : u.unmodelled = false
  complete : u.complete = true
  running : s.status = .running
  scanning : s.rstate ≠ .unwind
  arenaLength : t.arena.length = s.arena.length
  /-- Every record but the head's stays, with the ordering flags a store sets. -/
  others : ∀ g, g ≠ s.robAt 0 → t.uop? g =
    if u.cat = some .store ∧ g ∈ s.lq then (s.uop? g).map (flagged u) else s.uop? g
  run : if s.verdict u = true then
      t.status = (if s.cfg.maxInsns = some (s.retiredCount + 1) then .terminated else s.status) ∧
        t.lastMatch = some (s.commitRecord u) ∧ t.uop? (s.robAt 0) = none ∧
        t.log = s.log ++ [.hook u, .commit (s.commitRecord u), .left (u.retiredAt s.cycle)]
    else
      t.status = .fatal (.oracleMismatch u.pc u.insn s.lastMatch) ∧ t.lastMatch = s.lastMatch ∧
        t.uop? (s.robAt 0) = some (u.retiredAt s.cycle) ∧
        t.log = s.log ++ [.hook u, .commit (s.commitRecord u)]
  writes : t = { s with
    free := (releaseDests s u.dst).free
    mem := if u.cat = some .store then memWrite s.cfg.endian s.mem u.maddr u.msize u.mdata
      else s.mem
    lq := if u.cat = some .load then s.lq.filter (· ≠ s.robAt 0) else s.lq
    sq := if u.cat = some .store then s.sq.filter (· ≠ s.robAt 0) else s.sq
    robHead := (s.robHead + 1) % s.cfg.robN
    robCount := s.robCount - 1
    retiredCount := s.retiredCount + 1
    lastRetireCycle := s.cycle
    arena := t.arena
    log := t.log
    status := t.status
    lastMatch := t.lastMatch }

/-- A retirement leaves the number of records. -/
theorem retireOp_arena_length {tbl : LsTable} {s t : State} (h : retireOp tbl s = .next t) :
    t.arena.length = s.arena.length := by
  obtain ⟨-, u, hu, -, ⟨-, rfl⟩ | ⟨-, s1, h1, rfl⟩⟩ := retireOp_eq_next.mp h
  · rfl
  · have e := commitMemory_arena_length h1
    rw [releaseDests_arena] at e
    have hx : ((s1.retireHook u).countRetired (s.robAt 0) u).arena.length = s1.arena.length :=
      List.length_set
    unfold finishRetire
    dsimp only
    split
    · exact hx.trans e
    · exact (List.length_set.trans hx).trans e

/-- Asking the head to retire: it is refused at an overwritten word, ends the run at a micro-op
without a meaning, or commits. -/
theorem call_retire {i : Instr} {s : State} {u : Uop} (hm : s.method = .allocate)
    (h0 : s.robCount ≠ 0) (hu : s.uop? (s.robAt 0) = some u) (hi : u.instr = some i)
    (hc : u.complete = true) (hrun : s.status = .running) (hr : s.rstate ≠ .unwind)
    (hlq : ∀ l ∈ s.lq, s.uop? l ≠ none) :
    (s.wordStale u = true ∧ call i .retire s = .refused (.staleWord u.pc)) ∨
    (u.unmodelled = true ∧ call i .retire s = .next (s.raise (.unmodelled u.pc u.insn))) ∨
    ∃ t, call i .retire s = .next t ∧ Commit u s t := by
  have hcat := (Uop.instr_eq_some hi).1
  cases hw : s.wordStale u
  · cases hum : u.unmodelled
    · obtain ⟨t, ht⟩ := retireOp_next (tbl := i.category.lsTable) (s := s.setMethod .retire)
        h0 hu hw hum (fun _ => hlq)
      have hst : i.category.lsTable = .stores ↔ u.cat = some .store := by
        rw [Category.lsTable_eq_stores, hcat, Option.some.injEq]
      have hld : i.category.lsTable = .loads ↔ u.cat = some .load := by
        rw [Category.lsTable_eq_loads, hcat, Option.some.injEq]
      have he := retireOp_commit ht hu hum
      simp only [releaseDests_setMethod, hst, hld] at he
      have hverdict := retireOp_run ht hu hum
      have hlength := retireOp_arena_length ht
      refine .inr (.inr ⟨t.setMethod .allocate,
        call_of_exec ((exec_retire i _ rfl).trans ht), h0, hu, hw, hum, hc, hrun, hr,
        hlength, fun g hg => ?_, hverdict, ?_⟩)
      · have := retireOp_others ht hu hum hg
        simp only [hst] at this
        exact this
      · rw [← hm]
        exact congrArg (fun x : State => x.setMethod s.method) he
    · refine .inr (.inl ⟨rfl, ?_⟩)
      have hx := (unmodelledEndsRunAtRetire i (s.setMethod .retire) u rfl h0 hu).1
        (State.wordStale_eq_false.mp hw) hum
      rw [call_of_exec hx]
      exact congrArg Host.Outcome.next
        (congrArg (fun x : State => x.raise (.unmodelled u.pc u.insn)) (setMethod_allocate hm .retire))
  · refine .inl ⟨rfl, ?_⟩
    have hne : u.insn ≠ imem s.cfg.endian s.mem u.pc := by simpa [State.wordStale] using hw
    rw [call, (unmodelledEndsRunAtRetire i (s.setMethod .retire) u rfl h0 hu).2 hne]
    rfl

end Sys2Proof.Machine
end

section
namespace Sys2Proof.Machine

/-! ## The structural invariants, by name (10_state.md R29 to R32, R42) -/

/-- `State.wellFormed` with a name for each part. -/
structure Sound (s : State) : Prop where
  admitted : s.cfg.admitted = true
  arenaLength : s.arena.length = s.cfg.arenaN
  slotsLength : s.robSlots.length = s.cfg.robN
  headLt : s.robHead < s.cfg.robN
  countLe : s.robCount ≤ s.cfg.robN
  tail : s.robTail = (s.robHead + s.robCount) % s.cfg.robN
  rsLength : s.rs.length = s.cfg.ports.length
  rsLengths : ∀ k < s.cfg.ports.length, (s.rs.getD k []).length = (s.cfg.ports.getD k []).length
  rrLength : s.rr.length = s.cfg.ports.length
  rrLt : ∀ k ∈ FuClass.all, s.rrOf k < s.cfg.ns k
  fqLe : s.fq.length ≤ s.cfg.fqN
  dqLe : s.dq.length ≤ s.cfg.dqN
  lqLe : s.lq.length ≤ s.cfg.lqN
  sqLe : s.sq.length ≤ s.cfg.sqN
  stationLe : ∀ p ∈ s.cfg.stations, (s.station p.1 p.2).length ≤ (s.cfg.port p.1 p.2).cap
  fetched : ∀ h ∈ s.fq, ∃ u ∈ s.uop? h, u.inFetchQueue
  decoded : ∀ h ∈ s.dq, ∃ u ∈ s.uop? h, u.inDecodeQueue
  inRob : ∀ h ∈ s.robList, ∃ u ∈ s.uop? h, u.inRob
  nodup : (s.fq ++ s.dq ++ s.robList).Nodup
  stationed : ∀ p ∈ s.cfg.stations, (s.station p.1 p.2).Nodup ∧ ∀ h ∈ s.station p.1 p.2,
    h ∈ s.robList ∧ ∃ u ∈ s.uop? h, u.state = .allocated ∧ u.station = some p
  loads : ∀ h ∈ s.lq, h ∈ s.robList ∧ ∃ u ∈ s.uop? h, u.cat = some .load
  stores : ∀ h ∈ s.sq, h ∈ s.robList ∧ ∃ u ∈ s.uop? h, u.cat = some .store
  live : s.status = .running → ∀ h < s.arena.length, s.uop? h ≠ none →
    h ∈ s.fq ++ s.dq ++ s.robList
  increasing : (s.program.map Uop.seq).Pairwise (· < ·)
  seqLt : ∀ n ∈ s.program.map Uop.seq, n < s.seqNext
  unwinds : s.recovery = true ↔ s.rstate = .unwind
  flushed : s.recovery = true → s.fq = [] ∧ s.dq = [] ∧ s.lq = [] ∧ s.sq = [] ∧
    s.redirectPending ≠ none ∧ ∀ p ∈ s.cfg.stations, s.station p.1 p.2 = []
  method : s.method = .allocate

theorem wellFormed_iff {s : State} : s.wellFormed ↔ Sound s := by
  constructor
  · rintro ⟨h1, ⟨a1, a2, a3, a4, a5, a6, a7, a8, a9⟩, ⟨b1, b2, b3, b4, b5⟩,
      ⟨c1, c2, c3, c4, c5, c6, c7, c8⟩, ⟨d1, d2⟩, ⟨e1, e2⟩, f⟩
    exact ⟨h1, a1, a2, a3, a4, a5, a6, a7, a8, a9, b1, b2, b3, b4, b5, c1, c2, c3, c4, c5, c6, c7,
      c8, d1, by simpa using d2, e1, e2, f⟩
  · rintro ⟨h1, a1, a2, a3, a4, a5, a6, a7, a8, a9, b1, b2, b3, b4, b5, c1, c2, c3, c4, c5, c6, c7,
      c8, d1, d2, e1, e2, f⟩
    exact ⟨h1, ⟨a1, a2, a3, a4, a5, a6, a7, a8, a9⟩, ⟨b1, b2, b3, b4, b5⟩,
      ⟨c1, c2, c3, c4, c5, c6, c7, c8⟩, ⟨d1, by simpa using d2⟩, ⟨e1, e2⟩, f⟩

theorem Sound.queuesShaped {s : State} (h : Sound s) : s.queuesShaped :=
  ⟨h.arenaLength, h.slotsLength, h.headLt, h.countLe, h.tail, h.rsLength, h.rsLengths, h.rrLength,
    h.rrLt⟩

theorem Sound.ports {s : State} (h : Sound s) : s.cfg.ports.length = 6 :=
  (admitted_iff.mp h.admitted).ports

/-! ## The ROB and the records in it -/

@[simp] theorem State.length_robList (s : State) : s.robList.length = s.robCount := by
  simp [State.robList]

theorem State.robList_getElem? (s : State) {j : Nat} (hj : j < s.robCount) :
    s.robList[j]? = some (s.robAt j) := by
  simp [State.robList, hj]

theorem State.robAt_mem {s : State} {j : Nat} (hj : j < s.robCount) : s.robAt j ∈ s.robList :=
  List.mem_map.mpr ⟨j, List.mem_range.mpr hj, rfl⟩

theorem State.mem_robList {s : State} {h : Handle} (hh : h ∈ s.robList) :
    ∃ j < s.robCount, h = s.robAt j := by
  obtain ⟨j, hj, rfl⟩ := List.mem_map.mp hh
  exact ⟨j, List.mem_range.mp hj, rfl⟩

/-- Reading a field off every record of the ROB. -/
theorem State.map_program {α : Type} (s : State) (f : Uop → α) :
    s.program.map f = s.robList.filterMap fun h => (s.uop? h).map f := by
  rw [State.program, List.map_filterMap]

/-- The records agree on a field if each entry's do. -/
theorem State.map_program_of {α : Type} {s t : State} {f : Uop → α} (hl : t.robList = s.robList)
    (hu : ∀ h ∈ s.robList, (t.uop? h).map f = (s.uop? h).map f) :
    t.program.map f = s.program.map f := by
  rw [State.map_program, State.map_program, hl]
  exact List.filterMap_congr hu

theorem State.mem_program {s : State} {u : Uop} :
    u ∈ s.program ↔ ∃ h ∈ s.robList, s.uop? h = some u := List.mem_filterMap

/-- With every entry live, the records stand at the places of their entries. -/
theorem filterMap_getElem? {α β : Type} (f : α → Option β) : ∀ (l : List α),
    (∀ a ∈ l, f a ≠ none) → ∀ j : Nat, (l.filterMap f)[j]? = l[j]?.bind f
  | [], _, _ => by simp
  | a :: l, h, j => by
    obtain ⟨b, hb⟩ := Option.ne_none_iff_exists'.mp (h a (by simp))
    rw [List.filterMap_cons_some hb]
    cases j with
    | zero => simp [hb]
    | succ j => simpa using filterMap_getElem? f l (fun x hx => h x (by simp [hx])) j

theorem Sound.robLive {s : State} (hs : Sound s) : ∀ h ∈ s.robList, s.uop? h ≠ none := by
  intro h hh hn
  obtain ⟨u, hu, -⟩ := hs.inRob h hh
  rw [hn] at hu
  cases hu

theorem Sound.program_getElem? {s : State} (hs : Sound s) {j : Nat} (hj : j < s.robCount) :
    s.program[j]? = s.uop? (s.robAt j) := by
  rw [State.program, filterMap_getElem? _ _ hs.robLive, s.robList_getElem? hj]
  rfl

theorem Sound.length_program {s : State} (hs : Sound s) : s.program.length = s.robCount := by
  have h : ∀ j, s.program[j]? = s.robList[j]?.bind s.uop? := filterMap_getElem? _ _ hs.robLive
  apply Nat.le_antisymm
  · rw [← s.length_robList]; exact List.length_filterMap_le _ _
  · by_contra hlt
    have hj : s.program.length < s.robCount := by omega
    have hn := h s.program.length
    rw [List.getElem?_eq_none le_rfl, s.robList_getElem? hj] at hn
    exact hs.robLive _ (State.robAt_mem hj) hn.symm

theorem Sound.program_eq_some {s : State} (hs : Sound s) {j : Nat} {u : Uop} :
    s.program[j]? = some u ↔ j < s.robCount ∧ s.uop? (s.robAt j) = some u := by
  constructor
  · intro h
    have hj : j < s.robCount := hs.length_program ▸ (List.getElem?_eq_some_iff.mp h).1
    exact ⟨hj, (hs.program_getElem? hj).symm.trans h⟩
  · rintro ⟨hj, hu⟩; rw [hs.program_getElem? hj, hu]

theorem Sound.robNodup {s : State} (hs : Sound s) : s.robList.Nodup :=
  (List.nodup_append.mp hs.nodup).2.1

theorem Sound.fq_not_rob {s : State} (hs : Sound s) {h : Handle} (hq : h ∈ s.fq ++ s.dq) :
    h ∉ s.robList := fun hr => (List.nodup_append.mp hs.nodup).2.2 h hq h hr rfl

theorem Sound.robAt_inj {s : State} (hs : Sound s) {i j : Nat} (hi : i < s.robCount)
    (hj : j < s.robCount) (e : s.robAt i = s.robAt j) : i = j := by
  have hnd := hs.robNodup
  rw [State.robList, List.nodup_map_iff_inj_on List.nodup_range] at hnd
  exact hnd i (List.mem_range.mpr hi) j (List.mem_range.mpr hj) e

theorem Sound.inRob_of {s : State} (hs : Sound s) {h : Handle} {u : Uop} (hh : h ∈ s.robList)
    (hu : s.uop? h = some u) : u.inRob := by
  obtain ⟨v, hv, hr⟩ := hs.inRob h hh
  rw [hu] at hv
  cases hv
  exact hr

/-- A record in the ROB has a micro-op to dispatch. -/
theorem Uop.instr_of_cat {u : Uop} (h : u.cat ≠ none) : ∃ i, u.instr = some i := by
  obtain ⟨c, hc⟩ := Option.ne_none_iff_exists'.mp h
  exact ⟨_, by rw [Uop.instr, hc]; rfl⟩

/-! ## The stations of a configuration -/

theorem FuClass.mem_all (k : FuClass) : k ∈ FuClass.all := by cases k <;> decide

theorem Config.mem_stations {c : Config} {p : FuClass × Nat} :
    p ∈ c.stations ↔ p.2 < c.ns p.1 := by
  obtain ⟨k, i⟩ := p
  simp only [Config.stations, List.mem_flatMap, List.mem_map, List.mem_range, Prod.mk.injEq]
  constructor
  · rintro ⟨k', -, j, hj, rfl, rfl⟩; exact hj
  · intro hi; exact ⟨k, FuClass.mem_all k, i, hi, rfl, rfl⟩

/-- A station the configuration does not have holds nothing. -/
theorem Sound.station_nil {s : State} (hs : Sound s) {p : FuClass × Nat}
    (hp : p ∉ s.cfg.stations) : s.station p.1 p.2 = [] := by
  have hlt : p.1.code < s.cfg.ports.length := hs.ports ▸ FuClass.code_lt p.1
  have hlen := hs.rsLengths _ hlt
  rw [Config.mem_stations] at hp
  rw [State.station, get2, List.getD_eq_default _ _ (by rw [hlen]; exact Nat.le_of_not_lt hp)]

theorem Sound.mem_station {s : State} (hs : Sound s) {p : FuClass × Nat} {h : Handle}
    (hh : h ∈ s.station p.1 p.2) : p ∈ s.cfg.stations := by
  by_contra hp
  rw [hs.station_nil hp] at hh
  cases hh

/-- The micro-ops of the stations, all together. -/
theorem Sound.mem_flatten {s : State} (hs : Sound s) {h : Handle} :
    h ∈ s.rs.flatten.flatten ↔ ∃ p ∈ s.cfg.stations, h ∈ s.station p.1 p.2 := by
  have hcode : ∀ k < 6, ∃ K : FuClass, K.code = k := by
    intro k hk
    interval_cases k
    exacts [⟨.alu, rfl⟩, ⟨.fp, rfl⟩, ⟨.jmp, rfl⟩, ⟨.ld, rfl⟩, ⟨.st, rfl⟩, ⟨.sys, rfl⟩]
  constructor
  · intro hh
    obtain ⟨l, hl, hh⟩ := List.mem_flatten.mp hh
    obtain ⟨ls, hls, hl⟩ := List.mem_flatten.mp hl
    obtain ⟨k, hk, rfl⟩ := List.mem_iff_getElem.mp hls
    obtain ⟨i, hi, rfl⟩ := List.mem_iff_getElem.mp hl
    obtain ⟨K, rfl⟩ := hcode k (by rw [← hs.ports, ← hs.rsLength]; exact hk)
    have hst : h ∈ s.station K i := by
      simpa [State.station, get2, List.getD_eq_getElem?_getD, hk, hi] using hh
    exact ⟨(K, i), hs.mem_station (p := (K, i)) hst, hst⟩
  · rintro ⟨⟨K, i⟩, hp, hh⟩
    obtain ⟨hk, hi⟩ := State.hasEntry_station hs.queuesShaped hs.ports (Config.mem_stations.mp hp)
    refine List.mem_flatten.mpr ⟨s.station K i, List.mem_flatten.mpr ⟨s.rs[K.code], List.getElem_mem hk, ?_⟩, hh⟩
    rw [List.getD_eq_getElem _ _ hk] at hi
    have : s.station K i = s.rs[K.code][i] := by
      simp [State.station, get2, List.getD_eq_getElem?_getD, hk, hi]
    rw [this]
    exact List.getElem_mem hi

/-! ## What keeps the structure -/

/-- The parts the structural invariants do not speak of. -/
theorem Sound.regs {s : State} (hs : Sound s) (rat prf : List (List Nat)) (free valid : List (List Bool))
    (cycle : Nat) (fetchPc : Pc) (pendingTarget : Option Pc) (retiredCount lastRetireCycle : Nat)
    (mem : Memory) (log : List EnvEvent) (lastMatch : Option CommitRecord) (predictCalls : Nat) :
    Sound { s with
      rat, prf, free, valid, cycle, fetchPc, pendingTarget, retiredCount, lastRetireCycle, mem, log
      lastMatch, predictCalls } :=
  ⟨hs.1, hs.2, hs.3, hs.4, hs.5, hs.6, hs.7, hs.8, hs.9, hs.10, hs.11, hs.12, hs.13, hs.14, hs.15,
    hs.16, hs.17, hs.18, hs.19, hs.20, hs.21, hs.22, hs.23, hs.24, hs.25, hs.26, hs.27, hs.28⟩

/-- Ending the run keeps the structure. -/
theorem Sound.ended {s : State} (hs : Sound s) {st : Status} (h : st = .running → s.status = .running) :
    Sound { s with status := st } :=
  { hs with live := fun hr => hs.live (h hr) }

theorem Sound.setRstate {s : State} (hs : Sound s) {r : RState} (h1 : s.rstate ≠ .unwind)
    (h2 : r ≠ .unwind) : Sound (s.setRstate r) :=
  { hs with unwinds := ⟨fun h => absurd (hs.unwinds.mp h) h1, fun h => absurd h h2⟩ }

/-- A record is replaced by one with the same age and category and a lifecycle state that fits its
place; if it stands in a station it stays there. -/
theorem Sound.setUop {s : State} (hs : Sound s) {h : Handle} {u v : Uop} (hu : s.uop? h = some u)
    (hseq : v.seq = u.seq) (hcat : v.cat = u.cat) (hfq : u.inFetchQueue → v.inFetchQueue)
    (hdq : u.inDecodeQueue → v.inDecodeQueue) (hrob : u.inRob → v.inRob)
    (hst : ∀ p : FuClass × Nat, h ∈ s.station p.1 p.2 → v.state = u.state ∧ v.station = u.station) :
    Sound (s.setUop h v) := by
  have hread : ∀ g, (s.setUop h v).uop? g = if g = h then some v else s.uop? g := fun g => by
    rw [State.uop?_setUop]; simp [State.lt_of_uop? hu]
  have keep : ∀ {P Q : Uop → Prop} {g : Handle}, (P u → Q v) → (∀ w, P w → Q w) →
      (∃ w ∈ s.uop? g, P w) → ∃ w ∈ (s.setUop h v).uop? g, Q w := by
    rintro P Q g huv hpq ⟨w, hw, hp⟩
    rw [hread]
    by_cases hg : g = h
    · subst hg
      have : u = w := Option.some.inj (hu.symm.trans hw)
      exact ⟨v, by simp, huv (this ▸ hp)⟩
    · exact ⟨w, by simpa [hg] using hw, hpq w hp⟩
  have hseqs : (s.setUop h v).program.map Uop.seq = s.program.map Uop.seq := by
    refine State.map_program_of rfl fun g _ => ?_
    rw [hread]
    by_cases hg : g = h
    · subst hg; simp [hu, hseq]
    · simp [hg]
  exact { hs with
    arenaLength := List.length_set.trans hs.arenaLength
    fetched := fun g hg => keep hfq (fun _ => id) (hs.fetched g hg)
    decoded := fun g hg => keep hdq (fun _ => id) (hs.decoded g hg)
    inRob := fun g hg => keep hrob (fun _ => id) (hs.inRob g hg)
    stationed := fun p hp => ⟨(hs.stationed p hp).1, fun g hg => by
      obtain ⟨h1, w, hw, h2, h3⟩ := (hs.stationed p hp).2 g hg
      refine ⟨h1, ?_⟩
      rw [hread]
      by_cases hgh : g = h
      · subst hgh
        have : u = w := Option.some.inj (hu.symm.trans hw)
        subst this
        obtain ⟨e1, e2⟩ := hst p hg
        exact ⟨v, by simp, e1.trans h2, e2.trans h3⟩
      · exact ⟨w, by simpa [hgh] using hw, h2, h3⟩⟩
    loads := fun g hg => ⟨(hs.loads g hg).1,
      keep (fun h => hcat.trans h) (fun _ => id) (hs.loads g hg).2⟩
    stores := fun g hg => ⟨(hs.stores g hg).1,
      keep (fun h => hcat.trans h) (fun _ => id) (hs.stores g hg).2⟩
    live := fun hr g hg hn => by
      refine hs.live hr g (by simpa using hg) fun hnone => hn ?_
      have hgh : g ≠ h := fun e => by rw [e, hu] at hnone; cases hnone
      rw [hread, if_neg hgh, hnone]
    increasing := hseqs ▸ hs.increasing
    seqLt := hseqs ▸ hs.seqLt }

/-- Stations that lose micro-ops. -/
theorem Sound.shrinkStations {s : State} (hs : Sound s) {rs : List (List (List Handle))}
    (hlen : rs.length = s.rs.length) (hlens : ∀ k, (rs.getD k []).length = (s.rs.getD k []).length)
    (hsub : ∀ k i, (get2 rs k i []).Sublist (get2 s.rs k i [])) : Sound { s with rs := rs } :=
  { hs with
    rsLength := hlen.trans hs.rsLength
    rsLengths := fun k hk => (hlens k).trans (hs.rsLengths k hk)
    stationLe := fun p hp => (hsub p.1.code p.2).length_le.trans (hs.stationLe p hp)
    stationed := fun p hp => ⟨(hs.stationed p hp).1.sublist (hsub p.1.code p.2), fun h hh =>
      (hs.stationed p hp).2 h ((hsub p.1.code p.2).subset hh)⟩
    flushed := fun hr => by
      obtain ⟨h1, h2, h3, h4, h5, h6⟩ := hs.flushed hr
      exact ⟨h1, h2, h3, h4, h5, fun p hp => by
        have := hsub p.1.code p.2
        rw [show get2 s.rs p.1.code p.2 [] = [] from h6 p hp] at this
        exact List.sublist_nil.mp this⟩ }

/-- The ready stamp. -/
theorem Sound.stamp {s : State} (hs : Sound s) {h : Handle} {u : Uop} (hu : s.uop? h = some u) :
    Sound (s.setUop h (s.stampReady u)) := by
  unfold State.stampReady
  split
  · exact hs.setUop hu rfl rfl id id id fun _ _ => ⟨rfl, rfl⟩
  · exact hs.setUop hu rfl rfl id id id fun _ _ => ⟨rfl, rfl⟩

theorem Uop.due_iff {u : Uop} {now : Nat} : u.due now = true ↔
    u.executed = true ∧ u.complete = false ∧ ∃ n ∈ u.tDue, n ≤ now := by
  cases hd : u.tDue <;> simp [Uop.due, hd, and_assoc]

/-- Completing a micro-op that is due. -/
theorem Sound.complete {s : State} (hs : Sound s) {h : Handle} {u : Uop} (hu : s.uop? h = some u)
    (hd : u.due s.cycle = true) :
    Sound ((publishDests s u.dst).setUop h (u.completedAt s.cycle)) := by
  obtain ⟨he, hc, -⟩ := Uop.due_iff.mp hd
  have hs1 : Sound (s.setUop h (u.completedAt s.cycle)) := by
    refine hs.setUop hu rfl rfl (fun hq => ?_) (fun hq => ?_) (fun hr => ?_) (fun p hp => ?_)
    · rw [hq.2.1] at he; cases he
    · rw [hq.2.2.1] at he; cases he
    · exact ⟨hr.1, by simp [Uop.completedAt, Uop.published, he],
        by simp [Uop.completedAt, Uop.published], .inr (.inr rfl)⟩
    · obtain ⟨hrob, v, hv, hst, -⟩ := (hs.stationed p (hs.mem_station hp)).2 h hp
      have : u = v := Option.some.inj (hu.symm.trans hv)
      subst this
      exact absurd hst ((hs.inRob_of hrob hu).2.1.mp he)
  have e : publishDests s u.dst = { s with valid := (publishDests s u.dst).valid } :=
    publishDests_eq s u.dst
  rw [e]
  exact hs1.regs _ _ _ _ _ _ _ _ _ _ _ _ _

@[simp] theorem noteOf_seq (i : Instr) (r : ExecResult) (u : Uop) : (noteOf i r u).seq = u.seq := by
  cases i <;> rfl
@[simp] theorem noteOf_cat (i : Instr) (r : ExecResult) (u : Uop) : (noteOf i r u).cat = u.cat := by
  cases i <;> rfl
@[simp] theorem noteOf_complete (i : Instr) (r : ExecResult) (u : Uop) :
    (noteOf i r u).complete = u.complete := by cases i <;> rfl
@[simp] theorem noteOf_state (i : Instr) (r : ExecResult) (u : Uop) :
    (noteOf i r u).state = u.state := by cases i <;> rfl

/-- What execution writes, the register files apart. -/
theorem execute_eq (s : State) (h : Handle) (u : Uop) (i : Instr) : s.execute h u i = { s with
    prf := (s.execute h u i).prf
    rs := (s.leaveStation h u.station).rs
    arena := s.arena.set h (some (u.executedAs (noteOf i) (Config.exec u.view (s.sourceValues u))
      s.cycle)) } := by
  unfold State.execute
  rw [writeDests_eq]
  cases u.station <;> rfl

theorem State.uop?_execute {s : State} {h : Handle} {u : Uop} (hu : s.uop? h = some u) (i : Instr)
    (g : Handle) : (s.execute h u i).uop? g =
      if g = h then some (u.executedAs (noteOf i) (Config.exec u.view (s.sourceValues u)) s.cycle)
      else s.uop? g := by
  unfold State.execute
  rw [State.uop?_setUop]
  simp [State.lt_of_uop? hu]

theorem State.station_execute (s : State) (h : Handle) (u : Uop) (i : Instr) (k : FuClass)
    (n : Nat) : (s.execute h u i).station k n =
      if u.station = some (k, n) then (s.station k n).filter (· ≠ h) else s.station k n := by
  rw [execute_eq]
  exact s.leaveStation_station h u.station k n

/-- Leaving a station shrinks it. -/
theorem Sound.leaveStation {s : State} (hs : Sound s) (h : Handle) (p : Option (FuClass × Nat)) :
    Sound { s with rs := (s.leaveStation h p).rs } := by
  cases p with
  | none => exact hs
  | some q =>
    obtain ⟨k, i⟩ := q
    refine hs.shrinkStations (length_set2 _ _ _ _) (fun _ => length_getD_set2 _ _ _ _ _)
      fun k' i' => ?_
    show (get2 (set2 s.rs k.code i ((s.station k i).filter (· ≠ h))) k' i' []).Sublist _
    rw [get2_set2]
    split
    · rename_i he
      rw [he.1, he.2.1]
      exact List.filter_sublist
    · exact List.Sublist.refl _

/-- Executing a micro-op that stands in a station. -/
theorem Sound.execute {s : State} (hs : Sound s) {h : Handle} {u : Uop} {p : FuClass × Nat}
    (i : Instr) (hp : h ∈ s.station p.1 p.2) (hu : s.uop? h = some u) : Sound (s.execute h u i) := by
  obtain ⟨hrob, v, hv, hstate, hstation⟩ := (hs.stationed p (hs.mem_station hp)).2 h hp
  have huv : u = v := Option.some.inj (hu.symm.trans hv)
  subst huv
  have hin := hs.inRob_of hrob hu
  have hout : ∀ q : FuClass × Nat, h ∉ get2 (s.leaveStation h u.station).rs q.1.code q.2 [] := by
    intro q hq
    have hq : h ∈ (s.leaveStation h u.station).station q.1 q.2 := hq
    rw [State.leaveStation_station] at hq
    split at hq
    · simp at hq
    · rename_i hne
      obtain ⟨-, w, hw, -, hst⟩ := (hs.stationed q (hs.mem_station hq)).2 h hq
      have : u = w := Option.some.inj (hu.symm.trans hw)
      subst this
      exact hne (by rw [hst])
  have hnc : u.complete = false := by
    rw [← Bool.not_eq_true, hin.2.2.1, hstate]; simp
  have hs1 := hs.leaveStation h u.station
  have hs2 := hs1.setUop (h := h) (u := u)
    (v := u.executedAs (noteOf i) (Config.exec u.view (s.sourceValues u)) s.cycle) hu
    (by simp [Uop.executedAs, Uop.computed, Uop.issued])
    (by simp [Uop.executedAs, Uop.computed, Uop.issued])
    (fun hq => by rw [hq.1] at hstate; cases hstate) (fun hq => by rw [hq.1] at hstate; cases hstate)
    (fun hr => ⟨by simpa [Uop.executedAs, Uop.computed, Uop.issued] using hr.1,
      by simp [Uop.executedAs, Uop.computed, Uop.issued],
      by simp [Uop.executedAs, Uop.computed, Uop.issued, hnc],
      by simp [Uop.executedAs, Uop.computed, Uop.issued]⟩)
    (fun q hq => absurd hq (hout q))
  rw [execute_eq]
  exact hs2.regs s.rat _ s.free s.valid s.cycle s.fetchPc s.pendingTarget s.retiredCount
    s.lastRetireCycle s.mem s.log s.lastMatch s.predictCalls

end Sys2Proof.Machine
end

section
namespace Sys2Proof.Machine

/-! ## Placing, decoding and fetching keep the structure -/

/-- Reading through another record when the read handle is not the one written. -/
theorem exists_read {s t : State} {h g : Handle} {v : Uop} {P : Uop → Prop}
    (hread : ∀ g, t.uop? g = if g = h then some v else s.uop? g) (hg : g ≠ h)
    (hex : ∃ w ∈ s.uop? g, P w) : ∃ w ∈ t.uop? g, P w := by
  rw [hread, if_neg hg]
  exact hex

/-- The ages in the ROB after one more entry. -/
theorem map_program_push {α : Type} {s t : State} {h : Handle} {v : Uop} (f : Uop → α)
    (hl : t.robList = s.robList ++ [h]) (hh : h ∉ s.robList)
    (hread : ∀ g, t.uop? g = if g = h then some v else s.uop? g) :
    t.program.map f = s.program.map f ++ [f v] := by
  rw [State.map_program, State.map_program, hl, List.filterMap_append]
  congr 1
  · refine List.filterMap_congr fun g hg => ?_
    rw [hread, if_neg (ne_of_mem_of_not_mem hg hh)]
  · simp [hread]

/-- What placing the micro-op `h` in station `j` of class `k` makes of the structure; `v` is its new
record, and it enters the tables its category names. -/
structure Placed (s t : State) (h : Handle) (v : Uop) (k : FuClass) (j : Nat) (c : Category) :
    Prop where
  read : ∀ g, t.uop? g = if g = h then some v else s.uop? g
  robList : t.robList = s.robList ++ [h]
  station : ∀ k' n, t.station k' n =
    if k' = k ∧ n = j then h :: s.station k j else s.station k' n
  rr : ∀ k', t.rrOf k' = if k' = k then (j + 1) % s.cfg.ns k else s.rrOf k'
  lq : t.lq = if c = .load then s.lq ++ [h] else s.lq
  sq : t.sq = if c = .store then s.sq ++ [h] else s.sq
  dq : t.dq = s.dq.tail
  fq : t.fq = s.fq
  cfg : t.cfg = s.cfg
  arena : t.arena.length = s.arena.length
  slots : t.robSlots.length = s.robSlots.length
  head : t.robHead = s.robHead
  count : t.robCount = s.robCount + 1
  tail : t.robTail = (s.robTail + 1) % s.cfg.robN
  rsLength : t.rs.length = s.rs.length
  rsLengths : ∀ k, (t.rs.getD k []).length = (s.rs.getD k []).length
  rrLength : t.rr.length = s.rr.length
  seqNext : t.seqNext = s.seqNext + 1
  recovery : t.recovery = s.recovery
  rstate : t.rstate = s.rstate
  method : t.method = s.method

theorem Sound.placed {s : State} (hs : Sound s) {h : Handle} {u : Uop} (hu : s.uop? h = some u)
    (hcount : s.robCount < s.cfg.robN) {k : FuClass} {j : Nat} (hj : j < s.cfg.ns k) (c : Category)
    (o : Operands) : Placed s (s.place k c.lsTable o h u j) h
      (u.allocatedAs (s.renameSources o.src) (renameDests s o.dst).2 s.seqNext s.cycle k j) k j c := by
  have hentry := State.hasEntry_station hs.queuesShaped hs.ports hj
  have hrr : k.code < s.rr.length := by rw [hs.rrLength, hs.ports]; exact FuClass.code_lt _
  have hread := State.uop?_place hu k c.lsTable o j
  rw [place_eq] at hread ⊢
  constructor
  case read => exact hread
  case robList => exact State.robList_push hs.queuesShaped hcount rfl rfl rfl rfl
  case station => exact fun k' n => State.station_setStation hentry _ k' n
  case rr => exact fun k' => State.rrOf_commitStation j hrr k'
  case lq => simp only [Category.lsTable_eq_loads]
  case sq => simp only [Category.lsTable_eq_stores]
  case arena | slots | rrLength => exact List.length_set
  case rsLength => exact length_set2 _ _ _ _
  case rsLengths => exact fun _ => length_getD_set2 _ _ _ _ _
  all_goals rfl

/-- A micro-op of the decode queue that is placed keeps the structure. -/
theorem Sound.of_placed {s t : State} (hs : Sound s) (ha : s.stageActive = true) {h : Handle}
    {rest : List Handle} {u v : Uop} {k : FuClass} {j : Nat} {c : Category}
    (hd : s.dq = h :: rest) (hu : s.uop? h = some u) (hcount : s.robCount < s.cfg.robN)
    (hj : j < s.cfg.ns k) (hroom : (s.station k j).length < (s.cfg.port k j).cap)
    (hlroom : c = .load → s.lq.length < s.cfg.lqN) (hsroom : c = .store → s.sq.length < s.cfg.sqN)
    (hvrob : v.inRob) (hvcat : v.cat = some c) (hvseq : v.seq = s.seqNext)
    (hvst : v.state = .allocated ∧ v.station = some (k, j)) (hp : Placed s t h v k j c) :
    Sound t := by
  obtain ⟨hrec, hrun⟩ := (stageActive_iff.mp ha).symm
  have hnd := hs.nodup
  rw [hd] at hnd
  have hhrob : h ∉ s.robList := hs.fq_not_rob (by rw [hd]; simp)
  have hhfq : h ∉ s.fq := fun hf => by
    rw [List.append_assoc, List.nodup_append] at hnd
    exact hnd.2.2 h hf h (by simp) rfl
  have hhrest : h ∉ rest := fun hr => by
    rw [List.append_assoc, List.nodup_append] at hnd
    have := hnd.2.1
    simp [hr] at this
  have hread := hp.read
  have hdq : t.dq = rest := by rw [hp.dq, hd]; rfl
  have hseqs := map_program_push Uop.seq hp.robList hhrob hread
  have hold : ∀ {P : Uop → Prop} {g : Handle}, g ∈ s.robList → (∃ w ∈ s.uop? g, P w) →
      g ∈ t.robList ∧ ∃ w ∈ t.uop? g, P w := fun hg hex =>
    ⟨by rw [hp.robList]; simp [hg], exists_read hread (ne_of_mem_of_not_mem hg hhrob) hex⟩
  have hself : ∀ {P : Uop → Prop}, P v → h ∈ t.robList ∧ ∃ w ∈ t.uop? h, P w := fun hpv =>
    ⟨by rw [hp.robList]; simp, v, by rw [hread, if_pos rfl]; rfl, hpv⟩
  constructor
  case admitted => rw [hp.cfg]; exact hs.admitted
  case arenaLength => rw [hp.arena, hp.cfg]; exact hs.arenaLength
  case slotsLength => rw [hp.slots, hp.cfg]; exact hs.slotsLength
  case headLt => rw [hp.head, hp.cfg]; exact hs.headLt
  case countLe => rw [hp.count, hp.cfg]; exact hcount
  case tail => rw [hp.tail, hp.head, hp.count, hp.cfg, hs.tail, Nat.mod_add_mod, Nat.add_assoc]
  case rsLength => rw [hp.rsLength, hp.cfg]; exact hs.rsLength
  case rsLengths =>
    intro k hk
    rw [hp.cfg] at hk ⊢
    exact (hp.rsLengths k).trans (hs.rsLengths k hk)
  case rrLength => rw [hp.rrLength, hp.cfg]; exact hs.rrLength
  case rrLt =>
    intro k' hk
    rw [hp.rr, hp.cfg]
    split
    · rename_i he; rw [he]; exact Nat.mod_lt _ (by omega)
    · exact hs.rrLt k' hk
  case fqLe => rw [hp.fq, hp.cfg]; exact hs.fqLe
  case dqLe =>
    rw [hdq, hp.cfg]
    have := hs.dqLe
    rw [hd] at this
    exact (Nat.le_succ _).trans this
  case lqLe =>
    rw [hp.lq, hp.cfg]
    split
    · rename_i hc
      have := hlroom hc
      rw [List.length_append, List.length_singleton]; omega
    · exact hs.lqLe
  case sqLe =>
    rw [hp.sq, hp.cfg]
    split
    · rename_i hc
      have := hsroom hc
      rw [List.length_append, List.length_singleton]; omega
    · exact hs.sqLe
  case stationLe =>
    intro p hpm
    rw [hp.cfg] at hpm
    rw [hp.station, hp.cfg]
    split
    · rename_i he; rw [he.1, he.2]; exact hroom
    · exact hs.stationLe p hpm
  case fetched =>
    intro g hg
    rw [hp.fq] at hg
    exact exists_read hread (ne_of_mem_of_not_mem hg hhfq) (hs.fetched g hg)
  case decoded =>
    intro g hg
    rw [hdq] at hg
    exact exists_read hread (ne_of_mem_of_not_mem hg hhrest)
      (hs.decoded g (by rw [hd]; simp [hg]))
  case inRob =>
    intro g hg
    rw [hp.robList, List.mem_append, List.mem_singleton] at hg
    obtain hg | rfl := hg
    · exact (hold hg (hs.inRob g hg)).2
    · exact (hself hvrob).2
  case nodup =>
    rw [hp.fq, hdq, hp.robList]
    refine (List.Perm.nodup_iff ?_).mp hnd
    simp only [List.append_assoc, List.cons_append]
    refine List.Perm.append_left _ ?_
    rw [← List.append_assoc]
    exact (List.perm_append_singleton h (rest ++ s.robList)).symm
  case stationed =>
    intro p hpm
    rw [hp.cfg] at hpm
    obtain ⟨hn, hmem⟩ := hs.stationed p hpm
    have hkeep : ∀ g ∈ s.station p.1 p.2, g ∈ t.robList ∧
        ∃ w ∈ t.uop? g, w.state = .allocated ∧ w.station = some p := fun g hg =>
      hold (hmem g hg).1 (hmem g hg).2
    rw [hp.station]
    split
    · rename_i he
      have hpe : p = (k, j) := Prod.ext he.1 he.2
      subst hpe
      refine ⟨List.nodup_cons.mpr ⟨fun hh => hhrob (hmem h hh).1, hn⟩, fun g hg => ?_⟩
      obtain rfl | hg := List.mem_cons.mp hg
      · exact hself hvst
      · exact hkeep g hg
    · exact ⟨hn, hkeep⟩
  case loads =>
    intro g hg
    rw [hp.lq] at hg
    split at hg
    · rename_i hc
      rw [List.mem_append, List.mem_singleton] at hg
      obtain hg | rfl := hg
      · exact hold (hs.loads g hg).1 (hs.loads g hg).2
      · exact hself (hc ▸ hvcat)
    · exact hold (hs.loads g hg).1 (hs.loads g hg).2
  case stores =>
    intro g hg
    rw [hp.sq] at hg
    split at hg
    · rename_i hc
      rw [List.mem_append, List.mem_singleton] at hg
      obtain hg | rfl := hg
      · exact hold (hs.stores g hg).1 (hs.stores g hg).2
      · exact hself (hc ▸ hvcat)
    · exact hold (hs.stores g hg).1 (hs.stores g hg).2
  case live =>
    intro _ g hg hn
    rw [hp.fq, hdq, hp.robList]
    rw [hread] at hn
    by_cases hgh : g = h
    · simp [hgh]
    · rw [if_neg hgh] at hn
      have hmem := hs.live hrun g (hg.trans_eq hp.arena) hn
      rw [hd] at hmem
      simp only [List.mem_append, List.mem_cons] at hmem ⊢
      tauto
  case increasing =>
    rw [hseqs, List.pairwise_append, hvseq]
    exact ⟨hs.increasing, List.pairwise_singleton _ _, fun a ha b hb => by
      rw [List.mem_singleton] at hb; rw [hb]; exact hs.seqLt a ha⟩
  case seqLt =>
    intro n hn
    rw [hseqs, List.mem_append, List.mem_singleton, hvseq] at hn
    rw [hp.seqNext]
    obtain hn | rfl := hn
    · exact (hs.seqLt n hn).trans (Nat.lt_succ_self _)
    · exact Nat.lt_succ_self _
  case unwinds => rw [hp.recovery, hp.rstate]; exact hs.unwinds
  case flushed => intro hr; rw [hp.recovery, hrec] at hr; cases hr
  case method => rw [hp.method]; exact hs.method

/-- Placing the head of the decode queue. -/
theorem Sound.place {s : State} (hs : Sound s) (ha : s.stageActive = true) {h : Handle}
    {rest : List Handle} {u : Uop} {i : Instr} {j : Nat} (hd : s.dq = h :: rest)
    (hu : s.uop? h = some u) (hi : u.instr = some i)
    (hp : s.placement i.category.fu i.category.lsTable i.operands u = some j) :
    Sound (s.place i.category.fu i.category.lsTable i.operands h u j) := by
  obtain ⟨-, hrob, -, htbl, hsel⟩ := placement_eq_some.mp hp
  obtain ⟨hjns, hroom⟩ := selectStation_eq_some hsel
  have hcount : s.robCount < s.cfg.robN := by have := hs.countLe; omega
  obtain ⟨w, hw, hudq⟩ := hs.decoded h (by rw [hd]; simp)
  have huw : u = w := Option.some.inj (hu.symm.trans hw)
  subst huw
  have hfull : ¬(i.category = .load ∧ s.cfg.lqN ≤ s.lq.length ∨
      i.category = .store ∧ s.cfg.sqN ≤ s.sq.length) := by
    rw [← State.tableFull_lsTable, htbl]; simp
  have hplaced := hs.placed hu hcount hjns i.category i.operands
  have hcat := (Uop.instr_eq_some hi).1
  generalize hv : u.allocatedAs (s.renameSources i.operands.src) (renameDests s i.operands.dst).2
    s.seqNext s.cycle i.category.fu j = v at hplaced
  refine hs.of_placed ha hd hu hcount hjns hroom
    (fun hc => Nat.lt_of_not_le fun hle => hfull (.inl ⟨hc, hle⟩))
    (fun hc => Nat.lt_of_not_le fun hle => hfull (.inr ⟨hc, hle⟩))
    ?_ ?_ ?_ ?_ hplaced <;> rw [← hv]
  · exact ⟨hudq.2.1, by simp [Uop.allocatedAs, hudq.2.2.1], by simp [Uop.allocatedAs, hudq.2.2.2],
      .inl rfl⟩
  · exact hcat
  · rfl
  · exact ⟨rfl, rfl⟩

/-- Moving the head of the fetch queue to the decode queue. -/
theorem Sound.decodeMove {s : State} (hs : Sound s) (ha : s.stageActive = true) {h : Handle}
    {rest : List Handle} {u : Uop} (hq : s.fq = h :: rest) (hroom : s.dq.length < s.cfg.dqN)
    (hu : s.uop? h = some u) (op : OpHandle) (i : Instr) :
    Sound ((s.setUop h (u.decodedAs op i s.cycle)).moveToDq h) := by
  obtain ⟨hrec, hrun⟩ := (stageActive_iff.mp ha).symm
  obtain ⟨w, hw, hufq⟩ := hs.fetched h (by rw [hq]; simp)
  have huw : u = w := Option.some.inj (hu.symm.trans hw)
  subst huw
  have hnd := hs.nodup
  rw [hq, List.append_assoc, List.cons_append, List.nodup_cons] at hnd
  simp only [List.mem_append, not_or] at hnd
  obtain ⟨⟨hhrest, hhdq, hhrob⟩, hnd'⟩ := hnd
  have hread : ∀ g, ((s.setUop h (u.decodedAs op i s.cycle)).moveToDq h).uop? g =
      if g = h then some (u.decodedAs op i s.cycle) else s.uop? g := fun g => by
    show (s.setUop h _).uop? g = _
    rw [State.uop?_setUop]
    simp [State.lt_of_uop? hu]
  have hfq : ((s.setUop h (u.decodedAs op i s.cycle)).moveToDq h).fq = rest := by simp [hq]
  have hseqs : ((s.setUop h (u.decodedAs op i s.cycle)).moveToDq h).program.map Uop.seq =
      s.program.map Uop.seq := by
    refine State.map_program_of rfl fun g hg => ?_
    rw [hread, if_neg (ne_of_mem_of_not_mem hg hhrob)]
  exact { hs with
    arenaLength := List.length_set.trans hs.arenaLength
    fqLe := by
      rw [hfq]; have := hs.fqLe; rw [hq] at this; exact (Nat.le_succ _).trans this
    dqLe := by simpa using hroom
    fetched := fun g hg => by
      rw [hfq] at hg
      exact exists_read hread (fun e => hhrest (e ▸ hg)) (hs.fetched g (by rw [hq]; simp [hg]))
    decoded := fun g hg => by
      have hg : g ∈ s.dq ++ [h] := hg
      rw [List.mem_append, List.mem_singleton] at hg
      obtain hg | rfl := hg
      · exact exists_read hread (fun e => hhdq (e ▸ hg)) (hs.decoded g hg)
      · exact ⟨u.decodedAs op i s.cycle, by rw [hread, if_pos rfl]; rfl, rfl,
          by simp [Uop.decodedAs], hufq.2.1, hufq.2.2⟩
    inRob := fun g hg => exists_read hread (fun e => hhrob (e ▸ hg)) (hs.inRob g hg)
    nodup := by
      rw [hfq]
      refine (List.Perm.nodup_iff ?_).mp hs.nodup
      rw [hq]
      show (h :: rest ++ s.dq ++ s.robList).Perm (rest ++ (s.dq ++ [h]) ++ s.robList)
      rw [← List.append_assoc rest]
      exact List.Perm.append_right _ (List.perm_append_singleton h (rest ++ s.dq)).symm
    stationed := fun p hp => ⟨(hs.stationed p hp).1, fun g hg => by
      obtain ⟨h1, h2⟩ := (hs.stationed p hp).2 g hg
      exact ⟨h1, exists_read hread (fun e => hhrob (e ▸ h1)) h2⟩⟩
    loads := fun g hg => by
      obtain ⟨h1, h2⟩ := hs.loads g hg
      exact ⟨h1, exists_read hread (fun e => hhrob (e ▸ h1)) h2⟩
    stores := fun g hg => by
      obtain ⟨h1, h2⟩ := hs.stores g hg
      exact ⟨h1, exists_read hread (fun e => hhrob (e ▸ h1)) h2⟩
    live := fun _ g hg hn => by
      rw [hfq]
      show g ∈ rest ++ (s.dq ++ [h]) ++ s.robList
      rw [hread] at hn
      by_cases hgh : g = h
      · simp [hgh]
      · rw [if_neg hgh] at hn
        have := hs.live hrun g (by simpa using hg) hn
        rw [hq] at this
        simp only [List.mem_append, List.mem_cons] at this ⊢
        tauto
    increasing := hseqs ▸ hs.increasing
    seqLt := hseqs ▸ hs.seqLt
    flushed := fun hr => by rw [show s.recovery = true from hr] at hrec; cases hrec }

/-- With room in the fetch queue there is a free record: no more can be live than the queues and the
ROB hold. -/
theorem Sound.newSlot_free {s : State} (hs : Sound s) (hrun : s.status = .running)
    (hroom : s.fq.length < s.cfg.fqN) : s.newSlot < s.arena.length ∧ s.uop? s.newSlot = none := by
  have hex : ∃ o ∈ s.arena, Option.isNone o = true := by
    by_contra hno
    simp only [not_exists, not_and, Bool.not_eq_true, Option.isNone_eq_false_iff] at hno
    have hsub : List.range s.arena.length ⊆ s.fq ++ s.dq ++ s.robList := fun g hg => by
      have hg := List.mem_range.mp hg
      refine hs.live hrun g hg fun hnone => ?_
      have := hno s.arena[g] (List.getElem_mem hg)
      rw [State.uop?, List.getD_eq_getElem _ _ hg] at hnone
      rw [hnone] at this
      cases this
    have hle := (List.subperm_of_subset List.nodup_range hsub).length_le
    simp only [List.length_range, List.length_append, State.length_robList, hs.arenaLength,
      Config.arenaN] at hle
    have := hs.dqLe
    have := hs.countLe
    omega
  have hlt : s.newSlot < s.arena.length := List.findIdx_lt_length.mpr hex
  refine ⟨hlt, ?_⟩
  have hnone := List.findIdx_getElem (w := hlt)
  rw [State.uop?, List.getD_eq_getElem _ _ hlt]
  exact Option.isNone_iff_eq_none.mp hnone

/-- The record fetch creates at the fetch address. -/
def State.fetchedUop (s : State) : Uop :=
  Uop.fetched s.fetchPc (imem s.cfg.endian s.mem s.fetchPc)
    (Config.preDecode (imem s.cfg.endian s.mem s.fetchPc)).hasDs
    (s.fetchPrediction (Config.preDecode (imem s.cfg.endian s.mem s.fetchPc))) s.cycle

theorem State.uop?_fetchOne {s : State} (hlt : s.newSlot < s.arena.length) (pc : Pc)
    (pending : Option Pc) (g : Handle) : (s.fetchOne.steer pc pending).uop? g =
      if g = s.newSlot then some s.fetchedUop else s.uop? g := by
  show (s.setUop s.newSlot s.fetchedUop).uop? g = _
  rw [State.uop?_setUop]
  simp [hlt]

/-- Fetching one micro-op into a free record. -/
theorem Sound.fetch {s : State} (hs : Sound s) (ha : s.stageActive = true)
    (hroom : s.fq.length < s.cfg.fqN) (pc : Pc) (pending : Option Pc) :
    Sound (s.fetchOne.steer pc pending) := by
  obtain ⟨hrec, hrun⟩ := (stageActive_iff.mp ha).symm
  obtain ⟨hlt, hnone⟩ := hs.newSlot_free hrun hroom
  have hread := State.uop?_fetchOne hlt pc pending
  have hnew : ∀ g, (∃ w ∈ s.uop? g, True) → g ≠ s.newSlot := by
    rintro g ⟨w, hw, -⟩ rfl
    rw [hnone] at hw; cases hw
  have old : ∀ {P : Uop → Prop} {g : Handle}, (∃ w ∈ s.uop? g, P w) →
      ∃ w ∈ (s.fetchOne.steer pc pending).uop? g, P w := by
    rintro P g ⟨w, hw, hp⟩
    exact exists_read hread (hnew g ⟨w, hw, trivial⟩) ⟨w, hw, hp⟩
  have hfree : s.newSlot ∉ s.fq ++ s.dq ++ s.robList := by
    intro hmem
    rw [List.mem_append, List.mem_append] at hmem
    obtain (hm | hm) | hm := hmem
    · obtain ⟨w, hw, -⟩ := hs.fetched _ hm; rw [hnone] at hw; cases hw
    · obtain ⟨w, hw, -⟩ := hs.decoded _ hm; rw [hnone] at hw; cases hw
    · exact hs.robLive _ hm hnone
  have hseqs : (s.fetchOne.steer pc pending).program.map Uop.seq = s.program.map Uop.seq := by
    refine State.map_program_of rfl fun g hg => ?_
    rw [hread, if_neg fun e => hfree (by simp [← e, hg])]
  exact { hs with
    arenaLength := List.length_set.trans hs.arenaLength
    fqLe := by
      show (s.fq ++ [s.newSlot]).length ≤ s.cfg.fqN
      simpa using hroom
    fetched := fun g hg => by
      have hg : g ∈ s.fq ++ [s.newSlot] := hg
      rw [List.mem_append, List.mem_singleton] at hg
      obtain hg | rfl := hg
      · exact old (hs.fetched g hg)
      · exact ⟨s.fetchedUop, by rw [hread, if_pos rfl]; rfl, rfl, rfl, rfl⟩
    decoded := fun g hg => old (hs.decoded g hg)
    inRob := fun g hg => old (hs.inRob g hg)
    nodup := by
      refine (List.Perm.nodup_iff ?_).mp (List.nodup_cons.mpr ⟨hfree, hs.nodup⟩)
      show (s.newSlot :: (s.fq ++ s.dq ++ s.robList)).Perm
        (s.fq ++ [s.newSlot] ++ s.dq ++ s.robList)
      rw [List.append_assoc, List.append_assoc, List.append_assoc]
      exact List.perm_middle.symm
    stationed := fun p hp => ⟨(hs.stationed p hp).1, fun g hg => by
      obtain ⟨h1, h2⟩ := (hs.stationed p hp).2 g hg
      exact ⟨h1, old h2⟩⟩
    loads := fun g hg => ⟨(hs.loads g hg).1, old (hs.loads g hg).2⟩
    stores := fun g hg => ⟨(hs.stores g hg).1, old (hs.stores g hg).2⟩
    live := fun _ g hg hn => by
      show g ∈ s.fq ++ [s.newSlot] ++ s.dq ++ s.robList
      rw [hread] at hn
      by_cases hgh : g = s.newSlot
      · simp [hgh]
      · rw [if_neg hgh] at hn
        have := hs.live hrun g (hg.trans_eq List.length_set) hn
        simp only [List.mem_append] at this ⊢
        tauto
    increasing := hseqs ▸ hs.increasing
    seqLt := hseqs ▸ hs.seqLt
    flushed := fun hr => by rw [show s.recovery = true from hr] at hrec; cases hrec }

/-! ## Undoing and leaving recovery keep the structure -/

theorem filterMap_dropLast {α β : Type} (f : α → Option β) : ∀ (l : List α),
    (∀ a ∈ l, f a ≠ none) → l.dropLast.filterMap f = (l.filterMap f).dropLast
  | [], _ => rfl
  | [a], h => by
    obtain ⟨b, hb⟩ := Option.ne_none_iff_exists'.mp (h a (by simp))
    simp [hb]
  | a :: a' :: l, h => by
    obtain ⟨b, hb⟩ := Option.ne_none_iff_exists'.mp (h a (by simp))
    obtain ⟨b', hb'⟩ := Option.ne_none_iff_exists'.mp (h a' (by simp))
    have ih := filterMap_dropLast f (a' :: l) fun x hx => h x (by simp [hx])
    rw [List.filterMap_cons_some hb'] at ih
    rw [List.dropLast_cons_cons, List.filterMap_cons_some hb, ih, List.filterMap_cons_some hb,
      List.filterMap_cons_some hb', List.dropLast_cons_cons]

theorem State.uop?_undo (s : State) (u : Uop) (g : Handle) : (s.undo u).uop? g =
    if g = s.robAt (s.robCount - 1) then none else s.uop? g :=
  State.uop?_freeSlot s (s.robAt (s.robCount - 1)) g

theorem State.robList_undo {s : State} (h0 : s.robCount ≠ 0) (u : Uop) :
    (s.undo u).robList = s.robList.dropLast := State.robList_popTail h0 rfl rfl rfl rfl

/-- The last entry is not among the others. -/
theorem Sound.last_not_mem {s : State} (hs : Sound s) (h0 : s.robCount ≠ 0) :
    s.robAt (s.robCount - 1) ∉ s.robList.dropLast := by
  have hne : s.robList ≠ [] := fun e => h0 (by rw [← s.length_robList, e]; rfl)
  have hlast : s.robList.getLast hne = s.robAt (s.robCount - 1) := by
    rw [List.getLast_eq_getElem]
    simp [State.robList]
  have hnd := hs.robNodup
  rw [← List.dropLast_append_getLast hne, hlast, List.nodup_append] at hnd
  exact fun hm => hnd.2.2 _ hm _ (List.mem_singleton_self _) rfl

/-- The records after an undo: all but the youngest. -/
theorem Sound.program_undo {s : State} (hs : Sound s) (h0 : s.robCount ≠ 0) (u : Uop) :
    (s.undo u).program = s.program.dropLast := by
  rw [State.program, State.robList_undo h0, State.program,
    ← filterMap_dropLast _ _ hs.robLive]
  refine List.filterMap_congr fun g hg => ?_
  rw [State.uop?_undo, if_neg (ne_of_mem_of_not_mem hg (hs.last_not_mem h0))]

theorem Sound.undo {s : State} (hs : Sound s) (hrec : s.recovery = true) (h0 : s.robCount ≠ 0)
    (u : Uop) : Sound (s.undo u) := by
  obtain ⟨hfq, hdq, hlq, hsq, hpend, hst⟩ := hs.flushed hrec
  have hrobList := State.robList_undo h0 u
  have hprog := hs.program_undo h0 u
  have hsub : s.robList.dropLast.Sublist s.robList := List.dropLast_sublist _
  have keep : ∀ {P : Uop → Prop} {g : Handle}, g ∈ s.robList.dropLast → (∃ w ∈ s.uop? g, P w) →
      ∃ w ∈ (s.undo u).uop? g, P w := fun hg hex => by
    rw [State.uop?_undo, if_neg (ne_of_mem_of_not_mem hg (hs.last_not_mem h0))]
    exact hex
  exact { hs with
    arenaLength := List.length_set.trans hs.arenaLength
    countLe := (Nat.sub_le _ _).trans hs.countLe
    tail := by
      show (s.robTail + s.cfg.robN - 1) % s.cfg.robN = (s.robHead + (s.robCount - 1)) % s.cfg.robN
      have hn := hs.headLt
      rw [hs.tail, Nat.add_sub_assoc (by omega), Nat.mod_add_mod,
        show s.robHead + s.robCount + (s.cfg.robN - 1) =
          s.robHead + (s.robCount - 1) + s.cfg.robN by omega, Nat.add_mod_right]
    inRob := fun g hg => by
      rw [hrobList] at hg
      exact keep hg (hs.inRob g (hsub.subset hg))
    nodup := by
      rw [hrobList]
      exact hs.nodup.sublist (List.Sublist.append_left hsub _)
    fetched := fun g hg => by rw [show (s.undo u).fq = [] from hfq] at hg; cases hg
    decoded := fun g hg => by rw [show (s.undo u).dq = [] from hdq] at hg; cases hg
    stationed := fun p hp => by
      rw [show (s.undo u).station p.1 p.2 = [] from hst p hp]
      exact ⟨List.nodup_nil, fun g hg => by cases hg⟩
    loads := fun g hg => by rw [show (s.undo u).lq = [] from hlq] at hg; cases hg
    stores := fun g hg => by rw [show (s.undo u).sq = [] from hsq] at hg; cases hg
    live := fun hr g hg hn => by
      rw [State.uop?_undo] at hn
      by_cases hlast : g = s.robAt (s.robCount - 1)
      · rw [if_pos hlast] at hn; exact absurd rfl hn
      · rw [if_neg hlast] at hn
        have hmem := hs.live hr g (hg.trans_eq List.length_set) hn
        rw [show (s.undo u).fq = [] from hfq, show (s.undo u).dq = [] from hdq, hrobList]
        rw [hfq, hdq] at hmem
        simp only [List.nil_append] at hmem ⊢
        obtain ⟨j, hj, rfl⟩ := State.mem_robList hmem
        have hne : j ≠ s.robCount - 1 := fun e => hlast (by rw [e])
        have hlt : j < s.robList.dropLast.length := by simp; omega
        have : s.robList.dropLast[j] = s.robAt j := by simp [State.robList]
        exact this ▸ List.getElem_mem hlt
    increasing := by
      rw [hprog, List.map_dropLast]
      exact hs.increasing.sublist (List.dropLast_sublist _)
    seqLt := fun n hn => by
      rw [hprog, List.map_dropLast] at hn
      exact hs.seqLt n (List.mem_of_mem_dropLast hn) }

/-- Leaving recovery with an empty ROB. -/
theorem Sound.resume {s : State} (hs : Sound s) : Sound s.endRecovery := by
  have hs1 : Sound { s with
      fetchPc := s.redirectPending.getD s.fetchPc, pendingTarget := none } :=
    hs.regs s.rat s.prf s.free s.valid s.cycle _ _ s.retiredCount s.lastRetireCycle s.mem s.log
      s.lastMatch s.predictCalls
  exact { hs1 with
    unwinds := by simp [State.endRecovery]
    flushed := fun hr => by cases hr }

theorem Sound.tick {s : State} (hs : Sound s) : Sound s.tick :=
  hs.regs s.rat s.prf s.free s.valid _ s.fetchPc s.pendingTarget s.retiredCount s.lastRetireCycle
    s.mem s.log s.lastMatch s.predictCalls

theorem Sound.raise {s : State} (hs : Sound s) (f : Fatal) : Sound (s.raise f) :=
  hs.ended (fun h => by cases h)

end Sys2Proof.Machine
end

section
namespace Sys2Proof.Machine

/-! ## A commit keeps the structure -/

theorem Commit.robList {s t : State} {u : Uop} (h : Commit u s t) : t.robList = s.robList.tail := by
  have e := h.writes
  exact State.robList_pop h.count (by rw [e]) (by rw [e]) (by rw [e]) (by rw [e])

theorem Commit.cfg {s t : State} {u : Uop} (h : Commit u s t) : t.cfg = s.cfg := by rw [h.writes]
theorem Commit.cycle {s t : State} {u : Uop} (h : Commit u s t) : t.cycle = s.cycle := by
  rw [h.writes]
theorem Commit.fq {s t : State} {u : Uop} (h : Commit u s t) : t.fq = s.fq := by rw [h.writes]
theorem Commit.dq {s t : State} {u : Uop} (h : Commit u s t) : t.dq = s.dq := by rw [h.writes]
theorem Commit.rs {s t : State} {u : Uop} (h : Commit u s t) : t.rs = s.rs := by rw [h.writes]
theorem Commit.rat {s t : State} {u : Uop} (h : Commit u s t) : t.rat = s.rat := by rw [h.writes]
theorem Commit.prf {s t : State} {u : Uop} (h : Commit u s t) : t.prf = s.prf := by rw [h.writes]
theorem Commit.valid {s t : State} {u : Uop} (h : Commit u s t) : t.valid = s.valid := by
  rw [h.writes]
theorem Commit.robCount {s t : State} {u : Uop} (h : Commit u s t) :
    t.robCount = s.robCount - 1 := by rw [h.writes]
theorem Commit.recovery {s t : State} {u : Uop} (h : Commit u s t) : t.recovery = s.recovery := by
  rw [h.writes]
theorem Commit.rstate {s t : State} {u : Uop} (h : Commit u s t) : t.rstate = s.rstate := by
  rw [h.writes]
theorem Commit.retiredCount {s t : State} {u : Uop} (h : Commit u s t) :
    t.retiredCount = s.retiredCount + 1 := by rw [h.writes]
theorem Commit.mem {s t : State} {u : Uop} (h : Commit u s t) : t.mem =
    if u.cat = some .store then memWrite s.cfg.endian s.mem u.maddr u.msize u.mdata else s.mem := by
  rw [h.writes]
theorem Commit.lq {s t : State} {u : Uop} (h : Commit u s t) : t.lq =
    if u.cat = some .load then s.lq.filter (· ≠ s.robAt 0) else s.lq := by
  rw [h.writes]
theorem Commit.sq {s t : State} {u : Uop} (h : Commit u s t) : t.sq =
    if u.cat = some .store then s.sq.filter (· ≠ s.robAt 0) else s.sq := by
  rw [h.writes]

theorem Commit.commits {s t : State} {u : Uop} (h : Commit u s t) :
    t.commits = s.commits ++ [s.commitRecord u] := by
  have hrun := h.run
  rw [State.commits_eq, State.commits_eq]
  split at hrun <;> (obtain ⟨-, -, -, hlog⟩ := hrun; rw [hlog]; simp)

theorem Commit.status {s t : State} {u : Uop} (h : Commit u s t) (hr : t.status = .running) :
    s.verdict u = true ∧ s.cfg.maxInsns ≠ some (s.retiredCount + 1) ∧ t.uop? (s.robAt 0) = none := by
  have hrun := h.run
  split at hrun
  · obtain ⟨hst, -, hnone, -⟩ := hrun
    rw [hr] at hst
    split at hst
    · cases hst
    · exact ⟨by assumption, by assumption, hnone⟩
  · obtain ⟨hst, -⟩ := hrun
    rw [hr] at hst; cases hst

/-- What a commit makes of a record that stays: at most its ordering flag is set. -/
theorem flagged_flag (w u : Uop) : ∃ b, flagged w u = { u with loadViolation := b } := by
  unfold flagged
  split
  · exact ⟨true, rfl⟩
  · exact ⟨u.loadViolation, rfl⟩

/-- Reading a record that stays after a commit: the same micro-op with some ordering flag. -/
theorem Commit.other {s t : State} {u v : Uop} (h : Commit u s t) {g : Handle}
    (hg : g ≠ s.robAt 0) (hv : s.uop? g = some v) :
    ∃ b, t.uop? g = some { v with loadViolation := b } := by
  rw [h.others g hg, hv]
  split
  · obtain ⟨b, hb⟩ := flagged_flag u v
    exact ⟨b, by rw [← hb]; rfl⟩
  · exact ⟨v.loadViolation, rfl⟩

/-- A field other than the ordering flag is read as before. -/
theorem Commit.other_map {α : Type} {s t : State} {u : Uop} (h : Commit u s t) {g : Handle}
    (hg : g ≠ s.robAt 0) {f : Uop → α} (hf : ∀ v b, f { v with loadViolation := b } = f v) :
    (t.uop? g).map f = (s.uop? g).map f := by
  cases hv : s.uop? g with
  | none =>
    rw [h.others g hg, hv]
    split <;> rfl
  | some v =>
    obtain ⟨b, hb⟩ := h.other hg hv
    simp [hb, hf]

theorem Commit.exists {s t : State} {u : Uop} (h : Commit u s t) {g : Handle} {P : Uop → Prop}
    (hg : g ≠ s.robAt 0) (hP : ∀ v b, P v → P { v with loadViolation := b })
    (hex : ∃ v ∈ s.uop? g, P v) : ∃ v ∈ t.uop? g, P v := by
  obtain ⟨v, hv, hp⟩ := hex
  obtain ⟨b, hb⟩ := h.other hg hv
  exact ⟨_, hb, hP v b hp⟩

theorem State.robList_cons {s : State} (h0 : s.robCount ≠ 0) :
    s.robList = s.robAt 0 :: s.robList.tail := by
  obtain ⟨n, hn⟩ := Nat.exists_eq_succ_of_ne_zero h0
  rw [State.robList, hn, List.range_succ_eq_map]
  rfl

/-- The head is not among the entries behind it. -/
theorem Sound.head_not_mem {s : State} (hs : Sound s) (h0 : s.robCount ≠ 0) :
    s.robAt 0 ∉ s.robList.tail := by
  have hnd := hs.robNodup
  rw [State.robList_cons h0, List.nodup_cons] at hnd
  exact hnd.1

/-- A field other than the ordering flag, over the records after a commit. -/
theorem Commit.map_program {α : Type} {s t : State} {u : Uop} (hs : Sound s) (h : Commit u s t)
    {f : Uop → α} (hf : ∀ v b, f { v with loadViolation := b } = f v) :
    t.program.map f = (s.program.map f).tail := by
  have hsome : ((s.uop? (s.robAt 0)).map f) = some (f u) := by rw [h.head]; rfl
  rw [State.map_program, State.map_program, h.robList, State.robList_cons h.count,
    List.filterMap_cons_some (f := fun h => (s.uop? h).map f) hsome, List.tail_cons, List.tail_cons]
  refine List.filterMap_congr fun g hg => ?_
  rw [h.other_map (ne_of_mem_of_not_mem hg (hs.head_not_mem h.count)) hf]

theorem Sound.commit {s t : State} {u : Uop} (hs : Sound s) (h : Commit u s t) : Sound t := by
  have hcfg := h.cfg
  have hhead := hs.head_not_mem h.count
  have hheadMem : s.robAt 0 ∈ s.robList := State.robAt_mem (Nat.pos_of_ne_zero h.count)
  have hne : ∀ {g}, g ∈ s.robList.tail → g ≠ s.robAt 0 := fun hg => ne_of_mem_of_not_mem hg hhead
  have hneq : ∀ {g}, g ∈ s.fq ++ s.dq → g ≠ s.robAt 0 := fun hg e =>
    hs.fq_not_rob hg (e ▸ hheadMem)
  have hbehind : ∀ {g}, g ∈ s.robList → g ≠ s.robAt 0 → g ∈ s.robList.tail := fun hg hg0 => by
    rw [State.robList_cons h.count] at hg
    exact (List.mem_cons.mp hg).resolve_left hg0
  have hseqs : t.program.map Uop.seq = (s.program.map Uop.seq).tail :=
    h.map_program hs fun _ _ => rfl
  have hstation : ∀ k i, t.station k i = s.station k i := State.station_of s t h.rs
  constructor
  case admitted => rw [hcfg]; exact hs.admitted
  case arenaLength => rw [h.arenaLength, hcfg]; exact hs.arenaLength
  case slotsLength => rw [h.writes]; exact hs.slotsLength
  case headLt =>
    have := hs.headLt
    rw [h.writes]; exact Nat.mod_lt _ (by omega)
  case countLe =>
    have := hs.countLe
    rw [h.robCount, hcfg]; omega
  case tail =>
    have h0 := h.count
    rw [h.writes]
    show s.robTail = ((s.robHead + 1) % _ + (s.robCount - 1)) % _
    rw [hs.tail, Nat.mod_add_mod, show s.robHead + 1 + (s.robCount - 1) = s.robHead + s.robCount by
      omega]
  case rsLength => rw [h.rs, hcfg]; exact hs.rsLength
  case rsLengths => rw [h.rs, hcfg]; exact hs.rsLengths
  case rrLength => rw [h.writes]; exact hs.rrLength
  case rrLt => rw [h.writes]; exact hs.rrLt
  case fqLe => rw [h.fq, hcfg]; exact hs.fqLe
  case dqLe => rw [h.dq, hcfg]; exact hs.dqLe
  case lqLe =>
    rw [h.lq, hcfg]
    split
    · exact (List.length_filter_le _ _).trans hs.lqLe
    · exact hs.lqLe
  case sqLe =>
    rw [h.sq, hcfg]
    split
    · exact (List.length_filter_le _ _).trans hs.sqLe
    · exact hs.sqLe
  case stationLe => rw [hcfg]; intro p hp; rw [hstation]; exact hs.stationLe p hp
  case fetched =>
    rw [h.fq]
    exact fun g hg => h.exists (hneq (by simp [hg])) (fun _ _ => id) (hs.fetched g hg)
  case decoded =>
    rw [h.dq]
    exact fun g hg => h.exists (hneq (by simp [hg])) (fun _ _ => id) (hs.decoded g hg)
  case inRob =>
    rw [h.robList]
    exact fun g hg => h.exists (hne hg) (fun _ _ => id) (hs.inRob g (List.mem_of_mem_tail hg))
  case nodup =>
    rw [h.fq, h.dq, h.robList]
    exact hs.nodup.sublist (List.Sublist.append_left (List.tail_sublist _) _)
  case stationed =>
    rw [hcfg]
    intro p hp
    rw [hstation]
    refine ⟨(hs.stationed p hp).1, fun g hg => ?_⟩
    obtain ⟨hg1, v, hv, hst, hpv⟩ := (hs.stationed p hp).2 g hg
    have hg0 : g ≠ s.robAt 0 := by
      rintro rfl
      rw [h.head] at hv
      cases hv
      rw [(hs.inRob_of hheadMem h.head).2.2.1.mp h.complete] at hst
      cases hst
    rw [h.robList]
    exact ⟨hbehind hg1 hg0, h.exists hg0 (fun _ _ => id) ⟨v, hv, hst, hpv⟩⟩
  case loads =>
    rw [h.lq, h.robList]
    intro g hg
    have hmem : g ∈ s.lq ∧ g ≠ s.robAt 0 := by
      split at hg
      · simpa using hg
      · refine ⟨hg, ?_⟩
        rintro rfl
        obtain ⟨-, v, hv, hc⟩ := hs.loads _ hg
        rw [h.head] at hv
        cases hv
        exact absurd hc (by assumption)
    obtain ⟨h1, h2⟩ := hs.loads g hmem.1
    exact ⟨hbehind h1 hmem.2, h.exists hmem.2 (fun _ _ => id) h2⟩
  case stores =>
    rw [h.sq, h.robList]
    intro g hg
    have hmem : g ∈ s.sq ∧ g ≠ s.robAt 0 := by
      split at hg
      · simpa using hg
      · refine ⟨hg, ?_⟩
        rintro rfl
        obtain ⟨-, v, hv, hc⟩ := hs.stores _ hg
        rw [h.head] at hv
        cases hv
        exact absurd hc (by assumption)
    obtain ⟨h1, h2⟩ := hs.stores g hmem.1
    exact ⟨hbehind h1 hmem.2, h.exists hmem.2 (fun _ _ => id) h2⟩
  case live =>
    intro hr g hg hn
    rw [h.fq, h.dq, h.robList]
    have hg0 : g ≠ s.robAt 0 := by
      rintro rfl
      exact hn (h.status hr).2.2
    have hn' : s.uop? g ≠ none := fun e => hn (by rw [h.others g hg0, e]; split <;> rfl)
    have hmem := hs.live h.running g (hg.trans_eq h.arenaLength) hn'
    rw [List.mem_append] at hmem ⊢
    exact hmem.imp_right fun hm => hbehind hm hg0
  case increasing => rw [hseqs]; exact hs.increasing.sublist (List.tail_sublist _)
  case seqLt =>
    have hnext : t.seqNext = s.seqNext := by rw [h.writes]
    rw [hseqs, hnext]
    exact fun n hn => hs.seqLt n (List.mem_of_mem_tail hn)
  case unwinds => rw [h.recovery, h.rstate]; exact hs.unwinds
  case flushed =>
    intro hr
    rw [h.recovery, hs.unwinds] at hr
    exact absurd hr h.scanning
  case method => rw [h.writes]; exact hs.method

/-! ## Taking a speculative exception (43_rollback.md R192, R194) -/

/-- The recovery events in a log. -/
def recoveriesOf (l : List EnvEvent) : List RecoveryEvent :=
  l.filterMap fun e => match e with
    | .recovery r => some r
    | _ => none

theorem State.recoveries_eq (s : State) : s.recoveries = recoveriesOf s.log := rfl

@[simp] theorem recoveriesOf_append (l m : List EnvEvent) :
    recoveriesOf (l ++ m) = recoveriesOf l ++ recoveriesOf m := List.filterMap_append
@[simp] theorem recoveriesOf_nil : recoveriesOf [] = [] := rfl
@[simp] theorem recoveriesOf_commit (r : CommitRecord) (l : List EnvEvent) :
    recoveriesOf (.commit r :: l) = recoveriesOf l := rfl
@[simp] theorem recoveriesOf_left (u : Uop) (l : List EnvEvent) :
    recoveriesOf (.left u :: l) = recoveriesOf l := rfl
@[simp] theorem recoveriesOf_hook (u : Uop) (l : List EnvEvent) :
    recoveriesOf (.hook u :: l) = recoveriesOf l := rfl
@[simp] theorem recoveriesOf_recovery (e : RecoveryEvent) (l : List EnvEvent) :
    recoveriesOf (.recovery e :: l) = e :: recoveriesOf l := rfl

/-- What discarding micro-ops makes of the state. -/
structure Discarded (l : List Handle) (s t : State) : Prop where
  writes : t = { s with arena := t.arena, log := t.log }
  arenaLength : t.arena.length = s.arena.length
  read : ∀ g, t.uop? g = if g ∈ l then none else s.uop? g
  commits : commitsOf t.log = commitsOf s.log
  recoveries : recoveriesOf t.log = recoveriesOf s.log

/-- Discarding distinct live micro-ops answers, and frees their records. -/
theorem forEach_discard : ∀ (l : List Handle) (s : State), l.Nodup →
    (∀ h ∈ l, s.uop? h ≠ none) → ∃ t, forEach discard l s = .next t ∧ Discarded l s t
  | [], s, _, _ => ⟨s, rfl, rfl, rfl, fun g => by simp, rfl, rfl⟩
  | h :: l, s, hn, hl => by
    obtain ⟨u, hu⟩ := Option.ne_none_iff_exists'.mp (hl h (by simp))
    rw [List.nodup_cons] at hn
    have hread : ∀ g, ((s.freeSlot h).emit (.left { u with state := .flushed })).uop? g =
        if g = h then none else s.uop? g := State.uop?_freeSlot s h
    obtain ⟨t, ht, hd⟩ := forEach_discard l
      ((s.freeSlot h).emit (.left { u with state := .flushed })) hn.2 fun g hg => by
        rw [hread, if_neg (ne_of_mem_of_not_mem hg hn.1)]
        exact hl g (by simp [hg])
    refine ⟨t, by rw [forEach_cons, discard, withUop_of hu]; exact ht, ?_⟩
    refine ⟨by rw [hd.writes]; rfl, hd.arenaLength.trans List.length_set, fun g => ?_,
      hd.commits.trans (by simp), hd.recoveries.trans (by simp)⟩
    rw [hd.read, hread]
    by_cases hg : g = h <;> simp [hg]

/-- What taking their stations away makes of the records. -/
structure Unstationed (l : List Handle) (s t : State) : Prop where
  writes : t = { s with arena := t.arena }
  arenaLength : t.arena.length = s.arena.length
  read : ∀ g, t.uop? g = if g ∈ l then (s.uop? g).map fun u => { u with station := none }
    else s.uop? g

theorem forEach_clearStation : ∀ (l : List Handle) (s : State), (∀ h ∈ l, s.uop? h ≠ none) →
    ∃ t, forEach clearStation l s = .next t ∧ Unstationed l s t
  | [], s, _ => ⟨s, rfl, rfl, rfl, fun g => by simp⟩
  | h :: l, s, hl => by
    obtain ⟨u, hu⟩ := Option.ne_none_iff_exists'.mp (hl h (by simp))
    have hread : ∀ g, (s.setUop h { u with station := none }).uop? g =
        if g = h then some { u with station := none } else s.uop? g := fun g => by
      rw [State.uop?_setUop]; simp [State.lt_of_uop? hu]
    obtain ⟨t, ht, hd⟩ := forEach_clearStation l (s.setUop h { u with station := none })
      fun g hg => by
        rw [hread]
        split
        · simp
        · exact hl g (by simp [hg])
    refine ⟨t, by rw [forEach_cons, clearStation, withUop_of hu]; exact ht,
      by rw [hd.writes]; rfl, hd.arenaLength.trans List.length_set, fun g => ?_⟩
    rw [hd.read, hread]
    by_cases hg : g = h
    · subst hg; by_cases hm : g ∈ l <;> simp [hm, hu]
    · simp [hg]

/-- The record of a ROB entry after a flush: out of its station. -/
def flushedUop (s : State) (h : Handle) (u : Uop) : Uop :=
  { u with station := if ∃ q ∈ s.cfg.stations, h ∈ s.station q.1 q.2 then none else u.station }

/-- What taking a speculative exception makes of the state. -/
structure Entered (kind : ExcKind) (carrier target : Pc) (s t : State) : Prop where
  writes : t = { s with
    arena := t.arena
    log := t.log
    fq := []
    dq := []
    rs := s.rs.map fun ports => ports.map fun _ => []
    lq := []
    sq := []
    pendingTarget := none
    recovery := true
    redirectPending := some target
    rstate := .unwind }
  arenaLength : t.arena.length = s.arena.length
  read : ∀ g, t.uop? g = if g ∈ s.fq ++ s.dq then none
    else if g ∈ s.robList then (s.uop? g).map (flushedUop s g) else s.uop? g
  commits : t.commits = s.commits
  recoveries : t.recoveries = s.recoveries ++ [⟨kind, carrier, target, s.cycle, s.robCount⟩]

/-- Taking a speculative exception in a sound state answers. -/
theorem Sound.enter {s : State} (hs : Sound s) (kind : ExcKind) (carrier target : Pc) :
    ∃ t, enterRecovery kind carrier target s = .next t ∧ Entered kind carrier target s t := by
  have hqueued : ∀ h ∈ s.fq ++ s.dq, s.startRecovery.uop? h ≠ none := by
    intro h hh hn
    rw [List.mem_append] at hh
    obtain hh | hh := hh
    · obtain ⟨u, hu, -⟩ := hs.fetched h hh; rw [show s.uop? h = none from hn] at hu; cases hu
    · obtain ⟨u, hu, -⟩ := hs.decoded h hh; rw [show s.uop? h = none from hn] at hu; cases hu
  obtain ⟨s1, h1, d1⟩ := forEach_discard (s.fq ++ s.dq) s.startRecovery
    (List.nodup_append.mp hs.nodup).1 hqueued
  have hrs : s1.rs = s.rs := by rw [d1.writes]; rfl
  have hstations : ∀ h ∈ s1.rs.flatten.flatten, h ∈ s.robList := fun h hh => by
    rw [hrs] at hh
    obtain ⟨p, hp, hh⟩ := hs.mem_flatten.mp hh
    exact ((hs.stationed p hp).2 h hh).1
  have hread1 : ∀ h ∈ s.robList, s1.uop? h = s.uop? h := fun h hh => by
    rw [d1.read, if_neg fun hq => hs.fq_not_rob hq hh]; rfl
  obtain ⟨s2, h2, d2⟩ := forEach_clearStation s1.rs.flatten.flatten s1 fun h hh => by
    rw [hread1 h (hstations h hh)]
    exact hs.robLive h (hstations h hh)
  have hx : enterRecovery kind carrier target s = .next ((s2.emptyQueues.holdRedirect target).emit
      (.recovery ⟨kind, carrier, target, s2.cycle, s2.robCount⟩)) := by
    rw [enterRecovery, flush]
    show andThen (andThen (forEach discard (s.fq ++ s.dq) s.startRecovery) _) _ = _
    rw [h1, andThen_next, h2]
    rfl
  have hw2 : s2 = { s.startRecovery with arena := s2.arena, log := s1.log } := by
    rw [d2.writes, d1.writes]
  have hcycle : s2.cycle = s.cycle := by rw [hw2]; rfl
  have hcount : s2.robCount = s.robCount := by rw [hw2]; rfl
  have hlog : s2.log = s1.log := by rw [hw2]
  refine ⟨_, hx, ?_, ?_, fun g => ?_, ?_, ?_⟩
  · rw [hw2]; rfl
  · exact d2.arenaLength.trans d1.arenaLength
  · show s2.uop? g = _
    rw [d2.read]
    have hflat : g ∈ s1.rs.flatten.flatten ↔ ∃ q ∈ s.cfg.stations, g ∈ s.station q.1 q.2 := by
      rw [hrs]; exact hs.mem_flatten
    by_cases hq : g ∈ s.fq ++ s.dq
    · rw [if_neg fun hm => hs.fq_not_rob hq (hstations g hm), d1.read, if_pos hq, if_pos hq]
    · rw [if_neg hq]
      by_cases hr : g ∈ s.robList
      · rw [if_pos hr, hread1 g hr]
        by_cases hm : g ∈ s1.rs.flatten.flatten
        · rw [if_pos hm]
          have hst := hflat.mp hm
          unfold flushedUop
          simp only [if_pos hst]
        · rw [if_neg hm]
          have hst := mt hflat.mpr hm
          unfold flushedUop
          simp only [if_neg hst]
          exact Option.map_id'.symm
      · rw [if_neg hr, if_neg fun hm => hr (hstations g hm), d1.read, if_neg hq]
        rfl
  · rw [State.commits_eq, State.commits_eq]
    show commitsOf (s2.log ++ _) = _
    rw [hlog, commitsOf_append, d1.commits]
    simp
  · rw [State.recoveries_eq, State.recoveries_eq]
    show recoveriesOf (s2.log ++ _) = _
    rw [hlog, recoveriesOf_append, d1.recoveries, hcycle, hcount]
    simp

/-- A station of the emptied station list holds nothing. -/
theorem get2_map_nil {α β : Type} (l : List (List β)) (c i : Nat) :
    get2 (l.map fun ports => ports.map fun _ => ([] : List α)) c i [] = [] := by
  unfold get2
  by_cases hc : c < l.length
  · by_cases hi : i < l[c].length <;> simp [hc, hi]
  · simp [hc]

theorem Entered.station {kind : ExcKind} {carrier target : Pc} {s t : State}
    (h : Entered kind carrier target s t) (k : FuClass) (i : Nat) : t.station k i = [] := by
  rw [State.station, h.writes]
  exact get2_map_nil s.rs k.code i

theorem Entered.robList {kind : ExcKind} {carrier target : Pc} {s t : State}
    (h : Entered kind carrier target s t) : t.robList = s.robList := by
  rw [h.writes]; rfl

theorem Entered.readRob {kind : ExcKind} {carrier target : Pc} {s t : State} (hs : Sound s)
    (h : Entered kind carrier target s t) {g : Handle} (hg : g ∈ s.robList) :
    t.uop? g = (s.uop? g).map (flushedUop s g) := by
  rw [h.read, if_neg fun hq => hs.fq_not_rob hq hg, if_pos hg]

theorem Sound.entered {kind : ExcKind} {carrier target : Pc} {s t : State} (hs : Sound s)
    (h : Entered kind carrier target s t) : Sound t := by
  have hw := h.writes
  have hseqs : t.program.map Uop.seq = s.program.map Uop.seq := by
    refine State.map_program_of h.robList fun g hg => ?_
    rw [h.readRob hs hg, Option.map_map]; rfl
  have hfq : t.fq = [] := by rw [hw]
  have hdq : t.dq = [] := by rw [hw]
  have hlq : t.lq = [] := by rw [hw]
  have hsq : t.sq = [] := by rw [hw]
  have hcfg : t.cfg = s.cfg := by rw [hw]
  constructor
  case admitted => rw [hcfg]; exact hs.admitted
  case arenaLength => rw [h.arenaLength, hcfg]; exact hs.arenaLength
  case slotsLength => rw [hw]; exact hs.slotsLength
  case headLt => rw [hw]; exact hs.headLt
  case countLe => rw [hw]; exact hs.countLe
  case tail => rw [hw]; exact hs.tail
  case rsLength => rw [hw]; exact List.length_map _ |>.trans hs.rsLength
  case rsLengths =>
    intro k hk
    rw [hcfg] at hk ⊢
    have hlt : k < s.rs.length := hs.rsLength ▸ hk
    rw [hw, ← hs.rsLengths k hk]
    simp [hlt]
  case rrLength => rw [hw]; exact hs.rrLength
  case rrLt => rw [hw]; exact hs.rrLt
  case fqLe => rw [hfq]; exact Nat.zero_le _
  case dqLe => rw [hdq]; exact Nat.zero_le _
  case lqLe => rw [hlq]; exact Nat.zero_le _
  case sqLe => rw [hsq]; exact Nat.zero_le _
  case stationLe => intro p _; rw [h.station]; exact Nat.zero_le _
  case fetched => rw [hfq]; intro g hg; cases hg
  case decoded => rw [hdq]; intro g hg; cases hg
  case inRob =>
    rw [h.robList]
    intro g hg
    obtain ⟨u, hu, hr⟩ := hs.inRob g hg
    refine ⟨flushedUop s g u, ?_, hr⟩
    rw [h.readRob hs hg, show s.uop? g = some u from hu]; rfl
  case nodup => rw [hfq, hdq, h.robList]; exact hs.robNodup
  case stationed =>
    intro p _
    rw [h.station]
    exact ⟨List.nodup_nil, fun g hg => by cases hg⟩
  case loads => rw [hlq]; intro g hg; cases hg
  case stores => rw [hsq]; intro g hg; cases hg
  case live =>
    intro hr g hg hn
    rw [hfq, hdq, h.robList]
    rw [h.read] at hn
    split at hn
    · exact absurd rfl hn
    · rename_i hq
      split at hn
      · assumption
      · have hrun : s.status = .running := by rw [hw] at hr; exact hr
        have := hs.live hrun g (hg.trans_eq h.arenaLength) hn
        rw [List.mem_append] at this
        exact this.resolve_left hq
  case increasing => rw [hseqs]; exact hs.increasing
  case seqLt => rw [hseqs, hw]; exact hs.seqLt
  case unwinds => rw [hw]; exact ⟨fun _ => rfl, fun _ => rfl⟩
  case flushed =>
    intro _
    refine ⟨hfq, hdq, hlq, hsq, ?_, fun p _ => h.station _ _⟩
    rw [hw]; simp
  case method => rw [hw]; exact hs.method

/-- Settles O35. -/
theorem exceptionFlushesAndHoldsTarget : Obligations.ExceptionFlushesAndHoldsTarget := by
  intro s kind carrier target hwf
  have hs := wellFormed_iff.mp hwf
  obtain ⟨t, ht, h⟩ := hs.enter kind carrier target
  have hw := h.writes
  refine ⟨t, ht, by rw [hw], by rw [hw], by rw [hw], by rw [hw], h.station, by rw [hw], by rw [hw],
    by rw [hw], by rw [hw], fun g hg => by rw [h.read, if_pos hg], fun g hg u hu => ?_,
    h.recoveries, h.commits, ⟨by rw [hw], by rw [hw]⟩, by rw [hw], by rw [hw], fun a => by rw [hw],
    ⟨by rw [hw], by rw [hw], by rw [hw], by rw [hw]⟩, by rw [hw], by rw [hw], by rw [hw], by rw [hw],
    by rw [hw], by rw [hw], by rw [hw], by rw [hw]⟩
  rw [h.readRob hs hg, hu]
  rfl

end Sys2Proof.Machine
end

section
namespace Sys2Proof.Machine

/-! ## The moves of a step -/

/-- The part of a cycle a move belongs to: up to the execute stage no micro-op is placed, and from
the allocate stage on none is executed. -/
inductive Phase where
  | issue | front

/-- One move of a step other than a retirement, by the part of the cycle it belongs to,
with what is known where it is made. -/
inductive Quiet : Phase → State → State → Prop where
  | place {s : State} {h : Handle} {rest : List Handle} {u : Uop} {i : Instr} {j : Nat} :
      s.stageActive = true → s.dq = h :: rest → s.uop? h = some u → u.instr = some i →
      s.placement i.category.fu i.category.lsTable i.operands u = some j →
      Quiet .front s (s.place i.category.fu i.category.lsTable i.operands h u j)
  | execute {s : State} {h : Handle} {u : Uop} {i : Instr} {p : FuClass × Nat} :
      s.stageActive = true → h ∈ s.station p.1 p.2 → s.uop? h = some u → u.instr = some i →
      s.sourcesValid u = true → Quiet .issue s (s.execute h u i)
  | complete {s : State} {h : Handle} {u : Uop} :
      s.stageActive = true → h ∈ s.robList → s.uop? h = some u → u.due s.cycle = true →
      Quiet .issue s ((publishDests s u.dst).setUop h (u.completedAt s.cycle))
  | undo {s : State} {u : Uop} :
      s.recovery = true → s.robCount ≠ 0 → s.uop? (s.robAt (s.robCount - 1)) = some u →
      Quiet .issue s (s.undo u)
  | enter {kind : ExcKind} {carrier target : Pc} {s t : State} :
      Entered kind carrier target s t → Quiet .issue s t
  | resume (s : State) : s.recovery = true → s.robCount = 0 → Quiet .issue s s.endRecovery
  | raise {p : Phase} (s : State) (f : Fatal) : Quiet p s (s.raise f)
  | rstate (s : State) (r : RState) : s.rstate ≠ .unwind → r ≠ .unwind →
      Quiet .issue s (s.setRstate r)
  | stamp {s : State} {h : Handle} {u : Uop} :
      s.uop? h = some u → Quiet .issue s (s.setUop h (s.stampReady u))
  | decode {s : State} {h : Handle} {rest : List Handle} {u : Uop} {op : OpHandle}
      {i : Instr} {atomic : Bool} {bits : Nat} :
      s.stageActive = true → s.fq = h :: rest → s.dq.length < s.cfg.dqN → s.uop? h = some u →
      checkDescriptor s.cfg u.hasDs atomic bits = .ok i →
      Quiet .front s ((s.setUop h (u.decodedAs op i s.cycle)).moveToDq h)
  | fetch (s : State) (pc : Pc) (pending : Option Pc) :
      s.stageActive = true → s.fq.length < s.cfg.fqN → Quiet .front s (s.fetchOne.steer pc pending)
  | tick (s : State) : s.status = .running → Quiet .front s s.tick

/-- A sequence of such moves. -/
abbrev Quiets (p : Phase) : State → State → Prop := Relation.ReflTransGen (Quiet p)

/-- A move keeps the structure. -/
theorem Quiet.sound {p : Phase} {s t : State} (h : Quiet p s t) (hs : Sound s) : Sound t := by
  cases h with
  | place ha hd hu hi hp => exact hs.place ha hd hu hi hp
  | execute _ hp hu _ _ => exact hs.execute _ hp hu
  | complete _ _ hu hd => exact hs.complete hu hd
  | undo hr h0 _ => exact hs.undo hr h0 _
  | enter h => exact hs.entered h
  | resume => exact hs.resume
  | raise _ f => exact hs.raise f
  | rstate _ r h1 h2 => exact hs.setRstate h1 h2
  | stamp hu => exact hs.stamp hu
  | decode ha hq hroom hu _ => exact hs.decodeMove ha hq hroom hu _ _
  | fetch _ pc pending ha hroom => exact hs.fetch ha hroom pc pending
  | tick => exact hs.tick

/-- An invariant of sound states that every move keeps, a sequence of moves keeps. -/
theorem Quiets.keeps {p : Phase} {P : State → Prop}
    (hP : ∀ s t, Sound s → Quiet p s t → P s → P t) {s t : State} (h : Quiets p s t) (hs : Sound s) (hp : P s) : Sound t ∧ P t := by
  induction h with
  | refl => exact ⟨hs, hp⟩
  | tail _ hq ih => exact ⟨hq.sound ih.1, hP _ _ ih.1 hq ih.2⟩

theorem Quiets.sound {p : Phase} {s t : State} (h : Quiets p s t) (hs : Sound s) : Sound t :=
  (h.keeps (P := fun _ => True) (fun _ _ _ _ => id) hs trivial).1

/-- What the retire stage commits in one pass: one micro-op, or a control transfer with its delay
slot, of which the transfer alone if its commit ends the run. -/
inductive Retire : State → State → Prop where
  | single {s t : State} {u : Uop} : Commit u s t → u.loadViolation = false → Retire s t
  | first {s t : State} {u : Uop} : Commit u s t → u.hasDs = true → Retire s t
  | pair {s m t : State} {u v w : Uop} : Commit u s m → u.hasDs = true →
      s.uop? (s.robAt 1) = some v → v.loadViolation = false → Commit w m t → Retire s t

abbrev Retires : State → State → Prop := Relation.ReflTransGen Retire

/-- What every commit keeps, a pass keeps. -/
theorem Retire.keeps {P : State → Prop} (hP : ∀ u s t, Sound s → Commit u s t → P s → P t)
    {s t : State} (h : Retire s t) (hs : Sound s) (hp : P s) : Sound t ∧ P t := by
  cases h with
  | single h _ => exact ⟨hs.commit h, hP _ _ _ hs h hp⟩
  | first h _ => exact ⟨hs.commit h, hP _ _ _ hs h hp⟩
  | pair h1 _ _ _ h2 =>
    have hs1 := hs.commit h1
    exact ⟨hs1.commit h2, hP _ _ _ hs1 h2 (hP _ _ _ hs h1 hp)⟩

theorem Retires.keeps {P : State → Prop} (hP : ∀ u s t, Sound s → Commit u s t → P s → P t)
    {s t : State} (h : Retires s t) (hs : Sound s) (hp : P s) : Sound t ∧ P t := by
  induction h with
  | refl => exact ⟨hs, hp⟩
  | tail _ hq ih => exact hq.keeps hP ih.1 ih.2

theorem Retires.sound {s t : State} (h : Retires s t) (hs : Sound s) : Sound t :=
  (h.keeps (P := fun _ => True) (fun _ _ _ _ _ => id) hs trivial).1

/-- A stage that commits nothing: it answers, by moves. -/
def Moves (p : Phase) (s : State) (o : Out) : Prop := ∃ t, o = .next t ∧ Quiets p s t

/-- The same, ending with the later stages still acting. -/
def ActiveMoves (p : Phase) (s : State) (o : Out) : Prop :=
  ∃ t, o = .next t ∧ Quiets p s t ∧ t.stageActive = true

theorem Moves.refl {p : Phase} (s : State) : Moves p s (.next s) := ⟨s, rfl, .refl⟩

theorem Moves.andThen {p : Phase} {s : State} {o : Out} {f : State → Out} (ho : Moves p s o)
    (hf : ∀ t, Quiets p s t → Moves p t (f t)) : Moves p s (andThen o f) := by
  obtain ⟨t, rfl, ht⟩ := ho
  obtain ⟨x, hx, hq⟩ := hf t ht
  exact ⟨x, hx, ht.trans hq⟩

/-! ## Unwinding (43_rollback.md R195, R197) -/

theorem Sound.read_last {s : State} (hs : Sound s) (h0 : s.robCount ≠ 0) :
    ∃ u i, s.uop? (s.robAt (s.robCount - 1)) = some u ∧ u.instr = some i := by
  obtain ⟨u, hu, hin⟩ := hs.inRob _ (State.robAt_mem (Nat.sub_lt (Nat.pos_of_ne_zero h0) one_pos))
  obtain ⟨i, hi⟩ := Uop.instr_of_cat hin.1
  exact ⟨u, i, hu, hi⟩

/-- One pass of the unwind. -/
theorem unwindLoop_succ {s : State} (hs : Sound s) {u : Uop} (m : Nat) (h0 : s.robCount ≠ 0)
    (hu : s.uop? (s.robAt (s.robCount - 1)) = some u) :
    unwindLoop (m + 1) s = unwindLoop m (s.undo u) := by
  have hin := hs.inRob_of (State.robAt_mem (Nat.sub_lt (Nat.pos_of_ne_zero h0) one_pos)) hu
  obtain ⟨i, hi⟩ := Uop.instr_of_cat hin.1
  rw [unwindLoop, if_neg h0, withUop_of hu, callOf, hi]
  show Machine.andThen (call i .rollback s) _ = _
  rw [call_rollback hs.method h0 hu, andThen_next]

theorem unwindLoop_moves : ∀ (m : Nat) {s : State}, Sound s → s.recovery = true →
    ∃ t, unwindLoop m s = .next t ∧ Quiets .issue s t ∧ t.recovery = true
  | 0, s, _, hr => ⟨s, rfl, .refl, hr⟩
  | m + 1, s, hs, hr => by
    by_cases h0 : s.robCount = 0
    · exact ⟨s, by rw [unwindLoop, if_pos h0], .refl, hr⟩
    · obtain ⟨u, i, hu, -⟩ := hs.read_last h0
      rw [unwindLoop_succ hs m h0 hu]
      obtain ⟨t, ht, hq, hrt⟩ := unwindLoop_moves m (hs.undo hr h0 u) hr
      exact ⟨t, ht, .head (.undo hr h0 hu) hq, hrt⟩

theorem unwindStep_moves {s : State} (hs : Sound s) (hr : s.recovery = true) :
    Moves .issue s (unwindStep s) := by
  obtain ⟨t, ht, hq, hrt⟩ := unwindLoop_moves s.cfg.retireW hs hr
  rw [unwindStep, ht, andThen_next]
  split
  · rename_i h0
    exact ⟨_, rfl, hq.tail (.resume t hrt h0)⟩
  · exact ⟨t, rfl, hq⟩

theorem beginRecovery_moves {s : State} (hs : Sound s) (kind : ExcKind) (carrier target : Pc) :
    Moves .issue s (beginRecovery kind carrier target s) := by
  obtain ⟨t, ht, h⟩ := hs.enter kind carrier target
  rw [beginRecovery, ht, andThen_next]
  obtain ⟨x, hx, hq⟩ := unwindStep_moves (hs.entered h) (by rw [h.writes])
  exact ⟨x, hx, .head (.enter h) hq⟩

/-! ## Completing, executing, allocating, decoding and fetching -/

theorem completeEntries_moves : ∀ (l : List Handle) {s : State}, Sound s → s.stageActive = true →
    (∀ h ∈ l, h ∈ s.robList) → ActiveMoves .issue s (forEach completeEntry l s)
  | [], s, _, ha, _ => ⟨s, rfl, .refl, ha⟩
  | h :: l, s, hs, ha, hl => by
    have hh := hl h (by simp)
    obtain ⟨u, hu, hin⟩ := hs.inRob h hh
    obtain ⟨i, hi⟩ := Uop.instr_of_cat hin.1
    rw [forEach_cons, completeEntry, withUop_of hu]
    split
    · rename_i hd
      have hmove : Quiet .issue s ((publishDests s u.dst).setUop h (u.completedAt s.cycle)) :=
        .complete ha hh hu hd
      rw [callOf, hi]
      show ActiveMoves .issue s (Machine.andThen (call i (.complete h) s) _)
      rw [call_complete hs.method hu (Uop.due_iff.mp hd).2.1, andThen_next]
      obtain ⟨t, ht, hq, hat⟩ := completeEntries_moves l (hmove.sound hs)
        ((stageActive_of (by simp) (by simp)).trans ha)
        (fun g hg => by simpa using hl g (by simp [hg]))
      exact ⟨t, ht, .head hmove hq, hat⟩
    · rw [andThen_next]
      exact completeEntries_moves l hs ha fun g hg => hl g (by simp [hg])

/-- A stage that asks first whether to act. -/
theorem Moves.guarded {p : Phase} {s : State} {o : Out}
    (h : s.stageActive = true → Moves p s o) : Moves p s (if s.stageActive then o else .next s) := by
  split
  · rename_i ha; exact h ha
  · exact .refl s

theorem ActiveMoves.moves {p : Phase} {s : State} {o : Out} (h : ActiveMoves p s o) : Moves p s o := by
  obtain ⟨t, ht, hq, -⟩ := h
  exact ⟨t, ht, hq⟩

theorem completeStage_moves {s : State} (hs : Sound s) : Moves .issue s (completeStage s) :=
  .guarded fun ha => (completeEntries_moves _ hs ha fun _ => id).moves

/-! ### The scan order (42_scheduler.md R166) -/

theorem insertBySeq_perm (s : State) (h : Handle) : ∀ l : List Handle,
    (insertBySeq s h l).Perm (h :: l)
  | [] => .refl _
  | g :: gs => by
    unfold insertBySeq
    split
    · exact .refl _
    · exact ((insertBySeq_perm s h gs).cons g).trans (.swap h g gs)

theorem foldr_insertBySeq_perm (s : State) : ∀ l : List Handle,
    (l.foldr (insertBySeq s) []).Perm l
  | [] => .refl _
  | h :: l => (insertBySeq_perm s h _).trans ((foldr_insertBySeq_perm s l).cons h)

theorem scanOrder_perm (s : State) (l : List Handle) : (s.scanOrder l).Perm l := by
  unfold State.scanOrder
  split
  · exact .refl _
  · exact foldr_insertBySeq_perm s l

/-- The age of a record, 0 for a dead handle. -/
def State.seqOf (s : State) (h : Handle) : Nat := ((s.uop? h).map Uop.seq).getD 0

theorem insertBySeq_sorted (s : State) (h : Handle) : ∀ l : List Handle,
    l.Pairwise (fun a b => s.seqOf a ≤ s.seqOf b) →
    (insertBySeq s h l).Pairwise fun a b => s.seqOf a ≤ s.seqOf b
  | [], _ => List.pairwise_singleton _ _
  | g :: gs, hl => by
    obtain ⟨hg, hgs⟩ := List.pairwise_cons.mp hl
    unfold insertBySeq
    split
    · rename_i hle
      refine List.pairwise_cons.mpr ⟨fun b hb => ?_, hl⟩
      obtain rfl | hb := List.mem_cons.mp hb
      · exact hle
      · exact Nat.le_trans hle (hg b hb)
    · rename_i hle
      refine List.pairwise_cons.mpr ⟨fun b hb => ?_, insertBySeq_sorted s h gs hgs⟩
      obtain rfl | hb := List.mem_cons.mp ((insertBySeq_perm s h gs).mem_iff.mp hb)
      · exact Nat.le_of_lt (Nat.lt_of_not_le hle)
      · exact hg b hb

theorem foldr_insertBySeq_sorted (s : State) : ∀ l : List Handle,
    (l.foldr (insertBySeq s) []).Pairwise fun a b => s.seqOf a ≤ s.seqOf b
  | [] => List.Pairwise.nil
  | h :: l => insertBySeq_sorted s h _ (foldr_insertBySeq_sorted s l)

/-- Settles O17: insertion by age permutes and sorts. -/
theorem scanOrderFollowsParameter : Obligations.ScanOrderFollowsParameter := by
  intro s l hl
  refine ⟨fun h => by rw [State.scanOrder, h], fun h => ⟨scanOrder_perm s l, ?_⟩⟩
  rw [State.scanOrder, h, List.pairwise_filterMap]
  refine (foldr_insertBySeq_sorted s l).imp fun {a b} hab u hu v hv => ?_
  simp only [State.seqOf, show s.uop? a = some u from hu, show s.uop? b = some v from hv] at hab
  exact hab

/-! ### The stations (42_scheduler.md R162) -/

/-- Stamping leaves the stations, and whether the stages act. -/
theorem scanStation_moves (w : Nat) (p : FuClass × Nat) : ∀ (l : List Handle) (n : Nat) {s : State},
    Sound s → s.stageActive = true → l.Nodup → (∀ h ∈ l, h ∈ s.station p.1 p.2) →
    ∃ t, scanStation w l n s = .next t ∧ Quiets .issue s t ∧ t.stageActive = true ∧ t.cfg = s.cfg
  | [], _, s, _, ha, _, _ => ⟨s, rfl, .refl, ha, rfl⟩
  | h :: l, n, s, hs, ha, hn, hl => by
    have hh := hl h (by simp)
    obtain ⟨hrob, u, hu, -, -⟩ := (hs.stationed p (hs.mem_station hh)).2 h hh
    obtain ⟨hhl, hn⟩ := List.nodup_cons.mp hn
    have hstamp : Quiet .issue s (s.setUop h (s.stampReady u)) := .stamp hu
    have hs1 := hstamp.sound hs
    have hu1 : (s.setUop h (s.stampReady u)).uop? h = some (s.stampReady u) := by
      simp [State.uop?_setUop, State.lt_of_uop? hu]
    have hl1 : ∀ g ∈ l, g ∈ (s.setUop h (s.stampReady u)).station p.1 p.2 :=
      fun g hg => hl g (by simp [hg])
    have ha1 : (s.setUop h (s.stampReady u)).stageActive = true := ha
    unfold scanStation
    rw [withUop_of hu]
    dsimp only
    split
    · rename_i he
      obtain ⟨i, hi⟩ := Uop.instr_of_cat (hs1.inRob_of hrob hu1).1
      have hsrc : (s.setUop h (s.stampReady u)).sourcesValid (s.stampReady u) = true := by
        have := he.2
        unfold State.eligible at this
        exact (Bool.and_eq_true_iff.mp this).1
      have hmove := Quiet.execute (p := p) ha1 hh hu1 hi hsrc
      rw [callOf, hi]
      show ∃ t, Machine.andThen (call i (.execute h) _) _ = _ ∧ _
      rw [call_execute hs1.method hu1, andThen_next]
      have ha2 : ((s.setUop h (s.stampReady u)).execute h (s.stampReady u) i).stageActive = true := by
        rw [execute_eq]; exact ha
      obtain ⟨t, ht, hq, hat, hcfg⟩ := scanStation_moves w p l (n + 1) (hmove.sound hs1) ha2 hn
        fun g hg => by
          rw [State.station_execute]
          split
          · exact List.mem_filter.mpr ⟨hl1 g hg, by simpa using ne_of_mem_of_not_mem hg hhl⟩
          · exact hl1 g hg
      refine ⟨t, ht, .head hstamp (.head hmove hq), hat, hcfg.trans ?_⟩
      rw [execute_eq]; rfl
    · obtain ⟨t, ht, hq, hat, hcfg⟩ := scanStation_moves w p l n hs1 ha1 hn hl1
      exact ⟨t, ht, .head hstamp hq, hat, hcfg⟩

theorem executeStations_moves : ∀ (l : List (FuClass × Nat)) {s : State}, Sound s →
    s.stageActive = true → (∀ p ∈ l, p ∈ s.cfg.stations) → ActiveMoves .issue s (forEach executeStation l s)
  | [], s, _, ha, _ => ⟨s, rfl, .refl, ha⟩
  | p :: l, s, hs, ha, hl => by
    have hperm := scanOrder_perm s (s.station p.1 p.2)
    have hp := hs.stationed p (hl p (by simp))
    obtain ⟨t, ht, hq, hat, hcfg⟩ := scanStation_moves (s.cfg.port p.1 p.2).width p
      (s.scanOrder (s.station p.1 p.2)) 0 hs ha (hperm.nodup_iff.mpr hp.1)
      fun g hg => hperm.mem_iff.mp hg
    rw [forEach_cons, executeStation, ht, andThen_next]
    obtain ⟨x, hx, hq', hax⟩ := executeStations_moves l (hq.sound hs) hat
      fun q hm => by rw [hcfg]; exact hl q (by simp [hm])
    exact ⟨x, hx, hq.trans hq', hax⟩

theorem executeStage_moves {s : State} (hs : Sound s) : Moves .issue s (executeStage s) :=
  .guarded fun ha => (executeStations_moves _ hs ha fun _ => id).moves

/-! ### Allocate, decode and fetch (44_cycle.md R222 to R226) -/

theorem allocateLoop_moves : ∀ (n : Nat) {s : State}, Sound s → s.stageActive = true →
    Moves .front s (allocateLoop n s)
  | 0, s, _, _ => .refl s
  | n + 1, s, hs, ha => by
    unfold allocateLoop
    split
    · exact .refl s
    · rename_i h rest hd
      obtain ⟨u, hu, hdec⟩ := hs.decoded h (by rw [hd]; simp)
      obtain ⟨i, hi⟩ := Uop.instr_of_cat hdec.2.1
      rw [withUop_of hu, callOf, hi]
      show Moves .front s (Machine.andThen (call i .allocate s) _)
      rw [call_allocate hs.method, allocateOp, hd]
      simp only [withUop_of hu]
      cases hp : s.placement i.category.fu i.category.lsTable i.operands u with
      | none => simp only [andThen_next, hd, Nat.lt_irrefl, if_false]; exact .refl s
      | some j =>
        have hmove := Quiet.place ha hd hu hi hp
        have hdq : (s.place i.category.fu i.category.lsTable i.operands h u j).dq = rest := by
          rw [place_eq]; simp [hd]
        simp only [andThen_next, hdq, List.length_cons, Nat.lt_succ_self, if_true]
        obtain ⟨t, ht, hq⟩ := allocateLoop_moves n (hmove.sound hs) (by rw [place_eq]; exact ha)
        exact ⟨t, ht, .head hmove hq⟩

theorem allocateStage_moves {s : State} (hs : Sound s) : Moves .front s (allocateStage s) :=
  .guarded fun ha => allocateLoop_moves _ hs ha

/-- Decoding the head of the fetch queue ends the run, or moves it and the run goes on. -/
theorem decodeHead_move {s : State} {h : Handle} {rest : List Handle} {u : Uop}
    (ha : s.stageActive = true) (hq : s.fq = h :: rest) (hroom : s.dq.length < s.cfg.dqN)
    (hu : s.uop? h = some u) : Quiet .front s (decodeHead h u s) := by
  unfold decodeHead decodeAs
  split
  · exact .raise s _
  · split
    · exact .raise s _
    · exact .decode ha hq hroom hu (by assumption)

theorem decodeLoop_moves : ∀ (n : Nat) {s : State}, Sound s → s.stageActive = true →
    Moves .front s (decodeLoop n s)
  | 0, s, _, _ => .refl s
  | n + 1, s, hs, ha => by
    unfold decodeLoop
    split
    · exact .refl s
    · rename_i h rest hq
      split
      · rename_i hroom
        obtain ⟨u, hu, -⟩ := hs.fetched h (by rw [hq]; simp)
        have hmove := decodeHead_move ha hq hroom hu
        rw [withUop_of hu, whileRunning]
        split
        · rename_i hr
          obtain ⟨t, ht, hq'⟩ := decodeLoop_moves n (hmove.sound hs)
            (stageActive_iff.mpr ⟨hr, (decodeHead_recovery h u s).trans (stageActive_iff.mp ha).2⟩)
          exact ⟨t, ht, .head hmove hq'⟩
        · exact ⟨_, rfl, .single hmove⟩
      · exact .refl s

theorem decodeStage_moves {s : State} (hs : Sound s) : Moves .front s (decodeStage s) :=
  .guarded fun ha => decodeLoop_moves _ hs ha

theorem fetchLoop_moves : ∀ (n : Nat) {s : State}, s.stageActive = true → Quiets .front s (fetchLoop n s)
  | 0, _, _ => .refl
  | n + 1, s, ha => by
    unfold fetchLoop
    split
    · exact .refl
    · rename_i hroom
      have e : ∀ pc p, Quiet .front s (s.fetchOne.steer pc p) := fun pc p => .fetch s pc p ha (by omega)
      dsimp only
      split
      · exact .single (e _ _)
      · split
        · split
          · exact .head (e _ _) (fetchLoop_moves n ha)
          · exact .single (e _ _)
        · exact .head (e _ _) (fetchLoop_moves n ha)

theorem fetchStage_moves (s : State) : Quiets .front s (fetchStage s) := by
  unfold fetchStage
  split
  · rename_i ha; exact fetchLoop_moves _ ha
  · exact .refl

theorem clockAdvance_moves (s : State) : Quiets .front s (clockAdvance s) := by
  by_cases hrun : s.status = .running
  · by_cases hw : s.lastRetireCycle + s.cfg.watchdogN ≤ s.cycle
    · rw [clockAdvance_of_watchdog hrun hw]; exact .single (.raise s _)
    · rw [clockAdvance_of_not_watchdog hrun hw]; exact .single (.tick s hrun)
  · rw [clockAdvance_of_not_running hrun]

/-- What follows the retire stage in a cycle. -/
def afterRetire (s : State) : Out :=
  andThen (completeStage s) fun s2 =>
  andThen (executeStage s2) fun s3 =>
  andThen (allocateStage s3) fun s4 =>
  andThen (decodeStage s4) fun s5 =>
  .next (clockAdvance (memTick (fetchStage s5)))

theorem step_of_admitted {s : State} (h : s.cfg.admitted = true) :
    step s = andThen (retireStage s) afterRetire := if_pos h

theorem afterRetire_moves {s : State} (hs : Sound s) :
    ∃ m t, afterRetire s = .next t ∧ Quiets .issue s m ∧ Quiets .front m t := by
  obtain ⟨s3, h3, q3⟩ := (completeStage_moves hs).andThen fun _ q => executeStage_moves (q.sound hs)
  have hs3 := q3.sound hs
  obtain ⟨t, h, q⟩ := (allocateStage_moves hs3).andThen fun _ q4 =>
    (decodeStage_moves (q4.sound hs3)).andThen fun s5 _ =>
      ⟨_, rfl, (fetchStage_moves s5).trans (clockAdvance_moves _)⟩
  obtain ⟨s2, h1, h2⟩ := andThen_eq_next.mp h3
  refine ⟨s3, t, ?_, q3, q⟩
  rw [afterRetire, h1, andThen_next, h2]
  exact h

end Sys2Proof.Machine
end

section
namespace Sys2Proof.Machine

/-! ## Memory outside a written range (20_memory.md R60, R72) -/

theorem memByte_memSet_other : ∀ (m : Memory) (a : Nat) (b : Byte) (x : Nat), x ≠ a →
    memByte (memSet m a b) x = memByte m x
  | [], a, b, x, hx => by
    unfold memSet
    split
    · rfl
    · exact if_neg hx.symm
  | (k, v) :: m, a, b, x, hx => by
    unfold memSet
    split
    · split
      · rfl
      · exact if_neg hx.symm
    · split
      · rename_i hk
        subst hk
        have hold : memByte ((a, v) :: m) x = memByte m x := if_neg hx.symm
        split
        · exact hold.symm
        · exact (if_neg hx.symm : memByte ((a, b) :: m) x = memByte m x).trans hold.symm
      · show (if k = x then v else memByte (memSet m a b) x) = if k = x then v else memByte m x
        rw [memByte_memSet_other m a b x hx]

theorem memByte_memSetBytes_apart : ∀ (bs : List Byte) (m : Memory) (a : Addr) (x : Nat),
    (∀ k < bs.length, x ≠ (a + BitVec.ofNat 32 k).toNat) →
    memByte (memSetBytes m a bs) x = memByte m x
  | [], _, _, _, _ => rfl
  | b :: bs, m, a, x, hx => by
    rw [memSetBytes, memByte_memSetBytes_apart bs _ (a + 1) x fun k hk => ?_,
      memByte_memSet_other m _ b x (by simpa using hx 0 (by simp))]
    have := hx (k + 1) (by simpa using hk)
    rwa [Nat.add_comm, BitVec.ofNat_add, ← BitVec.add_assoc] at this

/-- A write leaves the bytes outside its range, whatever the form of the memory. -/
theorem memByte_memWrite_apart (e : Endian) (m : Memory) (a : Addr) (n : MemSize) (v : BitVec 64)
    {x : Nat} (hx : ∀ k < n.bytes, x ≠ (a + BitVec.ofNat 32 k).toNat) :
    memByte (memWrite e m a n v) x = memByte m x :=
  memByte_memSetBytes_apart _ m a x (by simpa using hx)

/-- A write that reaches no byte of a word leaves the word. -/
theorem imem_memWrite_apart (e : Endian) (m : Memory) (a : Addr) (n : MemSize) (v : BitVec 64)
    {pc : Pc} (h : ∀ k < n.bytes, ∀ j < 4, a + BitVec.ofNat 32 k ≠ pc + BitVec.ofNat 32 j) :
    imem e (memWrite e m a n v) pc = imem e m pc := by
  unfold imem
  congr 2
  exact memBytes_congr fun j hj => memByte_memWrite_apart e m a n v fun k hk he =>
    h k hk j hj (BitVec.eq_of_toNat_eq he.symm)

/-! ## The program after a commit -/

theorem Commit.robAt {s t : State} {u : Uop} (h : Commit u s t) {j : Nat} (hj : j < t.robCount) :
    t.robAt j = s.robAt (j + 1) := by
  have h0 := h.count
  have hc := h.robCount
  have e := congrArg (fun l : List Handle => l[j]?) h.robList
  rw [List.getElem?_tail, State.robList_getElem? t hj, State.robList_getElem? s (by omega)] at e
  exact Option.some.inj e

/-- A record of the program after a commit: the one behind it before, with some ordering flag. -/
theorem Commit.program_getElem? {s t : State} {u : Uop} (hs : Sound s) (h : Commit u s t) {j : Nat}
    {v' : Uop} (hv : t.program[j]? = some v') :
    ∃ v b, s.program[j + 1]? = some v ∧ v' = { v with loadViolation := b } := by
  obtain ⟨hj, hv'⟩ := (hs.commit h).program_eq_some.mp hv
  have hcount := h.robCount
  have hlt : j + 1 < s.robCount := by omega
  have hne : s.robAt (j + 1) ≠ s.robAt 0 := fun e =>
    absurd (hs.robAt_inj hlt (by omega) e) (by omega)
  rw [h.robAt hj] at hv'
  have hread := hs.program_getElem? hlt
  cases hv1 : s.uop? (s.robAt (j + 1)) with
  | none => exact absurd hv1 (hs.robLive _ (State.robAt_mem hlt))
  | some v =>
    obtain ⟨b, hb⟩ := h.other hne hv1
    exact ⟨v, b, hread.trans hv1, Option.some.inj (hv'.symm.trans hb)⟩

theorem Commit.program_head {s t : State} {u : Uop} (hs : Sound s) (h : Commit u s t) :
    s.program[0]? = some u :=
  hs.program_eq_some.mpr ⟨Nat.pos_of_ne_zero h.count, h.head⟩

theorem Commit.executed {s t : State} {u : Uop} (hs : Sound s) (h : Commit u s t) :
    u.executed = true := by
  obtain ⟨-, hex, hcomp, -⟩ := hs.inRob_of (State.robAt_mem (Nat.pos_of_ne_zero h.count)) h.head
  rw [hex, hcomp.mp h.complete]
  simp

/-- Older entries have smaller ages. -/
theorem Sound.seq_lt {s : State} (hs : Sound s) {i j : Nat} {u v : Uop} (hij : i < j)
    (hu : s.program[i]? = some u) (hv : s.program[j]? = some v) : u.seq < v.seq := by
  obtain ⟨hi, rfl⟩ := List.getElem?_eq_some_iff.mp hu
  obtain ⟨hj, rfl⟩ := List.getElem?_eq_some_iff.mp hv
  have := List.pairwise_iff_getElem.mp hs.increasing i j (by simpa using hi) (by simpa using hj) hij
  simpa using this

/-- A commit keeps the code of the program in flight stable. -/
theorem Commit.codeStable {s t : State} {u : Uop} (hs : Sound s) (h : Commit u s t)
    (hc : s.codeStable) : t.codeStable := by
  have hu : u ∈ s.program := List.mem_of_getElem? (h.program_head hs)
  have hold : ∀ v' ∈ t.program, ∃ v b, v ∈ s.program ∧ u.seq < v.seq ∧
      v' = { v with loadViolation := b } := fun v' hv' => by
    obtain ⟨j, hj⟩ := List.mem_iff_getElem?.mp hv'
    obtain ⟨v, b, hv, e⟩ := h.program_getElem? hs hj
    exact ⟨v, b, List.mem_of_getElem? hv, hs.seq_lt (Nat.succ_pos j) (h.program_head hs) hv, e⟩
  intro v' hv'
  obtain ⟨v, b, hv, hseq, rfl⟩ := hold v' hv'
  obtain ⟨hfresh, holder⟩ := hc v hv
  constructor
  · rw [State.wordStale_eq_false] at hfresh ⊢
    rw [h.cfg, h.mem]
    split
    · rename_i hst
      exact hfresh.trans
        (imem_memWrite_apart _ _ _ _ _ (holder u hu hseq hst (h.executed hs))).symm
    · exact hfresh
  · intro w' hw' hlt hst hex
    obtain ⟨w, b', hw, -, rfl⟩ := hold w' hw'
    exact holder w hw hlt hst hex

/-! ## The retire stage (41_rob_commit.md R133) -/

/-- A sub-step in `s` answers with a state as `P` says; or it is refused at a word of the ROB, which
happens only to a program that modifies itself. -/
def Answers (s : State) (P : State → Prop) (o : Out) : Prop :=
  (∃ t, o = .next t ∧ P t) ∨
    (∃ u ∈ s.program, o = .refused (.staleWord u.pc)) ∧ ¬s.codeStable

theorem Answers.next {s t : State} {P : State → Prop} (h : P t) : Answers s P (.next t) :=
  .inl ⟨t, rfl, h⟩

theorem Answers.imp {s : State} {P Q : State → Prop} {o : Out} (hPQ : ∀ t, P t → Q t)
    (h : Answers s P o) : Answers s Q o :=
  h.imp_left fun ⟨t, ht, hp⟩ => ⟨t, ht, hPQ t hp⟩

/-- What is refused after a commit is refused at a word that was in the ROB before. -/
theorem Answers.of_commit {s m : State} {u : Uop} {P : State → Prop} {o : Out} (hs : Sound s)
    (h : Commit u s m) (ha : Answers m P o) : Answers s P o := by
  refine ha.imp_right fun ⟨⟨v', hv', ho⟩, hc⟩ => ⟨?_, mt (h.codeStable hs) hc⟩
  obtain ⟨j, hj⟩ := List.mem_iff_getElem?.mp hv'
  obtain ⟨v, b, hv, rfl⟩ := h.program_getElem? hs hj
  exact ⟨v, List.mem_of_getElem? hv, ho⟩

/-- What the retire stage makes of a state: passes that commit, then moves that do not. -/
def Scanned (s t : State) : Prop := ∃ m, Retires s m ∧ Quiets .issue m t

theorem Scanned.of_quiets {s t : State} (h : Quiets .issue s t) : Scanned s t := ⟨s, .refl, h⟩

theorem Scanned.of_retire {s t : State} (h : Retire s t) : Scanned s t := ⟨t, .single h, .refl⟩

theorem Scanned.head {s m t : State} (h : Retire s m) (hm : Scanned m t) : Scanned s t := by
  obtain ⟨x, hx, hq⟩ := hm
  exact ⟨x, .head h hx, hq⟩

/-- The scan goes on from every state it can reach. -/
def Continues (rest : State → Out) : Prop :=
  ∀ s, Sound s → s.scanning → Answers s (Scanned s) (rest s)

theorem Moves.answers {s : State} {o : Out} (h : Moves .issue s o) : Answers s (Scanned s) o := by
  obtain ⟨t, ht, hq⟩ := h
  exact .inl ⟨t, ht, .of_quiets hq⟩

/-- Asking the head of a sound ROB to retire. -/
theorem Sound.retireHead {s : State} (hs : Sound s) (hscan : s.scanning) {u v : Uop} (h0 : s.robCount ≠ 0)
    (hu : s.uop? (s.robAt 0) = some u) (hc : u.complete = true) (hi : v.instr = u.instr) :
    (callOf (s.robAt 0) v .retire s = .refused (.staleWord u.pc) ∧ ¬s.codeStable) ∨
    (u.unmodelled = true ∧
      callOf (s.robAt 0) v .retire s = .next (s.raise (.unmodelled u.pc u.insn))) ∨
    ∃ t, callOf (s.robAt 0) v .retire s = .next t ∧ Commit u s t := by
  have hmem := State.robAt_mem (Nat.pos_of_ne_zero h0)
  obtain ⟨i, hui⟩ := Uop.instr_of_cat (hs.inRob_of hmem hu).1
  have hcall : callOf (s.robAt 0) v .retire s = call i .retire s := by rw [callOf, hi, hui]
  rw [hcall]
  refine (call_retire hs.method h0 hu hui hc hscan.1 hscan.2
    fun l hl => hs.robLive l (hs.loads l hl).1).imp_left fun ⟨hstale, h⟩ => ⟨h, fun hcode => ?_⟩
  have := (hcode u (State.mem_program.mpr ⟨_, hmem, hu⟩)).1
  rw [hstale] at this
  cases this

theorem afterCommit_answers {u : Uop} {rest : State → Out} (hrest : Continues rest) {s : State}
    (hs : Sound s) (hscan : s.scanning) : Answers s (Scanned s) (afterCommit u rest s) := by
  unfold afterCommit
  split
  · exact (beginRecovery_moves hs _ _ _).answers
  · exact hrest s hs hscan

theorem Commit.goesOn {s t : State} {u : Uop} (h : Commit u s t) (hr : t.status = .running) :
    t.scanning := ⟨hr, by rw [h.rstate]; exact h.scanning⟩

/-- The answer after the last commit of a pass. -/
theorem afterPass_answers {u : Uop} {rest : State → Out} (hrest : Continues rest) {s m t : State}
    {w : Uop} (hsm : Sound m) (hpass : Retire s t) (h : Commit w m t) :
    Answers m (Scanned s) (whileRunning (afterCommit u rest) t) := by
  unfold whileRunning
  split
  · rename_i hr
    exact .of_commit hsm h
      ((afterCommit_answers hrest (hsm.commit h) (h.goesOn hr)).imp fun _ => .head hpass)
  · exact .next (.of_retire hpass)

theorem retireSingle_answers {u : Uop} {rest : State → Out} (hrest : Continues rest) {s : State}
    (hs : Sound s) (hscan : s.scanning) (h0 : s.robCount ≠ 0) (hu : s.uop? (s.robAt 0) = some u)
    (hc : u.complete = true) : Answers s (Scanned s) (retireSingle u rest s) := by
  unfold retireSingle
  split
  · exact (beginRecovery_moves hs _ _ _).answers
  · rename_i hflag
    obtain ⟨h, hcode⟩ | ⟨-, h⟩ | ⟨t, h, hcommit⟩ := hs.retireHead hscan h0 hu hc rfl
    · rw [h]
      exact .inr ⟨⟨u, State.mem_program.mpr ⟨_, State.robAt_mem (Nat.pos_of_ne_zero h0), hu⟩, rfl⟩,
        hcode⟩
    · rw [h, andThen_next, whileRunning, if_neg (by simp)]
      exact .next (.of_quiets (.single (.raise s _)))
    · rw [h, andThen_next]
      exact afterPass_answers hrest hs (.single hcommit (by simpa using hflag)) hcommit

/-- The second entry is the head after the first is committed. -/
theorem Commit.second {s m : State} {u v : Uop} (hs : Sound s) (h : Commit u s m)
    (h2 : 2 ≤ s.robCount) (hv : s.uop? (s.robAt 1) = some v) :
    m.robCount ≠ 0 ∧ ∃ b, m.uop? (m.robAt 0) = some { v with loadViolation := b } := by
  have hcount := h.robCount
  refine ⟨by omega, ?_⟩
  rw [h.robAt (by omega)]
  exact h.other (fun e => absurd (hs.robAt_inj (by omega) (by omega) e) (by omega)) hv

theorem commitPair_answers {u v : Uop} {rest : State → Out} (hrest : Continues rest) {s : State}
    (hs : Sound s) (hscan : s.scanning) (h2 : 2 ≤ s.robCount) (hu : s.uop? (s.robAt 0) = some u)
    (hv : s.uop? (s.robAt 1) = some v) (hc : u.complete = true) (hcv : v.complete = true)
    (hds : u.hasDs = true) (hflag : v.loadViolation = false) :
    Answers s (Scanned s) (commitPair u v rest s) := by
  have h0 : s.robCount ≠ 0 := by omega
  unfold commitPair
  obtain ⟨h, hcode⟩ | ⟨-, h⟩ | ⟨m, h, hfirst⟩ := hs.retireHead hscan h0 hu hc rfl
  · rw [h]
    exact .inr ⟨⟨u, State.mem_program.mpr ⟨_, State.robAt_mem (Nat.pos_of_ne_zero h0), hu⟩, rfl⟩,
      hcode⟩
  · rw [h, andThen_next, whileRunning, if_neg (by simp)]
    exact .next (.of_quiets (.single (.raise s _)))
  rw [h, andThen_next, whileRunning]
  split
  · rename_i hr
    have hsm := hs.commit hfirst
    obtain ⟨hm0, b, hw⟩ := hfirst.second hs h2 hv
    refine .of_commit hs hfirst ?_
    obtain ⟨h, hcode⟩ | ⟨-, h⟩ | ⟨t, h, hsecond⟩ :=
      hsm.retireHead (v := v) (hfirst.goesOn hr) hm0 hw hcv rfl
    · rw [h]
      exact .inr ⟨⟨_, State.mem_program.mpr ⟨_, State.robAt_mem (Nat.pos_of_ne_zero hm0), hw⟩, rfl⟩,
        hcode⟩
    · rw [h, andThen_next, whileRunning, if_neg (by simp)]
      exact .next (.head (.first hfirst hds) (.of_quiets (.single (.raise m _))))
    · rw [h, andThen_next]
      exact afterPass_answers hrest hsm (.pair hfirst hds hv hflag hsecond) hsecond
  · exact .next (.of_retire (.first hfirst hds))

theorem rstate_answers {s : State} (hscan : s.scanning) {r : RState} (hr : r ≠ .unwind) :
    Answers s (Scanned s) (s.retireEnds r) :=
  .next (.of_quiets (.single (.rstate s r hscan.2 hr)))

theorem retirePair_answers {n : Nat} {u : Uop} {rest : State → Out} (hrest : Continues rest)
    {s : State} (hs : Sound s) (hscan : s.scanning) (hu : s.uop? (s.robAt 0) = some u)
    (hc : u.complete = true) (hds : u.hasDs = true) :
    Answers s (Scanned s) (retirePair n u rest s) := by
  unfold retirePair
  split
  · exact rstate_answers hscan (by simp)
  · rename_i h2
    obtain ⟨v, hv, -⟩ := hs.inRob _ (State.robAt_mem (by omega : 1 < s.robCount))
    rw [withUop_of hv]
    split
    · exact rstate_answers hscan (by simp)
    · rename_i hres
      split
      · exact .next (.of_quiets (.single (.raise s _)))
      · split
        · exact (beginRecovery_moves hs _ _ _).answers
        · rename_i hflag
          split
          · exact rstate_answers hscan (by simp)
          · exact commitPair_answers hrest hs hscan (by omega) hu hv hc
              (State.resolved_eq_true.mp (by simpa using hres)).1 hds (by simpa using hflag)

/-- The retire scan. -/
theorem retireLoop_continues : ∀ f n : Nat, Continues (retireLoop f n)
  | 0, _ => fun _ _ _ => .next (.of_quiets .refl)
  | f + 1, n => fun s hs hscan => by
    unfold retireLoop
    split
    · exact rstate_answers hscan (by simp)
    · rename_i hgo
      obtain ⟨u, hu, -⟩ := hs.inRob _ (State.robAt_mem (by omega : 0 < s.robCount))
      rw [withUop_of hu]
      split
      · exact rstate_answers hscan (by simp)
      · rename_i hres
        have hc := (State.resolved_eq_true.mp (by simpa using hres)).1
        split
        · exact retirePair_answers (retireLoop_continues f (n + 2)) hs hscan hu hc (by assumption)
        · exact retireSingle_answers (retireLoop_continues f (n + 1)) hs hscan (by omega) hu hc

theorem retireStage_answers {s : State} (hs : Sound s) : Answers s (Scanned s) (retireStage s) := by
  unfold retireStage
  split
  · exact .next (.of_quiets .refl)
  · rename_i hrun
    split
    · exact (unwindStep_moves hs (hs.unwinds.mpr (by assumption))).answers
    · exact retireLoop_continues _ _ s hs ⟨not_not.mp hrun, by assumption⟩

/-! ## The step -/

/-- What a step makes of a state: passes that commit, then moves that do not, in two phases. -/
def Stepped (s t : State) : Prop :=
  ∃ m x, Retires s m ∧ Quiets .issue m x ∧ Quiets .front x t

theorem Scanned.sound {s t : State} (hs : Sound s) (h : Scanned s t) : Sound t := by
  obtain ⟨m, hm, hq⟩ := h
  exact hq.sound (hm.sound hs)

theorem step_answers {s : State} (hs : Sound s) : Answers s (Stepped s) (step s) := by
  rw [step_of_admitted hs.admitted]
  obtain ⟨m, hm, hscanned⟩ | ⟨⟨u, hu, h⟩, hcode⟩ := retireStage_answers hs
  · obtain ⟨x, t, ht, hq, hq'⟩ := afterRetire_moves (hscanned.sound hs)
    obtain ⟨y, hy, hqy⟩ := hscanned
    rw [hm, andThen_next, ht]
    exact .next ⟨y, x, hy, hqy.trans hq, hq'⟩
  · rw [h]
    exact .inr ⟨⟨u, hu, rfl⟩, hcode⟩

theorem Stepped.sound {s t : State} (hs : Sound s) (h : Stepped s t) : Sound t := by
  obtain ⟨m, x, hm, hq, hq'⟩ := h
  exact hq'.sound (hq.sound (hm.sound hs))

theorem stepped_of_step {s t : State} (hs : Sound s) (h : step s = .next t) : Stepped s t := by
  obtain ⟨t', ht, hst⟩ | ⟨⟨u, -, hr⟩, -⟩ := step_answers hs
  · rw [h] at ht; cases ht; exact hst
  · rw [h] at hr; cases hr

/-- Settles O53: the step answers by moves that keep the structure, or refuses at a word of the
ROB. -/
theorem stepKeepsStructure : Obligations.StepKeepsStructure := by
  intro s hwf
  have hs := wellFormed_iff.mp hwf
  obtain ⟨t, ht, hst⟩ | ⟨hr, hcode⟩ := step_answers hs
  · exact ⟨.inl ⟨t, ht, wellFormed_iff.mpr (hst.sound hs)⟩, fun _ => ⟨t, ht⟩⟩
  · exact ⟨.inr hr, fun hc => absurd hc hcode⟩

/-! ## What a step commits (41_rob_commit.md R136) -/

theorem Silent.trans {a b c : State} (h : Silent a b) (g : Silent b c) : Silent a c :=
  ⟨g.cfg.trans h.cfg, g.mem.trans h.mem, g.retiredCount.trans h.retiredCount,
    g.commits.trans h.commits⟩

/-- A move commits nothing. -/
theorem Quiet.silent {p : Phase} {s t : State} (h : Quiet p s t) : Silent s t := by
  cases h with
  | place => rw [place_eq]; exact ⟨rfl, rfl, rfl, rfl⟩
  | execute => rw [execute_eq]; exact ⟨rfl, rfl, rfl, rfl⟩
  | complete => constructor <;> simp [State.commits_eq]
  | undo => exact ⟨rfl, rfl, rfl, by simp [State.commits_eq, State.undo]⟩
  | enter h => have hc := h.commits; rw [h.writes] at hc ⊢; exact ⟨rfl, rfl, rfl, hc⟩
  | raise | rstate | resume | stamp | fetch | tick | decode => exact ⟨rfl, rfl, rfl, rfl⟩

theorem Quiets.silent {p : Phase} {s t : State} (h : Quiets p s t) : Silent s t := by
  induction h with
  | refl => exact ⟨rfl, rfl, rfl, rfl⟩
  | tail _ hq ih => exact ih.trans hq.silent

/-- The `k` oldest micro-ops of `s` have been committed. -/
structure Advanced (s t : State) (k : Nat) : Prop where
  le : k ≤ s.robCount
  robCount : t.robCount = s.robCount - k
  retiredCount : t.retiredCount = s.retiredCount + k
  prf : t.prf = s.prf
  commits : t.commits = s.commits ++ (s.program.take k).map s.commitRecord
  records : t.program.map s.commitRecord = (s.program.map s.commitRecord).drop k

theorem Advanced.refl (s : State) : Advanced s s 0 :=
  ⟨Nat.zero_le _, rfl, rfl, rfl, by simp, rfl⟩

theorem Advanced.commit {s m t : State} {k : Nat} {u : Uop} (hm : Sound m) (h : Advanced s m k)
    (hc : Commit u m t) : Advanced s t (k + 1) := by
  have h0 := hc.count
  have hcount := h.robCount
  have hle := h.le
  have hrec : m.commitRecord u = s.commitRecord u := State.commitRecord_of h.prf u
  have hget : (s.program.map s.commitRecord)[k]? = some (s.commitRecord u) := by
    have := congrArg (fun l : List CommitRecord => l[0]?) h.records
    simpa [hc.program_head hm] using this.symm
  refine ⟨by omega, by rw [hc.robCount, hcount]; omega, by rw [hc.retiredCount, h.retiredCount]; rfl,
    hc.prf.trans h.prf, ?_, ?_⟩
  · rw [hc.commits, h.commits, hrec, List.append_assoc, List.map_take, List.map_take,
      List.take_add_one, hget]
    rfl
  · rw [hc.map_program hm (fun _ _ => rfl), h.records, List.tail_drop]

theorem Retires.advanced {s t : State} (h : Retires s t) (hs : Sound s) : ∃ k, Advanced s t k :=
  (h.keeps (P := fun m => ∃ k, Advanced s m k)
    (fun _ _ _ hm hc ⟨k, hk⟩ => ⟨k + 1, hk.commit hm hc⟩) hs ⟨0, .refl s⟩).2

/-- With every entry live, the records of the oldest entries are the oldest records. -/
theorem filterMap_take {α β : Type} (f : α → Option β) {l : List α} (h : ∀ a ∈ l, f a ≠ none)
    (k : Nat) : (l.take k).filterMap f = (l.filterMap f).take k := by
  refine List.ext_getElem? fun j => ?_
  rw [filterMap_getElem? f _ (fun a ha => h a (List.mem_of_mem_take ha)), List.getElem?_take,
    List.getElem?_take, filterMap_getElem? f l h]
  split <;> rfl

/-- Settles O32: the passes of the retire stage advance over the ROB, the rest commits nothing. -/
theorem commitsInProgramOrder : Obligations.CommitsInProgramOrder := by
  intro s t hwf h
  have hs := wellFormed_iff.mp hwf
  obtain ⟨m, x, hm, hq, hq'⟩ := stepped_of_step hs h
  obtain ⟨k, hk⟩ := hm.advanced hs
  have hsil := hq.silent.trans hq'.silent
  refine ⟨k, hk.le, hsil.retiredCount.trans hk.retiredCount, (hsil.commits.trans hk.commits).trans ?_⟩
  rw [filterMap_take _ hs.robLive]
  rfl

end Sys2Proof.Machine
end

section
namespace Sys2Proof.Machine

/-! ## The rename arrays of a sequence of releases and restores -/

/-- Restoring makes of the alias tables and the free lists what depends on these alone. -/
theorem restoreDests_maps : ∀ {s t : State} (ds : List (Option DstSlot)), sameMaps s t →
    sameMaps (restoreDests s ds) (restoreDests t ds)
  | _, _, [], h => h
  | _, _, none :: ds, h => restoreDests_maps ds h
  | _, _, some d :: ds, h => by
    obtain ⟨h1, h2⟩ := restoreDests_maps ds h
    constructor
    · show set2 _ _ _ _ = set2 _ _ _ _
      rw [h1]
    · show set2 _ _ _ _ = set2 _ _ _ _
      rw [show ((restoreDests _ ds).setRat d.cls d.arch d.prev).free = _ from h2]
      rfl

theorem foldl_restoreDests_maps : ∀ (ls : List (List (Option DstSlot))) {s t : State},
    sameMaps s t → sameMaps (ls.foldl restoreDests s) (ls.foldl restoreDests t)
  | [], _, _, h => h
  | ds :: ls, _, _, h => foldl_restoreDests_maps ls (restoreDests_maps ds h)

theorem releaseDests_maps : ∀ {s t : State} (ds : List (Option DstSlot)), sameMaps s t →
    sameMaps (releaseDests s ds) (releaseDests t ds)
  | _, _, [], h => h
  | _, _, none :: ds, h => releaseDests_maps ds h
  | s, t, some d :: ds, h => releaseDests_maps ds (s := s.setFree d.cls d.prev true)
      (t := t.setFree d.cls d.prev true) ⟨h.1, congrArg (fun f => set2 f d.cls d.prev true) h.2⟩

/-- The destination slots of the micro-ops with these handles, micro-op by micro-op. -/
def State.dsts (s : State) (l : List Handle) : List (List (Option DstSlot)) :=
  (l.filterMap s.uop?).map Uop.dst

theorem State.dsts_congr {s t : State} {l : List Handle}
    (h : ∀ g ∈ l, (t.uop? g).map Uop.dst = (s.uop? g).map Uop.dst) : t.dsts l = s.dsts l := by
  rw [State.dsts, State.dsts, List.map_filterMap, List.map_filterMap]
  exact List.filterMap_congr h

/-! ## Unwinding, entry by entry (43_rollback.md R195, R197) -/

/-- What undoing the `n` youngest entries makes of the state. -/
structure Unwound (n : Nat) (s t : State) : Prop where
  writes : t = { s with
    rat := t.rat
    free := t.free
    robTail := t.robTail
    robCount := s.robCount - n
    arena := t.arena
    log := t.log }
  robList : t.robList = s.robList.take (s.robCount - n)
  maps : sameMaps ((s.dsts (s.robList.reverse.take n)).foldl restoreDests s) t
  commits : t.commits = s.commits
  recoveries : t.recoveries = s.recoveries

theorem Unwound.refl {s : State} {n : Nat} (h : n = 0 ∨ s.robCount = 0) : Unwound n s s := by
  have hnil : s.robList.reverse.take n = [] := by
    obtain h | h := h
    · rw [h]; rfl
    · rw [List.length_eq_zero_iff.mp (s.length_robList.trans h)]; exact List.take_nil
  refine ⟨?_, ?_, by rw [hnil]; exact ⟨rfl, rfl⟩, rfl, rfl⟩
  · rw [show s.robCount - n = s.robCount by omega]
  · rw [List.take_of_length_le]
    rw [s.length_robList]; omega

/-- Undoing the youngest entry, then `n` more. -/
theorem Unwound.undo {s t : State} {u : Uop} {n : Nat} (hs : Sound s) (h0 : s.robCount ≠ 0)
    (hu : s.uop? (s.robAt (s.robCount - 1)) = some u) (h : Unwound n (s.undo u) t) :
    Unwound (n + 1) s t := by
  have hlist := State.robList_undo h0 u
  have hlen : s.robCount - (n + 1) = s.robCount - 1 - n := by omega
  have hne : s.robList ≠ [] := fun e => h0 (by rw [← s.length_robList, e]; rfl)
  have hlast : s.robList.getLast hne = s.robAt (s.robCount - 1) := by
    rw [List.getLast_eq_getElem]; simp [State.robList]
  have hrev : s.robList.reverse = s.robAt (s.robCount - 1) :: s.robList.dropLast.reverse := by
    conv_lhs => rw [← List.dropLast_append_getLast hne, hlast, List.reverse_append]
    rfl
  have hdsts : s.dsts (s.robList.reverse.take (n + 1)) =
      u.dst :: (s.undo u).dsts ((s.undo u).robList.reverse.take n) := by
    rw [hrev, List.take_succ_cons, hlist, State.dsts, List.filterMap_cons_some hu, List.map_cons]
    congr 1
    refine State.dsts_congr fun g hg => ?_
    have hg := List.mem_reverse.mp (List.mem_of_mem_take hg)
    rw [State.uop?_undo, if_neg (ne_of_mem_of_not_mem hg (hs.last_not_mem h0))]
  refine ⟨?_, ?_, ?_, h.commits.trans ?_, h.recoveries.trans ?_⟩
  · have hw := h.writes
    rw [hlen]
    exact hw
  · rw [h.robList, hlist, hlen]
    show s.robList.dropLast.take (s.robCount - 1 - n) = _
    rw [List.dropLast_eq_take, List.take_take, s.length_robList, Nat.min_eq_left (Nat.sub_le _ _)]
  · rw [hdsts, List.foldl_cons]
    obtain ⟨h1, h2⟩ := h.maps
    obtain ⟨g1, g2⟩ := foldl_restoreDests_maps
      ((s.undo u).dsts ((s.undo u).robList.reverse.take n)) (s := restoreDests s u.dst)
      (t := s.undo u) ⟨rfl, rfl⟩
    exact ⟨h1.trans g1, h2.trans g2⟩
  · simp [State.commits_eq, State.undo]
  · simp [State.recoveries_eq, State.undo]

theorem unwindLoop_unwound : ∀ (n : Nat) {s : State}, Sound s → s.recovery = true →
    ∃ t, unwindLoop n s = .next t ∧ Unwound n s t
  | 0, s, _, _ => ⟨s, rfl, .refl (.inl rfl)⟩
  | n + 1, s, hs, hr => by
    by_cases h0 : s.robCount = 0
    · exact ⟨s, by rw [unwindLoop, if_pos h0], .refl (.inr h0)⟩
    · obtain ⟨u, i, hu, -⟩ := hs.read_last h0
      rw [unwindLoop_succ hs n h0 hu]
      obtain ⟨t, ht, h⟩ := unwindLoop_unwound n (hs.undo hr h0 u) hr
      exact ⟨t, ht, h.undo hs h0 hu⟩

/-- One cycle of unwinding: back to fetching when the ROB is empty. -/
theorem unwindStep_unwound {s : State} (hs : Sound s) (hr : s.recovery = true) :
    ∃ t, Unwound s.cfg.retireW s t ∧
      unwindStep s = .next (if s.robCount ≤ s.cfg.retireW then t.endRecovery else t) := by
  obtain ⟨t, ht, h⟩ := unwindLoop_unwound s.cfg.retireW hs hr
  refine ⟨t, h, ?_⟩
  have hcount : t.robCount = s.robCount - s.cfg.retireW := by rw [h.writes]
  rw [unwindStep, ht, andThen_next, hcount]
  congr 1
  by_cases hle : s.robCount ≤ s.cfg.retireW
  · rw [if_pos hle, if_pos (by omega)]
  · rw [if_neg hle, if_neg (by omega)]

/-- Settles O36. -/
theorem unwindUndoesYoungestFirst : Obligations.UnwindUndoesYoungestFirst := by
  intro s hwf hrun hr
  have hs := wellFormed_iff.mp hwf
  obtain ⟨t, h, ht⟩ := unwindStep_unwound hs hr
  obtain ⟨hrat, hfree⟩ := h.maps
  have hlist := h.robList
  have hcommits := h.commits
  have hw := h.writes
  have hun := hs.unwinds.mp hr
  obtain ⟨-, -, -, -, hpend, -⟩ := hs.flushed hr
  obtain ⟨target, htarget⟩ := Option.ne_none_iff_exists'.mp hpend
  have hstage : retireStage s = unwindStep s := by
    rw [retireStage, if_neg (not_not.mpr hrun), if_pos hun]
  rw [hstage]
  refine ⟨_, ht, ?_⟩
  by_cases hle : s.robCount ≤ s.cfg.retireW
  · simp only [if_pos hle]
    refine ⟨hlist, ?_, hrat, hfree, ?_, ?_, fun a => ?_, ?_, hcommits, ?_, ?_, ?_, ?_, rfl, rfl,
      rfl, rfl⟩
    all_goals rw [State.endRecovery, hw]
    · exact hrun
    · rw [htarget]; rfl
  · simp only [if_neg hle]
    refine ⟨hlist, ?_, hrat, hfree, ?_, ?_, fun a => ?_, ?_, hcommits, ?_, ?_, ?_, ?_, ?_, ?_, ?_⟩
    all_goals rw [hw]
    · exact hrun
    · exact hr
    · exact hun

/-! ## Beginning a recovery (43_rollback.md R192) -/

/-- What beginning a recovery and its first cycle of unwinding make of the state. -/
structure Recovering (kind : ExcKind) (carrier target : Pc) (s t : State) : Prop where
  mem : t.mem = s.mem
  status : t.status = s.status
  retiredCount : t.retiredCount = s.retiredCount
  commits : t.commits = s.commits
  recoveries : t.recoveries = s.recoveries ++ [⟨kind, carrier, target, s.cycle, s.robCount⟩]
  robList : t.robList = s.robList.take (s.robCount - s.cfg.retireW)
  maps : sameMaps ((s.dsts (s.robList.reverse.take s.cfg.retireW)).foldl restoreDests s) t
  mode : if s.robCount ≤ s.cfg.retireW then
      t.fetchPc = target ∧ t.recovery = false ∧ t.rstate = .run
    else t.redirectPending = some target ∧ t.recovery = true ∧ t.rstate = .unwind

theorem Sound.beginRecovery {s : State} (hs : Sound s) (kind : ExcKind) (carrier target : Pc) :
    ∃ t, Machine.beginRecovery kind carrier target s = .next t ∧
      Recovering kind carrier target s t := by
  obtain ⟨e, he, hent⟩ := hs.enter kind carrier target
  obtain ⟨t, hun, ht⟩ := unwindStep_unwound (hs.entered hent) (by rw [hent.writes])
  have hew := hent.writes
  have hw := hun.writes
  have hcfg : e.cfg = s.cfg := by rw [hew]
  have hcount : e.robCount = s.robCount := by rw [hew]
  have hdsts : e.dsts (e.robList.reverse.take e.cfg.retireW) =
      s.dsts (s.robList.reverse.take s.cfg.retireW) := by
    rw [hent.robList, hcfg]
    refine State.dsts_congr fun g hg => ?_
    rw [hent.readRob hs (List.mem_reverse.mp (List.mem_of_mem_take hg)), Option.map_map]
    rfl
  have hmaps : sameMaps ((s.dsts (s.robList.reverse.take s.cfg.retireW)).foldl restoreDests s) t := by
    obtain ⟨h1, h2⟩ := hun.maps
    rw [hdsts] at h1 h2
    obtain ⟨g1, g2⟩ := foldl_restoreDests_maps
      (s.dsts (s.robList.reverse.take s.cfg.retireW)) (s := s) (t := e) (by rw [hew]; exact ⟨rfl, rfl⟩)
    exact ⟨h1.trans g1, h2.trans g2⟩
  have hlist : t.robList = s.robList.take (s.robCount - s.cfg.retireW) := by
    rw [hun.robList, hent.robList, hcount, hcfg]
  have hcommits := hun.commits.trans hent.commits
  have hrecoveries := hun.recoveries.trans hent.recoveries
  refine ⟨_, by rw [Machine.beginRecovery, he, andThen_next]; exact ht, ?_⟩
  rw [hcount, hcfg]
  split
  · rename_i hle
    refine ⟨?_, ?_, ?_, hcommits, hrecoveries, hlist, hmaps, ?_⟩
    · rw [State.endRecovery, hw, hew]
    · rw [State.endRecovery, hw, hew]
    · rw [State.endRecovery, hw, hew]
    · rw [if_pos hle]
      refine ⟨?_, rfl, rfl⟩
      rw [State.endRecovery, hw, hew]
      rfl
  · rename_i hle
    refine ⟨?_, ?_, ?_, hcommits, hrecoveries, hlist, hmaps, ?_⟩
    · rw [hw, hew]
    · rw [hw, hew]
    · rw [hw, hew]
    · rw [if_neg hle, hw, hew]
      exact ⟨rfl, rfl, rfl⟩

theorem Sound.rstate_of_recovery {s : State} (hs : Sound s) (hr : s.recovery = false) :
    s.rstate ≠ .unwind := fun h => by
  rw [hs.unwinds.mpr h] at hr; cases hr

/-- The scan at a resolved head with a resolved delay slot that is no control transfer. -/
theorem retirePair_resolved {s : State} {u v : Uop} {rest : State → Out} (h2 : 2 ≤ s.robCount)
    (hv : s.uop? (s.robAt 1) = some v) (hres : s.resolved v = true) (hcti : v.isCti = false) :
    retirePair 0 u rest s =
      if v.loadViolation then beginRecovery .loadOrder v.pc u.pc s else commitPair u v rest s := by
  rw [retirePair, if_neg (by omega), withUop_of hv, if_neg (by simp [hres]), if_neg (by simp [hcti])]
  simp

/-- Settles O37: the scan begins a recovery at the head's pc. -/
theorem loadViolationRecovers : Obligations.LoadViolationRecovers := by
  intro s u v hwf hrun hr h0 hu hres hflag hcase
  have hs := wellFormed_iff.mp hwf
  have hstage : retireStage s = beginRecovery .loadOrder v.pc u.pc s := by
    rw [retireStage_scan hrun (hs.rstate_of_recovery hr),
      retireLoop_resolved (one_le_retireW hs.admitted) h0 hu hres]
    obtain ⟨hds, rfl⟩ | ⟨hds, h2, hv, hresv, hcti⟩ := hcase
    · rw [if_neg (by simp [hds]), retireSingle, if_pos hflag]
    · rw [if_pos hds, retirePair_resolved h2 hv hresv hcti, if_pos hflag]
  obtain ⟨t, ht, h⟩ := hs.beginRecovery .loadOrder v.pc u.pc
  obtain ⟨hrat, hfree⟩ := h.maps
  exact ⟨t, hstage.trans ht, h.retiredCount, h.commits, fun a => by rw [h.mem],
    h.status.trans hrun, h.recoveries, h.robList, hrat, hfree, h.mode⟩

/-! ## Committing the head, and its delay slot (41_rob_commit.md R133) -/

/-- A complete head whose word is fresh and that has a meaning commits. -/
theorem Sound.commitHead {s : State} (hs : Sound s) (hscan : s.scanning) {u v : Uop}
    (h0 : s.robCount ≠ 0) (hu : s.uop? (s.robAt 0) = some u) (hc : u.complete = true)
    (hi : v.instr = u.instr) (hfresh : s.wordStale u = false) (hm : u.unmodelled = false) :
    ∃ t, callOf (s.robAt 0) v .retire s = .next t ∧ Commit u s t := by
  obtain ⟨i, hui⟩ := Uop.instr_of_cat
    (hs.inRob_of (State.robAt_mem (Nat.pos_of_ne_zero h0)) hu).1
  have hcall : callOf (s.robAt 0) v .retire s = call i .retire s := by rw [callOf, hi, hui]
  rw [hcall]
  obtain ⟨hstale, -⟩ | ⟨hum, -⟩ | h := call_retire hs.method h0 hu hui hc hscan.1 hscan.2
    fun l hl => hs.robLive l (hs.loads l hl).1
  · rw [hfresh] at hstale; cases hstale
  · rw [hm] at hum; cases hum
  · exact h

/-- A commit the oracle agrees with and that is not the last keeps the run going. -/
theorem Commit.runs {s t : State} {u : Uop} (h : Commit u s t)
    (ho : s.cfg.oracle = true → Config.oracleOk (s.retiredCount + 1) (s.commitRecord u) = true)
    (hmax : s.cfg.maxInsns ≠ some (s.retiredCount + 1)) : t.status = .running := by
  have hrun := h.run
  have hverdict : s.verdict u = true := by
    unfold State.verdict
    cases hor : s.cfg.oracle
    · rfl
    · simpa using ho hor
  rw [if_pos hverdict, if_neg hmax] at hrun
  exact hrun.1.trans h.running

/-- The micro-ops `us` at the head of the ROB have been committed, one after another. -/
structure Released (us : List Uop) (s t : State) : Prop where
  cfg : t.cfg = s.cfg
  cycle : t.cycle = s.cycle
  prf : t.prf = s.prf
  retiredCount : t.retiredCount = s.retiredCount + us.length
  commits : t.commits = s.commits ++ us.map s.commitRecord
  recoveries : t.recoveries = s.recoveries
  robList : t.robList = s.robList.drop us.length
  slots : ∀ g ∈ t.robList, (t.uop? g).map Uop.dst = (s.uop? g).map Uop.dst
  maps : sameMaps ((us.map Uop.dst).foldl releaseDests s) t

theorem Released.nil (s : State) : Released [] s s :=
  ⟨rfl, rfl, rfl, rfl, by simp, rfl, rfl, fun _ _ => rfl, rfl, rfl⟩

theorem Commit.recoveries {s t : State} {u : Uop} (h : Commit u s t) :
    t.recoveries = s.recoveries := by
  have hrun := h.run
  rw [State.recoveries_eq, State.recoveries_eq]
  split at hrun <;> (obtain ⟨-, -, -, hlog⟩ := hrun; rw [hlog]; simp)

theorem Commit.maps {s t : State} {u : Uop} (h : Commit u s t) : sameMaps (releaseDests s u.dst) t := by
  have hrat : (releaseDests s u.dst).rat = s.rat := by rw [releaseDests_eq]
  rw [sameMaps, hrat, h.writes]
  exact ⟨rfl, rfl⟩

/-- One more commit, of `v` with whatever ordering flag. -/
theorem Released.commit {us : List Uop} {s m t : State} {v : Uop} {b : Bool} (hm : Sound m)
    (h : Released us s m) (hc : Commit { v with loadViolation := b } m t) :
    Released (us ++ [v]) s t := by
  have hrec : m.commitRecord { v with loadViolation := b } = s.commitRecord v :=
    State.commitRecord_of h.prf v
  refine ⟨hc.cfg.trans h.cfg, hc.cycle.trans h.cycle, hc.prf.trans h.prf, ?_, ?_,
    hc.recoveries.trans h.recoveries, ?_, fun g hg => ?_, ?_⟩
  · rw [hc.retiredCount, h.retiredCount, List.length_append]; rfl
  · rw [hc.commits, h.commits, hrec, List.map_append, List.append_assoc]; rfl
  · rw [hc.robList, h.robList, List.tail_drop, List.length_append]; rfl
  · rw [hc.robList] at hg
    rw [hc.other_map (ne_of_mem_of_not_mem hg (hm.head_not_mem hc.count)) fun _ _ => rfl,
      h.slots g (List.mem_of_mem_tail hg)]
  · rw [List.map_append, List.foldl_append]
    obtain ⟨h1, h2⟩ := releaseDests_maps v.dst h.maps
    obtain ⟨g1, g2⟩ := hc.maps
    exact ⟨g1.trans h1, g2.trans h2⟩

/-- What the retire stage commits first: an unflagged head, or a head with a delay slot and its
delay slot. -/
inductive CommitsFirst (s : State) (u : Uop) : List Uop → Prop where
  | single : u.hasDs = false → u.loadViolation = false → CommitsFirst s u [u]
  | pair {v : Uop} : u.hasDs = true → 2 ≤ s.robCount → s.uop? (s.robAt 1) = some v →
      s.resolved v = true → v.isCti = false → v.loadViolation = false →
      (s.cfg.oracle = true → Config.oracleOk (s.retiredCount + 1) (s.commitRecord u) = true) →
      s.cfg.maxInsns ≠ some (s.retiredCount + 1) →
      (∀ m, Commit u s m → m.wordStale v = false) → CommitsFirst s u [u, v]

/-- The retire stage at such a head: the commits, then the rest of the scan or a recovery. -/
theorem CommitsFirst.retireStage {s : State} {u : Uop} {us : List Uop} (hcase : CommitsFirst s u us)
    (hs : Sound s) (hrun : s.status = .running) (hr : s.recovery = false) (h0 : s.robCount ≠ 0)
    (hu : s.uop? (s.robAt 0) = some u) (hres : s.resolved u = true) (hfresh : s.wordStale u = false)
    (hm : ∀ w ∈ us, w.unmodelled = false) :
    ∃ m n w b t rest, Continues rest ∧ us = n ++ [w] ∧ Released n s m ∧ Sound m ∧
      (s.codeStable → m.codeStable) ∧ Commit { w with loadViolation := b } m t ∧
      Machine.retireStage s = whileRunning (afterCommit u rest) t := by
  have hscan : s.scanning := ⟨hrun, hs.rstate_of_recovery hr⟩
  have hc := (State.resolved_eq_true.mp hres).1
  rw [retireStage_scan hrun hscan.2, retireLoop_resolved (one_le_retireW hs.admitted) h0 hu hres]
  cases hcase with
  | single hds hflag =>
    obtain ⟨t, ht, hcommit⟩ := hs.commitHead hscan h0 hu hc rfl hfresh (hm u (by simp))
    refine ⟨s, [], u, u.loadViolation, t, _, retireLoop_continues s.cfg.retireW (0 + 1), rfl,
      .nil s, hs, id, hcommit, ?_⟩
    rw [if_neg (by simp [hds]), retireSingle, if_neg (by simp [hflag]), ht, andThen_next]
  | @pair v hds h2 hv hresv hcti hflag ho hmax hfreshv =>
    obtain ⟨m, ht, hfirst⟩ := hs.commitHead hscan h0 hu hc rfl hfresh (hm u (by simp))
    have hrunm := hfirst.runs ho hmax
    have hsm := hs.commit hfirst
    obtain ⟨hm0, b, hw⟩ := hfirst.second hs h2 hv
    obtain ⟨t, ht', hsecond⟩ := hsm.commitHead (v := v) (hfirst.goesOn hrunm) hm0 hw
      (State.resolved_eq_true.mp hresv).1 rfl (hfreshv m hfirst) (hm v (by simp))
    refine ⟨m, [u], v, b, t, _, retireLoop_continues s.cfg.retireW (0 + 2), rfl,
      (Released.nil s).commit (b := u.loadViolation) hs hfirst, hsm, hfirst.codeStable hs, hsecond, ?_⟩
    rw [if_pos hds, retirePair_resolved h2 hv hresv hcti, if_neg (by simp [hflag]), commitPair, ht,
      andThen_next, whileRunning, if_pos hrunm, ht', andThen_next]

theorem Scanned.retired {s t : State} (hs : Sound s) (h : Scanned s t) :
    s.retiredCount ≤ t.retiredCount ∧ s.commits <+: t.commits := by
  obtain ⟨m, hm, hq⟩ := h
  obtain ⟨k, hk⟩ := hm.advanced hs
  rw [hq.silent.retiredCount, hq.silent.commits, hk.retiredCount, hk.commits]
  exact ⟨Nat.le_add_right _ _, List.prefix_append _ _⟩

/-- Settles O29: the commits are made, and whatever follows only adds to them. -/
theorem resolvedHeadRetires : Obligations.ResolvedHeadRetires := by
  intro s u us hwf hcode hrun hr h0 hu hres hcase hm
  have hs := wellFormed_iff.mp hwf
  have hfresh : ∀ {x : State}, Sound x → x.codeStable → ∀ j w, j < x.robCount →
      x.uop? (x.robAt j) = some w → x.wordStale w = false := fun hx hcx j w hj hw =>
    (hcx w (State.mem_program.mpr ⟨_, State.robAt_mem hj, hw⟩)).1
  have hfirst : CommitsFirst s u us := by
    obtain ⟨hds, hflag, rfl⟩ | ⟨hds, h2, ⟨v, hv, hresv, hcti, hflag, rfl⟩, ho, hmax⟩ := hcase
    · exact .single hds hflag
    · refine .pair hds h2 hv hresv hcti hflag ho hmax fun m hmc => ?_
      obtain ⟨hm0, b, hw⟩ := hmc.second hs h2 hv
      exact (hfresh (hs.commit hmc) (hmc.codeStable hs hcode) 0 _ (Nat.pos_of_ne_zero hm0) hw :)
  obtain ⟨m, n, w, b, t, rest, hrest, rfl, hrel, hsm, hcm, hcommit, hstage⟩ :=
    hfirst.retireStage hs hrun hr h0 hu hres (hfresh hs hcode 0 u (Nat.pos_of_ne_zero h0) hu) hm
  have hall := hrel.commit hsm hcommit
  have hst := hsm.commit hcommit
  rw [hstage, whileRunning]
  split
  · rename_i hrt
    obtain ⟨x, hx, hscanned⟩ | ⟨-, hbad⟩ := afterCommit_answers (u := u) hrest hst (hcommit.goesOn hrt)
    · obtain ⟨h1, h2⟩ := hscanned.retired hst
      rw [hall.retiredCount] at h1
      rw [hall.commits] at h2
      exact ⟨x, hx, h1, h2⟩
    · exact absurd (hcommit.codeStable hsm (hcm hcode)) hbad
  · exact ⟨t, rfl, hall.retiredCount.ge, hall.commits ▸ List.prefix_rfl⟩

/-- Settles O38: the commits are made and keep the run going; then the recovery begins. -/
theorem mispredictionCommitsThenRecovers : Obligations.MispredictionCommitsThenRecovers := by
  intro s u us hwf hrun hr h0 hu hres hmis hcti hcase hm hon
  have hs := wellFormed_iff.mp hwf
  have hnst : u.cat ≠ some .store := by rintro h; rw [h] at hcti; simp at hcti
  have hfirst : CommitsFirst s u us := by
    obtain ⟨hds, hflag, rfl⟩ | ⟨hds, h2, v, hv, hresv, hctiv, hflag, rfl⟩ := hcase
    · exact .single hds hflag
    · obtain ⟨ho, hmax⟩ := hon 0 u rfl
      refine .pair hds h2 hv hresv hctiv hflag ho hmax fun m hmc => ?_
      rw [State.wordStale_eq_false, hmc.cfg, hmc.mem, if_neg hnst]
      exact (hm v (by simp)).2
  have hhead : u ∈ us := by cases hfirst <;> simp
  obtain ⟨m, n, w, b, x, rest, -, rfl, hrel, hsm, -, hcommit, hstage⟩ :=
    hfirst.retireStage hs hrun hr h0 hu hres (State.wordStale_eq_false.mpr (hm u hhead).2)
      fun w hw => (hm w hw).1
  have hall := hrel.commit hsm hcommit
  have hsx := hsm.commit hcommit
  have hrecord : m.commitRecord { w with loadViolation := b } = s.commitRecord w :=
    State.commitRecord_of hrel.prf w
  obtain ⟨ho, hmax⟩ := hon n.length w (by simp)
  have hcount : m.retiredCount + 1 = s.retiredCount + 1 + n.length := by
    rw [hrel.retiredCount]; omega
  have hrunx : x.status = .running := by
    refine hcommit.runs ?_ ?_
    · rw [hrel.cfg, hcount, hrecord]; exact ho
    · rw [hrel.cfg, hcount]; exact hmax
  obtain ⟨t, ht, h⟩ := hsx.beginRecovery .branchMispredict u.pc u.redirectPc
  have hleft : x.robCount = s.robCount - (n ++ [w]).length := by
    rw [← State.length_robList, hall.robList, List.length_drop, State.length_robList]
  have hdsts : x.dsts (x.robList.reverse.take x.cfg.retireW) =
      s.dsts ((s.robList.drop (n ++ [w]).length).reverse.take s.cfg.retireW) := by
    rw [State.dsts_congr (s := s) fun g hg =>
      hall.slots g (List.mem_reverse.mp (List.mem_of_mem_take hg)), hall.robList, hall.cfg]
  have hmaps := h.maps
  rw [hdsts] at hmaps
  obtain ⟨g1, g2⟩ := foldl_restoreDests_maps
    (s.dsts ((s.robList.drop (n ++ [w]).length).reverse.take s.cfg.retireW)) hall.maps
  have hmode := h.mode
  have hlist := h.robList
  have hevent := h.recoveries
  rw [hleft, hall.cfg] at hmode hlist
  rw [hleft, hall.recoveries, hall.cycle] at hevent
  rw [hall.robList] at hlist
  refine ⟨t, ?_, h.retiredCount.trans hall.retiredCount, h.commits.trans hall.commits,
    h.status.trans hrunx, hevent, hlist, hmaps.1.trans g1, hmaps.2.trans g2, hmode⟩
  rw [hstage, whileRunning, if_pos hrunx, afterCommit, if_pos hmis, ht]

end Sys2Proof.Machine
end

section
namespace Sys2Proof.Machine

/-! ## The complete stage (42_scheduler.md R167) -/

/-- The record of a micro-op after the complete stage. -/
def Uop.afterComplete (u : Uop) (now : Nat) : Uop := if u.due now = true then u.completedAt now else u

/-- What the complete stage makes of the state when it has come over the entries `l`. -/
structure Completed (l : List Handle) (s t : State) : Prop where
  writes : t = { s with valid := t.valid, arena := t.arena }
  read : ∀ g, t.uop? g = if g ∈ l then (s.uop? g).map (·.afterComplete s.cycle) else s.uop? g
  validOf : ∀ c p, t.validOf c p = true ↔ s.validOf c p = true ∨
    ∃ h ∈ l, ∃ u ∈ s.uop? h, u.due s.cycle = true ∧ ∃ d ∈ u.dests, d.cls = c ∧ d.fresh = p

/-- The arrays have the sizes of the configuration if they have the shapes of arrays that have. -/
theorem renameShaped_of {s t : State} (hs : s.renameShaped) (hcfg : t.cfg = s.cfg)
    (hrat : sameShape t.rat s.rat) (hprf : sameShape t.prf s.prf) (hfree : sameShape t.free s.free)
    (hvalid : sameShape t.valid s.valid)
    (hmaps : ∀ c < s.cfg.classes.length, ∀ a < s.cfg.na c, t.ratOf c a < s.cfg.np c) :
    t.renameShaped := by
  obtain ⟨h1, h2, h3, h4, h5⟩ := hs
  unfold State.renameShaped
  rw [hcfg]
  refine ⟨hrat.1.trans h1, hprf.1.trans h2, hfree.1.trans h3, hvalid.1.trans h4, fun c hc => ?_⟩
  obtain ⟨g1, g2, g3, g4, -⟩ := h5 c hc
  exact ⟨(hrat.2 c).trans g1, (hprf.2 c).trans g2, (hfree.2 c).trans g3, (hvalid.2 c).trans g4,
    hmaps c hc⟩

theorem completed_renameShaped {s : State} (hs : s.renameShaped) (h : Handle) (u v : Uop) :
    ((publishDests s u.dst).setUop h v).renameShaped := by
  have hmaps : ∀ c < s.cfg.classes.length, ∀ a < s.cfg.na c, s.ratOf c a < s.cfg.np c := fun c hc => by
    obtain ⟨-, -, -, -, h5⟩ := hs
    obtain ⟨-, -, -, -, hlt⟩ := h5 c hc
    exact hlt
  refine renameShaped_of hs (by simp) ?_ ?_ ?_ (publishDests_shape s u.dst) fun c hc a ha => ?_
  · rw [show ((publishDests s u.dst).setUop h v).rat = s.rat by simp]; exact .refl _
  · rw [show ((publishDests s u.dst).setUop h v).prf = s.prf by simp]; exact .refl _
  · rw [show ((publishDests s u.dst).setUop h v).free = s.free by simp]; exact .refl _
  · rw [State.ratOf, show ((publishDests s u.dst).setUop h v).rat = s.rat by simp]
    exact hmaps c hc a ha

/-- The complete stage, entry by entry. -/
theorem completeEntries_completed : ∀ (l : List Handle) {s : State}, s.method = .allocate →
    s.renameShaped → l.Nodup →
    (∀ h ∈ l, ∃ u, s.uop? h = some u ∧ u.cat ≠ none ∧ ∀ d ∈ u.dests, d.inRange s.cfg) →
    ∃ t, forEach completeEntry l s = .next t ∧ Completed l s t
  | [], s, _, _, _, _ => ⟨s, rfl, rfl, fun g => by simp, fun c p => by simp⟩
  | h :: l, s, hm, hshape, hn, hl => by
    obtain ⟨u, hu, hcat, hd⟩ := hl h (by simp)
    obtain ⟨i, hi⟩ := Uop.instr_of_cat hcat
    obtain ⟨hhl, hn⟩ := List.nodup_cons.mp hn
    rw [forEach_cons, completeEntry, withUop_of hu]
    by_cases hdue : u.due s.cycle = true
    · have hread := completed_uop? hu (u.completedAt s.cycle)
      have hvalid := completed_validOf hshape hd h (u.completedAt s.cycle)
      have hshape' := completed_renameShaped hshape h u (u.completedAt s.cycle)
      have hw : (publishDests s u.dst).setUop h (u.completedAt s.cycle) = { s with
          valid := (publishDests s u.dst).valid
          arena := s.arena.set h (some (u.completedAt s.cycle)) } := by rw [publishDests_eq]; rfl
      rw [if_pos hdue, callOf, hi]
      show ∃ t, andThen (call i (.complete h) s) _ = _ ∧ _
      rw [call_complete hm hu (Uop.due_iff.mp hdue).2.1, andThen_next]
      generalize (publishDests s u.dst).setUop h (u.completedAt s.cycle) = x at *
      have hcycle : x.cycle = s.cycle := by rw [hw]
      have hcfg : x.cfg = s.cfg := by rw [hw]
      have hother : ∀ g ∈ l, x.uop? g = s.uop? g := fun g hg => by
        rw [hread, if_neg (ne_of_mem_of_not_mem hg hhl)]
      obtain ⟨t, ht, h1, h2, h3⟩ := completeEntries_completed l (by rw [hw]; exact hm) hshape' hn
        fun g hg => by
          rw [hother g hg, hcfg]
          exact hl g (by simp [hg])
      refine ⟨t, ht, by rw [h1, hw], fun g => ?_, fun c p => ?_⟩
      · rw [h2, hread, hcycle]
        by_cases hgh : g = h
        · subst hgh
          simp [hhl, hu, Uop.afterComplete, hdue]
        · simp [hgh]
      · rw [h3, hvalid, hcycle]
        simp only [Bool.or_eq_true, List.any_eq_true, decide_eq_true_eq, List.mem_cons,
          exists_eq_or_imp, or_assoc]
        refine or_congr Iff.rfl (or_congr ?_ ?_)
        · exact ⟨fun hex => ⟨u, hu, hdue, hex⟩, fun ⟨w, hw, _, hex⟩ => by
            rw [hu] at hw; cases hw; exact hex⟩
        · refine exists_congr fun g => and_congr_right fun hg => ?_
          rw [hother g hg]
    · obtain ⟨t, ht, h1, h2, h3⟩ := completeEntries_completed l hm hshape hn fun g hg =>
        hl g (by simp [hg])
      rw [if_neg hdue, andThen_next]
      refine ⟨t, ht, h1, fun g => ?_, fun c p => ?_⟩
      · rw [h2]
        by_cases hgh : g = h
        · subst hgh
          simp [hhl, hu, Uop.afterComplete, hdue]
        · simp [hgh]
      · rw [h3]
        refine or_congr Iff.rfl ?_
        simp only [List.mem_cons, exists_eq_or_imp]
        refine ⟨.inr, fun hex => hex.resolve_left ?_⟩
        rintro ⟨w, hw, hdw, -⟩
        rw [hu] at hw
        cases hw
        exact hdue hdw

theorem State.mem_robDests {s : State} {d : DstSlot} :
    d ∈ s.robDests ↔ ∃ h ∈ s.robList, ∃ u, s.uop? h = some u ∧ d ∈ u.dests := by
  simp only [State.robDests, List.mem_flatMap, State.mem_program]
  exact ⟨fun ⟨u, ⟨h, hh, hu⟩, hd⟩ => ⟨h, hh, u, hu, hd⟩, fun ⟨h, hh, u, hu, hd⟩ => ⟨u, ⟨h, hh, hu⟩, hd⟩⟩

/-- Settles O20: the stage comes over every entry of the ROB once. -/
theorem completeStageCompletesAllDue : Obligations.CompleteStageCompletesAllDue := by
  intro s hwf hshape hdests ha
  have hs := wellFormed_iff.mp hwf
  obtain ⟨t, ht, hw, hread, hvalid⟩ := completeEntries_completed s.robList hs.method hshape
    hs.robNodup fun h hh => by
      obtain ⟨u, hu, hin⟩ := hs.inRob h hh
      exact ⟨u, hu, hin.1, fun d hd => hdests d (State.mem_robDests.mpr ⟨h, hh, u, hu, hd⟩)⟩
  refine ⟨t, by rw [completeStage, if_pos ha, ht], fun h hh u hu => ⟨fun hd => ?_, fun hd => ?_⟩,
    fun h hh => by rw [hread, if_neg hh], fun c p => ?_, ?_⟩
  · rw [hread, if_pos hh, hu, Option.map_some, Uop.afterComplete, if_pos (Uop.due_iff.mpr hd)]
    rfl
  · rw [hread, if_pos hh, hu, Option.map_some, Uop.afterComplete, if_neg (mt Uop.due_iff.mp hd)]
  · rw [hvalid]
    simp only [Uop.due_iff]
  · rw [hw]
    exact ⟨⟨rfl, rfl⟩, rfl, fun _ => rfl, ⟨rfl, rfl, rfl, rfl⟩, ⟨rfl, rfl, rfl, rfl⟩,
      ⟨rfl, rfl, rfl, rfl, rfl⟩, ⟨rfl, rfl, rfl, rfl, rfl⟩, ⟨rfl, rfl, rfl, rfl, rfl⟩, rfl⟩

end Sys2Proof.Machine
end

section
namespace Sys2Proof.Machine

/-! ## The execute stage (42_scheduler.md R162 to R166) -/

theorem sourcesValid_of {s t : State} (h : t.valid = s.valid) (u : Uop) :
    t.sourcesValid u = s.sourcesValid u := by
  unfold State.sourcesValid State.validOf
  rw [h]

theorem stampReady_of {s t : State} (hv : t.valid = s.valid) (hc : t.cycle = s.cycle) :
    t.stampReady = s.stampReady := by
  funext u
  unfold State.stampReady
  rw [sourcesValid_of hv, hc]

theorem eligible_of {s t : State} (hv : t.valid = s.valid) (hc : t.cycle = s.cycle)
    (hcfg : t.cfg = s.cfg) : t.eligible = s.eligible := by
  funext u
  unfold State.eligible
  rw [sourcesValid_of hv, hc, hcfg]

@[simp] theorem stampReady_seq (s : State) (u : Uop) : (s.stampReady u).seq = u.seq := by
  unfold State.stampReady; split <;> rfl
@[simp] theorem stampReady_station (s : State) (u : Uop) : (s.stampReady u).station = u.station := by
  unfold State.stampReady; split <;> rfl

@[simp] theorem noteOf_tExec (i : Instr) (r : ExecResult) (u : Uop) :
    (noteOf i r u).tExec = u.tExec := by cases i <;> rfl
@[simp] theorem noteOf_tReady (i : Instr) (r : ExecResult) (u : Uop) :
    (noteOf i r u).tReady = u.tReady := by cases i <;> rfl

/-- A micro-op with record `u` is issued in this cycle and now has record `v`. -/
structure IssuedAs (s : State) (u v : Uop) : Prop where
  eligible : s.eligible (s.stampReady u) = true
  state : v.state = .executed
  executed : v.executed = true
  tExec : v.tExec = some s.cycle
  tReady : v.tReady = (s.stampReady u).tReady

/-- What scanning the micro-ops `l` of station `p`, with `w` left of its width, makes of the state
when it issues the micro-ops `is`. -/
structure Issue (p : FuClass × Nat) (w : Nat) (l is : List Handle) (s t : State) : Prop where
  writes : t = { s with prf := t.prf, rs := t.rs, arena := t.arena }
  sub : is.Sublist l
  width : is.length ≤ w
  ages : ∀ g, t.seqOf g = s.seqOf g
  outside : ∀ g, g ∉ l → t.uop? g = s.uop? g
  stays : ∀ g ∈ l, g ∉ is → t.uop? g = (s.uop? g).map s.stampReady
  issued : ∀ g ∈ is, ∃ u v, s.uop? g = some u ∧ t.uop? g = some v ∧ IssuedAs s u v
  full : ∀ g ∈ l, g ∉ is → ∀ u, s.uop? g = some u → s.eligible (s.stampReady u) = true →
    is.length = w
  order : ∀ h ∈ is, ∀ g ∈ l, g ∉ is → ∀ u, s.uop? g = some u →
    s.eligible (s.stampReady u) = true → [h, g].Sublist l
  stations : ∀ k i, t.station k i =
    if p = (k, i) then (s.station k i).filter (fun h => decide (h ∉ is)) else s.station k i

theorem seqOf_of_read {s t : State} {h : Handle} {u v : Uop} (hu : s.uop? h = some u)
    (hread : ∀ g, t.uop? g = if g = h then some v else s.uop? g) (hseq : v.seq = u.seq) (g : Handle) :
    t.seqOf g = s.seqOf g := by
  unfold State.seqOf
  rw [hread]
  by_cases hg : g = h
  · subst hg; simp [hu, hseq]
  · rw [if_neg hg]

/-- A scan passes over a micro-op that is not issued. -/
theorem Issue.skip {p : FuClass × Nat} {w : Nat} {h : Handle} {l is : List Handle} {s t : State}
    {u : Uop} (hu : s.uop? h = some u) (hhl : h ∉ l)
    (hne : s.eligible (s.stampReady u) = true → w = 0)
    (hi : Issue p w l is (s.setUop h (s.stampReady u)) t) : Issue p w (h :: l) is s t := by
  have hread : ∀ g, (s.setUop h (s.stampReady u)).uop? g =
      if g = h then some (s.stampReady u) else s.uop? g := fun g => by
    rw [State.uop?_setUop]; simp [State.lt_of_uop? hu]
  have hother : ∀ {g}, g ≠ h → (s.setUop h (s.stampReady u)).uop? g = s.uop? g := fun hg => by
    rw [hread, if_neg hg]
  have hin : ∀ {g}, g ∈ l → g ≠ h := fun hg => ne_of_mem_of_not_mem hg hhl
  have hempty : s.eligible (s.stampReady u) = true → is = [] := fun he =>
    List.length_eq_zero_iff.mp (Nat.le_zero.mp (hne he ▸ hi.width))
  refine ⟨by rw [hi.writes]; rfl, hi.sub.cons _, hi.width, fun g => ?_, fun g hg => ?_,
    fun g hg hgi => ?_, fun g hg => ?_, fun g hg hgi v hv he => ?_, fun x hx g hg hgi v hv he => ?_,
    hi.stations⟩
  · exact (hi.ages g).trans (seqOf_of_read hu hread (stampReady_seq s u) g)
  · rw [List.mem_cons, not_or] at hg
    rw [hi.outside g hg.2, hother hg.1]
  · obtain rfl | hg := List.mem_cons.mp hg
    · rw [hi.outside g hhl, hread, if_pos rfl, hu]; rfl
    · rw [hi.stays g hg hgi, hother (hin hg)]; rfl
  · obtain ⟨v, x, hv, hx, hiss⟩ := hi.issued g hg
    rw [hother (hin (hi.sub.subset hg))] at hv
    exact ⟨v, x, hv, hx, hiss.1, hiss.2, hiss.3, hiss.4, hiss.5⟩
  · obtain rfl | hg := List.mem_cons.mp hg
    · rw [hu] at hv; cases hv
      rw [hempty he, hne he]; rfl
    · exact hi.full g hg hgi v ((hother (hin hg)).trans hv) he
  · obtain rfl | hg := List.mem_cons.mp hg
    · rw [hu] at hv; cases hv
      rw [hempty he] at hx; cases hx
    · exact (hi.order x hx g hg hgi v ((hother (hin hg)).trans hv) he).cons _

/-- A scan issues an eligible micro-op. -/
theorem Issue.issue {p : FuClass × Nat} {w : Nat} {h : Handle} {l is : List Handle} {s t : State}
    {u : Uop} {i : Instr} (hu : s.uop? h = some u) (hhl : h ∉ l) (hst : u.station = some p)
    (he : s.eligible (s.stampReady u) = true)
    (hi : Issue p w l is
      ((s.setUop h (s.stampReady u)).execute h (s.stampReady u) i) t) :
    Issue p (w + 1) (h :: l) (h :: is) s t := by
  have hlive := State.lt_of_uop? hu
  have hu1 : (s.setUop h (s.stampReady u)).uop? h = some (s.stampReady u) := by
    simp [State.uop?_setUop, hlive]
  have hread := State.uop?_execute hu1 i
  have hstation := State.station_execute (s.setUop h (s.stampReady u)) h (s.stampReady u) i
  have hw := execute_eq (s.setUop h (s.stampReady u)) h (s.stampReady u) i
  generalize hv : (s.stampReady u).executedAs (noteOf i) (Config.exec (s.stampReady u).view
    ((s.setUop h (s.stampReady u)).sourceValues (s.stampReady u)))
    (s.setUop h (s.stampReady u)).cycle = v at hread hw
  have hvseq : v.seq = u.seq := by
    rw [← hv]; simp [Uop.executedAs, Uop.computed, Uop.issued]
  have hiss : IssuedAs s u v := by
    refine ⟨he, ?_, ?_, ?_, ?_⟩ <;> rw [← hv]
    · simp [Uop.executedAs, Uop.computed, Uop.issued]
    · rfl
    · simp [Uop.executedAs, Uop.computed, Uop.issued]
    · simp [Uop.executedAs, Uop.computed, Uop.issued]
  generalize (s.setUop h (s.stampReady u)).execute h (s.stampReady u) i = x at *
  have hxv : x.valid = s.valid := by rw [hw]; rfl
  have hxc : x.cycle = s.cycle := by rw [hw]; rfl
  have hxcfg : x.cfg = s.cfg := by rw [hw]; rfl
  have hstamp := stampReady_of hxv hxc
  have helig := eligible_of hxv hxc hxcfg
  have hread' : ∀ g, x.uop? g = if g = h then some v else s.uop? g := fun g => by
    rw [hread]
    by_cases hg : g = h
    · rw [if_pos hg, if_pos hg]
    · rw [if_neg hg, if_neg hg, State.uop?_setUop, if_neg fun e => hg e.1]
  have hother : ∀ {g}, g ≠ h → x.uop? g = s.uop? g := fun hg => by rw [hread', if_neg hg]
  have hin : ∀ {g}, g ∈ l → g ≠ h := fun hg => ne_of_mem_of_not_mem hg hhl
  refine ⟨by rw [hi.writes, hw]; rfl, hi.sub.cons_cons _, by simpa using hi.width, fun g => ?_,
    fun g hg => ?_, fun g hg hgi => ?_, fun g hg => ?_, fun g hg hgi y hy hel => ?_,
    fun a ha g hg hgi y hy hel => ?_, fun k n => ?_⟩
  · exact (hi.ages g).trans (seqOf_of_read hu hread' hvseq g)
  · rw [List.mem_cons, not_or] at hg
    rw [hi.outside g hg.2, hother hg.1]
  · rw [List.mem_cons, not_or] at hgi
    rw [hi.stays g ((List.mem_cons.mp hg).resolve_left hgi.1) hgi.2, hother hgi.1, hstamp]
  · obtain rfl | hg := List.mem_cons.mp hg
    · exact ⟨u, v, hu, by rw [hi.outside g hhl, hread', if_pos rfl], hiss⟩
    · obtain ⟨a, b, ha, hb, h1, h2, h3, h4, h5⟩ := hi.issued g hg
      rw [hother (hin (hi.sub.subset hg))] at ha
      rw [hstamp] at h1 h5
      rw [helig] at h1
      rw [hxc] at h4
      exact ⟨a, b, ha, hb, h1, h2, h3, h4, h5⟩
  · rw [List.mem_cons, not_or] at hgi
    rw [List.length_cons, hi.full g ((List.mem_cons.mp hg).resolve_left hgi.1) hgi.2 y
      ((hother hgi.1).trans hy) (by rw [hstamp, helig]; exact hel)]
  · rw [List.mem_cons, not_or] at hgi
    have hgl := (List.mem_cons.mp hg).resolve_left hgi.1
    obtain rfl | ha := List.mem_cons.mp ha
    · exact (List.singleton_sublist.mpr hgl).cons_cons _
    · exact (hi.order a ha g hgl hgi.2 y ((hother hgi.1).trans hy)
        (by rw [hstamp, helig]; exact hel)).cons _
  · rw [hi.stations, hstation, stampReady_station, hst]
    show (if p = (k, n) then List.filter _ (if some p = some (k, n) then
      (s.station k n).filter (· ≠ h) else s.station k n) else _) = _
    by_cases hp : p = (k, n)
    · simp only [if_pos hp, if_pos (congrArg some hp), List.filter_filter]
      refine List.filter_congr fun g _ => ?_
      simp [Bool.and_comm]
    · simp only [if_neg hp, if_neg (fun e => hp (Option.some.inj e) : ¬some p = some (k, n))]
      rfl

/-- The scan of a station. -/
theorem scanStation_issue (p : FuClass × Nat) (W : Nat) : ∀ (l : List Handle) (n : Nat) {s t : State},
    Sound s → l.Nodup → (∀ h ∈ l, h ∈ s.station p.1 p.2) → scanStation W l n s = .next t →
    ∃ is, Issue p (W - n) l is s t
  | [], n, s, t, _, _, _, h => by
    simp only [scanStation, Host.Outcome.next.injEq] at h
    subst h
    refine ⟨[], rfl, .slnil, Nat.zero_le _, fun _ => rfl, fun _ _ => rfl, ?_, ?_, ?_, ?_, ?_⟩
    · intro g hg; cases hg
    · intro g hg; cases hg
    · intro g hg; cases hg
    · intro g hg; cases hg
    · intro k i
      have : (s.station k i).filter (fun h => decide (h ∉ ([] : List Handle))) = s.station k i :=
        List.filter_eq_self.mpr (by simp)
      rw [this, ite_self]
  | h :: l, n, s, t, hs, hn, hl, hscan => by
    have hh := hl h (by simp)
    obtain ⟨hrob, u, hu, -, hst⟩ := (hs.stationed p (hs.mem_station hh)).2 h hh
    obtain ⟨hhl, hn⟩ := List.nodup_cons.mp hn
    have hs1 := hs.stamp hu
    have hu1 : (s.setUop h (s.stampReady u)).uop? h = some (s.stampReady u) := by
      simp [State.uop?_setUop, State.lt_of_uop? hu]
    have hl1 : ∀ g ∈ l, g ∈ (s.setUop h (s.stampReady u)).station p.1 p.2 :=
      fun g hg => hl g (by simp [hg])
    unfold scanStation at hscan
    rw [withUop_of hu] at hscan
    dsimp only at hscan
    split at hscan
    · rename_i he
      obtain ⟨i, hi⟩ := Uop.instr_of_cat (hs1.inRob_of hrob hu1).1
      rw [callOf, hi] at hscan
      have hscan : andThen (call i (.execute h) (s.setUop h (s.stampReady u)))
        (scanStation W l (n + 1)) = .next t := hscan
      rw [call_execute hs1.method hu1, andThen_next] at hscan
      obtain ⟨is, hiss⟩ := scanStation_issue p W l (n + 1) (hs1.execute i hh hu1) hn
        (fun g hg => by
          rw [State.station_execute]
          split
          · exact List.mem_filter.mpr ⟨hl1 g hg, by simpa using ne_of_mem_of_not_mem hg hhl⟩
          · exact hl1 g hg) hscan
      refine ⟨h :: is, ?_⟩
      rw [show W - n = W - (n + 1) + 1 by omega]
      exact hiss.issue hu hhl hst he.2
    · rename_i he
      obtain ⟨is, hiss⟩ := scanStation_issue p W l n hs1 hn hl1 hscan
      exact ⟨is, hiss.skip hu hhl fun hel => Nat.sub_eq_zero_of_le
        (Nat.le_of_not_lt fun hlt => he ⟨hlt, hel⟩)⟩

/-- The scan order depends on the ages alone. -/
theorem scanOrder_of {s t : State} (hcfg : t.cfg = s.cfg) (hages : ∀ g, t.seqOf g = s.seqOf g)
    (l : List Handle) : t.scanOrder l = s.scanOrder l := by
  have hinsert : ∀ h l, insertBySeq t h l = insertBySeq s h l := by
    intro h l
    induction l with
    | nil => rfl
    | cons g gs ih =>
      show (if t.seqOf h ≤ t.seqOf g then _ else _) = if s.seqOf h ≤ s.seqOf g then _ else _
      rw [hages, hages, ih]
  unfold State.scanOrder
  rw [hcfg, show insertBySeq t = insertBySeq s from funext fun h => funext (hinsert h)]

/-- What the execute stage makes of station `p`: the micro-ops `is` are issued. -/
structure StationIssued (p : FuClass × Nat) (is : List Handle) (s t : State) : Prop where
  sub : is.Sublist (s.scanOrder (s.station p.1 p.2))
  width : is.length ≤ (s.cfg.port p.1 p.2).width
  stays : ∀ g ∈ s.station p.1 p.2, g ∉ is → t.uop? g = (s.uop? g).map s.stampReady
  issued : ∀ g ∈ is, ∃ u v, s.uop? g = some u ∧ t.uop? g = some v ∧ IssuedAs s u v
  full : ∀ g ∈ s.station p.1 p.2, g ∉ is → ∀ u, s.uop? g = some u →
    s.eligible (s.stampReady u) = true → is.length = (s.cfg.port p.1 p.2).width
  order : ∀ h ∈ is, ∀ g ∈ s.station p.1 p.2, g ∉ is → ∀ u, s.uop? g = some u →
    s.eligible (s.stampReady u) = true → [h, g].Sublist (s.scanOrder (s.station p.1 p.2))
  station : t.station p.1 p.2 = (s.station p.1 p.2).filter (fun h => decide (h ∉ is))

/-- A micro-op stands in one station only. -/
theorem Sound.station_unique {s : State} (hs : Sound s) {p q : FuClass × Nat} {g : Handle}
    (hp : g ∈ s.station p.1 p.2) (hq : g ∈ s.station q.1 q.2) : p = q := by
  obtain ⟨-, u, hu, -, h1⟩ := (hs.stationed p (hs.mem_station hp)).2 g hp
  obtain ⟨-, v, hv, -, h2⟩ := (hs.stationed q (hs.mem_station hq)).2 g hq
  have huv : u = v := Option.some.inj (hu.symm.trans hv)
  subst huv
  exact Option.some.inj (h1.symm.trans h2)

/-- The stations of `L`, scanned one after another. -/
structure StationsScanned (L : List (FuClass × Nat)) (s t : State) : Prop where
  outside : ∀ g, (∀ q ∈ L, g ∉ s.station q.1 q.2) → t.uop? g = s.uop? g
  stations : ∀ q, q ∉ L → t.station q.1 q.2 = s.station q.1 q.2
  issued : ∀ p ∈ L, ∃ is, StationIssued p is s t

theorem StationsScanned.cons {L : List (FuClass × Nat)} {p : FuClass × Nat} {is : List Handle}
    {s m t : State} (hs : Sound s) (hpL : p ∉ L)
    (hi : Issue p (s.cfg.port p.1 p.2).width (s.scanOrder (s.station p.1 p.2)) is s m)
    (h : StationsScanned L m t) : StationsScanned (p :: L) s t := by
  have hw := hi.writes
  have hv : m.valid = s.valid := by rw [hw]
  have hc : m.cycle = s.cycle := by rw [hw]
  have hcfg : m.cfg = s.cfg := by rw [hw]
  have hmem : ∀ g, g ∈ s.scanOrder (s.station p.1 p.2) ↔ g ∈ s.station p.1 p.2 := fun g =>
    (scanOrder_perm s _).mem_iff
  have hout : ∀ g, g ∉ s.station p.1 p.2 → m.uop? g = s.uop? g := fun g hg =>
    hi.outside g (mt (hmem g).mp hg)
  have hsame : ∀ q, q ≠ p → m.station q.1 q.2 = s.station q.1 q.2 := fun q hq =>
    (hi.stations q.1 q.2).trans (if_neg fun e => hq e.symm)
  have hback : ∀ g ∈ s.station p.1 p.2, t.uop? g = m.uop? g := fun g hg => by
    refine h.outside g fun q hq hgq => ?_
    have hqp : q ≠ p := ne_of_mem_of_not_mem hq hpL
    rw [hsame q hqp] at hgq
    exact hqp (hs.station_unique hgq hg)
  refine ⟨fun g hg => ?_, fun q hq => ?_, fun q hq => ?_⟩
  · rw [h.outside g fun q hq => ?_, hout g (hg p (by simp))]
    rw [hsame q (ne_of_mem_of_not_mem hq hpL)]
    exact hg q (by simp [hq])
  · rw [List.mem_cons, not_or] at hq
    rw [h.stations q hq.2, hsame q hq.1]
  · obtain rfl | hq := List.mem_cons.mp hq
    · refine ⟨is, hi.sub, hi.width, fun g hg hgi => ?_, fun g hg => ?_,
        fun g hg => hi.full g ((hmem g).mpr hg), fun a ha g hg => hi.order a ha g ((hmem g).mpr hg), ?_⟩
      · rw [hback g hg, hi.stays g ((hmem g).mpr hg) hgi]
      · obtain ⟨u, v, hu, hv', hiss⟩ := hi.issued g hg
        exact ⟨u, v, hu, (hback g ((hmem g).mp (hi.sub.subset hg))).trans hv', hiss⟩
      · rw [h.stations q hpL, hi.stations, if_pos rfl]
    · have hqp : q ≠ p := ne_of_mem_of_not_mem hq hpL
      have hread : ∀ g ∈ s.station q.1 q.2, m.uop? g = s.uop? g := fun g hg =>
        hout g fun hgp => hqp (hs.station_unique hg hgp)
      obtain ⟨iq, h1, h2, h3, h4, h5, h6, h7⟩ := h.issued q hq
      rw [hsame q hqp] at h1 h3 h5 h6 h7
      simp only [scanOrder_of hcfg hi.ages, stampReady_of hv hc, eligible_of hv hc hcfg, hcfg] at h1 h2 h3 h5 h6
      have hmemq : ∀ g ∈ iq, g ∈ s.station q.1 q.2 := fun g hg =>
        (scanOrder_perm s _).mem_iff.mp (h1.subset hg)
      refine ⟨iq, h1, h2, fun g hg hgi => ?_, fun g hg => ?_, fun g hg hgi u hu => ?_,
        fun a ha g hg hgi u hu => ?_, h7⟩
      · rw [h3 g hg hgi, hread g hg]
      · obtain ⟨u, v, hu, hv', g1, g2, g3, g4, g5⟩ := h4 g hg
        rw [hread g (hmemq g hg)] at hu
        rw [stampReady_of hv hc] at g1 g5
        rw [eligible_of hv hc hcfg] at g1
        rw [hc] at g4
        exact ⟨u, v, hu, hv', g1, g2, g3, g4, g5⟩
      · exact h5 g hg hgi u ((hread g hg).trans hu)
      · exact h6 a ha g hg hgi u ((hread g hg).trans hu)

theorem forEach_stationsScanned : ∀ (L : List (FuClass × Nat)) {s t : State}, Sound s →
    s.stageActive = true → L.Nodup → (∀ p ∈ L, p ∈ s.cfg.stations) →
    forEach executeStation L s = .next t → StationsScanned L s t
  | [], s, t, _, _, _, _, h => by
    simp only [forEach_nil, Host.Outcome.next.injEq] at h
    subst h
    exact ⟨fun _ _ => rfl, fun _ _ => rfl, fun p hp => by cases hp⟩
  | p :: L, s, t, hs, ha, hn, hl, h => by
    obtain ⟨hpL, hn⟩ := List.nodup_cons.mp hn
    have hperm := scanOrder_perm s (s.station p.1 p.2)
    have hnodup := hperm.nodup_iff.mpr (hs.stationed p (hl p (by simp))).1
    have hmem : ∀ g ∈ s.scanOrder (s.station p.1 p.2), g ∈ s.station p.1 p.2 :=
      fun g hg => hperm.mem_iff.mp hg
    obtain ⟨m, hm, hq, ham, hcfg⟩ := scanStation_moves (s.cfg.port p.1 p.2).width p _ 0 hs ha
      hnodup hmem
    obtain ⟨is, hi⟩ := scanStation_issue p _ _ 0 hs hnodup hmem hm
    rw [forEach_cons, executeStation, hm, andThen_next] at h
    exact (forEach_stationsScanned L (hq.sound hs) ham hn
      (fun q hq => by rw [hcfg]; exact hl q (by simp [hq])) h).cons hs hpL hi

theorem Config.stations_nodup (c : Config) : c.stations.Nodup := by
  unfold Config.stations
  refine List.nodup_flatMap.mpr ⟨fun k _ => ?_, ?_⟩
  · exact (List.nodup_map_iff fun _ _ e => (Prod.mk.inj e).2).mpr List.nodup_range
  · refine List.Pairwise.imp (R := (· ≠ ·)) (fun {a b} hab => ?_) (by decide)
    intro x hx hy
    obtain ⟨_, -, rfl⟩ := List.mem_map.mp hx
    obtain ⟨_, -, he⟩ := List.mem_map.mp hy
    exact hab (Prod.mk.inj he).1.symm

theorem eligible_stampReady {s : State} {u : Uop} : s.eligible (s.stampReady u) = true ↔
    s.sourcesValid u = true ∧ ∃ n ∈ (s.stampReady u).tReady, n + s.cfg.minReadyLat ≤ s.cycle := by
  have hsrc : s.sourcesValid (s.stampReady u) = s.sourcesValid u := by
    unfold State.stampReady; split <;> rfl
  rw [State.eligible, hsrc, Bool.and_eq_true]
  refine and_congr_right fun _ => ?_
  cases (s.stampReady u).tReady <;> simp

/-- The micro-ops that leave a station and those that stay are all of it. -/
theorem StationIssued.length {p : FuClass × Nat} {is : List Handle} {s t : State} (hs : Sound s)
    (hp : p ∈ s.cfg.stations) (h : StationIssued p is s t) :
    (s.station p.1 p.2).length = (t.station p.1 p.2).length + is.length := by
  have hperm := scanOrder_perm s (s.station p.1 p.2)
  have hnd := (hs.stationed p hp).1
  have hin : ((s.station p.1 p.2).filter (fun h => decide (h ∈ is))).Perm is := by
    refine (List.perm_ext_iff_of_nodup (hnd.filter _) (h.sub.nodup (hperm.nodup_iff.mpr hnd))).mpr
      fun g => ?_
    rw [List.mem_filter, decide_eq_true_eq]
    exact ⟨And.right, fun hg => ⟨hperm.mem_iff.mp (h.sub.subset hg), hg⟩⟩
  have hsplit := List.length_eq_length_filter_add (l := s.station p.1 p.2)
    (fun h => decide (h ∈ is))
  rw [hin.length_eq] at hsplit
  rw [h.station, hsplit, Nat.add_comm]
  congr 3
  funext g
  simp

/-- Settles O16: station by station, in the order of the scan. -/
theorem stationsIssueUpToWidth : Obligations.StationsIssueUpToWidth := by
  intro s t hwf ha hstage stamped eligible p hp
  have hs := wellFormed_iff.mp hwf
  rw [executeStage, if_pos ha] at hstage
  obtain ⟨is, h⟩ := (forEach_stationsScanned _ hs ha (Config.stations_nodup _) (fun _ => id) hstage).issued
    p hp
  have helig : ∀ u, eligible u ↔ s.eligible (s.stampReady u) = true := fun u =>
    eligible_stampReady.symm
  have hlen := h.length hs hp
  have hwidth := h.width
  have hmem : ∀ g, g ∈ t.station p.1 p.2 ↔ g ∈ s.station p.1 p.2 ∧ g ∉ is := fun g => by
    rw [h.station, List.mem_filter, decide_eq_true_eq]
  refine ⟨by rw [h.station]; exact List.filter_sublist, by omega, fun g hg => ?_, fun g hg hgt => ?_⟩
  · obtain ⟨hg, hgi⟩ := (hmem g).mp hg
    obtain ⟨-, u, hu, -⟩ := (hs.stationed p hp).2 g hg
    refine ⟨u, hu, by rw [h.stays g hg hgi, hu]; rfl, fun hlt he => ?_⟩
    have := h.full g hg hgi u hu ((helig u).mp he)
    omega
  · have hgi : g ∈ is := by
      by_contra hgi
      exact hgt ((hmem g).mpr ⟨hg, hgi⟩)
    obtain ⟨u, v, hu, hv, hiss⟩ := h.issued g hgi
    refine ⟨u, v, hu, hv, (helig u).mpr hiss.eligible, hiss.state, hiss.executed, hiss.tExec,
      hiss.tReady, fun x hx w hw he => ?_⟩
    obtain ⟨hx, hxi⟩ := (hmem x).mp hx
    exact h.order g hgi x hx hxi w hw ((helig w).mp he)

end Sys2Proof.Machine
end

section
namespace Sys2Proof.Machine

/-! ## The fetch stage (44_cycle.md R222) -/

/-- One pass of fetch, wherever it goes on. -/
structure FetchPass (s x : State) : Prop where
  free : s.uop? s.newSlot = none
  fq : x.fq = s.fq ++ [s.newSlot]
  read : ∀ g, x.uop? g = if g = s.newSlot then some s.fetchedUop else s.uop? g
  predictCalls : x.predictCalls = s.predictCalls + 1
  writes : x = { s with
    arena := x.arena, fq := x.fq, fetchPc := x.fetchPc, pendingTarget := x.pendingTarget
    predictCalls := x.predictCalls }
  sound : Sound x

theorem Sound.fetchPass {s : State} (hs : Sound s) (ha : s.stageActive = true)
    (hroom : s.fq.length < s.cfg.fqN) (pc : Pc) (pending : Option Pc) :
    FetchPass s (s.fetchOne.steer pc pending) := by
  obtain ⟨hlt, hnone⟩ := hs.newSlot_free (stageActive_iff.mp ha).1 hroom
  exact ⟨hnone, rfl, State.uop?_fetchOne hlt pc pending, rfl, rfl, hs.fetch ha hroom pc pending⟩

theorem FetchPass.stageActive {s x : State} (h : FetchPass s x) (ha : s.stageActive = true) :
    x.stageActive = true := by rw [h.writes]; exact ha

theorem fetchLoop_full {s : State} (hfull : s.cfg.fqN ≤ s.fq.length) : ∀ n, fetchLoop n s = s
  | 0 => rfl
  | n + 1 => by rw [fetchLoop, if_pos hfull]

/-- A pass at a delay slot that ends a taken group. -/
theorem fetchLoop_slot {s : State} (hroom : s.fq.length < s.cfg.fqN) {y : Pc}
    (hp : s.pendingTarget = some y) (n : Nat) : fetchLoop (n + 1) s = s.fetchOne.steer y none := by
  rw [fetchLoop, if_neg (Nat.not_le.mpr hroom), hp]

/-- Any other pass, by what fetch predicts. -/
theorem fetchLoop_predicted {s : State} (hroom : s.fq.length < s.cfg.fqN)
    (hp : s.pendingTarget = none) (n : Nat) : fetchLoop (n + 1) s =
      if (Config.preDecode (imem s.cfg.endian s.mem s.fetchPc)).isCti = true ∧
          (s.fetchPrediction (Config.preDecode (imem s.cfg.endian s.mem s.fetchPc))).taken = true then
        if (Config.preDecode (imem s.cfg.endian s.mem s.fetchPc)).hasDs = true then
          fetchLoop n (s.fetchOne.steer s.fetchPc.next
            (some (s.fetchPrediction (Config.preDecode (imem s.cfg.endian s.mem s.fetchPc))).target))
        else s.fetchOne.steer
          (s.fetchPrediction (Config.preDecode (imem s.cfg.endian s.mem s.fetchPc))).target none
      else fetchLoop n (s.fetchOne.steer s.fetchPc.next none) := by
  rw [fetchLoop, if_neg (Nat.not_le.mpr hroom), hp]

/-- A control transfer is predicted unless it is a delay slot. -/
theorem fetchPrediction_cti {s : State} {pd : PreDecoded} (hcti : pd.isCti = true)
    (hp : s.pendingTarget = none) :
    s.fetchPrediction pd = Config.predict s.predictCalls s.fetchPc := by
  simp [State.fetchPrediction, State.consultPredictor, hcti, hp]

/-- Settles O41. -/
theorem fetchFollowsPrediction : Obligations.FetchFollowsPrediction := by
  intro s n hwf ha pd p
  have hs := wellFormed_iff.mp hwf
  refine ⟨by rw [fetchStage, if_pos ha], rfl, fun hfull => fetchLoop_full hfull n, fun hroom => ?_⟩
  have hpass := hs.fetchPass ha hroom
  have facts : ∀ pc pending, s.uop? s.newSlot = none ∧
      (s.fetchOne.steer pc pending).fq = s.fq ++ [s.newSlot] ∧
      (s.fetchOne.steer pc pending).uop? s.newSlot = some s.fetchedUop ∧
      s.fetchedUop.pc = s.fetchPc ∧ sameOtherUops s.newSlot s (s.fetchOne.steer pc pending) ∧
      (s.fetchOne.steer pc pending).mem = s.mem ∧
      (s.fetchOne.steer pc pending).predictCalls = s.predictCalls + 1 ∧
      (s.fetchOne.steer pc pending).wellFormed ∧
      (s.fetchOne.steer pc pending).stageActive = true := fun pc pending =>
    have h := hpass pc pending
    ⟨h.free, h.fq, by rw [h.read, if_pos rfl], rfl, fun g hg => by rw [h.read, if_neg hg], rfl, rfl,
      wellFormed_iff.mpr h.sound, h.stageActive ha⟩
  cases hpt : s.pendingTarget with
  | some y =>
    have hloop := fetchLoop_slot hroom hpt n
    obtain ⟨h1, h2, h3, h4, h5, h6, h7, h8, h9⟩ := facts y none
    exact ⟨_, _, _, h1, h2, h3, h4, h5, h6, h7, h8, h9, rfl, rfl, hloop⟩
  | none =>
    have hloop := fetchLoop_predicted hroom hpt n
    by_cases hcti : pd.isCti = true
    · have hpred := fetchPrediction_cti hcti hpt
      rw [hpred] at hloop
      have htaken : s.fetchedUop.predTaken = p.taken := congrArg Prediction.taken hpred
      have htarget : s.fetchedUop.predTarget = p.target := congrArg Prediction.target hpred
      by_cases ht : p.taken = true
      · rw [if_pos ⟨hcti, ht⟩] at hloop
        by_cases hds : pd.hasDs = true
        · rw [if_pos hds] at hloop
          obtain ⟨h1, h2, h3, h4, h5, h6, h7, h8, h9⟩ := facts s.fetchPc.next (some p.target)
          refine ⟨_, _, _, h1, h2, h3, h4, h5, h6, h7, h8, h9, ?_⟩
          rw [if_pos hcti, if_pos ht, if_pos hds]
          exact ⟨htaken, htarget, rfl, rfl, hloop⟩
        · rw [if_neg hds] at hloop
          obtain ⟨h1, h2, h3, h4, h5, h6, h7, h8, h9⟩ := facts p.target none
          refine ⟨_, _, _, h1, h2, h3, h4, h5, h6, h7, h8, h9, ?_⟩
          rw [if_pos hcti, if_pos ht, if_neg hds]
          exact ⟨htaken, htarget, rfl, rfl, hloop⟩
      · rw [if_neg fun h => ht h.2] at hloop
        obtain ⟨h1, h2, h3, h4, h5, h6, h7, h8, h9⟩ := facts s.fetchPc.next none
        refine ⟨_, _, _, h1, h2, h3, h4, h5, h6, h7, h8, h9, ?_⟩
        rw [if_pos hcti, if_neg ht]
        exact ⟨htaken, htarget, rfl, rfl, hloop⟩
    · rw [if_neg fun h => hcti h.1] at hloop
      obtain ⟨h1, h2, h3, h4, h5, h6, h7, h8, h9⟩ := facts s.fetchPc.next none
      refine ⟨_, _, _, h1, h2, h3, h4, h5, h6, h7, h8, h9, ?_⟩
      rw [if_neg hcti]
      exact ⟨rfl, rfl, hloop⟩

/-- A control transfer predicted taken. -/
def Uop.fetchedTaken (u : Uop) : Prop :=
  (Config.preDecode u.insn).isCti = true ∧ u.predTaken = true

/-- The length of the fetch that ends with the micro-op `u` at place `i` and its delay slot. -/
def Uop.groupEnd (u : Uop) (i : Nat) : Nat := i + 1 + if u.hasDs then 1 else 0

/-- What up to `n` passes of fetch append to the fetch queue. -/
structure Fetched (n : Nat) (s t : State) (new : List Handle) : Prop where
  writes : t = { s with
    arena := t.arena, fq := t.fq, fetchPc := t.fetchPc, pendingTarget := t.pendingTarget
    predictCalls := t.predictCalls }
  fq : t.fq = s.fq ++ new
  width : new.length ≤ n
  bound : s.fq.length ≤ s.cfg.fqN → t.fq.length ≤ s.cfg.fqN
  nonempty : 0 < n → s.fq.length < s.cfg.fqN → new ≠ []
  fresh : ∀ h ∈ new, s.uop? h = none
  others : ∀ h, h ∉ new → t.uop? h = s.uop? h
  record : ∀ i h, new[i]? = some h → ∃ u ∈ t.uop? h, u.state = .fetched ∧
    u.tFetch = some s.cycle ∧ u.insn = imem s.cfg.endian s.mem u.pc ∧
    u.hasDs = (Config.preDecode u.insn).hasDs ∧ u.pc = s.fetchPc + BitVec.ofNat 32 (4 * i) ∧
    (u.fetchedTaken → new.length ≤ u.groupEnd i)
  ends : new.length < n → t.fq.length < s.cfg.fqN → s.pendingTarget ≠ none ∨
    ∃ i h, new[i]? = some h ∧ ∃ u ∈ t.uop? h, u.fetchedTaken ∧ new.length = u.groupEnd i
  slot : ∀ x ∈ s.pendingTarget, 0 < n → s.fq.length < s.cfg.fqN →
    new.length = 1 ∧ t.fetchPc = x ∧ t.pendingTarget = none

/-- No pass: no bandwidth or no room. -/
theorem Fetched.nil {n : Nat} {s : State} (h : n = 0 ∨ s.cfg.fqN ≤ s.fq.length) :
    Fetched n s s [] := by
  refine ⟨rfl, (List.append_nil _).symm, Nat.zero_le _, id, fun h1 h2 => by omega,
    fun h hh => absurd hh List.not_mem_nil, fun _ _ => rfl,
    fun i h hh => absurd hh (by simp), fun h1 h2 => ?_, fun x _ h1 h2 => ?_⟩
  · rw [List.length_nil] at h1
    omega
  · omega

/-- The record of the first pass, when it is the last or the passes after it are at most `m`. -/
theorem fetchedUop_record (s : State) (i : Nat) (hi : i = 0) : s.fetchedUop.state = .fetched ∧
    s.fetchedUop.tFetch = some s.cycle ∧
    s.fetchedUop.insn = imem s.cfg.endian s.mem s.fetchedUop.pc ∧
    s.fetchedUop.hasDs = (Config.preDecode s.fetchedUop.insn).hasDs ∧
    s.fetchedUop.pc = s.fetchPc + BitVec.ofNat 32 (4 * i) := by
  subst hi
  exact ⟨rfl, rfl, rfl, rfl, (BitVec.add_zero _).symm⟩

/-- A pass that ends the cycle's fetch: after a delay slot of a taken transfer, or after a taken
transfer that has none. -/
theorem Fetched.last {n : Nat} {s x : State} (h : FetchPass s x) (hroom : s.fq.length < s.cfg.fqN)
    (hslot : ∀ y ∈ s.pendingTarget, x.fetchPc = y ∧ x.pendingTarget = none)
    (hends : s.pendingTarget ≠ none ∨ s.fetchedUop.fetchedTaken ∧ s.fetchedUop.hasDs = false) :
    Fetched (n + 1) s x [s.newSlot] := by
  have hread : x.uop? s.newSlot = some s.fetchedUop := by rw [h.read, if_pos rfl]
  have hlen : x.fq.length = s.fq.length + 1 := by rw [h.fq, List.length_append]; rfl
  refine ⟨h.writes, h.fq, by simp, fun _ => by omega, fun _ _ => by simp, fun g hg => ?_,
    fun g hg => ?_, fun i g hg => ?_, fun _ _ => ?_, fun y hy _ _ => ⟨rfl, hslot y hy⟩⟩
  · rw [List.mem_singleton.mp hg]; exact h.free
  · rw [h.read, if_neg (by simpa using hg)]
  · cases i with
    | succ i => simp at hg
    | zero =>
      simp only [List.getElem?_cons_zero, Option.some.injEq] at hg
      subst hg
      obtain ⟨h1, h2, h3, h4, h5⟩ := fetchedUop_record s 0 rfl
      exact ⟨_, hread, h1, h2, h3, h4, h5, fun _ => by simp [Uop.groupEnd]⟩
  · refine hends.imp_right fun ⟨ht, hds⟩ => ⟨0, s.newSlot, rfl, _, hread, ht, ?_⟩
    simp [Uop.groupEnd, hds]

/-- A pass after which fetch goes on at the next word. -/
theorem Fetched.cons {n : Nat} {s x t : State} {new : List Handle} (h : FetchPass s x)
    (hroom : s.fq.length < s.cfg.fqN) (hnone : s.pendingTarget = none)
    (hpc : x.fetchPc = s.fetchPc.next)
    (hcase : s.fetchedUop.fetchedTaken ∧ s.fetchedUop.hasDs = true ∧ x.pendingTarget ≠ none ∨
      ¬s.fetchedUop.fetchedTaken ∧ x.pendingTarget = none)
    (ht : Fetched n x t new) : Fetched (n + 1) s t (s.newSlot :: new) := by
  have hcfg : x.cfg = s.cfg := by rw [h.writes]
  have hcycle : x.cycle = s.cycle := by rw [h.writes]
  have hmem : x.mem = s.mem := by rw [h.writes]
  have hxh : x.uop? s.newSlot = some s.fetchedUop := by rw [h.read, if_pos rfl]
  have hnew : s.newSlot ∉ new := fun hm => by
    rw [ht.fresh _ hm] at hxh; cases hxh
  have hread : t.uop? s.newSlot = some s.fetchedUop := (ht.others _ hnew).trans hxh
  have hlen : x.fq.length = s.fq.length + 1 := by rw [h.fq, List.length_append]; rfl
  have hslot : s.fetchedUop.fetchedTaken → new.length ≤ 1 ∧ s.fetchedUop.hasDs = true ∧
      (new.length < n → t.fq.length < s.cfg.fqN → new.length = 1) := fun htk => by
    obtain ⟨-, hds, hpend⟩ | ⟨hnt, -⟩ := hcase
    · obtain ⟨y, hy⟩ := Option.ne_none_iff_exists'.mp hpend
      have hs1 := ht.slot y hy
      have hfq := congrArg List.length ht.fq
      have hb := ht.width
      rw [List.length_append] at hfq
      rw [hcfg] at hs1
      refine ⟨?_, hds, fun h1 h2 => (hs1 (by omega) (by omega)).1⟩
      by_cases hn : 0 < n
      · by_cases hr : x.fq.length < s.cfg.fqN
        · exact (hs1 hn hr).1.le
        · have := ht.bound (by rw [hcfg]; omega)
          rw [hcfg] at this
          omega
      · omega
    · exact absurd htk hnt
  refine ⟨by rw [ht.writes, h.writes], by rw [ht.fq, h.fq, List.append_assoc]; rfl,
    by simpa using ht.width, fun _ => ?_, fun _ _ => by simp, fun g hg => ?_, fun g hg => ?_,
    fun i g hg => ?_, fun h1 h2 => .inr ?_, fun y hy => ?_⟩
  · have := ht.bound (by rw [hcfg]; omega)
    rwa [hcfg] at this
  · obtain rfl | hg := List.mem_cons.mp hg
    · exact h.free
    · have hgn := ht.fresh g hg
      rwa [h.read, if_neg (ne_of_mem_of_not_mem hg hnew)] at hgn
  · rw [List.mem_cons, not_or] at hg
    rw [ht.others g hg.2, h.read, if_neg hg.1]
  · cases i with
    | zero =>
      simp only [List.getElem?_cons_zero, Option.some.injEq] at hg
      subst hg
      obtain ⟨h1, h2, h3, h4, h5⟩ := fetchedUop_record s 0 rfl
      refine ⟨_, hread, h1, h2, h3, h4, h5, fun htk => ?_⟩
      obtain ⟨hle, hds, -⟩ := hslot htk
      simp only [Uop.groupEnd, hds, if_true, List.length_cons]
      omega
    | succ i =>
      obtain ⟨u, hu, h1, h2, h3, h4, h5, h6⟩ := ht.record i g (by simpa using hg)
      rw [hcycle] at h2
      rw [hcfg, hmem] at h3
      refine ⟨u, hu, h1, h2, h3, h4, ?_, fun htk => ?_⟩
      · rw [h5, hpc, Nat.mul_add, Nat.add_comm, BitVec.ofNat_add, ← BitVec.add_assoc]
        rfl
      · have := h6 htk
        simp only [Uop.groupEnd, List.length_cons] at this ⊢
        omega
  · rw [List.length_cons] at h1
    have h1 : new.length < n := by omega
    by_cases htk : s.fetchedUop.fetchedTaken
    · obtain ⟨-, hds, hone⟩ := hslot htk
      refine ⟨0, s.newSlot, rfl, _, hread, htk, ?_⟩
      rw [List.length_cons, hone h1 h2]
      simp [Uop.groupEnd, hds]
    · have hpn : x.pendingTarget = none := by
        obtain ⟨htk', -⟩ | ⟨-, hpn⟩ := hcase
        · exact absurd htk' htk
        · exact hpn
      obtain hp | ⟨i, g, hg, u, hu, ht', hl⟩ := ht.ends h1 (by rw [hcfg]; exact h2)
      · exact absurd hpn hp
      · refine ⟨i + 1, g, by simpa using hg, u, hu, ht', ?_⟩
        rw [List.length_cons, hl]
        simp only [Uop.groupEnd]
        omega
  · rw [hnone] at hy; cases hy

theorem fetchLoop_fetched : ∀ (n : Nat) {s : State}, Sound s → s.stageActive = true →
    ∃ new, Fetched n s (fetchLoop n s) new
  | 0, s, _, _ => ⟨[], .nil (.inl rfl)⟩
  | n + 1, s, hs, ha => by
    by_cases hroom : s.fq.length < s.cfg.fqN
    · have hpass := hs.fetchPass ha hroom
      cases hpt : s.pendingTarget with
      | some y =>
        rw [fetchLoop_slot hroom hpt]
        refine ⟨_, .last (hpass y none) hroom (fun z hz => ?_) (.inl (by simp [hpt]))⟩
        rw [hpt] at hz
        cases hz
        exact ⟨rfl, rfl⟩
      | none =>
        rw [fetchLoop_predicted hroom hpt]
        split
        · rename_i htk
          split
          · rename_i hds
            have h1 := hpass s.fetchPc.next
              (some (s.fetchPrediction (Config.preDecode (imem s.cfg.endian s.mem s.fetchPc))).target)
            obtain ⟨new, hnew⟩ := fetchLoop_fetched n h1.sound (h1.stageActive ha)
            exact ⟨_, .cons h1 hroom hpt rfl (.inl ⟨htk, hds, by simp⟩) hnew⟩
          · rename_i hds
            refine ⟨_, .last (hpass _ none) hroom (fun z hz => ?_) (.inr ⟨htk, ?_⟩)⟩
            · rw [hpt] at hz; cases hz
            · exact Bool.not_eq_true _ ▸ hds
        · rename_i htk
          have h1 := hpass s.fetchPc.next none
          obtain ⟨new, hnew⟩ := fetchLoop_fetched n h1.sound (h1.stageActive ha)
          exact ⟨_, .cons h1 hroom hpt rfl (.inr ⟨htk, rfl⟩) hnew⟩
    · rw [fetchLoop_full (by omega)]
      exact ⟨[], .nil (.inr (by omega))⟩

/-- Settles O40: pass by pass. -/
theorem fetchFillsQueue : Obligations.FetchFillsQueue := by
  intro s hwf ha t taken group
  have hs := wellFormed_iff.mp hwf
  obtain ⟨new, h⟩ := fetchLoop_fetched s.cfg.fetchW hs ha
  have ht : t = fetchLoop s.cfg.fetchW s := if_pos ha
  rw [← ht] at h
  have hw : 0 < s.cfg.fetchW := (admitted_iff.mp hs.admitted).fetchW
  have hwr := h.writes
  refine ⟨new, h.fq, h.width, h.bound hs.fqLe, h.nonempty hw, fun g hg => ⟨h.fresh g hg, ?_⟩, h.others,
    fun i g hg => ?_, h.ends, fun x hx hroom => h.slot x hx hw hroom, ?_⟩
  · obtain ⟨i, hi⟩ := List.mem_iff_getElem?.mp hg
    obtain ⟨u, hu, h1, h2, h3, h4, -⟩ := h.record i g hi
    exact ⟨u, hu, h1, h2, h3, h4⟩
  · obtain ⟨u, hu, -, -, -, -, h5, h6⟩ := h.record i g hg
    exact ⟨u, hu, h5, h6⟩
  · rw [hwr]
    exact ⟨⟨rfl, rfl⟩, rfl, rfl, fun _ => rfl, ⟨rfl, rfl, rfl, rfl⟩, ⟨rfl, rfl, rfl, rfl⟩, rfl,
      ⟨rfl, rfl, rfl, rfl, rfl⟩, ⟨rfl, rfl, rfl, rfl, rfl⟩, rfl⟩

end Sys2Proof.Machine
end

section
namespace Sys2Proof.Machine

/-! ## Undoing destination slots, oldest first

`unmap ds rat` is the alias table before the slots `ds`, listed oldest first, were renamed.  With it
the previous mapping a state asks for at any place of the program is an entry of a table. -/

/-- The alias tables with these slots undone, the youngest, last in the list, first. -/
def unmap (ds : List DstSlot) (rat : List (List Nat)) : List (List Nat) :=
  ds.foldr (fun d r => set2 r d.cls d.arch d.prev) rat

@[simp] theorem unmap_nil (rat : List (List Nat)) : unmap [] rat = rat := rfl
@[simp] theorem unmap_cons (d : DstSlot) (ds : List DstSlot) (rat : List (List Nat)) :
    unmap (d :: ds) rat = set2 (unmap ds rat) d.cls d.arch d.prev := rfl
theorem unmap_append (xs ys : List DstSlot) (rat : List (List Nat)) :
    unmap (xs ++ ys) rat = unmap xs (unmap ys rat) := List.foldr_append

theorem unmap_shape : ∀ (ds : List DstSlot) (rat : List (List Nat)), sameShape (unmap ds rat) rat
  | [], rat => .refl rat
  | _ :: ds, rat => (sameShape_set2 _ _ _ _).trans (unmap_shape ds rat)

theorem get2_unmap_cons {d : DstSlot} {rat : List (List Nat)} (hd : hasEntry rat d.cls d.arch)
    (ds : List DstSlot) (c a : Nat) : get2 (unmap (d :: ds) rat) c a 0 =
      if c = d.cls ∧ a = d.arch then d.prev else get2 (unmap ds rat) c a 0 := by
  rw [unmap_cons, get2_set2, ite_hasEntry ((hasEntry_of (unmap_shape ds rat)).mpr hd)]

/-- The slots, listed oldest first, can be undone one after another. -/
abbrev undoable (ds : List DstSlot) (rat : List (List Nat)) : Prop := undoes ds.reverse rat

theorem undoes_append : ∀ (xs ys : List DstSlot) (rat : List (List Nat)),
    undoes (xs ++ ys) rat ↔ undoes xs rat ∧ undoes ys (unmap xs.reverse rat)
  | [], ys, rat => ⟨fun h => ⟨trivial, h⟩, And.right⟩
  | x :: xs, ys, rat => by
    rw [List.cons_append, undoes, undoes, undoes_append xs ys, and_assoc, List.reverse_cons,
      unmap_append]
    rfl

theorem undoable_append (xs ys : List DstSlot) (rat : List (List Nat)) :
    undoable (xs ++ ys) rat ↔ undoable ys rat ∧ undoable xs (unmap ys rat) := by
  rw [undoable, List.reverse_append, undoes_append, List.reverse_reverse]

theorem undoable_cons (d : DstSlot) (ds : List DstSlot) (rat : List (List Nat)) :
    undoable (d :: ds) rat ↔ undoable ds rat ∧ get2 (unmap ds rat) d.cls d.arch 0 = d.fresh := by
  rw [← List.singleton_append, undoable_append]
  exact and_congr_right fun _ => and_iff_left trivial

/-! ### Counting what references a register (10_state.md R40) -/

/-- How many of these slots have register `p` of class `c` as their previous mapping. -/
def prevCount (ds : List DstSlot) (c p : Nat) : Nat :=
  ds.countP fun d => decide (d.cls = c ∧ d.prev = p)

/-- How many of these slots were given register `p` of class `c`. -/
def freshCount (ds : List DstSlot) (c p : Nat) : Nat :=
  ds.countP fun d => decide (d.cls = c ∧ d.fresh = p)

theorem prevCount_cons (d : DstSlot) (ds : List DstSlot) (c p : Nat) :
    prevCount (d :: ds) c p = prevCount ds c p + if d.cls = c ∧ d.prev = p then 1 else 0 := by
  simp [prevCount, List.countP_cons]

theorem freshCount_cons (d : DstSlot) (ds : List DstSlot) (c p : Nat) :
    freshCount (d :: ds) c p = freshCount ds c p + if d.cls = c ∧ d.fresh = p then 1 else 0 := by
  simp [freshCount, List.countP_cons]

theorem prevCount_append (xs ys : List DstSlot) (c p : Nat) :
    prevCount (xs ++ ys) c p = prevCount xs c p + prevCount ys c p := List.countP_append

theorem references_eq (s : State) (c p : Nat) :
    s.references c p = (s.rat.getD c []).count p + prevCount s.robDests c p := rfl

theorem count_set_add {l : List Nat} {i : Nat} (hi : i < l.length) (v p : Nat) :
    (l.set i v).count p + (if l.getD i 0 = p then 1 else 0) = l.count p + if v = p then 1 else 0 := by
  rw [List.count_set hi, List.getD_eq_getElem _ _ hi]
  have hpos : l[i] = p → 1 ≤ l.count p := fun h => List.count_pos_iff.mpr (h ▸ List.getElem_mem hi)
  simp only [beq_iff_eq]
  split
  · have := hpos (by assumption); omega
  · omega

theorem getD_set2 {l : List (List Nat)} {c : Nat} (hc : c < l.length) (i v c' : Nat) :
    (set2 l c i v).getD c' [] = if c' = c then (l.getD c []).set i v else l.getD c' [] := by
  unfold set2
  by_cases h : c' = c
  · subst h; simp [List.getD_eq_getElem?_getD, hc]
  · have h' : ¬c = c' := fun e => h e.symm
    simp [List.getD_eq_getElem?_getD, h, h']

/-- Undoing slots turns a register's role: where a slot's previous mapping referenced it, the table
does, and where the table did, a slot was given it. -/
theorem count_unmap {rat : List (List Nat)} (c p : Nat) : ∀ {ds : List DstSlot},
    (∀ d ∈ ds, hasEntry rat d.cls d.arch) → undoable ds rat →
    (rat.getD c []).count p + prevCount ds c p =
      ((unmap ds rat).getD c []).count p + freshCount ds c p
  | [], _, _ => rfl
  | d :: ds, hd, hu => by
    obtain ⟨hu, hfresh⟩ := (undoable_cons d ds rat).mp hu
    have ih := count_unmap c p (fun e he => hd e (by simp [he])) hu
    obtain ⟨hc, ha⟩ := (hasEntry_of (unmap_shape ds rat)).mpr (hd d (by simp))
    rw [prevCount_cons, freshCount_cons, unmap_cons, getD_set2 hc]
    by_cases hcd : c = d.cls
    · subst hcd
      have hset := count_set_add ha d.prev p
      rw [show ((unmap ds rat).getD d.cls []).getD d.arch 0 = d.fresh from hfresh] at hset
      simp only [true_and, if_true]
      omega
    · have hcd' : ¬d.cls = c := fun e => hcd e.symm
      simpa [hcd, hcd'] using ih

/-! ### The mappings of the oldest writers (10_state.md R44) -/

theorem get2_unmap_append {rat : List (List Nat)} (rest : List DstSlot) (c a : Nat) :
    ∀ (ds : List DstSlot), (∀ d ∈ ds, hasEntry rat d.cls d.arch) →
    get2 (unmap (ds ++ rest) rat) c a 0 =
      ((ds.find? fun d => decide (d.cls = c ∧ d.arch = a)).map DstSlot.prev).getD
        (get2 (unmap rest rat) c a 0)
  | [], _ => rfl
  | d :: ds, h => by
    rw [List.cons_append, get2_unmap_cons (h d (by simp)), List.find?_cons]
    by_cases hd : c = d.cls ∧ a = d.arch
    · rw [if_pos hd, decide_eq_true ⟨hd.1.symm, hd.2.symm⟩]
      rfl
    · rw [if_neg hd, decide_eq_false fun e => hd ⟨e.1.symm, e.2.symm⟩]
      exact get2_unmap_append rest c a ds fun e he => h e (by simp [he])

/-- The mapping the oldest writer among these records replaced, or the present one. -/
theorem oldestPrev_eq {rat : List (List Nat)} (c a : Nat) : ∀ (us : List Uop),
    (∀ d ∈ us.flatMap Uop.dests, hasEntry rat d.cls d.arch) →
    (oldestPrev c a us).getD (get2 rat c a 0) = get2 (unmap (us.flatMap Uop.dests) rat) c a 0
  | [], _ => rfl
  | u :: us, h => by
    have ih := oldestPrev_eq c a us fun d hd => h d (by simp [hd])
    rw [List.flatMap_cons, get2_unmap_append _ _ _ _ fun d hd => h d (by simp [hd]), oldestPrev]
    cases u.dests.find? (fun d => decide (d.cls = c ∧ d.arch = a)) with
    | some d => rfl
    | none => exact ih

/-! ## The rename invariants, by name (10_state.md R39, R40) -/

/-- `State.renameOk` with a name for each part. -/
structure Renaming (s : State) : Prop where
  sound : Sound s
  shaped : s.renameShaped
  owned : s.owned
  undoable : Machine.undoable s.robDests s.rat
  inRange : ∀ d ∈ s.robDests, d.inRange s.cfg
  operands : ∀ h ∈ s.dq, ∀ u ∈ s.uop? h, u.operands.wellFormed s.cfg = true

theorem renameOk_iff {s : State} : s.renameOk ↔ Renaming s :=
  ⟨fun ⟨h1, h2, h3, h4, h5, h6⟩ => ⟨wellFormed_iff.mp h1, h2, h3, h4, h5, h6⟩,
    fun ⟨h1, h2, h3, h4, h5, h6⟩ => ⟨wellFormed_iff.mpr h1, h2, h3, h4, h5, h6⟩⟩

theorem Renaming.entries {s : State} (h : Renaming s) :
    ∀ d ∈ s.robDests, hasEntry s.rat d.cls d.arch :=
  fun d hd => DstSlot.hasEntry_rat h.shaped (h.inRange d hd)

/-- The alias tables at the place of `rob[j]`, before it was renamed. -/
def State.tagMap (s : State) (j : Nat) : List (List Nat) :=
  unmap ((s.program.drop j).flatMap Uop.dests) s.rat

theorem State.robDests_split (s : State) (j : Nat) : s.robDests =
    (s.program.take j).flatMap Uop.dests ++ (s.program.drop j).flatMap Uop.dests := by
  rw [State.robDests, ← List.flatMap_append, List.take_append_drop]

theorem Renaming.tagBefore {s : State} (h : Renaming s) (j c a : Nat) :
    s.tagBefore j c a = get2 (s.tagMap j) c a 0 :=
  oldestPrev_eq c a _ fun d hd => h.entries d (by rw [s.robDests_split j]; simp [hd])

theorem State.tagBefore_zero (s : State) (c a : Nat) : s.tagBefore 0 c a = s.committedTag c a := rfl

theorem Renaming.committedTag {s : State} (h : Renaming s) (c a : Nat) :
    s.committedTag c a = get2 (unmap s.robDests s.rat) c a 0 := h.tagBefore 0 c a

/-- What references a register, seen from the place of `rob[j]`. -/
theorem Renaming.references_at {s : State} (h : Renaming s) (j c p : Nat) : s.references c p =
    ((s.tagMap j).getD c []).count p + freshCount ((s.program.drop j).flatMap Uop.dests) c p +
      prevCount ((s.program.take j).flatMap Uop.dests) c p := by
  have hund := h.undoable
  rw [s.robDests_split j, undoable_append] at hund
  have hcount := count_unmap c p (fun d hd => h.entries d (by rw [s.robDests_split j]; simp [hd]))
    hund.1
  rw [references_eq, s.robDests_split j, prevCount_append, State.tagMap]
  omega

/-- Every mapping of the tables with slots of the ROB undone is a register of its class. -/
theorem unmap_lt {s : State} (hs : s.renameShaped) {c a : Nat} (hc : c < s.cfg.classes.length)
    (ha : a < s.cfg.na c) : ∀ {ds : List DstSlot}, (∀ d ∈ ds, d.inRange s.cfg) →
    get2 (unmap ds s.rat) c a 0 < s.cfg.np c
  | [], _ => by
    obtain ⟨-, -, -, -, h5⟩ := hs
    obtain ⟨-, -, -, -, hlt⟩ := h5 c hc
    exact hlt a ha
  | d :: ds, h => by
    rw [get2_unmap_cons (DstSlot.hasEntry_rat hs (h d (by simp)))]
    split
    · rename_i he
      obtain ⟨-, -, -, hprev⟩ := h d (by simp)
      rw [he.1]; exact hprev
    · exact unmap_lt hs hc ha fun e he => h e (by simp [he])

theorem Renaming.references_le_one {s : State} (h : Renaming s) {c p : Nat}
    (hc : c < s.cfg.classes.length) (hp : p < s.cfg.np c) : s.references c p ≤ 1 := by
  rw [h.owned c hc p hp]; split <;> omega

theorem Renaming.busy {s : State} (h : Renaming s) {c p : Nat} (hc : c < s.cfg.classes.length)
    (hp : p < s.cfg.np c) (href : 1 ≤ s.references c p) : s.freeOf c p = false := by
  have := h.owned c hc p hp
  cases hf : s.freeOf c p
  · rfl
  · rw [hf] at this; simp at this; omega

theorem one_le_freshCount {ds : List DstSlot} {d : DstSlot} (hd : d ∈ ds) :
    1 ≤ freshCount ds d.cls d.fresh :=
  List.countP_pos_iff.mpr ⟨d, hd, by simp⟩

theorem one_le_prevCount {ds : List DstSlot} {d : DstSlot} (hd : d ∈ ds) :
    1 ≤ prevCount ds d.cls d.prev :=
  List.countP_pos_iff.mpr ⟨d, hd, by simp⟩

/-- Distinct slots of the ROB were given distinct registers. -/
theorem Renaming.freshNodup {s : State} (h : Renaming s) :
    (s.robDests.map fun d => (d.cls, d.fresh)).Nodup := by
  rw [List.nodup_iff_count_le_one]
  rintro ⟨c, p⟩
  have hcount : (s.robDests.map fun d => (d.cls, d.fresh)).count (c, p) = freshCount s.robDests c p := by
    rw [List.count, List.countP_map]
    refine List.countP_congr fun d _ => ?_
    simp
  rw [hcount]
  by_cases hex : ∃ d ∈ s.robDests, d.cls = c ∧ d.fresh = p
  · obtain ⟨d, hd, rfl, rfl⟩ := hex
    obtain ⟨hr, -, hf, -⟩ := h.inRange d hd
    have hcls : d.cls < s.cfg.classes.length := (RegRef.inRange_iff.mp hr).1
    have hle := h.references_le_one hcls hf
    have hat := h.references_at 0 d.cls d.fresh
    rw [List.drop_zero] at hat
    have : freshCount (s.program.flatMap Uop.dests) d.cls d.fresh =
      freshCount s.robDests d.cls d.fresh := rfl
    omega
  · have : freshCount s.robDests c p = 0 := by
      rw [freshCount, List.countP_eq_zero]
      exact fun d hd he => hex ⟨d, hd, by simpa using he⟩
    omega

/-- A register mapped at some place is not free, and was not given to a slot from there on. -/
theorem Renaming.mapped_at {s : State} (h : Renaming s) {j c p : Nat}
    (hc : c < s.cfg.classes.length) (hp : p < s.cfg.np c)
    (hm : 1 ≤ ((s.tagMap j).getD c []).count p) : s.freeOf c p = false ∧
    ∀ d ∈ (s.program.drop j).flatMap Uop.dests, ¬(d.cls = c ∧ d.fresh = p) := by
  have hat := h.references_at j c p
  have hle := h.references_le_one hc hp
  refine ⟨h.busy hc hp (by omega), ?_⟩
  rintro d hd ⟨rfl, rfl⟩
  have := one_le_freshCount hd
  omega

/-- The mapping of a register at some place is a register that is not free, nor given to a slot from
there on. -/
theorem Renaming.tag {s : State} (h : Renaming s) (j : Nat) {c a : Nat}
    (hc : c < s.cfg.classes.length) (ha : a < s.cfg.na c) :
    get2 (s.tagMap j) c a 0 < s.cfg.np c ∧ s.freeOf c (get2 (s.tagMap j) c a 0) = false ∧
    ∀ d ∈ (s.program.drop j).flatMap Uop.dests,
      ¬(d.cls = c ∧ d.fresh = get2 (s.tagMap j) c a 0) := by
  have hlt : get2 (s.tagMap j) c a 0 < s.cfg.np c := unmap_lt h.shaped hc ha fun d hd =>
    h.inRange d (by rw [s.robDests_split j]; simp [hd])
  have hentry : hasEntry (s.tagMap j) c a := (hasEntry_of (unmap_shape _ _)).mpr (by
    obtain ⟨h1, -, -, -, h5⟩ := h.shaped
    exact ⟨h1 ▸ hc, by rw [(h5 c hc).1]; exact ha⟩)
  have hm : 1 ≤ ((s.tagMap j).getD c []).count (get2 (s.tagMap j) c a 0) := by
    refine List.count_pos_iff.mpr ?_
    rw [get2, List.getD_eq_getElem _ _ hentry.2]
    exact List.getElem_mem _
  exact ⟨hlt, h.mapped_at hc hlt hm⟩

end Sys2Proof.Machine
end

section
namespace Sys2Proof.Machine

/-! ## What a move makes of the program and the rename arrays -/

/-- A record with everything left out that a stage after allocate writes. -/
def Uop.core (u : Uop) : Uop :=
  { u with
    tReady := none, tExec := none, tDue := none, tComplete := none, tRetire := none
    executed := false, complete := false, mispredict := false, loadViolation := false
    redirectPc := 0, unmodelled := false, maddr := 0, msize := .b1, mdata := 0, station := none
    state := .fetched }

@[simp] theorem core_dst (u : Uop) : u.core.dst = u.dst := rfl
@[simp] theorem core_view (u : Uop) : u.core.view = u.view := rfl

theorem core_stampReady (s : State) (u : Uop) : (s.stampReady u).core = u.core := by
  unfold State.stampReady; split <;> rfl

theorem core_executedAs (i : Instr) (u : Uop) (r : ExecResult) (now : Nat) :
    (u.executedAs (noteOf i) r now).core = u.core := by
  have hnote : ∀ v : Uop, (noteOf i r v).core = v.core := fun v => by cases i <;> rfl
  exact hnote (u.issued now)

/-- The program is the same but for what the stages after allocate write, and the maps are. -/
structure SameRename (s t : State) : Prop where
  cfg : t.cfg = s.cfg
  rat : t.rat = s.rat
  free : t.free = s.free
  cores : t.program.map Uop.core = s.program.map Uop.core

/-- What depends on the core of a record alone is the same over the program. -/
theorem map_of_cores {α : Type} {us vs : List Uop} (h : us.map Uop.core = vs.map Uop.core)
    {f : Uop → α} (hf : ∀ u, f u.core = f u) : us.map f = vs.map f := by
  have := congrArg (List.map f) h
  rwa [List.map_map, List.map_map, show f ∘ Uop.core = f from funext hf] at this

theorem flatMap_dests_of {us vs : List Uop} (h : us.map Uop.dst = vs.map Uop.dst) :
    us.flatMap Uop.dests = vs.flatMap Uop.dests := by
  have := congrArg (List.flatMap presentSlots) h
  rwa [List.flatMap_map, List.flatMap_map] at this

/-- A record of the ROB is replaced by one with the same core. -/
theorem cores_of_read {s t : State} {h : Handle} {u v : Uop} (hl : t.robList = s.robList)
    (hu : s.uop? h = some u) (hread : ∀ g, t.uop? g = if g = h then some v else s.uop? g)
    (hc : v.core = u.core) : t.program.map Uop.core = s.program.map Uop.core := by
  refine State.map_program_of hl fun g _ => ?_
  rw [hread]
  by_cases hg : g = h
  · subst hg; simp [hu, hc]
  · rw [if_neg hg]

/-- Records outside the ROB do not matter. -/
theorem cores_of_rob {s t : State} (hl : t.robList = s.robList)
    (hread : ∀ g ∈ s.robList, t.uop? g = s.uop? g) :
    t.program.map Uop.core = s.program.map Uop.core :=
  State.map_program_of hl fun g hg => by rw [hread g hg]

theorem sameRename_execute {s : State} {h : Handle} {u : Uop} (hu : s.uop? h = some u) (i : Instr) :
    SameRename s (s.execute h u i) := by
  have hc := cores_of_read (t := s.execute h u i) (by rw [execute_eq]; rfl) hu
    (State.uop?_execute hu i) (core_executedAs _ _ _ _)
  rw [execute_eq] at hc ⊢
  exact ⟨rfl, rfl, rfl, hc⟩

theorem sameRename_complete {s : State} {h : Handle} {u : Uop} (hu : s.uop? h = some u) (now : Nat) :
    SameRename s ((publishDests s u.dst).setUop h (u.completedAt now)) := by
  refine ⟨by simp, by simp, by simp, cores_of_read ?_ hu (completed_uop? hu _) rfl⟩
  rw [publishDests_eq]; rfl

theorem Entered.sameRename {kind : ExcKind} {carrier target : Pc} {s t : State} (hs : Sound s)
    (h : Entered kind carrier target s t) : SameRename s t := by
  refine ⟨by rw [h.writes], by rw [h.writes], by rw [h.writes], ?_⟩
  refine State.map_program_of h.robList fun g hg => ?_
  rw [h.readRob hs hg, Option.map_map]; rfl

theorem sameRename_stamp {s : State} {h : Handle} {u : Uop} (hu : s.uop? h = some u) :
    SameRename s (s.setUop h (s.stampReady u)) := by
  refine ⟨rfl, rfl, rfl, cores_of_read rfl hu (fun g => ?_) (core_stampReady s u)⟩
  rw [State.uop?_setUop]; simp [State.lt_of_uop? hu]

/-- Reading a record while the head of the fetch queue moves to the decode queue. -/
theorem State.uop?_decodeMove {s : State} {h : Handle} {u : Uop} (hu : s.uop? h = some u) (v : Uop)
    (g : Handle) : ((s.setUop h v).moveToDq h).uop? g = if g = h then some v else s.uop? g := by
  show (s.setUop h v).uop? g = _
  rw [State.uop?_setUop]; simp [State.lt_of_uop? hu]

theorem sameRename_decode {s : State} (hs : Sound s) {h : Handle} {rest : List Handle} {u : Uop}
    (hq : s.fq = h :: rest) (hu : s.uop? h = some u) (v : Uop) :
    SameRename s ((s.setUop h v).moveToDq h) := by
  refine ⟨rfl, rfl, rfl, cores_of_rob rfl fun g hg => ?_⟩
  have hne : g ≠ h := fun e => hs.fq_not_rob (h := h) (by rw [hq]; simp) (e ▸ hg)
  rw [State.uop?_decodeMove hu, if_neg hne]

theorem FetchPass.sameRename {s x : State} (hs : Sound s) (h : FetchPass s x) : SameRename s x := by
  have hl : x.robList = s.robList := by rw [h.writes]; rfl
  refine ⟨by rw [h.writes], by rw [h.writes], by rw [h.writes], cores_of_rob hl fun g hg => ?_⟩
  have hne : g ≠ s.newSlot := fun e => hs.robLive g hg (e ▸ h.free)
  rw [h.read, if_neg hne]

/-- The head of the decode queue is placed: what is known where it happens. -/
structure Placing (s : State) (h : Handle) (rest : List Handle) (u : Uop) (i : Instr) (j : Nat) :
    Prop where
  active : s.stageActive = true
  dq : s.dq = h :: rest
  read : s.uop? h = some u
  instr : u.instr = some i
  placement : s.placement i.category.fu i.category.lsTable i.operands u = some j

/-- The state after it. -/
abbrev State.placed (s : State) (h : Handle) (u : Uop) (i : Instr) (j : Nat) : State :=
  s.place i.category.fu i.category.lsTable i.operands h u j

/-- A move places a micro-op, undoes one, or leaves the maps and the program but for what the stages
after allocate write. -/
theorem Quiet.rename_cases {p : Phase} {s t : State} (hs : Sound s) (hq : Quiet p s t) :
    SameRename s t ∨ (∃ h rest u i j, Placing s h rest u i j ∧ t = s.placed h u i j) ∨
      ∃ u, s.recovery = true ∧ s.robCount ≠ 0 ∧ s.uop? (s.robAt (s.robCount - 1)) = some u ∧
        t = s.undo u := by
  cases hq with
  | place ha hd hu hi hp => exact .inr (.inl ⟨_, _, _, _, _, ⟨ha, hd, hu, hi, hp⟩, rfl⟩)
  | undo hr h0 hu => exact .inr (.inr ⟨_, hr, h0, hu, rfl⟩)
  | execute _ _ hu _ _ => exact .inl (sameRename_execute hu _)
  | complete _ _ hu _ => exact .inl (sameRename_complete hu _)
  | enter h => exact .inl (h.sameRename hs)
  | stamp hu => exact .inl (sameRename_stamp hu)
  | decode _ hq _ hu _ => exact .inl (sameRename_decode hs hq hu _)
  | fetch _ pc pending ha hroom => exact .inl ((hs.fetchPass ha hroom pc pending).sameRename hs)
  | resume | raise | rstate | tick => exact .inl ⟨rfl, rfl, rfl, rfl⟩

theorem SameRename.robDests {s t : State} (h : SameRename s t) : t.robDests = s.robDests :=
  flatMap_dests_of (map_of_cores h.cores core_dst)

theorem SameRename.tagMap {s t : State} (h : SameRename s t) (j : Nat) : t.tagMap j = s.tagMap j := by
  unfold State.tagMap
  rw [h.rat]
  congr 1
  refine flatMap_dests_of ?_
  rw [List.map_drop, List.map_drop, map_of_cores h.cores core_dst]

/-! ## The rename invariants are kept (10_state.md R39, R40) -/

theorem Renaming.of_same {s t : State} (h : Renaming s) (hst : Sound t) (hsame : SameRename s t)
    (hprf : sameShape t.prf s.prf) (hvalid : sameShape t.valid s.valid)
    (hops : ∀ g ∈ t.dq, ∀ u ∈ t.uop? g, u.operands.wellFormed s.cfg = true) : Renaming t := by
  have hdests := hsame.robDests
  have hmaps : ∀ c < s.cfg.classes.length, ∀ a < s.cfg.na c, s.ratOf c a < s.cfg.np c := fun c hc => by
    obtain ⟨-, -, -, -, h5⟩ := h.shaped
    obtain ⟨-, -, -, -, hlt⟩ := h5 c hc
    exact hlt
  refine ⟨hst, renameShaped_of h.shaped hsame.cfg ?_ hprf ?_ hvalid ?_, ?_, ?_, ?_, ?_⟩
  · rw [hsame.rat]; exact .refl _
  · rw [hsame.free]; exact .refl _
  · unfold State.ratOf; rw [hsame.rat]; exact hmaps
  · unfold State.owned State.references State.freeOf
    rw [hsame.cfg, hsame.rat, hsame.free, hdests]
    exact h.owned
  · rw [hdests, hsame.rat]; exact h.undoable
  · rw [hdests, hsame.cfg]; exact h.inRange
  · rw [hsame.cfg]; exact hops

/-- The alias tables after a restore. -/
theorem restoreDests_rat : ∀ (s : State) (ds : List (Option DstSlot)),
    (restoreDests s ds).rat = unmap (presentSlots ds) s.rat
  | _, [] => rfl
  | s, none :: ds => restoreDests_rat s ds
  | s, some d :: ds => congrArg (set2 · d.cls d.arch d.prev) (restoreDests_rat s ds)

/-- The records after an undo, with the one undone. -/
theorem Sound.program_concat {s : State} (hs : Sound s) (h0 : s.robCount ≠ 0) {u : Uop}
    (hu : s.uop? (s.robAt (s.robCount - 1)) = some u) :
    s.program = (s.undo u).program ++ [u] := by
  have hlen := hs.length_program
  have hne : s.program ≠ [] := fun e => h0 (by rw [← hlen, e]; rfl)
  have hlast : s.program.getLast hne = u := by
    have := hs.program_eq_some.mpr ⟨Nat.sub_lt (Nat.pos_of_ne_zero h0) one_pos, hu⟩
    rw [List.getLast_eq_getElem]
    rw [← hlen] at this
    exact (List.getElem?_eq_some_iff.mp this).2
  rw [hs.program_undo h0, ← hlast, List.dropLast_append_getLast]

theorem Renaming.undo {s : State} (h : Renaming s) (hr : s.recovery = true) (h0 : s.robCount ≠ 0)
    {u : Uop} (hu : s.uop? (s.robAt (s.robCount - 1)) = some u) : Renaming (s.undo u) := by
  have hst := h.sound.undo hr h0 u
  have hdests : s.robDests = (s.undo u).robDests ++ u.dests := by
    rw [State.robDests, h.sound.program_concat h0 hu, List.flatMap_append, List.flatMap_singleton]
    rfl
  have hrat : (s.undo u).rat = unmap u.dests s.rat := restoreDests_rat s u.dst
  have hold : ∀ d ∈ (s.undo u).robDests, d ∈ s.robDests := fun d hd => by rw [hdests]; simp [hd]
  have hnew : ∀ d ∈ u.dests, d ∈ s.robDests := fun d hd => by rw [hdests]; simp [hd]
  have hund := h.undoable
  rw [hdests, undoable_append, ← hrat] at hund
  have hfree : ∀ c p, (s.undo u).freeOf c p =
      (s.freeOf c p || u.dests.any fun d => decide (d.cls = c ∧ d.fresh = p)) := fun c p =>
    freeOf_restoreDests s u.dst
      (fun d hd => DstSlot.hasEntry_free_fresh h.shaped (h.inRange d (hnew d hd))) c p
  refine ⟨hst, ?_, fun c hc p hp => ?_, hund.2, fun d hd => h.inRange d (hold d hd), ?_⟩
  · have hshape := restoreDests_shape s u.dst
    refine renameShaped_of h.shaped rfl hshape.1 (.refl _) hshape.2 (.refl _) fun c hc a ha => ?_
    show get2 (s.undo u).rat c a 0 < _
    rw [hrat]
    exact unmap_lt h.shaped hc ha fun d hd => h.inRange d (hnew d hd)
  · have hcount := count_unmap c p (fun d hd => h.entries d (hnew d hd)) hund.1
    have href := references_eq s c p
    have href' := references_eq (s.undo u) c p
    rw [hdests, prevCount_append] at href
    rw [hrat] at href'
    have hle := h.references_le_one hc hp
    have hown := h.owned c hc p hp
    rw [hfree]
    by_cases hex : ∃ d ∈ u.dests, d.cls = c ∧ d.fresh = p
    · obtain ⟨d, hd, rfl, rfl⟩ := hex
      have hpos := one_le_freshCount hd
      have hany : (u.dests.any fun e => decide (e.cls = d.cls ∧ e.fresh = d.fresh)) = true :=
        List.any_eq_true.mpr ⟨d, hd, by simp⟩
      rw [hany, Bool.or_true, if_pos rfl]
      omega
    · have hzero : freshCount u.dests c p = 0 :=
        List.countP_eq_zero.mpr fun d hd he => hex ⟨d, hd, by simpa using he⟩
      have hany : (u.dests.any fun e => decide (e.cls = c ∧ e.fresh = p)) = false :=
        List.any_eq_false.mpr fun d hd he => hex ⟨d, hd, by simpa using he⟩
      rw [hany, Bool.or_false, ← hown]
      omega
  · intro g hg
    obtain ⟨-, hdq, -⟩ := h.sound.flushed hr
    rw [show (s.undo u).dq = [] from hdq] at hg
    cases hg

/-- Slots whose registers are mapped in the table and are of distinct names can be undone. -/
theorem undoable_of_mapped {rat : List (List Nat)} : ∀ {ds : List DstSlot},
    (∀ d ∈ ds, hasEntry rat d.cls d.arch) → (ds.map DstSlot.reg).Nodup →
    (∀ d ∈ ds, get2 rat d.cls d.arch 0 = d.fresh) → undoable ds rat
  | [], _, _, _ => trivial
  | d :: ds, he, hn, hm => by
    rw [List.map_cons, List.nodup_cons] at hn
    refine (undoable_cons d ds rat).mpr ⟨undoable_of_mapped (fun e h => he e (by simp [h])) hn.2
      fun e h => hm e (by simp [h]), ?_⟩
    have hfind : (ds.find? fun e => decide (e.cls = d.cls ∧ e.arch = d.arch)) = none := by
      rw [List.find?_eq_none]
      intro e hd hdec
      obtain ⟨h1, h2⟩ := of_decide_eq_true hdec
      exact hn.1 (List.mem_map.mpr ⟨e, hd, by rw [DstSlot.reg, DstSlot.reg, h1, h2]⟩)
    have := get2_unmap_append [] d.cls d.arch ds fun e h => he e (by simp [h])
    rw [List.append_nil, hfind] at this
    rw [this]
    exact hm d (by simp)

end Sys2Proof.Machine
end

section
namespace Sys2Proof.Machine

/-! ## Placing and committing keep the rename invariants -/

/-- The record of a placed micro-op. -/
abbrev State.placedUop (s : State) (u : Uop) (i : Instr) (j : Nat) : Uop :=
  u.allocatedAs (s.renameSources i.operands.src) (renameDests s i.operands.dst).2 s.seqNext s.cycle
    i.category.fu j

theorem Placing.category {s : State} {h : Handle} {rest : List Handle} {u : Uop} {i : Instr} {j : Nat}
    (hp : Placing s h rest u i j) : u.cat = some i.category := (Uop.instr_eq_some hp.instr).1

theorem Placing.notRob {s : State} {h : Handle} {rest : List Handle} {u : Uop} {i : Instr} {j : Nat}
    (hs : Sound s) (hp : Placing s h rest u i j) : h ∉ s.robList :=
  hs.fq_not_rob (by rw [hp.dq]; simp)

theorem Placing.readAfter {s : State} {h : Handle} {rest : List Handle} {u : Uop} {i : Instr} {j : Nat}
    (hp : Placing s h rest u i j) (g : Handle) : (s.placed h u i j).uop? g =
      if g = h then some (s.placedUop u i j) else s.uop? g := State.uop?_place hp.read _ _ _ _ g

theorem Placing.robList {s : State} {h : Handle} {rest : List Handle} {u : Uop} {i : Instr} {j : Nat}
    (hs : Sound s) (hp : Placing s h rest u i j) :
    (s.placed h u i j).robList = s.robList ++ [h] := by
  obtain ⟨-, hrob, -, -, hsel⟩ := placement_eq_some.mp hp.placement
  have hcount : s.robCount < s.cfg.robN := by have := hs.countLe; omega
  exact (hs.placed hp.read hcount (selectStation_eq_some hsel).1 i.category i.operands).robList

/-- The program gains the placed micro-op at its end. -/
theorem Placing.program {s : State} {h : Handle} {rest : List Handle} {u : Uop} {i : Instr} {j : Nat}
    (hs : Sound s) (hp : Placing s h rest u i j) :
    (s.placed h u i j).program = s.program ++ [s.placedUop u i j] := by
  have := map_program_push id (hp.robList hs) (hp.notRob hs) hp.readAfter
  rwa [List.map_id, List.map_id] at this

theorem Placing.renamed {s : State} {h : Handle} {rest : List Handle} {u : Uop} {i : Instr} {j : Nat}
    (hr : Renaming s) (hp : Placing s h rest u i j) :
    Renamed s i.operands.dst (renameDests s i.operands.dst).1 (s.placedUop u i j).dst := by
  obtain ⟨-, -, hren, -, -⟩ := placement_eq_some.mp hp.placement
  have hw := hr.operands h (by rw [hp.dq]; simp) u hp.read
  rw [(Uop.instr_eq_some hp.instr).2, Operands.wellFormed_iff] at hw
  obtain ⟨-, ⟨-, hrange⟩, -, hnodup⟩ := hw
  exact renameDests_renamed s _ hr.shaped hrange hnodup hren

theorem Placing.maps {s : State} (h : Handle) (u : Uop) (i : Instr) (j : Nat) :
    (s.placed h u i j).rat = (renameDests s i.operands.dst).1.rat ∧
      (s.placed h u i j).free = (renameDests s i.operands.dst).1.free ∧
      (s.placed h u i j).valid = (renameDests s i.operands.dst).1.valid ∧
      (s.placed h u i j).prf = s.prf ∧ (s.placed h u i j).cfg = s.cfg := by
  rw [State.placed, place_eq]
  exact ⟨rfl, rfl, rfl, rfl, rfl⟩

/-- Undoing the placed micro-op's slots gives the alias tables before. -/
theorem Placing.unmap {s : State} {h : Handle} {rest : List Handle} {u : Uop} {i : Instr} {j : Nat}
    (hp : Placing s h rest u i j) :
    Machine.unmap (s.placedUop u i j).dests (s.placed h u i j).rat = s.rat := by
  obtain ⟨-, -, hren, -, -⟩ := placement_eq_some.mp hp.placement
  rw [(Placing.maps h u i j).1]
  exact (restoreDests_rat _ _).symm.trans (renameThenRestore s i.operands.dst hren).1

/-- The slots of a renaming of well-formed fields are in range. -/
theorem Placing.inRange {s : State} {h : Handle} {rest : List Handle} {u : Uop} {i : Instr} {j : Nat}
    (hr : Renaming s) (hp : Placing s h rest u i j) :
    ∀ d ∈ (s.placedUop u i j).dests, d.inRange s.cfg := by
  intro d hd
  have hren := hp.renamed hr
  have hw := hr.operands h (by rw [hp.dq]; simp) u hp.read
  rw [(Uop.instr_eq_some hp.instr).2, Operands.wellFormed_iff] at hw
  obtain ⟨-, ⟨-, hrange⟩, hzero, -⟩ := hw
  have hreg := hren.reg_mem hd
  have hin := hrange _ hreg
  obtain ⟨hc, ha⟩ := RegRef.inRange_iff.mp hin
  have hc : d.cls < s.cfg.classes.length := hc
  have ha : d.arch < s.cfg.na d.cls := ha
  obtain ⟨-, -, -, -, h5⟩ := hr.shaped
  obtain ⟨-, -, hlen, -, hmap⟩ := h5 d.cls hc
  refine ⟨hin, hzero _ hreg, ?_, ?_⟩
  · have hg := hren.granted d hd
    by_contra hlt
    have hnone : s.freeOf d.cls d.fresh = false := by
      rw [State.freeOf, get2, List.getD_eq_default]
      rw [hlen]; omega
    rw [hnone] at hg
    cases hg
  · rw [hren.prev d hd]; exact hmap d.arch ha

theorem Renamed.regNodup {s t : State} {fs : List (Option RegRef)} {slots : List (Option DstSlot)}
    (h : Renamed s fs t slots) (hn : (Operands.present fs).Nodup) :
    ((presentSlots slots).map DstSlot.reg).Nodup := by
  rw [map_reg_presentSlots, h.names]; exact hn

theorem Renamed.freshCount_le_one {s t : State} {fs : List (Option RegRef)}
    {slots : List (Option DstSlot)} (h : Renamed s fs t slots) (c p : Nat) :
    freshCount (presentSlots slots) c p ≤ 1 := by
  have hnd := (h.rising c).nodup (r := (· < ·))
  have hle := List.nodup_iff_count_le_one.mp hnd p
  refine le_trans (le_of_eq ?_) hle
  rw [List.count, List.countP_map, List.countP_filter, freshCount]
  refine List.countP_congr fun d _ => ?_
  simp [and_comm]

theorem Renaming.place {s : State} (hr : Renaming s) {h : Handle} {rest : List Handle} {u : Uop}
    {i : Instr} {j : Nat} (hp : Placing s h rest u i j) : Renaming (s.placed h u i j) := by
  have hs := hr.sound
  have hst : Sound (s.placed h u i j) := hs.place hp.active hp.dq hp.read hp.instr hp.placement
  obtain ⟨hrat, hfree, hvalid, hprf, hcfg⟩ := Placing.maps (s := s) h u i j
  have hren := hp.renamed hr
  have hback := hp.unmap
  have hnew := hp.inRange hr
  have hprog := hp.program hs
  have hread := hp.readAfter
  have hdq : (s.placed h u i j).dq = rest := by rw [State.placed, place_eq]; simp [hp.dq]
  have hnd := hs.nodup
  rw [hp.dq] at hnd
  have hw := hr.operands h (by rw [hp.dq]; simp) u hp.read
  rw [(Uop.instr_eq_some hp.instr).2, Operands.wellFormed_iff] at hw
  obtain ⟨-, -, -, hnodup⟩ := hw
  generalize s.placedUop u i j = v at *
  generalize s.placed h u i j = t at *
  have hdests : t.robDests = s.robDests ++ v.dests := by
    rw [State.robDests, hprog, List.flatMap_append, List.flatMap_singleton]; rfl
  have hshape : t.renameShaped := by
    obtain ⟨h1, h2, h3, h4, h5⟩ := hren.shaped
    have e1 : (renameDests s i.operands.dst).1.cfg = s.cfg := by simp
    have e2 : (renameDests s i.operands.dst).1.prf = s.prf := by simp
    unfold State.renameShaped State.ratOf
    rw [hrat, hfree, hvalid, hprf, hcfg, ← e1, ← e2]
    exact ⟨h1, h2, h3, h4, h5⟩
  have hinRange : ∀ d ∈ t.robDests, d.inRange t.cfg := fun d hd => by
    rw [hdests, List.mem_append] at hd
    rw [hcfg]
    exact hd.elim (hr.inRange d) (hnew d)
  have hentries : ∀ d ∈ v.dests, hasEntry t.rat d.cls d.arch := fun d hd =>
    DstSlot.hasEntry_rat hshape (hinRange d (by rw [hdests]; simp [hd]))
  have hund : Machine.undoable v.dests t.rat := by
    refine undoable_of_mapped hentries (hren.regNodup hnodup) fun d hd => ?_
    have := hren.mapped d hd
    unfold State.ratOf at this
    rwa [← hrat] at this
  refine ⟨hst, hshape, fun c hc p hp' => ?_, ?_, hinRange, fun g hg w hw => ?_⟩
  · rw [hcfg] at hc hp'
    have hcount := count_unmap c p hentries hund
    have href := references_eq s c p
    have href' := references_eq t c p
    rw [hdests, prevCount_append] at href'
    rw [hback] at hcount
    have hown := hr.owned c hc p hp'
    by_cases hex : ∃ d ∈ v.dests, d.cls = c ∧ d.fresh = p
    · obtain ⟨d, hd, rfl, rfl⟩ := hex
      have hpos := one_le_freshCount hd
      have hle := hren.freshCount_le_one d.cls d.fresh
      have hbusy := hren.busy d hd
      unfold State.freeOf at hbusy
      rw [← hfree] at hbusy
      rw [hren.granted d hd, if_pos rfl] at hown
      rw [State.freeOf, hbusy, if_neg (by simp)]
      have : freshCount v.dests d.cls d.fresh = freshCount (presentSlots v.dst) d.cls d.fresh := rfl
      omega
    · have hzero : freshCount v.dests c p = 0 :=
        List.countP_eq_zero.mpr fun d hd he => hex ⟨d, hd, by simpa using he⟩
      have hfr : t.freeOf c p = s.freeOf c p := by
        have := hren.freeElse c p fun d hd he => hex ⟨d, hd, he⟩
        unfold State.freeOf at this ⊢
        rwa [← hfree] at this
      rw [hfr, ← hown]
      omega
  · rw [hdests, undoable_append, hback]
    exact ⟨hund, hr.undoable⟩
  · rw [hdq] at hg
    have hgh : g ≠ h := by
      rintro rfl
      rw [List.append_assoc, List.nodup_append] at hnd
      have := hnd.2.1
      simp [hg] at this
    rw [hread, if_neg hgh] at hw
    rw [hcfg]
    exact hr.operands g (by rw [hp.dq]; simp [hg]) w hw

/-- The program before a commit, but for ordering flags: the head, then the program after. -/
theorem Commit.cores {s t : State} {u : Uop} (hs : Sound s) (h : Commit u s t) :
    s.program.map Uop.core = u.core :: t.program.map Uop.core := by
  have htail : t.program.map Uop.core = (s.program.map Uop.core).tail :=
    h.map_program hs fun _ _ => rfl
  have hhead := h.program_head hs
  rw [htail]
  cases hp : s.program with
  | nil => rw [hp] at hhead; simp at hhead
  | cons v vs =>
    rw [hp] at hhead
    simp only [List.getElem?_cons_zero, Option.some.injEq] at hhead
    rw [hhead]
    rfl

theorem Commit.robDests {s t : State} {u : Uop} (hs : Sound s) (h : Commit u s t) :
    s.robDests = u.dests ++ t.robDests := by
  have hc : s.program.map Uop.core = (u :: t.program).map Uop.core := h.cores hs
  exact (flatMap_dests_of (map_of_cores hc core_dst)).trans List.flatMap_cons

theorem Renaming.commit {s t : State} {u : Uop} (hr : Renaming s) (h : Commit u s t) :
    Renaming t := by
  have hs := hr.sound
  have hst := hs.commit h
  have hdests := h.robDests hs
  have hhead : ∀ d ∈ u.dests, d ∈ s.robDests := fun d hd => by rw [hdests]; simp [hd]
  have hfree : ∀ c p, t.freeOf c p =
      (s.freeOf c p || u.dests.any fun d => decide (d.cls = c ∧ d.prev = p)) := fun c p => by
    have := freeOf_releaseDests s u.dst
      (fun d hd => DstSlot.hasEntry_free_prev hr.shaped (hr.inRange d (hhead d hd))) c p
    unfold State.freeOf at this ⊢
    rw [← h.maps.2] at this
    exact this
  have hund := hr.undoable
  rw [hdests, undoable_append] at hund
  refine ⟨hst, ?_, fun c hc p hp => ?_, by rw [h.rat]; exact hund.1, fun d hd => ?_,
    fun g hg w hw => ?_⟩
  · refine renameShaped_of hr.shaped h.cfg ?_ ?_ ?_ ?_ fun c hc a ha => ?_
    · rw [h.rat]; exact .refl _
    · rw [h.prf]; exact .refl _
    · rw [h.maps.2]; exact releaseDests_shape s u.dst
    · rw [h.valid]; exact .refl _
    · obtain ⟨-, -, -, -, h5⟩ := hr.shaped
      obtain ⟨-, -, -, -, h6⟩ := h5 c hc
      unfold State.ratOf
      rw [h.rat]
      exact h6 a ha
  · rw [h.cfg] at hc hp
    have href := references_eq s c p
    have href' := references_eq t c p
    rw [hdests, prevCount_append] at href
    rw [h.rat] at href'
    have hle := hr.references_le_one hc hp
    have hown := hr.owned c hc p hp
    rw [hfree]
    by_cases hex : ∃ d ∈ u.dests, d.cls = c ∧ d.prev = p
    · obtain ⟨d, hd, rfl, rfl⟩ := hex
      have hpos := one_le_prevCount hd
      have hany : (u.dests.any fun e => decide (e.cls = d.cls ∧ e.prev = d.prev)) = true :=
        List.any_eq_true.mpr ⟨d, hd, by simp⟩
      rw [hany, Bool.or_true, if_pos rfl]
      omega
    · have hzero : prevCount u.dests c p = 0 :=
        List.countP_eq_zero.mpr fun d hd he => hex ⟨d, hd, by simpa using he⟩
      have hany : (u.dests.any fun e => decide (e.cls = c ∧ e.prev = p)) = false :=
        List.any_eq_false.mpr fun d hd he => hex ⟨d, hd, by simpa using he⟩
      rw [hany, Bool.or_false, ← hown]
      omega
  · rw [h.cfg]; exact hr.inRange d (by rw [hdests]; simp [hd])
  · rw [h.dq] at hg
    have hne : g ≠ s.robAt 0 := fun e => hs.fq_not_rob (h := g) (by simp [hg])
      (e ▸ State.robAt_mem (Nat.pos_of_ne_zero h.count))
    have hmap := h.other_map hne (f := Uop.operands) fun _ _ => rfl
    rw [h.cfg]
    rw [show t.uop? g = some w from hw] at hmap
    obtain ⟨v, hv, he⟩ := Option.map_eq_some_iff.mp hmap.symm
    exact he ▸ hr.operands g hg v hv

theorem decodedOperands {cfg : Config} {hasDs atomic : Bool} {bits : Nat} {i : Instr}
    (h : checkDescriptor cfg hasDs atomic bits = .ok i) : i.operands.wellFormed cfg = true :=
  (decodedMicroOpIsWellFormed cfg bits i (checkDescriptor_eq_ok.mp h).1).1

/-- Reading the decode queue where a move writes only a record of the ROB. -/
theorem Renaming.operands_of_rob {s t : State} (h : Renaming s) (hdq : t.dq = s.dq)
    (hread : ∀ g, g ∉ s.robList → t.uop? g = s.uop? g) :
    ∀ g ∈ t.dq, ∀ u ∈ t.uop? g, u.operands.wellFormed s.cfg = true := fun g hg u hu => by
  rw [hdq] at hg
  rw [hread g (h.sound.fq_not_rob (by simp [hg]))] at hu
  exact h.operands g hg u hu

/-- A move keeps the rename invariants. -/
theorem Renaming.quiet {p : Phase} {s t : State} (h : Renaming s) (hq : Quiet p s t) :
    Renaming t := by
  have hs := h.sound
  have hst := hq.sound hs
  cases hq with
  | place ha hd hu hi hp => exact h.place ⟨ha, hd, hu, hi, hp⟩
  | undo hr h0 hu => exact h.undo hr h0 hu
  | @execute s g u i p _ hp hu _ _ =>
    have hrob := ((hs.stationed p (hs.mem_station hp)).2 _ hp).1
    refine h.of_same hst (sameRename_execute hu _) ?_ ?_ (h.operands_of_rob ?_ fun x hx => ?_)
    · have := writeDests_shape (s.leaveStation g u.station) 0 u.dst fun j =>
        (Config.exec u.view (s.sourceValues u)).value j
          (dataOf i.category s (Config.exec u.view (s.sourceValues u)))
      have e : (s.leaveStation g u.station).prf = s.prf := by cases u.station <;> rfl
      rw [e] at this
      exact this
    · rw [execute_eq]; exact .refl _
    · rw [execute_eq]
    · rw [State.uop?_execute hu, if_neg fun e : x = g => hx (e ▸ hrob)]
  | @complete s g u _ hrob hu _ =>
    refine h.of_same hst (sameRename_complete hu _) ?_ (publishDests_shape s u.dst)
      (h.operands_of_rob ?_ fun x hx => ?_)
    · rw [show ((publishDests s u.dst).setUop g (u.completedAt s.cycle)).prf = s.prf by simp]
      exact .refl _
    · simp
    · rw [completed_uop? hu, if_neg fun e : x = g => hx (e ▸ hrob)]
  | enter he =>
    refine h.of_same hst (he.sameRename hs) ?_ ?_ fun g hg => ?_
    · rw [he.writes]; exact .refl _
    · rw [he.writes]; exact .refl _
    · rw [he.writes] at hg; cases hg
  | @stamp s g u hu =>
    refine h.of_same hst (sameRename_stamp hu) (.refl _) (.refl _) fun x hx w hw => ?_
    have hread : (s.setUop g (s.stampReady u)).uop? x =
        if x = g then some (s.stampReady u) else s.uop? x := by
      rw [State.uop?_setUop]; simp [State.lt_of_uop? hu]
    rw [hread] at hw
    by_cases hxg : x = g
    · rw [if_pos hxg] at hw
      cases hw
      have : (s.stampReady u).operands = u.operands := by unfold State.stampReady; split <;> rfl
      rw [this]
      exact h.operands x hx u (hxg ▸ hu)
    · rw [if_neg hxg] at hw
      exact h.operands x hx w hw
  | @decode s g rest u op i atomic bits _ hfq _ hu hchk =>
    refine h.of_same hst (sameRename_decode hs hfq hu _) (.refl _) (.refl _) fun x hx w hw => ?_
    rw [State.uop?_decodeMove hu] at hw
    by_cases hxg : x = g
    · rw [if_pos hxg] at hw
      cases hw
      rw [Uop.decodedAs_operands]
      exact decodedOperands hchk
    · rw [if_neg hxg] at hw
      have hx : x ∈ s.dq ++ [g] := hx
      rw [List.mem_append, List.mem_singleton] at hx
      exact h.operands x (hx.resolve_right hxg) w hw
  | fetch _ pc pending ha hroom =>
    have hpass := hs.fetchPass ha hroom pc pending
    refine h.of_same hst (hpass.sameRename hs) (.refl _) (.refl _) fun x hx w hw => ?_
    have hx : x ∈ s.dq := hx
    have hne : x ≠ s.newSlot := by
      rintro rfl
      obtain ⟨y, hy, -⟩ := hs.decoded _ hx
      rw [hpass.free] at hy
      cases hy
    rw [hpass.read, if_neg hne] at hw
    exact h.operands x hx w hw
  | resume | raise | rstate | tick =>
    exact h.of_same hst ⟨rfl, rfl, rfl, rfl⟩ (.refl _) (.refl _) h.operands

theorem Renaming.quiets {p : Phase} {s t : State} (h : Renaming s) (hq : Quiets p s t) :
    Renaming t :=
  (hq.keeps (P := Renaming) (fun _ _ _ hm hr => hr.quiet hm) h.sound h).2

theorem Renaming.retires {s t : State} (h : Renaming s) (hr : Retires s t) : Renaming t :=
  (hr.keeps (P := Renaming) (fun _ _ _ _ hm hr => hr.commit hm) h.sound h).2

/-- Settles O54: the passes that commit and the moves keep the rename invariants. -/
theorem stepKeepsOwnership : Obligations.StepKeepsOwnership := by
  intro s t hok h
  have hr := renameOk_iff.mp hok
  obtain ⟨m, x, hm, hq, hq'⟩ := stepped_of_step hr.sound h
  exact renameOk_iff.mpr (((hr.retires hm).quiets hq).quiets hq')

end Sys2Proof.Machine
end

section
namespace Sys2Proof.Machine

/-! ## The number of free registers (10_state.md R41) -/

theorem sum_count {n : Nat} : ∀ {l : List Nat}, (∀ x ∈ l, x < n) →
    ∑ p ∈ Finset.range n, l.count p = l.length
  | [], _ => by simp
  | x :: l, h => by
    have hx : x < n := h x (by simp)
    have ih := sum_count (l := l) fun y hy => h y (by simp [hy])
    simp only [List.count_cons, Finset.sum_add_distrib, ih, beq_iff_eq, List.length_cons]
    rw [Finset.sum_ite_eq, if_pos (Finset.mem_range.mpr hx)]

theorem sum_prevCount {n c : Nat} : ∀ {ds : List DstSlot}, (∀ d ∈ ds, d.cls = c → d.prev < n) →
    ∑ p ∈ Finset.range n, prevCount ds c p = ds.countP fun d => d.cls = c
  | [], _ => by simp [prevCount]
  | d :: ds, h => by
    have ih := sum_prevCount (ds := ds) fun e he => h e (by simp [he])
    simp only [prevCount_cons, Finset.sum_add_distrib, ih, List.countP_cons, decide_eq_true_eq]
    congr 1
    by_cases hc : d.cls = c
    · simp [hc, h d (by simp) hc]
    · simp [hc]

theorem count_true_eq_sum : ∀ l : List Bool,
    l.count true = ∑ p ∈ Finset.range l.length, if l.getD p false = true then 1 else 0
  | [] => rfl
  | b :: l => by
    rw [List.length_cons, Finset.sum_range_succ', List.count_cons, count_true_eq_sum l]
    simp

/-- Settles O55: of the `NP` registers of a class, each is free or referenced once; the alias table
has `NA` entries and each slot one previous mapping. -/
theorem freeCountFollowsOwnership : Obligations.FreeCountFollowsOwnership := by
  intro s hok c hc
  have hr := renameOk_iff.mp hok
  obtain ⟨-, -, -, -, hshape⟩ := hr.shaped
  obtain ⟨hrat, -, hfree, -, hlt⟩ := hshape c hc
  have hone : ∀ p ∈ Finset.range (s.cfg.np c),
      (s.rat.getD c []).count p + prevCount s.robDests c p +
        (if (s.free.getD c []).getD p false = true then 1 else 0) = 1 := fun p hp => by
    have hown := hr.owned c hc p (Finset.mem_range.mp hp)
    rw [references_eq] at hown
    rw [hown]
    show _ + (if s.freeOf c p = true then 1 else 0) = 1
    split <;> rfl
  have hmem : ∀ x ∈ s.rat.getD c [], x < s.cfg.np c := fun x hx => by
    obtain ⟨a, ha, rfl⟩ := List.mem_iff_getElem.mp hx
    have := hlt a (hrat ▸ ha)
    rwa [State.ratOf, get2, List.getD_eq_getElem _ _ ha] at this
  have hprev : ∀ d ∈ s.robDests, d.cls = c → d.prev < s.cfg.np c := fun d hd he => by
    obtain ⟨-, -, -, hp⟩ := hr.inRange d hd
    rwa [he] at hp
  have hsum := Finset.sum_congr rfl hone
  rw [Finset.sum_add_distrib, Finset.sum_add_distrib, sum_count hmem, sum_prevCount hprev, hrat,
    Finset.sum_const, Finset.card_range, smul_eq_mul, Nat.mul_one] at hsum
  rw [State.avail, count_true_eq_sum, hfree]
  omega

/-! ## The committed state (10_state.md R44) -/

theorem Renaming.robDests_undo {s : State} (h : Renaming s) (h0 : s.robCount ≠ 0) {u : Uop}
    (hu : s.uop? (s.robAt (s.robCount - 1)) = some u) :
    s.robDests = (s.undo u).robDests ++ u.dests := by
  rw [State.robDests, h.sound.program_concat h0 hu, List.flatMap_append, List.flatMap_singleton]
  rfl

/-- A move keeps the committed mapping. -/
theorem Renaming.unmap_quiet {p : Phase} {s t : State} (h : Renaming s) (hq : Quiet p s t) :
    unmap t.robDests t.rat = unmap s.robDests s.rat := by
  obtain hsame | ⟨g, rest, u, i, j, hp, rfl⟩ | ⟨u, -, h0, hu, rfl⟩ := hq.rename_cases h.sound
  · rw [hsame.robDests, hsame.rat]
  · rw [State.robDests, hp.program h.sound, List.flatMap_append, List.flatMap_singleton,
      unmap_append, hp.unmap]
    rfl
  · rw [h.robDests_undo h0 hu, unmap_append]
    exact congrArg (unmap (s.undo u).robDests) (restoreDests_rat s u.dst)

theorem Quiet.cfg {p : Phase} {s t : State} (hq : Quiet p s t) : t.cfg = s.cfg := hq.silent.cfg

theorem Renaming.committedTag_quiet {p : Phase} {s t : State} (h : Renaming s) (hq : Quiet p s t)
    (c a : Nat) : t.committedTag c a = s.committedTag c a := by
  rw [h.committedTag, (h.quiet hq).committedTag, h.unmap_quiet hq]

/-- The slots of a record of the ROB are among those of the ROB. -/
theorem State.dests_subset {s : State} {g : Handle} {u : Uop} (hg : g ∈ s.robList)
    (hu : s.uop? g = some u) : ∀ d ∈ u.dests, d ∈ s.robDests := fun _ hd =>
  State.mem_robDests.mpr ⟨g, hg, u, hu, hd⟩

/-- Execution writes the new registers of its slots alone. -/
theorem State.prfOf_execute_other {s : State} {g : Handle} {u : Uop} {i : Instr} {c p : Nat}
    (h : ∀ d ∈ u.dests, ¬(d.cls = c ∧ d.fresh = p)) :
    (s.execute g u i).prfOf c p = s.prfOf c p := by
  have hw := prfOf_writeDests_other (s.leaveStation g u.station) 0 u.dst (fun j =>
    (Config.exec u.view (s.sourceValues u)).value j
      (dataOf i.category s (Config.exec u.view (s.sourceValues u)))) c p h
  have e : (s.leaveStation g u.station).prfOf c p = s.prfOf c p := by cases u.station <;> rfl
  exact hw.trans e

/-- A move keeps the committed registers: their mappings stay, and execution writes only new registers
of slots in the ROB, to which no committed mapping leads. -/
theorem Renaming.committedReg_quiet {p : Phase} {s t : State} (h : Renaming s) (hq : Quiet p s t)
    {c a : Nat} (hc : c < s.cfg.classes.length) (ha : a < s.cfg.na c) :
    t.committedReg c a = s.committedReg c a := by
  rw [State.committedReg, h.committedTag_quiet hq, State.committedReg]
  cases hq with
  | @execute s g u i p _ hp hu _ _ =>
    have hrob := ((h.sound.stationed p (h.sound.mem_station hp)).2 _ hp).1
    refine State.prfOf_execute_other fun d hd => ?_
    have := (h.tag 0 hc ha).2.2 d (State.dests_subset hrob hu d hd)
    rwa [← h.tagBefore, State.tagBefore_zero] at this
  | place => rw [place_eq]; rfl
  | complete => simp [State.prfOf]
  | undo => rfl
  | enter he => rw [he.writes]; rfl
  | resume | raise | rstate | stamp | fetch | tick | decode => rfl

theorem State.committedRegs_getElem? (s : State) (c : Nat) : s.committedRegs[c]? =
    if c < s.cfg.classes.length then some ((List.range (s.cfg.na c)).map (s.committedReg c))
    else none := by
  rw [State.committedRegs, List.getElem?_map, List.getElem?_zipIdx]
  by_cases hc : c < s.cfg.classes.length
  · simp [hc, Config.na, Config.cls_of_lt hc]
  · simp [hc]

theorem committedRegs_congr {s t : State} (hcfg : t.cfg = s.cfg)
    (h : ∀ c < s.cfg.classes.length, ∀ a < s.cfg.na c, t.committedReg c a = s.committedReg c a) :
    t.committedRegs = s.committedRegs := by
  refine List.ext_getElem? fun c => ?_
  rw [State.committedRegs_getElem?, State.committedRegs_getElem?, hcfg]
  split
  · rename_i hc
    exact congrArg some (List.map_congr_left fun a ha => h c hc a (List.mem_range.mp ha))
  · rfl

theorem Renaming.committed_quiet {p : Phase} {s t : State} (h : Renaming s) (hq : Quiet p s t) :
    t.committed = s.committed := by
  rw [State.committed, State.committed, hq.silent.mem,
    committedRegs_congr hq.cfg fun c hc a ha => h.committedReg_quiet hq hc ha]

/-- Moves keep the committed state. -/
theorem Renaming.committed_quiets {p : Phase} {s t : State} (h : Renaming s) (hq : Quiets p s t) :
    t.committed = s.committed :=
  (hq.keeps (P := fun x => Renaming x ∧ x.committed = s.committed)
    (fun _ _ _ hm ⟨hr, he⟩ => ⟨hr.quiet hm, (hr.committed_quiet hm).trans he⟩) h.sound
    ⟨h, rfl⟩).2.2

/-- A pass of the retire stage retires. -/
theorem Retire.retiredCount_lt {s t : State} (h : Retire s t) : s.retiredCount < t.retiredCount := by
  cases h with
  | single h _ | first h _ => rw [h.retiredCount]; omega
  | pair h1 _ _ _ h2 => rw [h2.retiredCount, h1.retiredCount]; omega

theorem Retires.retiredCount_le {s t : State} (h : Retires s t) :
    s.retiredCount ≤ t.retiredCount := by
  induction h with
  | refl => exact le_rfl
  | tail _ hr ih => exact ih.trans hr.retiredCount_lt.le

/-- Settles O57: a step that commits nothing has no pass that commits. -/
theorem onlyRetirementChangesCommittedState : Obligations.OnlyRetirementChangesCommittedState := by
  intro s t hok h hcommits
  have hr := renameOk_iff.mp hok
  obtain ⟨m, x, hm, hq, hq'⟩ := stepped_of_step hr.sound h
  have hnone : m = s := by
    obtain ⟨k, hk⟩ := hm.advanced hr.sound
    have hlen := congrArg List.length (hk.commits.symm.trans
      ((hq.silent.trans hq'.silent).commits.symm.trans hcommits))
    rw [List.length_append, List.length_map, List.length_take, hr.sound.length_program,
      Nat.min_eq_left hk.le] at hlen
    have hcount := hk.retiredCount
    obtain rfl | ⟨y, hy, hym⟩ := hm.cases_head
    · rfl
    · have := hy.retiredCount_lt
      have := Retires.retiredCount_le hym
      omega
  subst hnone
  have hc := ((hr.quiets hq).committed_quiets hq').trans (hr.committed_quiets hq)
  exact ⟨congrArg ArchState.regs hc, fun a => by rw [show t.mem = m.mem from congrArg ArchState.mem hc]⟩

theorem Renaming.committedTag_quiets {p : Phase} {s t : State} (h : Renaming s) (hq : Quiets p s t)
    (c a : Nat) : t.committedTag c a = s.committedTag c a :=
  (hq.keeps (P := fun x => Renaming x ∧ x.committedTag c a = s.committedTag c a)
    (fun _ _ _ hm ⟨hr, he⟩ => ⟨hr.quiet hm, (hr.committedTag_quiet hm c a).trans he⟩) h.sound
    ⟨h, rfl⟩).2.2

/-- Settles O39: the unwinding moves keep the committed mapping, which with an empty ROB is the alias
table, and then ownership says which registers are free. -/
theorem recoveryRestoresCommittedMap : Obligations.RecoveryRestoresCommittedMap := by
  intro s t hok hrec hrun h
  have hr := renameOk_iff.mp hok
  have hs := hr.sound
  have hun := hs.unwinds.mp hrec
  have hstage : retireStage s = unwindStep s := by
    rw [retireStage, if_neg (not_not.mpr hrun), if_pos hun]
  rw [hstage] at h
  obtain ⟨t', ht', hq⟩ := unwindStep_moves hs hrec
  have htt : t' = t := by rw [h] at ht'; cases ht'; rfl
  subst htt
  have hrt := hr.quiets hq
  have htag := hr.committedTag_quiets hq
  have hsil := hq.silent
  obtain ⟨x, hx, hstep⟩ := unwindStep_unwound hs hrec
  have hw := hx.writes
  rw [h, Host.Outcome.next.injEq] at hstep
  obtain ⟨hfq, hdq, hlq, hsq, -, hst⟩ := hs.flushed hrec
  refine ⟨fun c _ a _ => htag c a, ?_, fun a => by rw [hsil.mem], hsil.commits, fun hend => ?_⟩
  · rw [hstep]; split <;> rw [hw]; rfl
  · have hle : s.robCount ≤ s.cfg.retireW := by
      by_contra hlt
      rw [if_neg hlt] at hstep
      rw [hstep, hw, show s.recovery = true from hrec] at hend
      cases hend
    rw [if_pos hle] at hstep
    have hcount : t'.robCount = 0 := by
      rw [hstep, State.endRecovery, hw]
      show s.robCount - s.cfg.retireW = 0
      omega
    have hdests : t'.robDests = [] := by
      have : t'.program = [] := List.length_eq_zero_iff.mp (hrt.sound.length_program.trans hcount)
      rw [State.robDests, this]; rfl
    have hrat : ∀ c a, t'.ratOf c a = s.committedTag c a := fun c a => by
      rw [← htag, hrt.committedTag, hdests]; rfl
    have hrs : t'.rs = s.rs := by rw [hstep, State.endRecovery, hw]
    refine ⟨hcount, ?_, ?_, ?_, ?_, fun p hp => ?_, fun c _ a _ => hrat c a, fun c hc p hp => ?_⟩
    · rw [hstep, State.endRecovery, hw]; exact hfq
    · rw [hstep, State.endRecovery, hw]; exact hdq
    · rw [hstep, State.endRecovery, hw]; exact hlq
    · rw [hstep, State.endRecovery, hw]; exact hsq
    · rw [State.station, hrs]; exact hst p hp
    · have hcfg := hsil.cfg
      obtain ⟨-, -, -, -, hshape⟩ := hrt.shaped
      obtain ⟨hlen, -⟩ := hshape c (hcfg ▸ hc)
      have hown := hrt.owned c (hcfg ▸ hc) p (hcfg ▸ hp)
      rw [references_eq, hdests, show prevCount [] c p = 0 from rfl, Nat.add_zero] at hown
      rw [hcfg] at hlen
      constructor
      · intro hf a ha he
        rw [hf, if_pos rfl, List.count_eq_zero] at hown
        refine hown ?_
        have ha' : a < (t'.rat.getD c []).length := hlen ▸ ha
        rw [← he, State.ratOf, get2, List.getD_eq_getElem _ _ ha']
        exact List.getElem_mem _
      · intro hne
        by_contra hf
        rw [if_neg hf] at hown
        obtain ⟨a, ha, he⟩ := List.mem_iff_getElem.mp
          (List.count_pos_iff.mp (hown ▸ one_pos : 0 < (t'.rat.getD c []).count p))
        refine hne a (hlen ▸ ha) ?_
        rw [State.ratOf, get2, List.getD_eq_getElem _ _ ha, he]

end Sys2Proof.Machine
end

section
namespace Sys2Proof.Machine

/-! ## The wired-zero registers (10_state.md R27) -/

theorem wiredZero_lt {cfg : Config} (h : cfg.admitted = true) {c z : Nat}
    (hc : c < cfg.classes.length) (hz : cfg.zr c = some z) : z < cfg.na c := by
  have hmem : cfg.cls c ∈ cfg.classes := by
    rw [Config.cls, List.getD_eq_getElem _ _ hc]; exact List.getElem_mem hc
  obtain ⟨-, -, -, hlt⟩ := (admitted_iff.mp h).classOk _ hmem
  exact hlt z hz

/-- A wired-zero register is no destination, so its mapping is the committed one. -/
theorem Renaming.committedTag_zero {s : State} (h : Renaming s) {c z : Nat}
    (hz : s.cfg.zr c = some z) : s.committedTag c z = s.ratOf c z := by
  have hfind : (s.robDests.find? fun d => decide (d.cls = c ∧ d.arch = z)) = none := by
    refine List.find?_eq_none.mpr fun d hd hdec => ?_
    obtain ⟨rfl, rfl⟩ := of_decide_eq_true hdec
    obtain ⟨-, hnot, -⟩ := h.inRange d hd
    rw [RegRef.isWiredZero_iff.mpr hz] at hnot
    cases hnot
  have hget := get2_unmap_append [] c z s.robDests h.entries
  rw [List.append_nil, hfind] at hget
  rw [h.committedTag, hget]
  rfl

/-- A move keeps a mapped register of the committed state valid. -/
theorem Renaming.valid_quiet {p : Phase} {s t : State} (h : Renaming s) (hq : Quiet p s t) {c x : Nat}
    (hbusy : s.freeOf c x = false) (hvalid : s.validOf c x = true) : t.validOf c x = true := by
  cases hq with
  | @place s g rest u i j ha hd hu hi hp =>
    have hpl : Placing s g rest u i j := ⟨ha, hd, hu, hi, hp⟩
    have helse := (hpl.renamed h).validElse c x fun d hd ⟨hcls, hfresh⟩ => by
      have := (hpl.renamed h).granted d hd
      rw [hcls, hfresh, hbusy] at this
      cases this
    have hmaps : (s.placed g u i j).valid = _ := (Placing.maps g u i j).2.2.1
    show get2 (s.placed g u i j).valid c x false = true
    rw [hmaps]
    exact helse.trans hvalid
  | @complete s g u ha hg hu hdue =>
    rw [completed_validOf h.shaped (fun d hd => h.inRange d (State.dests_subset hg hu d hd)), hvalid]
    rfl
  | execute => rw [execute_eq]; exact hvalid
  | enter he => rw [he.writes]; exact hvalid
  | undo | resume | raise | rstate | stamp | fetch | tick | decode => exact hvalid

theorem Renaming.zeroWired_quiet {p : Phase} {s t : State} (h : Renaming s) (hq : Quiet p s t)
    (hz : s.zeroWired) : t.zeroWired := by
  intro c hc z hzr
  rw [hq.cfg] at hc hzr
  obtain ⟨hrat, hfree, hvalid, hprf⟩ := hz c hc z hzr
  have ht := h.quiet hq
  have hzr' : t.cfg.zr c = some z := by rw [hq.cfg]; exact hzr
  have ha := wiredZero_lt h.sound.admitted hc hzr
  have htag : s.committedTag c z = z := (h.committedTag_zero hzr).trans hrat
  have hrat' : t.ratOf c z = z := by
    rw [← ht.committedTag_zero hzr', h.committedTag_quiet hq, htag]
  have hreg := h.committedReg_quiet hq hc ha
  rw [State.committedReg, h.committedTag_quiet hq, htag, State.committedReg, htag] at hreg
  have hbusy := (ht.tag t.program.length (hq.cfg ▸ hc) (a := z) (hq.cfg ▸ ha)).2.1
  rw [State.tagMap, List.drop_length] at hbusy
  refine ⟨hrat', ?_, h.valid_quiet hq hfree hvalid, hreg.trans hprf⟩
  have hget : get2 t.rat c z 0 = z := hrat'
  rwa [show unmap (([] : List Uop).flatMap Uop.dests) t.rat = t.rat from rfl, hget] at hbusy

theorem Renaming.zeroWired_commit {s t : State} {u : Uop} (h : Renaming s) (hc : Commit u s t)
    (hz : s.zeroWired) : t.zeroWired := by
  intro c hcls z hzr
  rw [hc.cfg] at hcls hzr
  obtain ⟨hrat, hfree, hvalid, hprf⟩ := hz c hcls z hzr
  have ht := h.commit hc
  have hrat' : t.ratOf c z = z := by rw [State.ratOf, hc.rat]; exact hrat
  have ha := wiredZero_lt h.sound.admitted hcls hzr
  have hbusy := (ht.tag t.program.length (hc.cfg ▸ hcls) (a := z) (hc.cfg ▸ ha)).2.1
  rw [State.tagMap, List.drop_length] at hbusy
  have hget : get2 t.rat c z 0 = z := hrat'
  rw [show unmap (([] : List Uop).flatMap Uop.dests) t.rat = t.rat from rfl, hget] at hbusy
  exact ⟨hrat', hbusy, by rw [State.validOf, hc.valid]; exact hvalid,
    by rw [State.prfOf, hc.prf]; exact hprf⟩

/-- Settles O56. -/
theorem stepKeepsZeroWired : Obligations.StepKeepsZeroWired := by
  intro s t hok hz h
  have hr := renameOk_iff.mp hok
  obtain ⟨m, x, hm, hq, hq'⟩ := stepped_of_step hr.sound h
  have hmove : ∀ (p : Phase) (s t : State), Sound s → Quiet p s t → Renaming s ∧ s.zeroWired →
      Renaming t ∧ t.zeroWired := fun p s t _ hq ⟨hr, hz⟩ => ⟨hr.quiet hq, hr.zeroWired_quiet hq hz⟩
  have hkept := hm.keeps (P := fun x => Renaming x ∧ x.zeroWired)
    (fun _ _ _ _ hc ⟨hr, hz⟩ => ⟨hr.commit hc, hr.zeroWired_commit hc hz⟩) hr.sound ⟨hr, hz⟩
  have hissue := hq.keeps (hmove .issue) hkept.1 hkept.2
  exact (hq'.keeps (hmove .front) hissue.1 hissue.2).2.2

/-! ## Reset (10_state.md R48) -/

/-- Every class has a station. -/
theorem ns_pos {cfg : Config} (h : cfg.admitted = true) (k : FuClass) : 0 < cfg.ns k := by
  have hk : k.code < cfg.ports.length := by
    rw [(admitted_iff.mp h).ports]; cases k <;> decide
  rw [Config.ns, List.getD_eq_getElem _ _ hk]
  exact List.length_pos_iff.mpr ((admitted_iff.mp h).portsOk _ (List.getElem_mem hk)).1

section
variable (cfg : Config) (img : LoaderImage)

theorem getD_map_lt {α β : Type} (f : α → β) {l : List α} {c : Nat} (hc : c < l.length) (d : β)
    (e : α) : (l.map f).getD c d = f (l.getD c e) := by
  rw [List.getD_eq_getElem _ _ (by simpa using hc), List.getD_eq_getElem _ _ hc, List.getElem_map]

theorem resetWith_sound (hadm : cfg.admitted = true) : Sound (State.resetWith cfg img) where
  admitted := hadm
  arenaLength := List.length_replicate
  slotsLength := List.length_replicate
  headLt := (admitted_iff.mp hadm).robN
  countLe := Nat.zero_le _
  tail := (Nat.zero_mod _).symm
  rsLength := List.length_map _
  rsLengths k hk := by
    show ((cfg.ports.map fun ps => ps.map fun _ => ([] : List Handle)).getD k []).length = _
    rw [getD_map_lt _ (show k < cfg.ports.length from hk) _ []]
    exact List.length_map _
  rrLength := List.length_map _
  rrLt k _ := by
    rw [State.resetWith_rrOf]
    exact ns_pos hadm k
  fqLe := Nat.zero_le _
  dqLe := Nat.zero_le _
  lqLe := Nat.zero_le _
  sqLe := Nat.zero_le _
  stationLe p _ := by rw [State.resetWith_station]; exact Nat.zero_le _
  fetched := fun _ h => nomatch h
  decoded := fun _ h => nomatch h
  inRob := fun _ h => nomatch h
  nodup := List.nodup_nil
  stationed p _ := by rw [State.resetWith_station]; exact ⟨List.nodup_nil, fun _ h => nomatch h⟩
  loads := fun _ h => nomatch h
  stores := fun _ h => nomatch h
  live := fun _ h _ hu => absurd (State.resetWith_uop? cfg img h) hu
  increasing := List.Pairwise.nil
  seqLt := fun _ h => nomatch h
  unwinds := by simp [State.resetWith]
  flushed := fun h => nomatch h
  method := rfl

theorem resetWith_renameShaped (hadm : cfg.admitted = true) :
    (State.resetWith cfg img).renameShaped := by
  have hcls : ∀ {c : Nat}, c < cfg.classes.length → cfg.classes.getD c default = cfg.cls c :=
    fun hc => by rw [Config.cls, List.getD_eq_getElem _ _ hc, List.getD_eq_getElem _ _ hc]
  refine ⟨List.length_map _, length_initialPrfs _ _, List.length_map _, List.length_map _,
    fun c (hc : c < cfg.classes.length) => ⟨?_, ?_, ?_, ?_, fun a (ha : a < cfg.na c) => ?_⟩⟩
  · show ((cfg.classes.map _).getD c []).length = _
    rw [getD_map_lt _ hc _ default, hcls hc, List.length_range]; rfl
  · show ((initialPrfs cfg.classes img.regs).getD c []).length = _
    rw [getD_initialPrfs default _ _ _ hc, hcls hc, initialPrf, List.length_map, List.length_range]
    rfl
  · show ((cfg.classes.map _).getD c []).length = _
    rw [getD_map_lt _ hc _ default, hcls hc, List.length_map, List.length_range]; rfl
  · show ((cfg.classes.map _).getD c []).length = _
    rw [getD_map_lt _ hc _ default, hcls hc, List.length_map, List.length_range]; rfl
  · rw [State.resetWith_ratOf cfg img hc ha]
    exact Nat.lt_of_lt_of_le ha (na_le_np_of_admitted hadm hc)

theorem resetWith_owned : (State.resetWith cfg img).owned := by
  intro c (hc : c < cfg.classes.length) p (hp : p < cfg.np c)
  have hrat : (State.resetWith cfg img).rat.getD c [] = List.range (cfg.na c) := by
    show (cfg.classes.map _).getD c [] = _
    rw [getD_map_lt _ hc _ default, Config.na, Config.cls, List.getD_eq_getElem _ _ hc,
      List.getD_eq_getElem _ _ hc]
  rw [references_eq, hrat, State.resetWith_freeOf cfg img hc hp, List.nodup_range.count]
  simp only [List.mem_range, decide_eq_true_eq]
  show (if p < cfg.na c then 1 else 0) + 0 = _
  split <;> split <;> omega

theorem resetWith_renaming (hadm : cfg.admitted = true) : Renaming (State.resetWith cfg img) where
  sound := resetWith_sound cfg img hadm
  shaped := resetWith_renameShaped cfg img hadm
  owned := resetWith_owned cfg img
  undoable := trivial
  inRange := fun _ h => nomatch h
  operands := fun _ h => nomatch h

end

/-- Settles O49: nothing is in flight, and each alias table is the identity. -/
theorem resetHasRenameInvariants : Obligations.ResetHasRenameInvariants := by
  intro cfg img hadm
  refine ⟨renameOk_iff.mpr (resetWith_renaming cfg img hadm), ⟨?_, ?_, ?_⟩, fun c hc z hz => ?_,
    resetWith_valuesFit cfg img⟩
  · exact fun _ h => nomatch h
  · exact fun _ _ h => nomatch h
  · exact fun j u hu => nomatch hu
  · have ha := wiredZero_lt hadm hc hz
    have hp := Nat.lt_of_lt_of_le ha (na_le_np_of_admitted hadm hc)
    rw [State.resetWith_ratOf cfg img hc ha, State.resetWith_freeOf cfg img hc hp,
      State.resetWith_validOf cfg img hc hp, State.resetWith_prfOf cfg img hc hp]
    have hzr : cfg.zr c = some z := hz
    simp [ha, hzr]

end Sys2Proof.Machine
end

section
namespace Sys2Proof.Machine

/-! ## The data-flow invariants, by name (10_state.md R43) -/

/-- What `State.dataflowOk` says of one entry of the ROB. -/
structure Flows (s : State) (j : Nat) (u : Uop) : Prop where
  delaySlot : u.hasDs = true → u.cat = some .branch ∨ u.cat = some .jump
  sources : ∀ x ∈ u.sources, RegRef.inRange s.cfg ⟨x.cls, x.arch⟩ = true ∧
    x.phys = s.tagBefore j x.cls x.arch
  pending : ∀ d ∈ u.dests, s.validOf d.cls d.fresh = true → u.complete = true
  ready : u.executed = true → s.sourcesValid u = true
  sequential : u.executed = true → (∀ i ≤ j, ¬s.staleLoad i) → s.executedSequentially j u

/-- `State.dataflowOk` with a name for each part. -/
structure Dataflow (s : State) : Prop where
  decoded : ∀ h ∈ s.dq, ∀ u ∈ s.uop? h, u.hasDs = true → u.cat = some .branch ∨ u.cat = some .jump
  loads : s.recovery = false → ∀ h ∈ s.robList, ∀ u ∈ s.uop? h, u.cat = some .load → h ∈ s.lq
  entries : ∀ j (u : Uop), s.program[j]? = some u → Flows s j u

theorem dataflowOk_iff {s : State} : s.dataflowOk ↔ Dataflow s :=
  ⟨fun ⟨h1, h2, h3⟩ => ⟨h1, h2, fun j u hu =>
      have ⟨a, b, c, d, e⟩ := h3 j u hu
      ⟨a, b, c, d, e⟩⟩,
    fun ⟨h1, h2, h3⟩ => ⟨h1, h2, fun j u hu =>
      have ⟨a, b, c, d, e⟩ := h3 j u hu
      ⟨a, b, c, d, e⟩⟩⟩

/-! ## Sequential execution, place by place -/

theorem writeRegs_shape (cfg : Config) : ∀ (fs : List (Option RegRef)) (regs : List (List Nat)) (n : Nat)
    (v : Nat → Nat), sameShape (writeRegs cfg regs n fs v) regs
  | [], regs, _, _ => .refl regs
  | none :: fs, regs, n, v => writeRegs_shape cfg fs regs (n + 1) v
  | some _ :: fs, _, n, v => (writeRegs_shape cfg fs _ (n + 1) v).trans (sameShape_set2 _ _ _ _)

/-- Writing the results of a micro-op register by register gives what its slots' new registers hold,
read through the alias tables `rat` after its renaming: each register holds, if it is one of those
`V` speaks of, the value the slots were given, or else the value it held before. -/
theorem get2_writeRegs {cfg : Config} {rat : List (List Nat)} {V : Nat → Nat → Prop}
    {f : Nat → Nat → Nat} {v : Nat → Nat} {c a : Nat} :
    ∀ (ds : List (Option DstSlot)) (n : Nat) (regs : List (List Nat)),
    (∀ d ∈ presentSlots ds, hasEntry rat d.cls d.arch ∧ hasEntry regs d.cls d.arch) →
    undoable (presentSlots ds) rat →
    (∀ m d, ds[m]? = some (some d) → V d.cls d.fresh →
      f d.cls d.fresh = v (n + m) % 2 ^ cfg.vw d.cls) →
    (V c (get2 (unmap (presentSlots ds) rat) c a 0) →
      f c (get2 (unmap (presentSlots ds) rat) c a 0) = get2 regs c a 0) →
    V c (get2 rat c a 0) → f c (get2 rat c a 0) =
      get2 (writeRegs cfg regs n (ds.map fun d => d.map DstSlot.reg) v) c a 0
  | [], _, _, _, _, _, hold, hV => hold hV
  | none :: ds, n, regs, he, hu, hslots, hold, hV =>
    get2_writeRegs ds (n + 1) regs he hu
      (fun m d hm hd => by rw [Nat.add_right_comm]; exact hslots (m + 1) d hm hd) hold hV
  | some d :: ds, n, regs, he, hu, hslots, hold, hV => by
    have hd := he d (by simp)
    obtain ⟨hu, hfresh⟩ := (undoable_cons d (presentSlots ds) rat).mp hu
    refine get2_writeRegs ds (n + 1) _ (fun e hmem => ?_) hu
      (fun m e hm hVe => by rw [Nat.add_right_comm]; exact hslots (m + 1) e hm hVe) (fun hVx => ?_) hV
    · obtain ⟨h1, h2⟩ := he e (by simp [hmem])
      exact ⟨h1, (hasEntry_of (sameShape_set2 _ _ _ _)).mpr h2⟩
    · rw [get2_set2, show d.reg.cls = d.cls from rfl, show d.reg.arch = d.arch from rfl,
        ite_hasEntry hd.2]
      by_cases hca : c = d.cls ∧ a = d.arch
      · obtain ⟨rfl, rfl⟩ := hca
        rw [if_pos ⟨rfl, rfl⟩]
        rw [hfresh] at hVx ⊢
        exact hslots 0 d rfl hVx
      · rw [if_neg hca]
        have hback := get2_unmap_cons hd.1 (presentSlots ds) c a
        rw [if_neg hca] at hback
        rw [← hback] at hVx ⊢
        exact hold hVx

theorem seqStep_shape (cfg : Config) (a : ArchState) (v : OpView) :
    sameShape (seqStep cfg a v).regs a.regs := writeRegs_shape _ _ _ _ _

theorem State.archBefore_zero (s : State) : s.archBefore 0 = s.committed := rfl

theorem State.archBefore_succ {s : State} {j : Nat} {u : Uop} (hu : s.program[j]? = some u) :
    s.archBefore (j + 1) = seqStep s.cfg (s.archBefore j) u.view := by
  unfold State.archBefore
  rw [List.take_add_one, hu, List.map_append, List.foldl_append]
  rfl

theorem State.committedRegs_hasEntry (s : State) {c a : Nat} (hc : c < s.cfg.classes.length)
    (ha : a < s.cfg.na c) : hasEntry s.committedRegs c a := by
  have hlen : s.committedRegs.length = s.cfg.classes.length := by simp [State.committedRegs]
  have hget := s.committedRegs_getElem? c
  rw [if_pos hc] at hget
  refine ⟨hlen ▸ hc, ?_⟩
  rw [List.getD_eq_getElem?_getD, hget]
  simpa using ha

theorem State.get2_committedRegs (s : State) {c a : Nat} (hc : c < s.cfg.classes.length)
    (ha : a < s.cfg.na c) : get2 s.committedRegs c a 0 = s.committedReg c a := by
  have hget := s.committedRegs_getElem? c
  rw [if_pos hc] at hget
  rw [get2, List.getD_eq_getElem?_getD (l := s.committedRegs), hget]
  simp [ha]

theorem foldl_seqStep_shape (cfg : Config) : ∀ (vs : List OpView) (a : ArchState),
    sameShape (vs.foldl (seqStep cfg) a).regs a.regs
  | [], _ => .refl _
  | v :: vs, a => (foldl_seqStep_shape cfg vs _).trans (seqStep_shape cfg a v)

theorem State.archBefore_hasEntry (s : State) (j : Nat) {c a : Nat} (hc : c < s.cfg.classes.length)
    (ha : a < s.cfg.na c) : hasEntry (s.archBefore j).regs c a :=
  (hasEntry_of (foldl_seqStep_shape _ _ _)).mpr (s.committedRegs_hasEntry hc ha)

theorem State.drop_program {s : State} {j : Nat} {u : Uop} (hu : s.program[j]? = some u) :
    s.program.drop j = u :: s.program.drop (j + 1) := by
  obtain ⟨hj, rfl⟩ := List.getElem?_eq_some_iff.mp hu
  exact List.drop_eq_getElem_cons hj

/-- Undoing an entry's slots gives the alias tables before it. -/
theorem State.tagMap_eq {s : State} {j : Nat} {u : Uop} (hu : s.program[j]? = some u) :
    s.tagMap j = unmap u.dests (s.tagMap (j + 1)) := by
  rw [State.tagMap, s.drop_program hu, List.flatMap_cons, unmap_append]
  rfl

theorem State.dests_mem {s : State} {j : Nat} {u : Uop} (hu : s.program[j]? = some u) {d : DstSlot}
    (hd : d ∈ u.dests) : d ∈ s.robDests :=
  List.mem_flatMap.mpr ⟨u, List.mem_of_getElem? hu, hd⟩

theorem Renaming.undoable_at {s : State} (h : Renaming s) {j : Nat} {u : Uop}
    (hu : s.program[j]? = some u) : Machine.undoable u.dests (s.tagMap (j + 1)) := by
  have hund := h.undoable
  rw [s.robDests_split j, s.drop_program hu, List.flatMap_cons, undoable_append, undoable_append]
    at hund
  exact hund.1.2

theorem Renaming.hasEntry_tagMap {s : State} (h : Renaming s) (j : Nat) {d : DstSlot}
    (hd : d ∈ s.robDests) : hasEntry (s.tagMap j) d.cls d.arch :=
  (hasEntry_of (unmap_shape _ _)).mpr (h.entries d hd)

/-- One entry further: if the new registers that `V` speaks of hold the entry's sequential results, and
the registers mapped before it the sequential state before it, those mapped after it hold the
sequential state after it. -/
theorem Renaming.seqStep_regs {s : State} (h : Renaming s) {V : Nat → Nat → Prop}
    {j : Nat} {u : Uop} (hu : s.program[j]? = some u) {c a : Nat}
    (hslots : ∀ n d, u.dst[n]? = some (some d) → V d.cls d.fresh → s.prfOf d.cls d.fresh =
      (u.view.result (s.archBefore j)).value n (u.view.loaded s.cfg.endian (s.archBefore j)) %
        2 ^ s.cfg.vw d.cls)
    (hold : V c (get2 (s.tagMap j) c a 0) →
      s.prfOf c (get2 (s.tagMap j) c a 0) = get2 (s.archBefore j).regs c a 0)
    (hV : V c (get2 (s.tagMap (j + 1)) c a 0)) :
    s.prfOf c (get2 (s.tagMap (j + 1)) c a 0) = get2 (s.archBefore (j + 1)).regs c a 0 := by
  rw [s.archBefore_succ hu]
  refine get2_writeRegs u.dst 0 (s.archBefore j).regs (fun d hd => ?_) (h.undoable_at hu)
    (fun m d hm hVd => by rw [Nat.zero_add]; exact hslots m d hm hVd) ?_ hV
  · have hmem := s.dests_mem hu hd
    obtain ⟨hr, -⟩ := h.inRange d hmem
    obtain ⟨hc, ha⟩ := RegRef.inRange_iff.mp hr
    exact ⟨h.hasEntry_tagMap _ hmem, s.archBefore_hasEntry j hc ha⟩
  · rw [s.tagMap_eq hu] at hold
    exact hold

/-- A complete record of the ROB is executed. -/
theorem Sound.executed_of_complete {s : State} (hs : Sound s) {j : Nat} {u : Uop}
    (hu : s.program[j]? = some u) (hc : u.complete = true) : u.executed = true := by
  obtain ⟨hj, hu⟩ := hs.program_eq_some.mp hu
  obtain ⟨-, hex, hcomp, -⟩ := hs.inRob_of (State.robAt_mem hj) hu
  rw [hex, hcomp.mp hc]
  simp

/-- A valid register mapped at some place holds the sequential value there, unless a load that read too
early stands before. -/
theorem Dataflow.value {s : State} (h : Dataflow s) (hr : Renaming s) {c a : Nat}
    (hc : c < s.cfg.classes.length) (ha : a < s.cfg.na c) :
    ∀ j ≤ s.program.length, (∀ i < j, ¬s.staleLoad i) →
    s.validOf c (get2 (s.tagMap j) c a 0) = true →
    s.prfOf c (get2 (s.tagMap j) c a 0) = get2 (s.archBefore j).regs c a 0
  | 0, _, _, _ => by
    rw [s.archBefore_zero, State.committed, s.get2_committedRegs hc ha, ← hr.tagBefore]
    rfl
  | j + 1, hj, hstale, hv => by
    have hu : s.program[j]? = some s.program[j] := List.getElem?_eq_getElem hj
    have hflow := h.entries j _ hu
    refine hr.seqStep_regs (V := fun c p => s.validOf c p = true) hu (fun n d hd hvd => ?_)
      (h.value hr hc ha j (by omega) fun i hi => hstale i (by omega)) hv
    have hmem : d ∈ (s.program[j]).dests :=
      List.mem_filterMap.mpr ⟨some d, List.mem_of_getElem? hd, rfl⟩
    have hex := hr.sound.executed_of_complete hu (hflow.pending d hmem hvd)
    exact (hflow.sequential hex fun i hi => hstale i (by omega)).1 n d hd

/-- A source slot of an entry: its register is the one mapped there, and not free. -/
theorem Dataflow.source {s : State} (h : Dataflow s) (hr : Renaming s) {j : Nat} {u : Uop}
    (hu : s.program[j]? = some u) {x : SrcSlot} (hx : x ∈ u.sources) :
    x.cls < s.cfg.classes.length ∧ x.arch < s.cfg.na x.cls ∧
      x.phys = get2 (s.tagMap j) x.cls x.arch 0 ∧ s.freeOf x.cls x.phys = false := by
  obtain ⟨hin, hphys⟩ := (h.entries j u hu).sources x hx
  obtain ⟨hc, ha⟩ := RegRef.inRange_iff.mp hin
  rw [hr.tagBefore] at hphys
  exact ⟨hc, ha, hphys, hphys ▸ (hr.tag j hc ha).2.1⟩

theorem lt_of_program {s : State} {j : Nat} {u : Uop} (hu : s.program[j]? = some u) :
    j < s.program.length := (List.getElem?_eq_some_iff.mp hu).1

/-- Settles O59. -/
theorem validSourcesHoldSequentialValues : Obligations.ValidSourcesHoldSequentialValues := by
  intro s hok hflow j u hu x hx
  have hr := renameOk_iff.mp hok
  have hd := dataflowOk_iff.mp hflow
  obtain ⟨hc, ha, hphys, hfree⟩ := hd.source hr hu hx
  refine ⟨hfree, fun hv hstale => ?_⟩
  rw [hphys] at hv ⊢
  exact hd.value hr hc ha j (lt_of_program hu).le hstale hv

end Sys2Proof.Machine
end

section
namespace Sys2Proof.Machine

/-! ## What a load finds in memory (20_memory.md R66 to R68) -/

theorem toNat_add_of_fits {a : Addr} {n : MemSize} (h : a.toNat + n.bytes ≤ 2 ^ 32) {i : Nat}
    (hi : i < n.bytes) : (a + BitVec.ofNat 32 i).toNat = a.toNat + i := by
  rw [BitVec.toNat_add, BitVec.toNat_ofNat]
  omega

/-- If place `j` holds a store, its sequential execution does not write byte `x`. -/
def State.spares (s : State) (j : Nat) (x : Nat) : Prop :=
  ∀ w, s.program[j]? = some w → w.cat = some .store →
    ∀ i < (w.view.result (s.archBefore j)).size.bytes,
      x ≠ ((w.view.result (s.archBefore j)).addr + BitVec.ofNat 32 i).toNat

/-- A byte no older store writes is in sequential memory what it is in memory now. -/
theorem State.memByte_archBefore {s : State} {x : Nat} : ∀ j ≤ s.program.length,
    (∀ k < j, s.spares k x) → memByte (s.archBefore j).mem x = memByte s.mem x
  | 0, _, _ => rfl
  | j + 1, hj, h => by
    have hu : s.program[j]? = some s.program[j] := List.getElem?_eq_getElem hj
    have ih := s.memByte_archBefore j (by omega) fun k hk => h k (by omega)
    rw [s.archBefore_succ hu, seqStep]
    dsimp only
    split
    · rename_i hcat
      rw [memByte_memWrite_apart _ _ _ _ _ (h j (by omega) _ hu hcat), ih]
    · exact ih

/-- A load whose range no older store writes reads from memory what sequential execution gives it. -/
theorem State.loaded_eq {s : State} (hfit : s.accessesFit) {j : Nat} {u : Uop}
    (hu : s.program[j]? = some u) (hcat : u.cat = some .load)
    (hno : ∀ k < j, ∀ w, s.program[k]? = some w → w.cat = some .store →
      overlap (u.view.result (s.archBefore j)).addr (u.view.result (s.archBefore j)).size
        (w.view.result (s.archBefore k)).addr (w.view.result (s.archBefore k)).size = false)
    (e : Endian) :
    memRead e s.mem (u.view.result (s.archBefore j)).addr (u.view.result (s.archBefore j)).size =
      memRead e (s.archBefore j).mem (u.view.result (s.archBefore j)).addr
        (u.view.result (s.archBefore j)).size := by
  have hload := hfit j u hu (.inl hcat)
  unfold memRead
  congr 2
  refine (memBytes_congr fun i hi => ?_).symm
  refine s.memByte_archBefore j (lt_of_program hu).le fun k hk w hw hstore i' hi' heq => ?_
  have hst := hfit k w hw (.inr hstore)
  have hover := hno k hk w hw hstore
  rw [toNat_add_of_fits hload hi, toNat_add_of_fits hst hi'] at heq
  rw [overlap, Bool.and_eq_false_iff, decide_eq_false_iff_not, decide_eq_false_iff_not] at hover
  omega

/-! ## Commits follow sequential execution -/

/-- The rename and the data-flow invariants, with accesses that do not wrap around. -/
structure InOrder (s : State) : Prop where
  names : Renaming s
  flow : Dataflow s
  fit : s.accessesFit

theorem getD_eq_of_lt {α : Type} {l : List α} {c : Nat} (hc : c < l.length) (d : α) :
    l[c]? = some (l.getD c d) := by
  rw [List.getD_eq_getElem _ _ hc, List.getElem?_eq_getElem hc]

/-- Tables of the same shape with the same entries are the same. -/
theorem eq_of_get2 {l m : List (List Nat)} (hshape : sameShape l m)
    (h : ∀ c a, hasEntry l c a → get2 l c a 0 = get2 m c a 0) : l = m := by
  refine List.ext_getElem? fun c => ?_
  by_cases hc : c < l.length
  · rw [getD_eq_of_lt hc [], getD_eq_of_lt (hshape.1 ▸ hc) []]
    congr 1
    refine List.ext_getElem (hshape.2 c) fun a ha ha' => ?_
    have := h c a ⟨hc, ha⟩
    rwa [get2, get2, List.getD_eq_getElem _ _ ha, List.getD_eq_getElem _ _ ha'] at this
  · rw [List.getElem?_eq_none (by omega), List.getElem?_eq_none (by have := hshape.1; omega)]

theorem committedRegs_shape {s t : State} (hcfg : t.cfg = s.cfg) :
    sameShape t.committedRegs s.committedRegs := by
  refine ⟨by simp [State.committedRegs, hcfg], fun c => ?_⟩
  rw [List.getD_eq_getElem?_getD, List.getD_eq_getElem?_getD, State.committedRegs_getElem?,
    State.committedRegs_getElem?, hcfg]
  split <;> simp

theorem hasEntry_committedRegs {s : State} {c a : Nat} (h : hasEntry s.committedRegs c a) :
    c < s.cfg.classes.length ∧ a < s.cfg.na c := by
  obtain ⟨hc, ha⟩ := h
  have hlen : s.committedRegs.length = s.cfg.classes.length := by simp [State.committedRegs]
  have hc := hlen ▸ hc
  refine ⟨hc, ?_⟩
  rw [List.getD_eq_getElem?_getD, State.committedRegs_getElem?, if_pos hc] at ha
  simpa using ha

/-- What depends on the core of a record is, place by place, one entry further before a commit. -/
theorem Commit.map_drop {α : Type} {s t : State} {u : Uop} (hs : Sound s) (h : Commit u s t)
    {f : Uop → α} (hf : ∀ u, f u.core = f u) (j : Nat) :
    (t.program.drop j).map f = (s.program.drop (j + 1)).map f := by
  have hc : s.program.map Uop.core = (u :: t.program).map Uop.core := h.cores hs
  have := map_of_cores hc hf
  rw [List.map_drop, List.map_drop, this]
  rfl

theorem Commit.tagMap {s t : State} {u : Uop} (hs : Sound s) (h : Commit u s t) (j : Nat) :
    t.tagMap j = s.tagMap (j + 1) := by
  rw [State.tagMap, State.tagMap, h.rat, flatMap_dests_of (h.map_drop hs core_dst j)]

/-- What a committed head wrote: its sequential results. -/
theorem Commit.committed {s t : State} {u : Uop} (hr : Renaming s) (h : Commit u s t)
    (hseq : s.executedSequentially 0 u) : t.committed = s.archBefore 1 := by
  have hs := hr.sound
  have hu := h.program_head hs
  obtain ⟨hslots, -, -, hacc, hdata⟩ := hseq
  have hrt := hr.commit h
  have hregs : t.committedRegs = (s.archBefore 1).regs := by
    refine eq_of_get2 ((committedRegs_shape h.cfg).trans ?_) fun c a he => ?_
    · rw [s.archBefore_succ hu, s.archBefore_zero]
      have := seqStep_shape s.cfg s.committed u.view
      exact ⟨this.1.symm, fun c => (this.2 c).symm⟩
    · obtain ⟨hc, ha⟩ := hasEntry_committedRegs he
      have htag : t.committedTag c a = get2 (s.tagMap 1) c a 0 := by
        rw [← t.tagBefore_zero, hrt.tagBefore, h.tagMap hs]
      rw [t.get2_committedRegs hc ha, State.committedReg, htag, State.prfOf, h.prf]
      refine hr.seqStep_regs (V := fun _ _ => True) hu (fun n d hd _ => hslots n d hd) (fun _ => ?_)
        trivial
      rw [h.cfg] at hc ha
      rw [s.archBefore_zero, State.committed, s.get2_committedRegs hc ha, ← hr.tagBefore]
      rfl
  rw [State.committed, hregs, h.mem]
  have hmem : (if u.cat = some .store then memWrite s.cfg.endian s.mem u.maddr u.msize u.mdata
      else s.mem) = (s.archBefore 1).mem := by
    rw [s.archBefore_succ hu, seqStep]
    by_cases hcat : u.cat = some .store
    · obtain ⟨haddr, hsize⟩ := hacc (.inr hcat)
      have hview : u.view.cat = some .store := hcat
      simp only [if_pos hcat, if_pos hview, haddr, hsize, hdata hcat]
      rfl
    · have hview : ¬u.view.cat = some .store := hcat
      simp only [if_neg hcat, if_neg hview]
      rfl
  rw [hmem]

theorem Commit.archBefore {s t : State} {u : Uop} (hr : Renaming s) (h : Commit u s t)
    (hseq : s.executedSequentially 0 u) (j : Nat) : t.archBefore j = s.archBefore (j + 1) := by
  have hu := h.program_head hr.sound
  have hviews : s.program.map Uop.view = (u :: t.program).map Uop.view :=
    map_of_cores (h.cores hr.sound) core_view
  have hone : s.archBefore 1 = seqStep s.cfg s.committed u.view := s.archBefore_succ hu
  rw [State.archBefore, h.committed hr hseq, hone, State.archBefore, h.cfg, List.map_take,
    List.map_take, hviews]
  rfl

/-- An entry behind the head after the commit: its flag stays, and rises where the head is a store it
has overtaken. -/
theorem Commit.entry {s t : State} {u v : Uop} {i : Nat} (hs : Sound s) (h : Commit u s t)
    (hv : s.program[i + 1]? = some v) : ∃ b, t.program[i]? = some { v with loadViolation := b } ∧
      (v.loadViolation = true → b = true) ∧
      (u.cat = some .store → s.robAt (i + 1) ∈ s.lq → orderViolated u v = true → b = true) := by
  obtain ⟨hi, hread⟩ := hs.program_eq_some.mp hv
  have hcount := h.robCount
  have hne : s.robAt (i + 1) ≠ s.robAt 0 := fun e =>
    absurd (hs.robAt_inj hi (by omega) e) (by omega)
  have hit : i < t.robCount := by omega
  have hother := h.others _ hne
  have hst := hs.commit h
  rw [hread] at hother
  by_cases hcond : u.cat = some .store ∧ s.robAt (i + 1) ∈ s.lq
  · rw [if_pos hcond] at hother
    refine ⟨(flagged u v).loadViolation, hst.program_eq_some.mpr ⟨hit, ?_⟩, fun hf => ?_,
      fun _ _ ho => ?_⟩
    · rw [h.robAt hit, hother]
      obtain ⟨b, hb⟩ := flagged_flag u v
      rw [Option.map_some, hb]
    · unfold flagged; split
      · rfl
      · exact hf
    · rw [flagged, if_pos ho]
  · rw [if_neg hcond] at hother
    refine ⟨v.loadViolation, hst.program_eq_some.mpr ⟨hit, ?_⟩, id, fun h1 h2 _ =>
      absurd ⟨h1, h2⟩ hcond⟩
    rw [h.robAt hit, hother]

theorem Commit.notRecovering {s t : State} {u : Uop} (hs : Sound s) (h : Commit u s t) :
    s.recovery = false := by
  cases hrec : s.recovery
  · rfl
  · exact absurd (hs.unwinds.mp hrec) h.scanning

/-- A load that read too early is still known to have after a commit. -/
theorem Commit.staleLoad {s t : State} {u : Uop} (hr : Renaming s) (hd : Dataflow s)
    (h : Commit u s t) (hseq : s.executedSequentially 0 u) {i : Nat} (hst : s.staleLoad (i + 1)) :
    t.staleLoad i := by
  have hs := hr.sound
  have hu := h.program_head hs
  obtain ⟨v, hv, hcat, hex, hcase⟩ := hst
  obtain ⟨b, hvt, hkeep, hrise⟩ := h.entry hs hv
  refine ⟨_, hvt, hcat, hex, ?_⟩
  obtain hflag | ⟨k, w, hk, hw, hstore, hover⟩ := hcase
  · exact .inl (hkeep hflag)
  · cases k with
    | zero =>
      obtain rfl : u = w := Option.some.inj (hu.symm.trans hw)
      obtain ⟨-, -, -, hacc, -⟩ := hseq
      obtain ⟨haddr, hsize⟩ := hacc (.inr hstore)
      obtain ⟨hi, hread⟩ := hs.program_eq_some.mp hv
      have hlq := hd.loads (h.notRecovering hs) _ (State.robAt_mem hi) v hread hcat
      refine .inl (hrise hstore hlq ?_)
      rw [orderViolated, decide_eq_true (hs.seq_lt (Nat.succ_pos i) hu hv), hex, haddr, hsize]
      exact hover
    | succ k =>
      obtain ⟨b', hwt, -⟩ := h.entry hs hw
      refine .inr ⟨k, _, Nat.lt_of_succ_lt_succ hk, hwt, hstore, ?_⟩
      rw [h.archBefore hr hseq]
      exact hover

/-- A commit of a head that is no load that read too early keeps the invariants. -/
theorem InOrder.commit {s t : State} {u : Uop} (h : InOrder s) (hc : Commit u s t)
    (hstale : ¬s.staleLoad 0) : InOrder t := by
  obtain ⟨hr, hd, hfit⟩ := h
  have hs := hr.sound
  have hu := hc.program_head hs
  have hrt := hr.commit hc
  have hseq : s.executedSequentially 0 u := (hd.entries 0 u hu).sequential (hc.executed hs)
    fun i hi => by rw [Nat.le_zero.mp hi]; exact hstale
  have harch := hc.archBefore hr hseq
  refine ⟨hrt, ⟨fun g hg v' hv' hds => ?_, fun hrec g hg v' hv' hcat => ?_, fun j v' hv' => ?_⟩,
    fun j v' hv' hcat => ?_⟩
  · rw [hc.dq] at hg
    have hne : g ≠ s.robAt 0 := fun e => hs.fq_not_rob (h := g) (by simp [hg])
      (e ▸ State.robAt_mem (Nat.pos_of_ne_zero hc.count))
    have hmap := hc.other_map hne (f := Uop.view) fun _ _ => rfl
    rw [show t.uop? g = some v' from hv'] at hmap
    obtain ⟨v, hv, he⟩ := Option.map_eq_some_iff.mp hmap.symm
    have := hd.decoded g hg v hv ((congrArg OpView.hasDs he).trans hds)
    rwa [show v'.cat = v.cat from (congrArg OpView.cat he).symm]
  · rw [hc.robList] at hg
    have hmem := List.mem_of_mem_tail hg
    have hne : g ≠ s.robAt 0 := ne_of_mem_of_not_mem hg (hs.head_not_mem hc.count)
    have hmap := hc.other_map hne (f := Uop.cat) fun _ _ => rfl
    rw [show t.uop? g = some v' from hv'] at hmap
    obtain ⟨v, hv, he⟩ := Option.map_eq_some_iff.mp hmap.symm
    have hold := hd.loads (hc.notRecovering hs) g hmem v hv (he.trans hcat)
    rw [hc.lq]
    split
    · exact List.mem_filter.mpr ⟨hold, by simpa using hne⟩
    · exact hold
  · obtain ⟨v, b, hv, rfl⟩ := hc.program_getElem? hs hv'
    obtain ⟨h1, h2, h3, h4, h5⟩ := hd.entries _ v hv
    have hvalid : t.validOf = s.validOf := by unfold State.validOf; rw [hc.valid]
    refine ⟨h1, fun x hx => ?_, fun d hm hval => h3 d hm (hvalid ▸ hval), fun hex => ?_,
      fun hex hno => ?_⟩
    · rw [hc.cfg, hrt.tagBefore, hc.tagMap hs, ← hr.tagBefore]
      exact h2 x hx
    · exact (sourcesValid_of hc.valid v).trans (h4 hex)
    · have hold := h5 hex fun i hi hst => by
        cases i with
        | zero => exact hstale hst
        | succ i => exact hno i (by omega) (hc.staleLoad hr hd hseq hst)
      unfold State.executedSequentially State.prfOf at hold ⊢
      rw [harch, hc.cfg, hc.prf]
      exact hold
  · obtain ⟨v, b, hv, rfl⟩ := hc.program_getElem? hs hv'
    rw [harch]
    exact hfit _ v hv hcat

/-- The head is no load that read too early when it is not flagged, or is no load. -/
theorem not_staleLoad_zero {s : State} {u : Uop} (hu : s.program[0]? = some u)
    (h : u.cat = some .load → u.loadViolation = false) : ¬s.staleLoad 0 := by
  rintro ⟨v, hv, hcat, -, hflag | ⟨k, -, hk, -⟩⟩
  · obtain rfl : u = v := Option.some.inj (hu.symm.trans hv)
    rw [h hcat] at hflag
    cases hflag
  · omega

/-- What every commit of a head that is no load that read too early keeps, a pass keeps: no pass
commits another. -/
theorem InOrder.retire_keeps {P : State → Prop}
    (hP : ∀ m u x, InOrder m → Commit u m x → ¬m.staleLoad 0 → P m → P x) {s t : State}
    (h : InOrder s) (hm : Retire s t) (hp : P s) : InOrder t ∧ P t := by
  have hs := h.names.sound
  have hstep : ∀ {m u x}, InOrder m → P m → Commit u m x → ¬m.staleLoad 0 → InOrder x ∧ P x :=
    fun hm hp hc hst => ⟨hm.commit hc hst, hP _ _ _ hm hc hst hp⟩
  have hcti : ∀ {u m}, Commit u s m → u.hasDs = true →
      u.cat = some .branch ∨ u.cat = some .jump := fun hc hds =>
    (h.flow.entries 0 _ (hc.program_head hs)).delaySlot hds
  have hfirst : ∀ {u m}, Commit u s m → u.hasDs = true → InOrder m ∧ P m := fun hc hds =>
    hstep h hp hc (not_staleLoad_zero (hc.program_head hs) fun hl => by
      obtain he | he := hcti hc hds <;> rw [hl] at he <;> cases he)
  cases hm with
  | single hc hflag => exact hstep h hp hc (not_staleLoad_zero (hc.program_head hs) fun _ => hflag)
  | first hc hds => exact hfirst hc hds
  | @pair m _ u v w hc hds hv hflag hc2 =>
    obtain ⟨hm, hpm⟩ := hfirst hc hds
    have h0 := hc2.count
    have hcount := hc.robCount
    have hne : s.robAt 1 ≠ s.robAt 0 := fun e =>
      absurd (hs.robAt_inj (by omega) (by omega) e) (by omega)
    have hnostore : ¬(u.cat = some .store ∧ s.robAt 1 ∈ s.lq) := fun ⟨he, _⟩ => by
      obtain he' | he' := hcti hc hds <;> rw [he] at he' <;> cases he'
    have hhead := hc2.head
    rw [hc.robAt (Nat.pos_of_ne_zero h0), hc.others _ hne, if_neg hnostore, hv] at hhead
    obtain rfl := Option.some.inj hhead
    exact hstep hm hpm hc2 (not_staleLoad_zero (hc2.program_head hm.names.sound) fun _ => hflag)

theorem InOrder.retires_keep {P : State → Prop}
    (hP : ∀ m u x, InOrder m → Commit u m x → ¬m.staleLoad 0 → P m → P x) {s t : State}
    (h : InOrder s) (hm : Retires s t) (hp : P s) : InOrder t ∧ P t := by
  induction hm with
  | refl => exact ⟨h, hp⟩
  | tail _ hstep ih => exact ih.1.retire_keeps hP hstep ih.2

/-- The passes of the retire stage keep the invariants. -/
theorem InOrder.retires {s t : State} (h : InOrder s) (hm : Retires s t) : InOrder t :=
  (h.retires_keep (P := fun _ => True) (fun _ _ _ _ _ _ => id) hm trivial).1

end Sys2Proof.Machine
end

section
namespace Sys2Proof.Machine

/-! ## What a move leaves of the oldest entries -/

/-- What execution leaves in a record. -/
def Uop.outcome (u : Uop) : Bool × Bool × Pc × Bool × Addr × MemSize × BitVec 64 × Bool :=
  (u.executed, u.unmodelled, u.redirectPc, u.mispredict, u.maddr, u.msize, u.mdata, u.loadViolation)

/-- A record further on in its life in the ROB. -/
structure Settles (u v : Uop) : Prop where
  core : v.core = u.core
  complete : u.complete = true → v.complete = true
  outcome : u.executed = true → v.outcome = u.outcome

theorem Settles.refl (u : Uop) : Settles u u := ⟨rfl, id, fun _ => rfl⟩

/-- What the core of a record holds stays. -/
theorem Settles.of_core {α : Type} {u v : Uop} (h : Settles u v) {f : Uop → α}
    (hf : ∀ u, f u.core = f u) : f v = f u := by rw [← hf v, h.core, hf]

theorem Settles.view {u v : Uop} (h : Settles u v) : v.view = u.view := h.of_core core_view

theorem Settles.stampReady (s : State) (u : Uop) : Settles u (s.stampReady u) := by
  unfold State.stampReady
  split
  · exact ⟨rfl, id, fun _ => rfl⟩
  · exact .refl u

/-- The move is the execution of the entry `g`, and leaves the record `v`. -/
def Executes (p : Phase) (s t : State) (g : Handle) (u v : Uop) : Prop :=
  p = .issue ∧ ∃ i, u.instr = some i ∧ s.sourcesValid u = true ∧ t = s.execute g u i ∧
    v = u.executedAs (noteOf i) (Config.exec u.view (s.sourceValues u)) s.cycle

/-- The records a move writes while they stay in the ROB go on; only by executing one it makes it
executed. -/
theorem Quiet.settles {p : Phase} {s t : State} (hs : Sound s) (hq : Quiet p s t) {g : Handle} {u : Uop}
    (hg : g ∈ s.robList) (hgt : g ∈ t.robList) (hu : s.uop? g = some u) :
    ∃ v, t.uop? g = some v ∧ Settles u v ∧ (v.executed = u.executed ∨ Executes p s t g u v) := by
  have hsame : ∀ {o : Option Uop}, o = some u →
      ∃ v, o = some v ∧ Settles u v ∧ (v.executed = u.executed ∨ Executes p s t g u v) :=
    fun ho => ⟨u, ho, .refl u, .inl rfl⟩
  have hwrite : ∀ {h : Handle} {w : Uop},
      (g = h → Settles u w ∧ (w.executed = u.executed ∨ Executes p s t g u w)) →
      ∃ v, (if g = h then some w else s.uop? g) = some v ∧ Settles u v ∧
        (v.executed = u.executed ∨ Executes p s t g u v) := fun {h w} hw => by
    by_cases hgh : g = h
    · exact ⟨w, if_pos hgh, hw hgh⟩
    · exact hsame (by rw [if_neg hgh, hu])
  cases hq with
  | @place s h rest w i j ha hd hw hi hp =>
    have hpl : Placing s h rest w i j := ⟨ha, hd, hw, hi, hp⟩
    exact hsame (by rw [hpl.readAfter, if_neg (ne_of_mem_of_not_mem hg (hpl.notRob hs)), hu])
  | @execute s h w i p _ hp hw hi hsrc =>
    obtain ⟨-, v, hv, hstate, -⟩ := (hs.stationed p (hs.mem_station hp)).2 h hp
    rw [State.uop?_execute hw]
    refine hwrite fun e => ?_
    subst e
    obtain rfl := Option.some.inj (hu.symm.trans hw)
    obtain rfl := Option.some.inj (hu.symm.trans hv)
    refine ⟨⟨core_executedAs i u _ _, fun hc => ?_, fun hex => ?_⟩,
      .inr ⟨rfl, i, hi, hsrc, rfl, rfl⟩⟩
    · obtain ⟨-, -, hcomp, -⟩ := hs.inRob_of hg hu
      rw [hcomp.mp hc] at hstate
      cases hstate
    · exact absurd hstate ((hs.inRob_of hg hu).2.1.mp hex)
  | @complete s h w _ _ hw _ =>
    rw [completed_uop? hw]
    refine hwrite fun e => ?_
    subst e
    obtain rfl := Option.some.inj (hu.symm.trans hw)
    exact ⟨⟨rfl, fun _ => rfl, fun _ => rfl⟩, .inl rfl⟩
  | @undo s w _ h0 _ =>
    rw [State.robList_undo h0] at hgt
    have hne := ne_of_mem_of_not_mem hgt (hs.last_not_mem h0)
    exact hsame (by rw [State.uop?_undo, if_neg hne, hu])
  | enter he =>
    exact ⟨flushedUop s g u, by rw [he.readRob hs hg, hu]; rfl, ⟨rfl, id, fun _ => rfl⟩, .inl rfl⟩
  | @stamp s h w hw =>
    have hread : (s.setUop h (s.stampReady w)).uop? g =
        if g = h then some (s.stampReady w) else s.uop? g := by
      rw [State.uop?_setUop]; simp [State.lt_of_uop? hw]
    rw [hread]
    refine hwrite fun e => ?_
    subst e
    obtain rfl := Option.some.inj (hu.symm.trans hw)
    exact ⟨.stampReady s u, .inl (by unfold State.stampReady; split <;> rfl)⟩
  | @decode s h rest w op i atomic bits _ hfq _ hw _ =>
    have hne : g ≠ h := fun e => hs.fq_not_rob (h := h) (by rw [hfq]; simp) (e ▸ hg)
    exact hsame (by rw [State.uop?_decodeMove hw, if_neg hne, hu])
  | fetch _ pc pending ha hroom =>
    have hpass := hs.fetchPass ha hroom pc pending
    have hne : g ≠ s.newSlot := fun e => hs.robLive g hg (e ▸ hpass.free)
    exact hsame (by rw [hpass.read, if_neg hne, hu])
  | resume | raise | rstate | tick => exact hsame hu

/-- A move leaves the entries of the ROB, but for one more or one less at the end. -/
theorem Quiet.robList {p : Phase} {s t : State} (hs : Sound s) (hq : Quiet p s t) :
    t.robList = s.robList ∨ (∃ h, t.robList = s.robList ++ [h]) ∨
      t.robList = s.robList.dropLast := by
  cases hq with
  | @place s h rest w i j ha hd hw hi hp =>
    have hpl : Placing s h rest w i j := ⟨ha, hd, hw, hi, hp⟩
    exact .inr (.inl ⟨h, hpl.robList hs⟩)
  | undo _ h0 _ => exact .inr (.inr (State.robList_undo h0 _))
  | execute => exact .inl (by rw [execute_eq]; rfl)
  | complete => exact .inl (by rw [publishDests_eq]; rfl)
  | enter he => exact .inl he.robList
  | resume | raise | rstate | stamp | decode | fetch | tick => exact .inl rfl

theorem Quiet.robAt {p : Phase} {s t : State} (hs : Sound s) (hq : Quiet p s t) {j : Nat}
    (hj : j < s.robCount) (hjt : j < t.robCount) : t.robAt j = s.robAt j := by
  refine Option.some.inj ?_
  rw [← State.robList_getElem? t hjt, ← State.robList_getElem? s hj]
  obtain h | ⟨g, h⟩ | h := hq.robList hs
  · rw [h]
  · rw [h, List.getElem?_append_left (by simpa using hj)]
  · have hlen : t.robCount = s.robCount - 1 := by
      rw [← State.length_robList, h, List.length_dropLast, State.length_robList]
    rw [h, List.getElem?_dropLast, State.length_robList, if_pos (by omega)]

/-- The `n` oldest entries of a state are those of an earlier one, further on in their lives. -/
structure Follows (s t : State) (n : Nat) : Prop where
  cfg : t.cfg = s.cfg
  committed : t.committed = s.committed
  entries : ∀ j < n, ∃ u v, s.program[j]? = some u ∧ t.program[j]? = some v ∧ Settles u v
  tags : ∀ j ≤ n, t.tagMap j = s.tagMap j

theorem Renaming.tagMap_quiet {p : Phase} {s t : State} (h : Renaming s) (hq : Quiet p s t) {j : Nat}
    (hj : j ≤ s.program.length) (hjt : j ≤ t.program.length) : t.tagMap j = s.tagMap j := by
  obtain hsame | ⟨g, rest, u, i, k, hp, rfl⟩ | ⟨u, -, h0, hu, rfl⟩ := hq.rename_cases h.sound
  · exact hsame.tagMap j
  · rw [State.tagMap, hp.program h.sound, List.drop_append_of_le_length hj, List.flatMap_append,
      List.flatMap_singleton, unmap_append, hp.unmap]
    rfl
  · rw [State.tagMap, State.tagMap, h.sound.program_concat h0 hu, List.drop_append_of_le_length hjt,
      List.flatMap_append, List.flatMap_singleton, unmap_append]
    exact congrArg (Machine.unmap _) (restoreDests_rat s u.dst)

theorem Renaming.follows {p : Phase} {s t : State} (h : Renaming s) (hq : Quiet p s t) :
    Follows s t (min s.program.length t.program.length) := by
  have hs := h.sound
  have hst := hq.sound hs
  refine ⟨hq.cfg, h.committed_quiet hq, fun j hj => ?_,
    fun j hj => h.tagMap_quiet hq (by omega) (by omega)⟩
  rw [hs.length_program, hst.length_program] at hj
  have hjs : j < s.robCount := by omega
  have hjt : j < t.robCount := by omega
  have hat := hq.robAt hs hjs hjt
  obtain ⟨u, hu, -⟩ := hs.inRob _ (State.robAt_mem hjs)
  obtain ⟨v, hv, hset, -⟩ := hq.settles hs (State.robAt_mem hjs) (hat ▸ State.robAt_mem hjt) hu
  exact ⟨u, v, hs.program_eq_some.mpr ⟨hjs, hu⟩, hst.program_eq_some.mpr ⟨hjt, hat ▸ hv⟩, hset⟩

theorem Follows.archBefore {s t : State} {n : Nat} (h : Follows s t n) :
    ∀ j ≤ n, t.archBefore j = s.archBefore j
  | 0, _ => h.committed
  | j + 1, hj => by
    obtain ⟨u, v, hu, hv, hset⟩ := h.entries j hj
    rw [t.archBefore_succ hv, s.archBefore_succ hu, h.cfg, h.archBefore j (by omega), hset.view]

/-- A load that read too early is still known to have. -/
theorem Follows.staleLoad {s t : State} {n : Nat} (h : Follows s t n) {i : Nat} (hi : i < n)
    (hst : s.staleLoad i) : t.staleLoad i := by
  obtain ⟨w, hw, hcat, hex, hcase⟩ := hst
  obtain ⟨u, v, hu, hv, hset⟩ := h.entries i hi
  obtain rfl := Option.some.inj (hw.symm.trans hu)
  have hout := hset.outcome hex
  simp only [Uop.outcome, Prod.mk.injEq] at hout
  obtain ⟨hex', -, -, -, haddr, hsize, -, hflag⟩ := hout
  have hcat' : v.cat = w.cat := congrArg OpView.cat hset.view
  refine ⟨v, hv, hcat'.trans hcat, hex'.trans hex, ?_⟩
  refine hcase.imp (fun hf => hflag.trans hf) fun ⟨k, x, hk, hx, hstore, hover⟩ => ?_
  obtain ⟨y, z, hy, hz, hset'⟩ := h.entries k (by omega)
  obtain rfl := Option.some.inj (hx.symm.trans hy)
  refine ⟨k, z, hk, hz, (congrArg OpView.cat hset'.view).trans hstore, ?_⟩
  rw [hset'.view, h.archBefore k (by omega), haddr, hsize]
  exact hover

theorem Follows.accessesFit {s t : State} (h : Follows s t t.program.length) (hfit : s.accessesFit) :
    t.accessesFit := by
  intro j v hv hcat
  have hj := lt_of_program hv
  obtain ⟨u, v', hu, hv', hset⟩ := h.entries j hj
  obtain rfl := Option.some.inj (hv.symm.trans hv')
  have hcat' : v.cat = u.cat := congrArg OpView.cat hset.view
  rw [hset.view, h.archBefore j hj.le]
  exact hfit j u hu (hcat' ▸ hcat)

/-! ## Registers, validity and slots across a move -/

/-- The new register of a slot of the ROB is not free. -/
theorem Renaming.fresh_busy {s : State} (h : Renaming s) {d : DstSlot} (hd : d ∈ s.robDests) :
    s.freeOf d.cls d.fresh = false := by
  obtain ⟨hr, -, hf, -⟩ := h.inRange d hd
  have hat := h.references_at 0 d.cls d.fresh
  rw [List.drop_zero] at hat
  have hone : 1 ≤ freshCount (s.program.flatMap Uop.dests) d.cls d.fresh := one_le_freshCount hd
  exact h.busy (RegRef.inRange_iff.mp hr).1 hf (by omega)

/-- Slots of distinct entries were given distinct registers. -/
theorem Renaming.fresh_inj {s : State} (h : Renaming s) {i j : Nat} {u v : Uop}
    (hu : s.program[i]? = some u) (hv : s.program[j]? = some v) {d e : DstSlot} (hd : d ∈ u.dests)
    (he : e ∈ v.dests) (hcls : d.cls = e.cls) (hfresh : d.fresh = e.fresh) : i = j := by
  have hnd := h.freshNodup
  rw [State.robDests, List.map_flatMap, List.nodup_flatMap] at hnd
  have hpair := List.pairwise_iff_getElem.mp hnd.2
  obtain ⟨hi, rfl⟩ := List.getElem?_eq_some_iff.mp hu
  obtain ⟨hj, rfl⟩ := List.getElem?_eq_some_iff.mp hv
  have hkey : (d.cls, d.fresh) = (e.cls, e.fresh) := by rw [hcls, hfresh]
  have hd' := List.mem_map_of_mem (f := fun d : DstSlot => (d.cls, d.fresh)) hd
  have he' := List.mem_map_of_mem (f := fun d : DstSlot => (d.cls, d.fresh)) he
  rcases Nat.lt_trichotomy i j with hlt | heq | hgt
  · exact absurd (hkey ▸ he') (hpair i j hi hj hlt hd')
  · exact heq
  · exact absurd (hkey ▸ hd') (hpair j i hj hi hgt he')

/-- A register in use is valid after a move only if it was before, or its micro-op completed. -/
theorem Renaming.validOf_quiet {p : Phase} {s t : State} (h : Renaming s) (hq : Quiet p s t)
    {c x : Nat} (hbusy : s.freeOf c x = false) (hv : t.validOf c x = true) : s.validOf c x = true ∨
      ∃ g ∈ s.robList, ∃ u v, s.uop? g = some u ∧ t.uop? g = some v ∧ v.complete = true ∧
        ∃ d ∈ u.dests, d.cls = c ∧ d.fresh = x := by
  cases hq with
  | @place s g rest u i j ha hd hu hi hp =>
    have hpl : Placing s g rest u i j := ⟨ha, hd, hu, hi, hp⟩
    have helse := (hpl.renamed h).validElse c x fun d hd ⟨hcls, hfresh⟩ => by
      have := (hpl.renamed h).granted d hd
      rw [hcls, hfresh, hbusy] at this
      cases this
    have hmaps : (s.placed g u i j).valid = _ := (Placing.maps g u i j).2.2.1
    change get2 (s.placed g u i j).valid c x false = true at hv
    rw [hmaps] at hv
    exact .inl (helse.symm.trans hv)
  | @complete s g u ha hg hu hdue =>
    rw [completed_validOf h.shaped (fun d hd => h.inRange d (State.dests_subset hg hu d hd)),
      Bool.or_eq_true, List.any_eq_true] at hv
    refine hv.imp_right fun ⟨d, hd, he⟩ => ⟨g, hg, u, u.completedAt s.cycle, hu, ?_, rfl, d, hd,
      of_decide_eq_true he⟩
    rw [completed_uop? hu, if_pos rfl]
  | execute => rw [execute_eq] at hv; exact .inl hv
  | enter he => rw [he.writes] at hv; exact .inl hv
  | undo | resume | raise | rstate | stamp | fetch | tick | decode => exact .inl hv

/-- A move writes no register but the new ones of a micro-op not yet executed. -/
theorem Quiet.prfOf {p : Phase} {s t : State} (hs : Sound s) (hq : Quiet p s t) {c x : Nat}
    (hno : ∀ g ∈ s.robList, ∀ u, s.uop? g = some u → u.executed = false → ∀ d ∈ u.dests,
      ¬(d.cls = c ∧ d.fresh = x)) : t.prfOf c x = s.prfOf c x := by
  cases hq with
  | @execute s g u i p _ hp hu _ _ =>
    obtain ⟨hrob, v, hv, hstate, -⟩ := (hs.stationed p (hs.mem_station hp)).2 g hp
    obtain rfl := Option.some.inj (hu.symm.trans hv)
    refine State.prfOf_execute_other (hno g hrob u hu ?_)
    obtain ⟨-, hex, -⟩ := hs.inRob_of hrob hu
    cases he : u.executed
    · rfl
    · exact absurd hstate (hex.mp he)
  | place => rw [place_eq]; rfl
  | complete => simp [State.prfOf]
  | enter he => rw [he.writes]; rfl
  | undo | resume | raise | rstate | stamp | fetch | tick | decode => rfl

end Sys2Proof.Machine
end

section
namespace Sys2Proof.Machine

/-! ## Executing an entry with the operands of its place (42_scheduler.md R165) -/

theorem State.sourcesValid_iff {s : State} {u : Uop} :
    s.sourcesValid u = true ↔ ∀ x ∈ u.sources, s.validOf x.cls x.phys = true := by
  unfold State.sourcesValid Uop.sources
  rw [List.all_eq_true]
  constructor
  · intro h x hx
    obtain ⟨f, hf, rfl⟩ := List.mem_filterMap.mp hx
    exact h (some x) hf
  · intro h f hf
    cases f with
    | none => rfl
    | some x => exact h x (List.mem_filterMap.mpr ⟨some x, hf, rfl⟩)

theorem present_sources (u : Uop) :
    Operands.present u.view.operands.src = u.sources.map fun x => ⟨x.cls, x.arch⟩ := by
  have hsrc : u.view.operands.src = u.src.map fun f => f.map fun x => (⟨x.cls, x.arch⟩ : RegRef) := rfl
  rw [hsrc, Uop.sources, Operands.present, List.filterMap_map, List.map_filterMap]
  rfl

/-- With its sources valid and no load before it that read too early, an entry's `Exec` is given what
sequential execution gives it. -/
theorem Dataflow.exec_eq {s : State} (h : Dataflow s) (hr : Renaming s) {j : Nat} {u : Uop}
    (hu : s.program[j]? = some u) (hv : s.sourcesValid u = true) (hno : ∀ i < j, ¬s.staleLoad i) :
    Config.exec u.view (s.sourceValues u) = u.view.result (s.archBefore j) := by
  rw [OpView.result, present_sources, List.map_map, State.sourceValues]
  congr 1
  refine List.map_congr_left fun x hx => ?_
  obtain ⟨hc, ha, hphys, -⟩ := h.source hr hu hx
  have hvx := State.sourcesValid_iff.mp hv x hx
  rw [hphys] at hvx ⊢
  exact h.value hr hc ha j (lt_of_program hu).le hno hvx

/-- What execution notes in the record, by its category. -/
structure Noted (u : Uop) (r : ExecResult) (v : Uop) : Prop where
  unmodelled : v.unmodelled = r.unmodelled
  transfer : u.cat = some .branch ∨ u.cat = some .jump →
    v.redirectPc = r.nextPc ∧ v.mispredict = decide (r.nextPc ≠ predNext u.hasDs u)
  access : u.cat = some .load ∨ u.cat = some .store → v.maddr = r.addr ∧ v.msize = r.size
  data : u.cat = some .store → v.mdata = storeBits r.size r.data

theorem Uop.noted {u : Uop} {i : Instr} (hi : u.instr = some i) (r : ExecResult) (now : Nat) :
    Noted u r (u.executedAs (noteOf i) r now) := by
  unfold Uop.instr at hi
  obtain ⟨c, hc, rfl⟩ := Option.map_eq_some_iff.mp hi
  cases c with
  | branch | jump => exact ⟨rfl, fun _ => ⟨rfl, rfl⟩, by simp [hc], by simp [hc]⟩
  | load => exact ⟨rfl, by simp [hc], fun _ => ⟨rfl, rfl⟩, by simp [hc]⟩
  | store => exact ⟨rfl, by simp [hc], fun _ => ⟨rfl, rfl⟩, fun _ => rfl⟩
  | aluImm | aluReg | system | fp => exact ⟨rfl, by simp [hc], by simp [hc], by simp [hc]⟩

theorem Renaming.destsNodup {s : State} (h : Renaming s) {j : Nat} {u : Uop}
    (hu : s.program[j]? = some u) : (u.dests.map fun d => (d.cls, d.fresh)).Nodup := by
  have hnd := h.freshNodup
  rw [State.robDests, List.map_flatMap, List.nodup_flatMap] at hnd
  exact hnd.1 u (List.mem_of_getElem? hu)

theorem State.prfOf_execute {s : State} (hr : Renaming s) {j : Nat} {u : Uop}
    (hu : s.program[j]? = some u) (g : Handle) (i : Instr) {n : Nat} {d : DstSlot}
    (hd : u.dst[n]? = some (some d)) : (s.execute g u i).prfOf d.cls d.fresh =
      (Config.exec u.view (s.sourceValues u)).value n
        (dataOf i.category s (Config.exec u.view (s.sourceValues u))) % 2 ^ s.cfg.vw d.cls := by
  have hent : ∀ d ∈ presentSlots u.dst, hasEntry (s.leaveStation g u.station).prf d.cls d.fresh :=
    fun d hd => by simpa using DstSlot.hasEntry_prf hr.shaped (hr.inRange d (s.dests_mem hu hd))
  have := prfOf_writeDests (s.leaveStation g u.station) 0 u.dst (fun j =>
    (Config.exec u.view (s.sourceValues u)).value j
      (dataOf i.category s (Config.exec u.view (s.sourceValues u)))) hent (hr.destsNodup hu) n d hd
  simpa [State.execute] using this

/-- The data `Exec`'s values are computed with are those a load finds in sequential execution, if it
reads the same bytes. -/
theorem dataOf_eq_loaded {s : State} {u : Uop} {i : Instr} (hi : u.instr = some i) {a : ArchState}
    (hmem : u.cat = some .load →
      memRead s.cfg.endian s.mem (u.view.result a).addr (u.view.result a).size =
        memRead s.cfg.endian a.mem (u.view.result a).addr (u.view.result a).size) :
    dataOf i.category s (u.view.result a) = u.view.loaded s.cfg.endian a := by
  have hcat : u.view.cat = some i.category := (Uop.instr_eq_some hi).1
  rw [OpView.loaded, hcat]
  cases hc : i.category with
  | load => exact hmem (hcat.trans (congrArg some hc))
  | aluImm | aluReg | branch | jump | store | system | fp => rfl

/-- An entry executed in the right order holds what sequential execution computes. -/
theorem InOrder.execute {s : State} (h : InOrder s) {g : Handle} {j : Nat} {u : Uop} {i : Instr}
    (hg : s.robAt j = g) (hu : s.program[j]? = some u) (hi : u.instr = some i)
    (hv : s.sourcesValid u = true) (hf : Follows s (s.execute g u i) s.program.length)
    (hst : Sound (s.execute g u i)) (hno : ∀ k ≤ j, ¬(s.execute g u i).staleLoad k) :
    (s.execute g u i).executedSequentially j
      (u.executedAs (noteOf i) (Config.exec u.view (s.sourceValues u)) s.cycle) := by
  obtain ⟨hr, hd, hfit⟩ := h
  have hj := lt_of_program hu
  have hread : s.uop? g = some u := hg ▸ (hr.sound.program_eq_some.mp hu).2
  have hexec := hd.exec_eq hr hu hv fun k hk hst => hno k hk.le (hf.staleLoad (by omega) hst)
  have hnoted := Uop.noted hi (Config.exec u.view (s.sourceValues u)) s.cycle
  have hview : (u.executedAs (noteOf i) (Config.exec u.view (s.sourceValues u)) s.cycle).view =
      u.view := by
    rw [← core_view, core_executedAs, core_view]
  have hcore : (u.executedAs (noteOf i) (Config.exec u.view (s.sourceValues u)) s.cycle).core =
      u.core := core_executedAs i u _ _
  have hprf : ∀ n (d : DstSlot), u.dst[n]? = some (some d) →
      (s.execute g u i).prfOf d.cls d.fresh = _ := fun n d hd => State.prfOf_execute hr hu g i hd
  have hread' : (s.execute g u i).program[j]? =
      some (u.executedAs (noteOf i) (Config.exec u.view (s.sourceValues u)) s.cycle) := by
    have hjc := (hr.sound.program_eq_some.mp hu).1
    have hjt : j < (s.execute g u i).robCount := by rw [execute_eq]; exact hjc
    have hat : (s.execute g u i).robAt j = g := by rw [execute_eq]; exact hg
    refine hst.program_eq_some.mpr ⟨hjt, ?_⟩
    rw [hat, State.uop?_execute hread, if_pos rfl]
  have hex : (u.executedAs (noteOf i) (Config.exec u.view (s.sourceValues u)) s.cycle).executed =
    true := rfl
  generalize u.executedAs (noteOf i) (Config.exec u.view (s.sourceValues u)) s.cycle = v at *
  generalize s.execute g u i = t at *
  rw [hexec] at hprf hnoted
  have harch := hf.archBefore j hj.le
  have hcat : v.cat = u.cat := congrArg OpView.cat hview
  have hdst : v.dst = u.dst := by rw [← core_dst, hcore, core_dst]
  have hds : v.hasDs = u.hasDs := congrArg OpView.hasDs hview
  have hpred : predNext v.hasDs v = predNext u.hasDs u := by
    have : ∀ w : Uop, predNext w.core.hasDs w.core = predNext w.hasDs w := fun _ => rfl
    rw [← this v, hcore, this]
  have hdata : dataOf i.category s (u.view.result (s.archBefore j)) =
      u.view.loaded s.cfg.endian (s.archBefore j) := by
    refine dataOf_eq_loaded hi fun hl =>
      s.loaded_eq hfit hu hl (fun k hk w hw hstore => ?_) s.cfg.endian
    by_contra hover
    obtain ⟨y, z, hy, hz, hset⟩ := hf.entries k (by omega)
    obtain rfl := Option.some.inj (hw.symm.trans hy)
    obtain ⟨haddr, hsize⟩ := hnoted.access (.inl hl)
    refine hno j le_rfl ⟨v, hread', hcat.trans hl, hex, .inr ⟨k, z, hk, hz,
      (congrArg OpView.cat hset.view).trans hstore, ?_⟩⟩
    rw [hset.view, hf.archBefore k (by omega), haddr, hsize]
    simpa using hover
  rw [hdata] at hprf
  obtain ⟨hunm, htransfer, haccess, hdat⟩ := hnoted
  refine ⟨fun n d hd => ?_, ?_, fun hc => ?_, fun hc => ?_, fun hc => ?_⟩
  · rw [hview, harch, hf.cfg]
    exact hprf n d (hdst ▸ hd)
  · rw [hview, harch]; exact hunm
  · rw [hview, harch, hpred]; exact htransfer (hcat ▸ hc)
  · rw [hview, harch]; exact haccess (hcat ▸ hc)
  · rw [hview, harch]; exact hdat (hcat ▸ hc)

/-! ## The data-flow invariants are kept -/

/-- An entry that stays keeps its data flow. -/
theorem Dataflow.flows {p : Phase} {s t : State} (hd : Dataflow s) (hr : Renaming s)
    (hfit : p = .issue → s.accessesFit) (hq : Quiet p s t) {j : Nat} {v : Uop}
    (hj : j < s.program.length) (hv : t.program[j]? = some v) : Flows t j v := by
  have hs := hr.sound
  have hst := hq.sound hs
  have hrt := hr.quiet hq
  have hf := hr.follows hq
  have hjt := lt_of_program hv
  have hu : s.program[j]? = some s.program[j] := List.getElem?_eq_getElem hj
  generalize s.program[j] = u at hu
  obtain ⟨hjs, hread⟩ := hs.program_eq_some.mp hu
  obtain ⟨hjc, hreadt⟩ := hst.program_eq_some.mp hv
  have hat := hq.robAt hs hjs hjc
  obtain ⟨v', hv', hset, hexec⟩ :=
    hq.settles hs (State.robAt_mem hjs) (hat ▸ State.robAt_mem hjc) hread
  obtain rfl : v = v' := Option.some.inj (hreadt.symm.trans (hat ▸ hv'))
  have hold := hd.entries j u hu
  have hcat : v.cat = u.cat := congrArg OpView.cat hset.view
  have hds : v.hasDs = u.hasDs := congrArg OpView.hasDs hset.view
  have hdests : v.dests = u.dests := hset.of_core (f := Uop.dests) fun _ => rfl
  have hsrc : v.sources = u.sources := hset.of_core (f := Uop.sources) fun _ => rfl
  have hsame : ∀ g ∈ s.robList, ∀ w, s.uop? g = some w → ∀ d ∈ u.dests, ∀ e ∈ w.dests,
      e.cls = d.cls ∧ e.fresh = d.fresh → g = s.robAt j ∧ w = u := fun g hg w hw d hd e he hde => by
    obtain ⟨i, hi, rfl⟩ := State.mem_robList hg
    have hw' := hs.program_eq_some.mpr ⟨hi, hw⟩
    obtain rfl := hr.fresh_inj hw' hu he hd hde.1 hde.2
    exact ⟨rfl, Option.some.inj (hw'.symm.trans hu)⟩
  refine ⟨fun h => hcat ▸ hold.delaySlot (hds ▸ h), fun x hx => ?_, fun d hm hval => ?_,
    fun hex => ?_, fun hex hno => ?_⟩
  · rw [hf.cfg, hrt.tagBefore, hf.tags j (by omega), ← hr.tagBefore]
    exact hold.sources x (hsrc ▸ hx)
  · rw [hdests] at hm
    obtain hval | ⟨g, hg, w, w', hw, hw', hc, e, he, hde⟩ :=
      hr.validOf_quiet hq (hr.fresh_busy (s.dests_mem hu hm)) hval
    · exact hset.complete (hold.pending d hm hval)
    · obtain ⟨rfl, rfl⟩ := hsame g hg w hw d hm e he hde
      rwa [Option.some.inj (hv'.symm.trans hw')]
  · have hvalid : s.sourcesValid u = true := by
      obtain he | ⟨-, -, -, hsv, -⟩ := hexec
      · exact hold.ready (he ▸ hex)
      · exact hsv
    refine State.sourcesValid_iff.mpr fun x hx => ?_
    rw [hsrc] at hx
    obtain ⟨-, -, -, hbusy⟩ := hd.source hr hu hx
    exact hr.valid_quiet hq hbusy (State.sourcesValid_iff.mp hvalid x hx)
  · by_cases hue : u.executed = true
    · have hseq := hold.sequential hue fun i hi hst => hno i hi (hf.staleLoad (by omega) hst)
      have hout := hset.outcome hue
      simp only [Uop.outcome, Prod.mk.injEq] at hout
      obtain ⟨-, hunm, hred, hmis, haddr, hsize, hdata, -⟩ := hout
      have hdst : v.dst = u.dst := hset.of_core core_dst
      have hpred : predNext v.hasDs v = predNext u.hasDs u :=
        hset.of_core (f := fun w => predNext w.hasDs w) fun _ => rfl
      have hprf : ∀ n (d : DstSlot), u.dst[n]? = some (some d) →
          t.prfOf d.cls d.fresh = s.prfOf d.cls d.fresh := fun n d hd => by
        refine hq.prfOf hs fun g hg w hw hnot e he hde => ?_
        have hmem : d ∈ u.dests := List.mem_filterMap.mpr ⟨some d, List.mem_of_getElem? hd, rfl⟩
        obtain ⟨-, rfl⟩ := hsame g hg w hw d hmem e he hde
        rw [hue] at hnot
        cases hnot
      obtain ⟨h1, h2, h3, h4, h5⟩ := hseq
      unfold State.executedSequentially
      rw [hf.archBefore j (by omega), hf.cfg, hset.view, hdst, hcat, hunm, hred, hmis, hpred, haddr,
        hsize, hdata]
      exact ⟨fun n d hd => (hprf n d hd).trans (h1 n d hd), h2, h3, h4, h5⟩
    · obtain he | ⟨rfl, i, hi, hsv, rfl, rfl⟩ := hexec
      · rw [he] at hex; exact absurd hex hue
      · have hlen : (s.execute (s.robAt j) u i).program.length = s.program.length := by
          have := congrArg List.length (sameRename_execute hread i).cores
          rwa [List.length_map, List.length_map] at this
        rw [hlen, Nat.min_self] at hf
        exact InOrder.execute ⟨hr, hd, hfit rfl⟩ rfl hu hi hsv hf hst hno

/-- A placed micro-op takes its sources' mappings, and its new registers are not valid yet. -/
theorem Placing.flows {s : State} (hd : Dataflow s) (hr : Renaming s) {h : Handle} {rest : List Handle}
    {u : Uop} {i : Instr} {k : Nat} (hp : Placing s h rest u i k) :
    Flows (s.placed h u i k) s.program.length (s.placedUop u i k) := by
  have hmem : h ∈ s.dq := by rw [hp.dq]; simp
  have hnew := hp.renamed hr
  have hrt := hr.place hp
  have hw := hr.operands h hmem u hp.read
  rw [(Uop.instr_eq_some hp.instr).2, Operands.wellFormed_iff] at hw
  obtain ⟨-, ⟨hsrc, -⟩, -⟩ := hw
  have hmove : Quiet .front s (s.placed h u i k) :=
    .place hp.active hp.dq hp.read hp.instr hp.placement
  have htag := hr.tagMap_quiet hmove le_rfl (by rw [hp.program hr.sound]; simp)
  have hexec : (s.placedUop u i k).executed = false := by
    obtain ⟨w, hw, -, -, hex, -⟩ := hr.sound.decoded h hmem
    obtain rfl := Option.some.inj (hp.read.symm.trans hw)
    exact hex
  refine ⟨hd.decoded h hmem u hp.read, fun x hx => ?_, fun d hd hval => ?_, fun hex => ?_,
    fun hex => ?_⟩
  · have hsources : (s.placedUop u i k).sources = (Operands.present i.operands.src).map
        fun r => ⟨r.cls, r.arch, s.ratOf r.cls r.arch⟩ := by
      show (s.renameSources i.operands.src).filterMap id = _
      rw [State.renameSources, List.filterMap_map, Operands.present, List.map_filterMap]
      rfl
    rw [hsources] at hx
    obtain ⟨r, hr', rfl⟩ := List.mem_map.mp hx
    rw [(Placing.maps h u i k).2.2.2.2, hrt.tagBefore, htag, State.tagMap, List.drop_length]
    exact ⟨hsrc r hr', rfl⟩
  · have hpend := hnew.pending d hd
    unfold State.validOf at hpend hval
    rw [(Placing.maps h u i k).2.2.1, hpend] at hval
    cases hval
  · rw [hexec] at hex; cases hex
  · rw [hexec] at hex; cases hex

theorem Instr.isCti_of_ds {i : Instr} (h : i.ds = true) :
    i.category = .branch ∨ i.category = .jump := by
  cases i with
  | branch => exact .inl rfl
  | jump => exact .inr rfl
  | aluImm | aluReg | load | store | system | fp => cases h

/-- In the decode queue only control transfers have a delay slot (30_encoding.md R89). -/
theorem Dataflow.decoded_quiet {p : Phase} {s t : State} (hd : Dataflow s) (hs : Sound s)
    (hq : Quiet p s t) : ∀ g ∈ t.dq, ∀ v ∈ t.uop? g, v.hasDs = true →
      v.cat = some .branch ∨ v.cat = some .jump := by
  have hrob : t.dq = s.dq → (∀ g, g ∉ s.robList → t.uop? g = s.uop? g) →
      ∀ g ∈ t.dq, ∀ v ∈ t.uop? g, v.hasDs = true → v.cat = some .branch ∨ v.cat = some .jump :=
    fun hdq hread g hg v hv => by
      rw [hdq] at hg
      rw [hread g (hs.fq_not_rob (by simp [hg]))] at hv
      exact hd.decoded g hg v hv
  cases hq with
  | @place s h rest u i j ha hdq hu hi hp =>
    have hpl : Placing s h rest u i j := ⟨ha, hdq, hu, hi, hp⟩
    intro g hg v hv
    have hnd : s.dq.Nodup := (List.nodup_append.mp (List.nodup_append.mp hs.nodup).1).2.1
    rw [hdq, List.nodup_cons] at hnd
    obtain ⟨hnd, -⟩ := hnd
    rw [place_eq] at hg
    have hg : g ∈ rest := by simpa only [hdq, List.tail_cons] using hg
    have hne : g ≠ h := fun e => hnd (e ▸ hg)
    have hread := hpl.readAfter g
    rw [if_neg hne] at hread
    exact hd.decoded g (by rw [hdq]; simp [hg]) v (hread.symm.trans hv)
  | @execute s h u i p _ hp hu _ _ =>
    have hmem := ((hs.stationed p (hs.mem_station hp)).2 h hp).1
    refine hrob (by rw [execute_eq]) fun g hg => ?_
    rw [State.uop?_execute hu, if_neg fun e : g = h => hg (e ▸ hmem)]
  | @complete s h u _ hmem hu _ =>
    refine hrob (by simp) fun g hg => ?_
    rw [completed_uop? hu, if_neg fun e : g = h => hg (e ▸ hmem)]
  | @undo s u _ h0 _ =>
    refine hrob rfl fun g hg => ?_
    rw [State.uop?_undo, if_neg fun e : g = _ => hg (e ▸ State.robAt_mem (by omega))]
  | enter he => intro g hg; rw [he.writes] at hg; cases hg
  | @stamp s h u hu =>
    intro g hg v hv
    rw [State.uop?_setUop] at hv
    split at hv
    · rename_i hgh
      obtain rfl : g = h := hgh.1
      obtain rfl := Option.some.inj hv
      have hview : (s.stampReady u).view = u.view := by
        rw [← core_view, core_stampReady, core_view]
      have := hd.decoded g hg u hu
      rwa [← show (s.stampReady u).hasDs = u.hasDs from congrArg OpView.hasDs hview,
        ← show (s.stampReady u).cat = u.cat from congrArg OpView.cat hview] at this
    · exact hd.decoded g hg v hv
  | @decode s h rest u op i atomic bits _ hfq _ hu hchk =>
    intro g hg v hv hds
    rw [State.uop?_decodeMove hu] at hv
    by_cases hgh : g = h
    · rw [if_pos hgh] at hv
      obtain rfl := Option.some.inj hv
      have hi : i.ds = true := (checkDescriptor_eq_ok.mp hchk).2.1.trans hds
      exact (Instr.isCti_of_ds hi).imp (congrArg some) (congrArg some)
    · rw [if_neg hgh] at hv
      have hg : g ∈ s.dq ++ [h] := hg
      rw [List.mem_append, List.mem_singleton] at hg
      exact hd.decoded g (hg.resolve_right hgh) v hv hds
  | fetch _ pc pending ha hroom =>
    have hpass := hs.fetchPass ha hroom pc pending
    intro g hg v hv
    have hne : g ≠ s.newSlot := by
      rintro rfl
      obtain ⟨y, hy, -⟩ := hs.decoded _ hg
      rw [hpass.free] at hy
      cases hy
    rw [hpass.read, if_neg hne] at hv
    exact hd.decoded g hg v hv
  | resume | raise | rstate | tick => exact hd.decoded

/-- Outside recovery every load of the ROB stands in the load table (20_memory.md R64). -/
theorem Dataflow.loads_quiet {p : Phase} {s t : State} (hd : Dataflow s) (hs : Sound s)
    (hq : Quiet p s t) (hrec : t.recovery = false) : ∀ g ∈ t.robList, ∀ v ∈ t.uop? g,
      v.cat = some .load → g ∈ t.lq := by
  have hstay : t.robList = s.robList → t.lq = s.lq → s.recovery = false →
      ∀ g ∈ t.robList, ∀ v ∈ t.uop? g, v.cat = some .load → g ∈ t.lq :=
    fun hl hlq hr g hg v hv hcat => by
      have hg' := hl ▸ hg
      obtain ⟨u, hu, -⟩ := hs.inRob g hg'
      obtain ⟨w, hw, hset, -⟩ := hq.settles hs hg' hg hu
      obtain rfl := Option.some.inj (hw.symm.trans hv)
      rw [hlq]
      exact hd.loads hr g hg' u hu ((congrArg OpView.cat hset.view).symm.trans hcat)
  cases hq with
  | @place s h rest u i j ha hdq hu hi hp =>
    have hpl : Placing s h rest u i j := ⟨ha, hdq, hu, hi, hp⟩
    intro g hg v hv hcat
    have hlq : (s.placed h u i j).lq = if i.category.lsTable = .loads then s.lq ++ [h] else s.lq := by
      rw [State.placed, place_eq]
    have hg' : g ∈ s.robList ++ [h] := hpl.robList hs ▸ hg
    show g ∈ (s.placed h u i j).lq
    rw [hlq]
    have hread := (hpl.readAfter g).symm.trans hv
    by_cases hgh : g = h
    · rw [if_pos hgh] at hread
      obtain rfl := Option.some.inj hread
      have hload : i.category = .load := Option.some.inj (hpl.category.symm.trans hcat)
      rw [if_pos (by rw [hload]; rfl), hgh]
      simp
    · rw [if_neg hgh] at hread
      have hmem : g ∈ s.robList := by simpa [hgh] using hg'
      have := hd.loads (stageActive_iff.mp ha).2 g hmem v hread hcat
      split <;> simp [this]
  | execute => exact hstay (by rw [execute_eq]; rfl) (by rw [execute_eq]) (by rwa [execute_eq] at hrec)
  | complete => exact hstay (by rw [publishDests_eq]; rfl) (by simp) (by simpa using hrec)
  | undo hr _ _ => exact absurd (hr.symm.trans hrec) (by simp)
  | enter he => rw [he.writes] at hrec; cases hrec
  | @resume s _ h0 =>
    intro g hg
    obtain ⟨i, hi, -⟩ := State.mem_robList hg
    exact absurd hi (by rw [show s.endRecovery.robCount = 0 from h0]; omega)
  | raise | rstate | stamp | decode | fetch | tick => exact hstay rfl rfl hrec

/-- A move keeps the data flow; one that can execute, where no access wraps around. -/
theorem Dataflow.quiet {p : Phase} {s t : State} (hd : Dataflow s) (hr : Renaming s)
    (hfit : p = .issue → s.accessesFit) (hq : Quiet p s t) : Dataflow t := by
  refine ⟨hd.decoded_quiet hr.sound hq, hd.loads_quiet hr.sound hq, fun j v hv => ?_⟩
  by_cases hj : j < s.program.length
  · exact hd.flows hr hfit hq hj hv
  · have hjt := lt_of_program hv
    obtain hsame | ⟨g, rest, u, i, k, hp, rfl⟩ | ⟨u, -, h0, hu, rfl⟩ := hq.rename_cases hr.sound
    · have := congrArg List.length hsame.cores
      rw [List.length_map, List.length_map] at this
      omega
    · rw [hp.program hr.sound, List.length_append, List.length_singleton] at hjt
      obtain rfl : j = s.program.length := by omega
      rw [hp.program hr.sound, List.getElem?_append_right le_rfl, Nat.sub_self] at hv
      obtain rfl := Option.some.inj hv
      exact hp.flows hd hr
    · rw [hr.sound.program_concat h0 hu, List.length_append] at hj
      omega

theorem Dataflow.front {s t : State} (hd : Dataflow s) (hr : Renaming s) (hq : Quiets .front s t) :
    Dataflow t :=
  (hq.keeps (P := fun x => Renaming x ∧ Dataflow x)
    (fun _ _ _ hm ⟨hr, hd⟩ => ⟨hr.quiet hm, hd.quiet hr (fun e => by cases e) hm⟩) hr.sound
    ⟨hr, hd⟩).2.2

/-- Up to the execute stage nothing new comes in, so no access is new. -/
theorem InOrder.issue {s t : State} (h : InOrder s) (hq : Quiet .issue s t) : InOrder t := by
  obtain ⟨hr, hd, hfit⟩ := h
  refine ⟨hr.quiet hq, hd.quiet hr (fun _ => hfit) hq, ?_⟩
  have hf := hr.follows hq
  have hle : t.program.length ≤ s.program.length := by
    rw [(hr.quiet hq).sound.length_program, hr.sound.length_program]
    cases hq with
    | execute => rw [execute_eq]
    | complete => simp
    | enter he => rw [he.writes]
    | undo => exact Nat.sub_le _ _
    | resume | raise | rstate | stamp => exact le_rfl
  rw [Nat.min_eq_right hle] at hf
  exact hf.accessesFit hfit

/-- Settles O58: commits and the moves up to the execute stage keep the data flow, with accesses that
do not wrap around; the moves after it execute nothing. -/
theorem stepKeepsDataflow : Obligations.StepKeepsDataflow := by
  intro s t hok hflow hfit h
  have hr := renameOk_iff.mp hok
  obtain ⟨m, x, hm, hq, hq'⟩ := stepped_of_step hr.sound h
  have hsm := InOrder.retires ⟨hr, dataflowOk_iff.mp hflow, hfit⟩ hm
  obtain ⟨-, hsx⟩ := hq.keeps (P := InOrder) (fun _ _ _ hmove hi => hi.issue hmove) hsm.names.sound hsm
  exact dataflowOk_iff.mpr (hsx.flow.front hsx.names hq')

end Sys2Proof.Machine
end

section
namespace Sys2Proof.Machine

/-! ## What commits is what sequential execution computes (70_reset_and_hazards.md R308)

So it is where the slots of a micro-op that name one register get one result, and above all where each
names its own, as decode sees to (30_encoding.md R89).  The rename and the data-flow invariants do not
say so of the ROB. -/

/-- After results are written, a register holds the result of a slot that names it, or what it held. -/
theorem get2_writeRegs_slot {cfg : Config} {v : Nat → Nat} {q : RegRef} :
    ∀ (fs : List (Option RegRef)) (n : Nat) (regs : List (List Nat)), hasEntry regs q.cls q.arch →
    (∃ m : Nat, fs[m]? = some (some q) ∧
      get2 (writeRegs cfg regs n fs v) q.cls q.arch 0 = v (n + m) % 2 ^ cfg.vw q.cls) ∨
    some q ∉ fs ∧ get2 (writeRegs cfg regs n fs v) q.cls q.arch 0 = get2 regs q.cls q.arch 0
  | [], _, _, _ => .inr ⟨by simp, rfl⟩
  | none :: fs, n, regs, he => by
    refine (get2_writeRegs_slot fs (n + 1) regs he).imp (fun ⟨m, hm, hval⟩ => ⟨m + 1, hm, ?_⟩)
      fun ⟨hno, hval⟩ => ⟨by simpa using hno, hval⟩
    rw [writeRegs, hval, Nat.add_right_comm, Nat.add_assoc]
  | some r :: fs, n, regs, he => by
    have hshape := sameShape_set2 regs r.cls r.arch (v n % 2 ^ cfg.vw r.cls)
    obtain ⟨m, hm, hval⟩ | ⟨hno, hval⟩ :=
      get2_writeRegs_slot fs (n + 1) _ ((hasEntry_of hshape).mpr he)
    · exact .inl ⟨m + 1, hm, by rw [writeRegs, hval, Nat.add_right_comm, Nat.add_assoc]⟩
    · by_cases hqr : q = r
      · subst hqr
        refine .inl ⟨0, rfl, ?_⟩
        rw [writeRegs, hval, get2_set2, if_pos ⟨rfl, rfl, he⟩]
        rfl
      · refine .inr ⟨by simp [hqr, hno], ?_⟩
        rw [writeRegs, hval, get2_set2, if_neg]
        rintro ⟨hc, ha, -⟩
        exact hqr (by cases q; cases r; simp_all)

/-- The slots of a micro-op that name one register get one result, whatever its operands. -/
def SlotsAgree (cfg : Config) (v : OpView) : Prop :=
  ∀ (xs : List Nat) (n m : Nat) (q : RegRef) (x : BitVec 64), v.operands.dst[n]? = some (some q) →
    v.operands.dst[m]? = some (some q) →
    (Config.exec v xs).value n x % 2 ^ cfg.vw q.cls = (Config.exec v xs).value m x % 2 ^ cfg.vw q.cls

/-- The commit record of a head that holds its sequential results is the sequential one. -/
theorem Commit.record {s t : State} {u : Uop} (hr : Renaming s) (h : Commit u s t)
    (hseq : s.executedSequentially 0 u) (hagree : SlotsAgree s.cfg u.view) :
    s.commitRecord u = seqRecord s.cfg s.committed u.view := by
  have hu := h.program_head hr.sound
  obtain ⟨hslots, -, -, hacc, hdata⟩ := hseq
  have hregs : s.commitRegs u = (Operands.present u.view.operands.dst).map fun d =>
      ⟨d.cls, d.arch, get2 (seqStep s.cfg s.committed u.view).regs d.cls d.arch 0⟩ := by
    have hnames : Operands.present u.view.operands.dst = u.dests.map DstSlot.reg :=
      (map_reg_presentSlots u.dst).symm
    rw [hnames, List.map_map, State.commitRegs]
    refine List.map_congr_left fun d hd => ?_
    obtain ⟨o, ho, rfl⟩ := List.mem_filterMap.mp hd
    obtain ⟨n, hn⟩ := List.mem_iff_getElem?.mp ho
    obtain ⟨hin, -⟩ := hr.inRange d (s.dests_mem hu hd)
    obtain ⟨hc, ha⟩ := RegRef.inRange_iff.mp hin
    have hslot : u.view.operands.dst[n]? = some (some d.reg) := by
      show (u.dst.map fun d => d.map DstSlot.reg)[n]? = _
      rw [List.getElem?_map, hn]; rfl
    have hvalue : s.prfOf d.cls d.fresh =
        get2 (seqStep s.cfg s.committed u.view).regs d.cls d.arch 0 := by
      obtain ⟨m, hm, hval⟩ | ⟨hno, -⟩ := get2_writeRegs_slot (cfg := s.cfg) (q := d.reg)
        (v := fun j => (u.view.result s.committed).value j
          (u.view.loaded s.cfg.endian s.committed))
        u.view.operands.dst 0 s.committed.regs (s.committedRegs_hasEntry hc ha)
      · rw [Nat.zero_add] at hval
        exact (hslots n d hn).trans ((hagree _ n m d.reg _ hslot hm).trans hval.symm)
      · exact absurd (List.mem_of_getElem? hslot) hno
    exact congrArg (CommitReg.mk d.cls d.arch) hvalue
  have hstore : (s.commitRecord u).store = (seqRecord s.cfg s.committed u.view).store := by
    show (if u.cat = some .store then some _ else none) = if u.cat = some .store then some _ else none
    by_cases hcat : u.cat = some .store
    · obtain ⟨haddr, hsize⟩ := hacc (.inr hcat)
      rw [if_pos hcat, if_pos hcat, haddr, hsize, hdata hcat]
      rfl
    · rw [if_neg hcat, if_neg hcat]
  calc s.commitRecord u = ⟨u.pc, u.insn, s.commitRegs u, (s.commitRecord u).store⟩ := rfl
    _ = seqRecord s.cfg s.committed u.view := by rw [hregs, hstore]; rfl

theorem seqRecords_append (cfg : Config) : ∀ (vs ws : List OpView) (a : ArchState),
    seqRecords cfg a (vs ++ ws) =
      seqRecords cfg a vs ++ seqRecords cfg (vs.foldl (seqStep cfg) a) ws
  | [], _, _ => rfl
  | v :: vs, ws, a => congrArg (seqRecord cfg a v :: ·) (seqRecords_append cfg vs ws _)

/-- What has committed since `s` is what sequential execution of its `k` oldest micro-ops computes. -/
structure Sequenced (s t : State) (k : Nat) : Prop where
  le : k ≤ s.robCount
  cfg : t.cfg = s.cfg
  views : t.program.map Uop.view = (s.program.map Uop.view).drop k
  retiredCount : t.retiredCount = s.retiredCount + k
  commits : t.commits = s.commits ++ seqRecords s.cfg s.committed ((s.program.take k).map Uop.view)
  committed : t.committed = s.archBefore k

theorem Sequenced.refl (s : State) : Sequenced s s 0 :=
  ⟨Nat.zero_le _, rfl, rfl, rfl, (List.append_nil _).symm, rfl⟩

/-- One more commit. -/
theorem Sequenced.commit {s m t : State} {k : Nat} {u : Uop} (hs : Sound s) (h : Sequenced s m k)
    (hm : InOrder m) (hc : Commit u m t) (hstale : ¬m.staleLoad 0)
    (hagree : ∀ v ∈ s.program, SlotsAgree s.cfg v.view) : Sequenced s t (k + 1) := by
  have hsm := hm.names.sound
  have hu := hc.program_head hsm
  have hseq := (hm.flow.entries 0 u hu).sequential (hc.executed hsm) fun i hi => by
    rw [Nat.le_zero.mp hi]; exact hstale
  have hget : (s.program.map Uop.view)[k]? = some u.view := by
    have := congrArg (fun l : List OpView => l[0]?) h.views
    simpa [hu] using this.symm
  obtain ⟨w, hw, hwu⟩ := List.getElem?_map .. ▸ hget |> Option.map_eq_some_iff.mp
  have hrec := hc.record hm.names hseq (by
    rw [h.cfg, ← hwu]; exact hagree w (List.mem_of_getElem? hw))
  have htake : ((s.program.take (k + 1)).map Uop.view) =
      (s.program.take k).map Uop.view ++ [u.view] := by
    rw [List.take_add_one, hw, List.map_append, ← hwu]; rfl
  refine ⟨?_, hc.cfg.trans h.cfg, ?_, ?_, ?_, ?_⟩
  · have := lt_of_program hw
    rw [hs.length_program] at this
    omega
  · have hcores : m.program.map Uop.core = (u :: t.program).map Uop.core := hc.cores hsm
    have hcons := map_of_cores hcores core_view
    rw [h.views] at hcons
    have := congrArg List.tail hcons
    rw [List.tail_drop] at this
    exact this.symm
  · rw [hc.retiredCount, h.retiredCount]; rfl
  · rw [hc.commits, h.commits, hrec, htake, seqRecords_append, List.append_assoc, h.cfg, h.committed]
    rfl
  · rw [hc.committed hm.names hseq, m.archBefore_succ hu, m.archBefore_zero, h.committed, h.cfg,
      s.archBefore_succ hw, hwu]

/-- A step from a ROB whose micro-ops' slots agree commits what sequential execution computes. -/
theorem InOrder.sequenced {s t : State} (h : InOrder s)
    (hagree : ∀ u ∈ s.program, SlotsAgree s.cfg u.view) (hstep : step s = .next t) :
    ∃ k ≤ s.robCount, t.retiredCount = s.retiredCount + k ∧
      t.commits = s.commits ++ seqRecords s.cfg s.committed ((s.program.take k).map Uop.view) ∧
      t.committed = s.archBefore k := by
  have hs := h.names.sound
  obtain ⟨m, x, hm, hq, hq'⟩ := stepped_of_step hs hstep
  obtain ⟨hsm, k, hk⟩ := h.retires_keep (P := fun m => ∃ k, Sequenced s m k)
    (fun _ _ _ hm hc hst ⟨k, hk⟩ => ⟨k + 1, hk.commit hs hm hc hst hagree⟩) hm ⟨0, .refl s⟩
  have hsil := hq.silent.trans hq'.silent
  have hcom := ((hsm.names.quiets hq).committed_quiets hq').trans (hsm.names.committed_quiets hq)
  exact ⟨k, hk.le, hsil.retiredCount.trans hk.retiredCount, hsil.commits.trans hk.commits,
    hcom.trans hk.committed⟩

/-- Slots that name distinct registers agree. -/
theorem slotsAgree_of_nodup {cfg : Config} {v : OpView}
    (h : (Operands.present v.operands.dst).Nodup) : SlotsAgree cfg v := by
  intro xs n m q x hn hm
  rw [Operands.present, List.Nodup, List.pairwise_filterMap, List.pairwise_iff_getElem] at h
  obtain ⟨hnl, hn⟩ := List.getElem?_eq_some_iff.mp hn
  obtain ⟨hml, hm⟩ := List.getElem?_eq_some_iff.mp hm
  rcases Nat.lt_trichotomy n m with hlt | rfl | hgt
  · exact absurd rfl (h n m hnl hml hlt q hn q hm)
  · rfl
  · exact absurd rfl (h m n hml hnl hgt q hm q hn)

/-- O60 for a ROB whose micro-ops name each destination once. -/
theorem commits_sequential_of_nodup {s t : State} (hok : s.renameOk) (hflow : s.dataflowOk)
    (hfit : s.accessesFit)
    (hdist : ∀ u ∈ s.program, (Operands.present u.operands.dst).Nodup) (h : step s = .next t) :
    ∃ k ≤ s.robCount, t.retiredCount = s.retiredCount + k ∧
      t.commits = s.commits ++ seqRecords s.cfg s.committed ((s.program.take k).map Uop.view) ∧
      t.committed = s.archBefore k :=
  InOrder.sequenced ⟨renameOk_iff.mp hok, dataflowOk_iff.mp hflow, hfit⟩
    (fun u hu => slotsAgree_of_nodup (hdist u hu)) h

/-! ### O60 as it stands depends on `Config.exec`, of which nothing is known

It holds if slots that name one register always get one result, and fails if `Exec` gives the two slots
of the micro-op below two results. -/

theorem commitsAreSequential_of_slotsAgree (h : ∀ cfg v, SlotsAgree cfg v) :
    Obligations.CommitsAreSequential := fun _ _ hok hflow hfit hstep =>
  InOrder.sequenced ⟨renameOk_iff.mp hok, dataflowOk_iff.mp hflow, hfit⟩ (fun _ _ => h _ _) hstep

/-- One class of four registers, with no wired zero. -/
def twiceCfg : Config :=
  { Config.atReset with classes := [⟨4, 8, none, 32⟩], maxSrc := 1, maxDst := 2, robN := 4 }

/-- A complete micro-op with two slots that name register 2: `new p4, prev p2`, `new p5, prev p4`. -/
def twiceUop : Uop :=
  { Uop.fetched 0x100 0 false ⟨false, 0⟩ 0 with
    cat := some .aluReg, src := [none], dst := [some ⟨0, 2, 4, 2⟩, some ⟨0, 2, 5, 4⟩]
    executed := true, complete := true, tComplete := some 8, state := .complete }

/-- What `Exec` returns for it. -/
def twiceResult : ExecResult := Config.exec twiceUop.view []

/-- It is about to commit, with these values in `p4` and `p5`. -/
def twiceAs (v w : Nat) : State :=
  { State.resetWith twiceCfg LoaderImage.empty with
    cycle := 10
    rat := [[0, 1, 5, 3]]
    prf := [[0, 0, 0, 0, v, w, 0, 0]]
    free := [[false, false, false, false, false, false, true, true]]
    valid := [[true, true, true, true, true, true, false, false]]
    arena := some twiceUop :: List.replicate (twiceCfg.arenaN - 1) none
    robTail := 1
    robCount := 1
    seqNext := 1 }

/-- The values are what `Exec` returns. -/
def twice : State := twiceAs (twiceResult.value 0 0 % 2 ^ 32) (twiceResult.value 1 0 % 2 ^ 32)

theorem twice_renameOk : twice.renameOk := by
  refine ⟨⟨by decide, by decide, by decide, ⟨by decide, by decide, by decide, by decide, by decide,
    by decide, by decide, by decide⟩, by decide, by decide, rfl⟩, by decide, by decide,
    ⟨rfl, rfl, trivial⟩, by decide, by decide⟩

/-- The record of its commit: one value for each slot. -/
def twiceRecord (v w : Nat) : CommitRecord :=
  ⟨twiceUop.pc, twiceUop.insn, [⟨0, 2, v⟩, ⟨0, 2, w⟩], none⟩

theorem twiceAs_commits (v w : Nat) :
    ∃ t, step (twiceAs v w) = .next t ∧ t.commits = [twiceRecord v w] := by
  have hrun : ∃ x, step (twiceAs v w) = .next (clockAdvance (fetchStage x)) ∧
      x.commits = [twiceRecord v w] := ⟨_, rfl, rfl⟩
  obtain ⟨x, hstep, hx⟩ := hrun
  have hquiet : Quiets .front x _ := (fetchStage_moves x).trans (clockAdvance_moves _)
  exact ⟨_, hstep, hquiet.silent.commits.trans hx⟩

theorem twice_program {j : Nat} {u : Uop} (h : twice.program[j]? = some u) : j = 0 ∧ u = twiceUop := by
  have hprog : twice.program = [twiceUop] := rfl
  rw [hprog] at h
  cases j with
  | zero => exact ⟨rfl, (Option.some.inj h).symm⟩
  | succ j => cases h

theorem twice_dataflowOk (hmod : twiceResult.unmodelled = false) : twice.dataflowOk := by
  refine ⟨by decide, by decide, fun j u h => ?_⟩
  obtain ⟨rfl, rfl⟩ := twice_program h
  refine ⟨by decide, by decide, by decide, by decide, fun _ _ => ⟨fun n d h => ?_, hmod.symm,
    fun h => absurd h (by decide), fun h => absurd h (by decide), fun h => absurd h (by decide)⟩⟩
  match n, h with
  | 0, h => cases h; rfl
  | 1, h => cases h; rfl

theorem twice_accessesFit : twice.accessesFit := by
  intro j u h hcat
  obtain ⟨rfl, rfl⟩ := twice_program h
  exact absurd hcat (by decide)

/-- Whatever committed state sequential execution starts from, its record names one value for the
register. -/
theorem seqRecord_twice (a : ArchState) : ∃ x,
    (seqRecord twiceCfg a twiceUop.view).regs = [⟨0, 2, x⟩, ⟨0, 2, x⟩] := ⟨_, rfl⟩

/-- Where `Exec` gives the two slots two results, `twice` refutes O60. -/
theorem not_commitsAreSequential_of_twice (hmod : twiceResult.unmodelled = false)
    (hne : twiceResult.value 0 0 % 2 ^ 32 ≠ twiceResult.value 1 0 % 2 ^ 32) :
    ¬Obligations.CommitsAreSequential := by
  intro h
  obtain ⟨t, hstep, hcommits⟩ := twiceAs_commits (twiceResult.value 0 0 % 2 ^ 32)
    (twiceResult.value 1 0 % 2 ^ 32)
  obtain ⟨k, hk, -, hseq, -⟩ := h twice t twice_renameOk (twice_dataflowOk hmod) twice_accessesFit hstep
  rw [hcommits] at hseq
  have hk : k ≤ 1 := hk
  obtain rfl | rfl : k = 0 ∨ k = 1 := by omega
  · cases hseq
  · have hrec : twiceRecord _ _ = seqRecord twiceCfg twice.committed twiceUop.view :=
      (List.cons.inj hseq).1
    obtain ⟨x, hx⟩ := seqRecord_twice twice.committed
    rw [← hrec] at hx
    obtain ⟨h1, h2⟩ := List.cons.inj hx
    exact hne ((CommitReg.mk.inj h1).2.2.trans (CommitReg.mk.inj (List.cons.inj h2).1).2.2.symm)

end Sys2Proof.Machine
end
